-- ==== Sys2Proof/Word.lean ====
section
/-! DEFINITION. The plain words of the MF4160: bytes, slices of data, the header and message that
cross a link, and the sparse tables in which the part's records are kept. -/

namespace Sys2Proof

/-- One byte of a message or of a staging frame. -/
abbrev Byte := BitVec 8

/-- The data of one slice: 4,096 bytes (Table 0-4). A payload of a message and the content of a frame. -/
abbrev Slice := List Byte

/-- A 40-bit opaque value: a physical handle or a source location (R52, R124, Table 9-10). -/
abbrev Opaque40 := BitVec 40

/-- A lane set: bit i stands for global lane i (Table 9-10). -/
abbrev LaneSet := BitVec 32

/-- Records kept by number. A number that is not listed holds the record's value after the full
reset (or no record, where the spec calls the number FREE or VACANT). In canonical form the numbers
are strictly rising and no listed record equals the value of an unlisted one. -/
abbrev Table (α : Type) := List (Nat × α)

/-- A message as it arrives on a link (R161, Table 9-5): the five header fields, the body bytes and
the 4,096-byte payloads. LIF keeps it as it came; the owner reads the body when it takes it. -/
structure Message where
  /-- Kind code, header byte 0. -/
  kind : Nat
  /-- Payload count, header byte 1. -/
  payloadCount : Nat
  /-- Tag, header bytes 2 and 3. -/
  tag : Nat
  /-- Body length in bytes, header bytes 4 and 5. -/
  bodyLength : Nat
  /-- Link sequence, header bytes 6 and 7. -/
  linkSeq : Nat
  body : List Byte
  payloads : List Slice
  deriving DecidableEq, Repr

/-- How one read of a frame's stored data ends (R73): the DRAM's part in a Read Probe or a Fetch. -/
inductive ReadResult where
  | clean
  | corrected
  | uncorrectable
  deriving DecidableEq, Repr

end Sys2Proof
end

