-- ==== Sys2Proof/Syntax.lean ====
section
/-! DEFINITION. The commands of the MF4160: one constructor for each row of spec/opcode_table.json.

A command is one event of the part (95_what_each_step_holds.md: each step is whole and indivisible).
A row that stands for the taking of a message names only the link, because the fields of the message
are those of the message at the head of the channel that LIF takes from (R163); link 5 has one
channel, so a management row has no operand. The result of each DRAM read that a Read Probe or a
Fetch makes is the DRAM's own choice (R73) and is an operand of the row. -/

namespace Sys2Proof

inductive Instr where
  /-- Assertion of RESET_N, or power-on (R172). -/
  | fullReset
  /-- Release of RESET_N; `pfail` is the level of PFAIL_N at the release (R156, R173). -/
  | resetNRelease (pfail : Bool)
  /-- The start-up scrub completes (R78). -/
  | scrubComplete
  /-- PFAIL_N goes to its asserted level (R156). -/
  | pfailNAssertion
  /-- The partner's link-up order on a link 0..5 (R160). -/
  | linkUp (link : Nat)
  /-- The partner's link-reset order, or loss of signal, on a link 0..5 (R167, R168). -/
  | linkReset (link : Nat)
  /-- A message arrives on a link 0..5 (R161). -/
  | messageArrival (link : Nat) (m : Message)
  /-- The partner receives the message at the head of a link's outbound queue (R164). -/
  | messageSent (link : Nat)
  /-- The report entry at the head of link 0's outbound queue leaves (R139). -/
  | placementReportDelivery
  /-- The Write Intent at the head of link 0's INTENT or a drain link's RECLAIM channel is taken (R27). -/
  | writeIntent (link : Nat)
  /-- The Write Intent stalled at the head of that channel is taken again (R40). -/
  | stalledIntentRetake (link : Nat)
  /-- The Withdraw at the head of link 0's INTENT or a drain link's RECLAIM channel is taken (R38). -/
  | withdraw (link : Nat)
  /-- Grant `grant` reaches its lapse time (R37). -/
  | grantLapse (grant : Nat)
  /-- The Write Data at the head of a link's DATA channel is taken (R35). -/
  | writeData (link : Nat)
  /-- The Read Probe at the head of link 0's READ channel is taken; the results of its frame reads, in
  the order of the reads (R70, R73). -/
  | readProbe (reads : List ReadResult)
  /-- The Inquire at the head of a drain link's CONTROL channel is taken (R72). -/
  | inquire (link : Nat)
  /-- The Report Fetch at the head of link 0's READ channel is taken (R138). -/
  | reportFetch
  /-- The Flush at the head of link 0's INTENT channel is taken (R148). -/
  | flush
  /-- The Flush stalled at the head of link 0's INTENT channel is taken again (R150). -/
  | stalledFlushRetake
  /-- The deadline of an OPEN unit is reached (R92). -/
  | deadlineExpiry (unit : Nat)
  /-- A slot period ends: the wheel visits the next slot (R104). -/
  | slotVisit
  /-- The outstanding offer of a global lane reaches its lapse point at a slot visit (R105, R111). -/
  | offerLapse (lane : Nat)
  /-- The Accept at the head of a drain link's CONTROL channel is taken (R109). -/
  | accept (link : Nat)
  /-- The Decline at the head of a drain link's CONTROL channel is taken (R110). -/
  | decline (link : Nat)
  /-- The Lane Ready at the head of a drain link's CONTROL channel is taken (R113). -/
  | laneReady (link : Nat)
  /-- The Lane Quit at the head of a drain link's CONTROL channel is taken (R114). -/
  | laneQuit (link : Nat)
  /-- The Fetch at the head of a drain link's CONTROL channel is taken; the results of its frame reads
  (R120, R122, R73). -/
  | fetch (link : Nat) (reads : List ReadResult)
  /-- The Unit Done at the head of a drain link's CONTROL channel is taken (R125). -/
  | unitDone (link : Nat)
  /-- The Unit Fail at the head of a drain link's CONTROL channel is taken (R127). -/
  | unitFail (link : Nat)
  /-- The Management Request of this kind at the head of link 5's MGMT channel is taken (R177). -/
  | start
  | stop
  | configure
  | ruleSet
  | reclaimMapSet
  | tenantSet
  | reclaimAccountSet
  | tenantFreeze
  | tenantThaw
  | streamBind
  | streamSet
  | streamPause
  | streamResume
  | streamRetire
  | unitClose
  | slotSet
  | laneBlock
  | laneUnblock
  | unitRestage
  | unitDiscard
  | inspect
  | eventFetch
  | eventClear
  | eventMask
  /-- A Management Request whose kind names no kind of Table 10-2 is taken (R177). -/
  | unknownRequestKind
  deriving DecidableEq, Repr

end Sys2Proof
end

