-- ==== Sys2Proof/Decode.lean ====
section
/-! DEFINITION. The table words of commands. No row of spec/opcode_table.json gives a word or bits: the
part has no encoded commands, so no word spells one. -/

namespace Sys2Proof

/-- The command that a table word of `nbits` bits spells: none, since no row gives bits. -/
def decodeTableWord (_nbits _w : Nat) : Option Instr := none

end Sys2Proof
end

