-- ==== Sys2Proof/Config.lean ====
section
/-! DEFINITION. The sizes and limits the manual fixes for the MF4160, and the values it leaves
free. -/

namespace Sys2Proof.Config

/-- Frames of the staging store (R52). -/
def frameCount : Nat := 65536
/-- Bytes of a slice (Table 0-4). -/
def sliceBytes : Nat := 4096
/-- Sets of the overlay index (R56). -/
def setCount : Nat := 4096
/-- Ways of each set (R56). -/
def wayCount : Nat := 16
/-- Grants (R34). -/
def grantCount : Nat := 128
/-- Entries the pending list can hold (R39). -/
def pendingLimit : Nat := 64
/-- Accounts 0..256 (R23). -/
def accountCount : Nat := 257
/-- The reclaim account (R1, R23). -/
def reclaimAccount : Nat := 256
/-- Tenants (R15). -/
def tenantCount : Nat := 256
/-- Classification rules (R4). -/
def ruleCount : Nat := 32
/-- Entries of the refusal capture (R20). -/
def captureLimit : Nat := 8
/-- Placement streams (R81). -/
def streamCount : Nat := 64
/-- Unit records of each stream's ring (R87). -/
def ringSize : Nat := 64
/-- Unit records in all (R87). -/
def unitCount : Nat := 4096
/-- Slots of the dispatch wheel (R103). -/
def slotCount : Nat := 32
/-- Lanes (Table 5-1). -/
def laneCount : Nat := 32
/-- Consecutive lapses that take a lane DOWN (R112). -/
def lapseLimit : Nat := 8
/-- Failed attempts that fault a unit (R129). -/
def attemptLimit : Nat := 4
/-- Flush entries (R147). -/
def flushCount : Nat := 16
/-- Requester tags one flush entry can hold (R147). -/
def flushTagLimit : Nat := 4
/-- Places of a link's outbound queue (R164). -/
def outboundDepth : Nat := 64
/-- LBAs lie below this bound (Table 0-4). -/
def lbaLimit : Nat := 2 ^ 40
/-- Largest namespace handle (Table 0-4). -/
def maxHandle : Nat := 1023
/-- Where the 32-bit saturating counts stop (R4, R20, R73, R108, R169, R179). -/
def maxCount32 : Nat := 2 ^ 32 - 1
/-- The modulus of the staged sequence counter (R93). -/
def stagedModulus : Nat := 2 ^ 32
/-- The modulus of a link sequence (R161). -/
def linkSeqModulus : Nat := 65536
/-- The bound of the start-up scrub, 3 ms in µs (R78). -/
def scrubBound : Nat := 3000

/-- FREE VALUE (log entry 4). Which of several timed events due at one reading of the timebase is
taken first: R92, R105 and section 3.2 of the scope file give no order between them. -/
opaque dueChoice : Nat → Nat

/-- FREE VALUE (log entry 5). Whether the start-up scrub completes at this idle step: R78 lets it
complete at any time within 3 ms of the release. -/
opaque scrubDone : Nat → Bool

/-- FREE VALUE (log entry 5). How many more frames the start-up scrub writes in this microsecond: R78 gives
their order and the bound of the whole, not their pace. -/
opaque scrubStride : Nat → Nat

end Sys2Proof.Config
end

