-- ==== Sys2Proof/Machine/State.lean ====
section
/-! DEFINITION. The state of the MF4160 as plain data: every record the manual gives its eleven
blocks, the messages that wait on its links, its board lines and its timebase; and that state right
after the full reset. Counts the manual defines as "the number of" other records (occupied ways, HELD
frames, records of a ring not VACANT, the staged queue) are computed from those records (log entry 9). -/

namespace Sys2Proof.Machine

/-! ### Names -/

/-- The part states (Table 10-1). -/
inductive PartState where
  | starting
  | stopped
  | running
  | powerFail
  deriving DecidableEq, Repr

/-- HOST for writes from the front-end, RECLAIM for relocation writes from a drain (Table 0-4). -/
inductive WriteClass where
  | host
  | reclaim
  deriving DecidableEq, Repr

/-- The inbound channels (Table 9-1). -/
inductive Channel where
  | intent
  | data
  | read
  | control
  | reclaim
  | mgmt
  deriving DecidableEq, Repr

/-- Refusal codes for Write Intents, in the order of Table 1-5. -/
inductive RefusalCode where
  | notRunning
  | powerFail
  | malformed
  | duplicateTag
  | protectedRange
  | noStream
  | exceedsCap
  deriving DecidableEq, Repr

/-- Why a Write Data is refused (R35). -/
inductive DataCode where
  | late
  | mismatch
  deriving DecidableEq, Repr

/-- Why a drain's control message or Fetch is refused (R118, R120). -/
inductive ControlCode where
  | malformed
  | stale
  deriving DecidableEq, Repr

/-- Codes of a Management Answer, in the order R177 lists them after ACCEPTED. -/
inductive MgmtCode where
  | accepted
  | badState
  | badField
  | busy
  | limit
  | notReady
  deriving DecidableEq, Repr

/-- Why LIF refuses an arriving message (R161). -/
inductive LinkCode where
  | unknownKind
  | badLength
  | overrun
  deriving DecidableEq, Repr

/-- The twelve event flags, in the order of Table 10-4. -/
inductive Event where
  | laneDown
  | offerLapse
  | unitFault
  | grantLapse
  | protectRefusal
  | fallback
  | pressureClose
  | setRelief
  | storeError
  | flushFault
  | powerFail
  | safe
  deriving DecidableEq, Repr

/-! ### Classification (chapter 1) -/

/-- What a classification rule does with an intent it matches (section 1.2). -/
inductive RuleAction where
  | stream (s : Nat)
  | protect
  | pass
  deriving DecidableEq, Repr

/-- A classification rule (Table 1-2); `none` is ANY. -/
structure Rule where
  enabled : Bool
  tenantLow : Nat
  tenantHigh : Nat
  handle : Option Nat
  lbaLow : Nat
  lbaHigh : Nat
  hint : Option Nat
  action : RuleAction
  hits : Nat
  deriving DecidableEq, Repr

/-- A rule after the full reset (Table 1-2). -/
def Rule.reset : Rule :=
  { enabled := false, tenantLow := 0, tenantHigh := 255, handle := none, lbaLow := 0,
    lbaHigh := Config.lbaLimit - 1, hint := none, action := .pass, hits := 0 }

/-- A tenant's run tracker (section 1.3.1). -/
structure RunTracker where
  handle : Option Nat
  nextLba : Nat
  runLength : Nat
  deriving DecidableEq, Repr

/-- The run tracker after the full reset. -/
def RunTracker.reset : RunTracker := { handle := none, nextLba := 0, runLength := 0 }

/-- A tenant record (Table 1-4). -/
structure Tenant where
  defaultStream : Nat
  seqStream : Option Nat
  /-- Eight entries, one for each hint 0..7. -/
  hintMap : List (Option Nat)
  tracker : RunTracker
  deriving DecidableEq, Repr

/-- A tenant record after the full reset (Table 1-4). -/
def Tenant.reset : Tenant :=
  { defaultStream := 0, seqStream := none,
    hintMap := [none, none, none, none, none, none, none, none], tracker := RunTracker.reset }

/-- A key: namespace handle and LBA (Table 0-4). In a refusal capture both are as carried. -/
structure Key where
  handle : Nat
  lba : Nat
  deriving DecidableEq, Repr

/-- A refusal capture entry (Table 1-6); `tenant` is `none` for RECLAIM, `rule` is present only for
PROTECTED. -/
structure Capture where
  link : Nat
  tag : Nat
  tenant : Option Nat
  key : Key
  count : Nat
  reason : RefusalCode
  rule : Option Nat
  deriving DecidableEq, Repr

/-! ### Admission (chapter 2) -/

/-- An account (Table 2-1). -/
structure Account where
  reserve : Nat
  cap : Nat
  used : Nat
  frozen : Bool
  heldCount : Nat
  deriving DecidableEq, Repr

/-- An account after the full reset (Table 2-1). -/
def Account.reset : Account :=
  { reserve := 0, cap := Config.frameCount, used := 0, frozen := false, heldCount := 0 }

/-- A LIVE grant (Table 2-5). A VACANT grant is not listed: its other fields are empty (R34). -/
structure Grant where
  link : Nat
  tag : Nat
  account : Nat
  stream : Nat
  /-- The key of the first slice. -/
  key : Key
  n : Nat
  /-- One (set, c_x) pair for each distinct set of the intent's keys (R32). -/
  sets : List (Nat × Nat)
  /-- Unit records reserved, k (R31). -/
  k : Nat
  /-- Timebase reading at which the grant lapses (R32). -/
  lapse : Nat
  deriving DecidableEq, Repr

/-- A reasons set of a held intent (R28 to R31). -/
structure Reasons where
  order : Bool
  frozen : Bool
  cap : Bool
  frames : Bool
  ways : Bool
  units : Bool
  grants : Bool
  deriving DecidableEq, Repr

/-- The empty reasons set. -/
def Reasons.none : Reasons :=
  { order := false, frozen := false, cap := false, frames := false, ways := false, units := false,
    grants := false }

/-- An entry of the pending list (R39). -/
structure Entry where
  link : Nat
  tag : Nat
  account : Nat
  cls : WriteClass
  key : Key
  n : Nat
  stream : Nat
  reasons : Reasons
  relief : Option Nat
  deriving DecidableEq, Repr

/-! ### Store and index (chapter 3) -/

/-- The slice record of a HELD frame (Table 3-1). -/
structure SliceRecord where
  key : Key
  account : Nat
  cls : WriteClass
  firstSeq : Nat
  latestSeq : Nat
  unit : Nat
  position : Nat
  void : Bool
  damaged : Bool
  source : Option Opaque40
  deriving DecidableEq, Repr

/-- A HELD frame: its slice record, its data, and whether a correctable error has been found in its
stored copy, which stays there until the next fill (R73). A FREE frame is not listed. -/
structure Frame where
  record : SliceRecord
  data : Slice
  latent : Bool
  deriving DecidableEq, Repr

/-- What the stacked DRAM holds in a frame once it has been written with a matching check code: the bytes,
and whether a correctable error has since been found in them (R73). -/
structure Stored where
  data : Slice
  latent : Bool
  deriving DecidableEq, Repr

/-- An OCCUPIED way (R56). -/
structure Way where
  key : Key
  frame : Nat
  deriving DecidableEq, Repr

/-- A set of the overlay index (R56): its OCCUPIED ways by way number, and its reserved count. -/
structure IndexSet where
  ways : Table Way
  reserved : Nat
  deriving DecidableEq, Repr

/-- A set after the full reset (R56). -/
def IndexSet.reset : IndexSet := { ways := [], reserved := 0 }

/-! ### Streams and units (chapter 4) -/

inductive StreamState where
  | unbound
  | active
  | paused
  | retiring
  deriving DecidableEq, Repr

inductive Policy where
  | full
  | adaptive
  deriving DecidableEq, Repr

inductive WindowMode where
  | fixed
  | sliding
  deriving DecidableEq, Repr

/-- A stream context (Table 4-1). -/
structure Stream where
  state : StreamState
  cls : WriteClass
  policy : Policy
  mode : WindowMode
  /-- Window W in units of 10 µs; 0 means no window. -/
  window : Nat
  /-- Hold limit H in ms. -/
  hold : Nat
  lanes : LaneSet
  openUnit : Option Nat
  cursor : Nat
  reserved : Nat
  slicesPlaced : Nat
  padSlices : Nat
  unitsCompleted : Nat
  inPlaceHits : Nat
  deriving DecidableEq, Repr

/-- A stream context after the full reset (Table 4-1). -/
def Stream.reset : Stream :=
  { state := .unbound, cls := .host, policy := .full, mode := .sliding, window := 50, hold := 5,
    lanes := 0xFFFFFFFF#32, openUnit := none, cursor := 0, reserved := 0, slicesPlaced := 0,
    padSlices := 0, unitsCompleted := 0, inPlaceHits := 0 }

/-- The states of a unit record other than VACANT (Table 4-3). -/
inductive UnitState where
  | opened
  | staged
  | offered
  | inFlight
  | releasing
  | faulted
  deriving DecidableEq, Repr

/-- The ten close causes, in the order of Table 4-4. -/
inductive CloseCause where
  | full
  | window
  | hold
  | adaptive
  | flush
  | pressure
  | relief
  | retire
  | manual
  | powerFail
  deriving DecidableEq, Repr

inductive DeadlineKind where
  | window
  | hold
  deriving DecidableEq, Repr

/-- A stored deadline and its kind (R91). -/
structure Deadline where
  time : Nat
  kind : DeadlineKind
  deriving DecidableEq, Repr

/-- A unit record that is not VACANT (Table 4-3). The frames stand at positions 0 .. fill − 1 and every
later position below U is PAD (R88), so the slice list is the list of the frames. -/
structure UnitRecord where
  state : UnitState
  frames : List Nat
  firstArrival : Nat
  lastArrival : Nat
  deadline : Option Deadline
  cause : Option CloseCause
  stagedSeq : Option Nat
  /-- Global lane number. -/
  lane : Option Nat
  attempts : Nat
  restarted : Bool
  handle : Option Opaque40
  discard : Bool
  deriving DecidableEq, Repr

/-! ### Wheel, lanes and transfer (chapters 5 and 6) -/

/-- A slot record of the wheel (R103). -/
structure Slot where
  enabled : Bool
  link : Nat
  lane : Nat
  deriving DecidableEq, Repr

/-- Slot i after the full reset: it is enabled and names global lane i (R103). -/
def Slot.reset (i : Nat) : Slot := { enabled := true, link := 1 + i / 8, lane := i % 8 }

inductive LaneState where
  | absent
  | up
  | down
  | blocked
  deriving DecidableEq, Repr

/-- An outstanding offer: the unit and the offering slot (Table 5-1). -/
structure LaneOffer where
  unit : Nat
  slot : Nat
  deriving DecidableEq, Repr

/-- A lane record (Table 5-1). -/
structure Lane where
  state : LaneState
  offer : Option LaneOffer
  inFlight : Nat
  lapses : Nat
  totalOffers : Nat
  totalLapses : Nat
  totalDeclines : Nat
  deriving DecidableEq, Repr

/-- A lane record after the full reset (Table 5-1). -/
def Lane.reset : Lane :=
  { state := .absent, offer := none, inFlight := 0, lapses := 0, totalOffers := 0, totalLapses := 0,
    totalDeclines := 0 }

inductive FetchOrder where
  | linear
  | paired
  deriving DecidableEq, Repr

/-- The transfer settings of a drain link (R119). -/
structure DrainConfig where
  depth : Nat
  order : FetchOrder
  deriving DecidableEq, Repr

/-- The transfer settings after the full reset (R119). -/
def DrainConfig.reset : DrainConfig := { depth := 2, order := .linear }

/-! ### Reports and flushes (chapters 7 and 8) -/

/-- A unit of the report queue with its issued mark (R137). -/
structure ReportItem where
  unit : Nat
  issued : Bool
  deriving DecidableEq, Repr

/-- The scope of a flush (R147). -/
inductive Scope where
  | tenant (t : Nat)
  | all
  deriving DecidableEq, Repr

/-- An ACTIVE flush entry (Table 8-1); its activation order is its place in `State.flushOrder`. A
VACANT entry is not listed. -/
structure FlushEntry where
  scope : Scope
  horizon : Nat
  count : Nat
  tags : List Nat
  deriving DecidableEq, Repr

/-! ### Management (chapter 10) -/

/-- The global configuration held by MGU (Table 10-3). -/
structure GlobalConfig where
  unitSize : Nat
  slotPeriod : Nat
  grantLifetime : Nat
  seqThreshold : Nat
  pressureThreshold : Nat
  deriving DecidableEq, Repr

/-- The global configuration after the full reset (Table 10-3). -/
def GlobalConfig.reset : GlobalConfig :=
  { unitSize := 16, slotPeriod := 8, grantLifetime := 100, seqThreshold := 256,
    pressureThreshold := 4096 }

/-- One event flag with its mask and its set count (section 10.5). -/
structure EventRecord where
  flag : Bool
  masked : Bool
  count : Nat
  deriving DecidableEq, Repr

/-- An event record after the full reset (R179). -/
def EventRecord.reset : EventRecord := { flag := false, masked := false, count := 0 }

/-! ### Messages the part sends (Table 9-4) -/

/-- What became of one slice of a Write Data, with the sequence of its fill (Table 3-3, R67). -/
inductive Placed where
  | placed (seq : Nat)
  | overwritten (seq : Nat)
  | superseded
  deriving DecidableEq, Repr

/-- A status of a Probe Answer (R70). -/
inductive ProbeStatus where
  | hit
  | miss
  | damaged
  deriving DecidableEq, Repr

/-- A mark of Fetch Data (R122). -/
inductive FetchMark where
  | data
  | pad
  | damaged
  deriving DecidableEq, Repr

/-- One entry of Fetch Data (R122). -/
structure FetchEntry where
  position : Nat
  mark : FetchMark
  bytes : Slice
  deriving DecidableEq, Repr

/-- The status of a report entry (Table 7-1), in the code order of Table 9-8. -/
inductive ReportStatus where
  | current
  | void
  | damaged
  | discarded
  deriving DecidableEq, Repr

/-- The header of a Placement Report (R140), less the tag. -/
structure ReportHeader where
  unit : Nat
  stream : Nat
  /-- Global lane number, absent for a discarded unit. -/
  lane : Option Nat
  handle : Option Opaque40
  cause : Option CloseCause
  attempts : Nat
  restarted : Bool
  unitSize : Nat
  padCount : Nat
  deriving DecidableEq, Repr

/-- One entry of a Placement Report (R141). -/
structure ReportSlice where
  position : Nat
  status : ReportStatus
  cls : WriteClass
  account : Nat
  key : Key
  latestSeq : Nat
  source : Option Opaque40
  deriving DecidableEq, Repr

/-- What Inspect returns for each target of R178. -/
inductive InspectResult where
  | part (p : PartState) (cfg : GlobalConfig) (drains : List DrainConfig)
  | account (a : Account)
  | totals (free reserves unused shared : Nat)
  | tenant (t : Tenant)
  | rule (r : Rule)
  | reclaimMap (m : List Nat)
  | capture (entries : List Capture) (total : Nat)
  | grant (g : Option Grant) (remaining : Nat)
  | pendingList (length : Nat)
  | pendingEntry (e : Entry)
  | frame (r : Option SliceRecord)
  | set (occupied reserved : Nat) (ways : List (Option Way))
  | key (set : Nat) (hit : Option (Nat × Nat × SliceRecord))
  | store (nextSeq held corrected uncorrectable : Nat)
  | stream (s : Stream) (units : List (Option UnitState)) (used : Nat)
  | unit (u : Option UnitRecord) (unitSize : Nat)
  | stagedQueue (ids : List Nat)
  | slot (s : Slot)
  | wheel (position period : Nat)
  | lane (l : Lane) (units : List Nat) (depth : Nat)
  | drain (c : DrainConfig) (lanes : List (Nat × List Nat))
  | faultList (ids : List Nat)
  | reportQueue (items : List ReportItem) (delivered : Nat)
  | flushTable (entries : List (Option (FlushEntry × Nat))) (active : Nat) (newest : Option Nat)
  | powerFail (drainCount : Nat) (safe : Bool) (entryState : Option PartState) (entryTime : Option Nat)
  | link (up : Bool) (taken sent refused resets : Nat) (queues : List Nat) (outbound overflow : Nat)
  | events (records : List EventRecord)
  deriving DecidableEq, Repr

/-- The messages the part sends (Table 9-4), their content formed when they are placed (R164).
`reportEntry` stands in the queue for a Placement Report, which is built when it leaves (R139). -/
inductive OutMessage where
  | grant (tag grant stream lifetime : Nat)
  | holdNotice (tag : Nat) (reasons : Reasons)
  | intentRefused (tag : Nat) (code : RefusalCode)
  | withdrawAnswer (tag : Nat) (withdrawn : Bool)
  | writeDone (tag grant stream n : Nat) (outcomes : List Placed)
  | dataRefused (tag grant : Nat) (code : DataCode)
  | probeAnswer (tag n : Nat) (statuses : List ProbeStatus) (slices : List Slice)
  | probeRefused (tag : Nat)
  | placementReport (tag : Nat) (header : ReportHeader) (slices : List ReportSlice)
  | reportEntry (tag unit : Nat)
  | reportEmpty (tag : Nat)
  | flushDone (tag : Nat) (ok : Bool)
  | flushRefused (tag : Nat)
  | offer (unit lane unitSize fill stream attempts : Nat) (restarted : Bool) (order : FetchOrder)
  | fetchData (tag unit k m : Nat) (entries : List FetchEntry)
  | fetchRefused (tag unit : Nat) (code : ControlCode)
  | controlRefused (kind : Nat) (unit : Option Nat) (lane : Nat) (code : ControlCode)
  | inquireAnswer (tag n : Nat) (indexed : List Bool)
  | inquireRefused (tag : Nat)
  | mgmtAnswer (tag : Nat) (code : MgmtCode) (result : Option InspectResult)
  | messageRefused (kind tag : Nat) (code : LinkCode)
  deriving DecidableEq, Repr

/-- A message as it left on a link, with the outbound link sequence it carried (R161). -/
structure Sent where
  linkSeq : Nat
  message : OutMessage
  deriving DecidableEq, Repr

/-! ### Links (chapter 9) -/

/-- An inbound channel queue, oldest first (Table 9-1); whether its head message has stalled (R40,
R150), and whether an event has since called for the stalled message's new taking. -/
structure ChannelQueue where
  messages : List Message
  stalled : Bool
  retake : Bool
  deriving DecidableEq, Repr

/-- An empty channel queue. -/
def ChannelQueue.empty : ChannelQueue := { messages := [], stalled := false, retake := false }

/-- A link record (R160, R161, R164, R165, R169). A link uses the channels Table 9-1 gives it; the
others stay empty. -/
structure Link where
  up : Bool
  intent : ChannelQueue
  data : ChannelQueue
  read : ChannelQueue
  control : ChannelQueue
  reclaim : ChannelQueue
  mgmt : ChannelQueue
  outbound : List OutMessage
  overflow : List OutMessage
  inSeq : Nat
  outSeq : Nat
  taken : Nat
  sent : Nat
  refused : Nat
  resets : Nat
  /-- The message that last left on the link: what the partner received. -/
  wire : Option Sent
  deriving DecidableEq, Repr

/-- A link record after the full reset (R160). -/
def Link.reset : Link :=
  { up := false, intent := .empty, data := .empty, read := .empty, control := .empty,
    reclaim := .empty, mgmt := .empty, outbound := [], overflow := [], inSeq := 0, outSeq := 0,
    taken := 0, sent := 0, refused := 0, resets := 0, wire := none }

/-! ### The state -/

/-- The state of the MF4160. -/
structure State where
  /-- MODEL: the commands that wait, first in, first out. -/
  pending : List Instr
  /-- MODEL: how many idle steps have been made; it only picks the next free value (log entries 4, 5). -/
  idles : Nat
  /-- The 64-bit timebase in µs (section 3.3 of the scope file). -/
  now : Nat
  /-- RESET_N is at its asserted level (R172). -/
  resetAsserted : Bool
  /-- PFAIL_N is at its asserted level (R156). -/
  pfailAsserted : Bool
  /-- The SAFE line (R158). -/
  safe : Bool
  /-- ALERT_N is asserted (R180). -/
  alert : Bool
  /-- The part state (R173). -/
  part : PartState
  /-- The start-up scrub is under way (R78). -/
  scrubbing : Bool
  /-- The frames 0 .. scrubbed − 1 have been written by the scrub since the full reset (R78). -/
  scrubbed : Nat
  cfg : GlobalConfig
  /-- Drain link settings by link 1..4 (R119). -/
  drains : Table DrainConfig
  rules : Table Rule
  tenants : Table Tenant
  /-- The reclaim map, one stream for each age 0..3 (R16). -/
  reclaimMap : List Nat
  /-- The refusal capture FIFO, oldest first (R20). -/
  captures : List Capture
  /-- The total refusal count (R20). -/
  refusals : Nat
  accounts : Table Account
  /-- F, the unallocated frame count (R24). -/
  free : Nat
  grants : Table Grant
  /-- The pending list of held intents, oldest first (R39). -/
  waiting : List Entry
  frames : Table Frame
  /-- What the last slice of a FREE frame left in the stacked DRAM (R53, R55). A FREE frame that is not
  listed holds what the scrub wrote, or content from before the full reset (R77, R78; log entry 20). -/
  freed : Table Stored
  /-- The placement sequence counter (R54). -/
  nextSeq : Nat
  corrected : Nat
  uncorrectable : Nat
  sets : Table IndexSet
  streams : Table Stream
  units : Table UnitRecord
  /-- The staged sequence counter (R93). -/
  stagedCounter : Nat
  slots : Table Slot
  /-- The wheel position (R104). -/
  wheelPos : Nat
  /-- The timebase reading of the next slot visit, while the wheel turns (R104). -/
  nextVisit : Option Nat
  lanes : Table Lane
  /-- FAULTED units, oldest first (R130). -/
  faultList : List Nat
  /-- RELEASING units, oldest first (R137). -/
  reportQueue : List ReportItem
  delivered : Nat
  flushes : Table FlushEntry
  /-- The ACTIVE flush entries in their activation order, oldest first (Table 8-1). -/
  flushOrder : List Nat
  /-- The power-fail record: the part state and time of entry (R156). -/
  entryState : Option PartState
  entryTime : Option Nat
  /-- The drain count (R158). -/
  drainCount : Nat
  /-- Event flags, masks and counts by the order of Table 10-4 (R179). -/
  events : Table EventRecord
  links : Table Link
  deriving DecidableEq, Repr

/-- The machine right after the full reset, with RESET_N still asserted (R172): every record at the
value its chapter states. The part state is held at STARTING, which it takes at the release (R173,
R181; log entry 3). -/
def State.reset : State :=
  { pending := [], idles := 0, now := 0, resetAsserted := true, pfailAsserted := false,
    safe := false, alert := false, part := .starting, scrubbing := false, scrubbed := 0, cfg := GlobalConfig.reset,
    drains := [], rules := [], tenants := [], reclaimMap := [0, 0, 0, 0], captures := [],
    refusals := 0, accounts := [], free := Config.frameCount, grants := [], waiting := [],
    frames := [], freed := [], nextSeq := 1, corrected := 0, uncorrectable := 0, sets := [], streams := [],
    units := [], stagedCounter := 0, slots := [], wheelPos := 31, nextVisit := none, lanes := [],
    faultList := [], reportQueue := [], delivered := 0, flushes := [], flushOrder := [],
    entryState := none, entryTime := none, drainCount := 0, events := [], links := [] }

/-- Why the machine stops. Each reason stands for a place where a law of the device, which the manual
says holds at all times, does not hold in the state the command is taken in; no run from reset meets
one. Every one is safe: the model stops where the manual says nothing. -/
inductive Fault where
  /-- Raised by WRITE_DATA: placement asks for a FREE frame and every frame is HELD (R53). Safe. -/
  | noFreeFrame
  /-- Raised by WRITE_DATA: a miss meets a set with no VACANT way (R61). Safe. -/
  | noVacantWay
  /-- Raised by WRITE_DATA: placement opens a unit and the stream's ring has no VACANT record (R88). Safe. -/
  | noVacantUnit
  /-- Raised by PLACEMENT_REPORT_DELIVERY and MESSAGE_SENT: the report entry that leaves names no issued
  unit of the report queue (R137, R139). Safe. -/
  | noIssuedUnit
  deriving DecidableEq, Repr

/-- Why a command is refused. -/
inductive Refusal where
  /-- Raised by exec's arm for a command that has no meaning yet. Safe. -/
  | notModelled (mnemonic : String)
  deriving DecidableEq, Repr

/-- The outcome of a step of this machine. -/
abbrev Result := Host.Outcome State Fault Refusal

end Sys2Proof.Machine
end

