-- ==== Sys2Proof/Machine/Table.lean ====
section
/-! DEFINITION. Reading and writing the sparse tables of records, in their canonical form. -/

namespace Sys2Proof.Table

variable {α : Type}

/-- The record listed under number `k`, if there is one. -/
def find? : Table α → Nat → Option α
  | [], _ => none
  | (j, v) :: t, k => if j = k then some v else find? t k

/-- List `v` under number `k`, in rising order of the numbers. -/
def insert : Table α → Nat → α → Table α
  | [], k, v => [(k, v)]
  | (j, w) :: t, k, v =>
    if k < j then (k, v) :: (j, w) :: t
    else if j = k then (k, v) :: t
    else (j, w) :: insert t k v

/-- List nothing under number `k`. -/
def erase (t : Table α) (k : Nat) : Table α := t.filter (fun p => p.1 ≠ k)

/-- The record under number `k`, where an unlisted number holds `d`. -/
def getD (d : α) (t : Table α) (k : Nat) : α := (find? t k).getD d

/-- Write the record under number `k`, where an unlisted number holds `d`: a record equal to `d` is
not listed. -/
def put [DecidableEq α] (d : α) (t : Table α) (k : Nat) (v : α) : Table α :=
  if v = d then erase t k else insert t k v

/-- Apply `f` to every record, where an unlisted number holds `d` and `f d = d`. -/
def mapPut [DecidableEq α] (d : α) (f : α → α) (t : Table α) : Table α :=
  (t.map (fun p => (p.1, f p.2))).filter (fun p => p.2 ≠ d)

/-- The numbers that are listed. -/
def keys (t : Table α) : List Nat := t.map (·.1)

/-- The numbers are strictly rising. -/
def sorted : Table α → Bool
  | [] => true
  | [_] => true
  | p :: q :: t => decide (p.1 < q.1) && sorted (q :: t)

/-- The canonical form of a table in which unlisted numbers hold `d k`. -/
def wf [DecidableEq α] (d : Nat → α) (t : Table α) : Bool :=
  sorted t && t.all (fun p => decide (p.2 ≠ d p.1))

end Sys2Proof.Table

namespace Sys2Proof

/-- The least number from `n` on, among the next `fuel` numbers, that satisfies `p`. -/
def firstFrom (p : Nat → Bool) : (fuel : Nat) → (n : Nat) → Option Nat
  | 0, _ => none
  | fuel + 1, n => if p n then some n else firstFrom p fuel (n + 1)

end Sys2Proof
end

