-- ==== Sys2Proof/Machine/Ops.lean ====
section
/-! DEFINITION. The named operations over the records of the state: reading and writing each record,
placing a message on a link, taking the message at the head of a channel. -/

namespace Sys2Proof.Machine

/-! ### Small arithmetic -/

/-- One more, saturating at 2^32 − 1 (R4, R20, R73, R108, R169, R179). -/
def satSucc (n : Nat) : Nat := min (n + 1) Config.maxCount32

/-- Division rounded up (section 3.3 of the scope file). -/
def ceilDiv (a b : Nat) : Nat := (a + b - 1) / b

/-- The global number of lane d.l (section 3.3 of the scope file). -/
def globalLane (d l : Nat) : Nat := 8 * (d - 1) + l

/-- The drain link of a global lane. -/
def laneLink (g : Nat) : Nat := g / 8 + 1

/-- The lane 0..7 of a global lane on its link. -/
def laneIndex (g : Nat) : Nat := g % 8

/-- The drain links (Table 0-1). -/
def isDrain (l : Nat) : Bool := decide (1 ≤ l) && decide (l ≤ 4)

/-- Slice i of a run that starts at `key` (Table 1-1). -/
def Key.offset (key : Key) (i : Nat) : Key := { handle := key.handle, lba := key.lba + i }

/-- The unit id of ring index r of stream s (section 4.2). -/
def unitId (s r : Nat) : Nat := Config.ringSize * s + r

/-- The stream of a unit id (section 4.2, R140). -/
def unitStream (v : Nat) : Nat := v / Config.ringSize

/-- The fill count of a unit (Table 4-3): the number of frames appended to it (R88). -/
def UnitRecord.fill (u : UnitRecord) : Nat := u.frames.length

/-- The occupied count of a set: the number of its OCCUPIED ways (R56). -/
def IndexSet.occupied (x : IndexSet) : Nat := x.ways.length

/-- 4,096 zero bytes (R78, R122). -/
def zeroSlice : Slice := List.replicate Config.sliceBytes 0#8

/-- What the scrub writes to a frame: zero data and a matching check code (R78). -/
def Stored.zero : Stored := { data := zeroSlice, latent := false }

/-! ### The records of the state -/

namespace State

def rule (s : State) (r : Nat) : Rule := Table.getD Rule.reset s.rules r
def setRule (s : State) (r : Nat) (v : Rule) : State :=
  { s with rules := Table.put Rule.reset s.rules r v }

def tenant (s : State) (t : Nat) : Tenant := Table.getD Tenant.reset s.tenants t
def setTenant (s : State) (t : Nat) (v : Tenant) : State :=
  { s with tenants := Table.put Tenant.reset s.tenants t v }

def account (s : State) (a : Nat) : Account := Table.getD Account.reset s.accounts a
def setAccount (s : State) (a : Nat) (v : Account) : State :=
  { s with accounts := Table.put Account.reset s.accounts a v }

/-- The LIVE grant of an id, or none when it is VACANT (R34). -/
def grant? (s : State) (g : Nat) : Option Grant := Table.find? s.grants g
def setGrant (s : State) (g : Nat) (v : Grant) : State :=
  { s with grants := Table.insert s.grants g v }
def clearGrant (s : State) (g : Nat) : State := { s with grants := Table.erase s.grants g }

/-- The HELD frame of a number, or none when it is FREE (R52). -/
def frame? (s : State) (f : Nat) : Option Frame := Table.find? s.frames f
def setFrame (s : State) (f : Nat) (v : Frame) : State :=
  { s with frames := Table.insert s.frames f v }
def clearFrame (s : State) (f : Nat) : State := { s with frames := Table.erase s.frames f }

/-- Keep what a released frame's slice left in the stacked DRAM (R55). -/
def setFreed (s : State) (f : Nat) (v : Stored) : State :=
  { s with freed := Table.put Stored.zero s.freed f v }
def clearFreed (s : State) (f : Nat) : State := { s with freed := Table.erase s.freed f }

def indexSet (s : State) (x : Nat) : IndexSet := Table.getD IndexSet.reset s.sets x
def setIndexSet (s : State) (x : Nat) (v : IndexSet) : State :=
  { s with sets := Table.put IndexSet.reset s.sets x v }

def stream (s : State) (k : Nat) : Stream := Table.getD Stream.reset s.streams k
def setStream (s : State) (k : Nat) (v : Stream) : State :=
  { s with streams := Table.put Stream.reset s.streams k v }

/-- The record of a unit id, or none when it is VACANT (R87). -/
def unit? (s : State) (v : Nat) : Option UnitRecord := Table.find? s.units v
def setUnit (s : State) (v : Nat) (u : UnitRecord) : State :=
  { s with units := Table.insert s.units v u }
def clearUnit (s : State) (v : Nat) : State := { s with units := Table.erase s.units v }

def slot (s : State) (i : Nat) : Slot := Table.getD (Slot.reset i) s.slots i
def setSlot (s : State) (i : Nat) (v : Slot) : State :=
  { s with slots := Table.put (Slot.reset i) s.slots i v }

def lane (s : State) (l : Nat) : Lane := Table.getD Lane.reset s.lanes l
def setLane (s : State) (l : Nat) (v : Lane) : State :=
  { s with lanes := Table.put Lane.reset s.lanes l v }

def drain (s : State) (d : Nat) : DrainConfig := Table.getD DrainConfig.reset s.drains d
def setDrain (s : State) (d : Nat) (v : DrainConfig) : State :=
  { s with drains := Table.put DrainConfig.reset s.drains d v }

/-- The ACTIVE flush entry of a number, or none when it is VACANT (R147). -/
def flush? (s : State) (e : Nat) : Option FlushEntry := Table.find? s.flushes e
def setFlush (s : State) (e : Nat) (v : FlushEntry) : State :=
  { s with flushes := Table.insert s.flushes e v }

def link (s : State) (l : Nat) : Link := Table.getD Link.reset s.links l
def setLink (s : State) (l : Nat) (v : Link) : State :=
  { s with links := Table.put Link.reset s.links l v }

def setFree (s : State) (n : Nat) : State := { s with free := n }
def setWaiting (s : State) (w : List Entry) : State := { s with waiting := w }
def setNextSeq (s : State) (n : Nat) : State := { s with nextSeq := n }
def setStagedCounter (s : State) (n : Nat) : State := { s with stagedCounter := n }
def setDrainCount (s : State) (n : Nat) : State := { s with drainCount := n }
def setFaultList (s : State) (l : List Nat) : State := { s with faultList := l }
def setReportQueue (s : State) (q : List ReportItem) : State := { s with reportQueue := q }

/-- Change the record of a unit that is not VACANT. -/
def modifyUnit (s : State) (v : Nat) (f : UnitRecord → UnitRecord) : State :=
  match s.unit? v with
  | some u => s.setUnit v (f u)
  | none => s

/-- The number of HELD frames (R52). -/
def heldFrames (s : State) : Nat := s.frames.length

/-- What the stacked DRAM holds in frame `f`: a HELD frame's slice, what a FREE frame's last slice left, the
zeroes of the scrub, or none where it is content from before the full reset, of which nothing is known
(R52, R77, R78; log entry 20). -/
def stored? (s : State) (f : Nat) : Option Stored :=
  match s.frame? f with
  | some v => some { data := v.data, latent := v.latent }
  | none => if f < s.scrubbed then some (Table.getD Stored.zero s.freed f) else none

/-- The records of stream k that are not VACANT (R81). -/
def usedRecords (s : State) (k : Nat) : Nat :=
  ((List.range Config.ringSize).filter (fun r => (s.unit? (unitId k r)).isSome)).length

end State

/-! ### Channels (R161 to R163, R165) -/

/-- The queue of a channel of a link. -/
def Link.queue (l : Link) : Channel → ChannelQueue
  | .intent => l.intent
  | .data => l.data
  | .read => l.read
  | .control => l.control
  | .reclaim => l.reclaim
  | .mgmt => l.mgmt

/-- Replace the queue of a channel of a link. -/
def Link.setQueue (l : Link) (c : Channel) (q : ChannelQueue) : Link :=
  match c with
  | .intent => { l with intent := q }
  | .data => { l with data := q }
  | .read => { l with read := q }
  | .control => { l with control := q }
  | .reclaim => { l with reclaim := q }
  | .mgmt => { l with mgmt := q }

/-- The depth of a channel of a link (Table 9-1). -/
def channelDepth (link : Nat) : Channel → Nat
  | .intent => 64
  | .data => if link = 0 then 16 else 8
  | .read => 64
  | .control => 32
  | .reclaim => 16
  | .mgmt => 8

/-- The credits the partner holds for a channel once every message it sent has arrived (R162). -/
def credits (s : State) (link : Nat) (c : Channel) : Nat :=
  channelDepth link c - ((s.link link).queue c).messages.length

/-- The message LIF can take from a channel: the head of its queue, on an UP link whose overflow line
is empty, while the head has not stalled (R160, R163, R165). -/
def takeable (s : State) (link : Nat) (c : Channel) : Option Message :=
  let l := s.link link
  let q := l.queue c
  if l.up && l.overflow.isEmpty && !q.stalled then q.messages.head? else none

/-- The stalled message whose new taking an event has called for (R40, R150, R165). -/
def retakeable (s : State) (link : Nat) (c : Channel) : Option Message :=
  let l := s.link link
  let q := l.queue c
  if l.up && l.overflow.isEmpty && q.stalled && q.retake then q.messages.head? else none

/-- The message at the head of a channel's queue leaves it by being taken: it returns its credit, and
the link's count of messages taken rises (R162, R169). -/
def takeHead (link : Nat) (c : Channel) (s : State) : State :=
  let l := s.link link
  let q := l.queue c
  s.setLink link
    { l.setQueue c { messages := q.messages.tail, stalled := false, retake := false } with
      taken := satSucc l.taken }

/-- The message at the head of a channel's queue stalls: it stays there, and its new taking waits for
the next event that calls for it (R40, R150). -/
def stallHead (link : Nat) (c : Channel) (s : State) : State :=
  let l := s.link link
  s.setLink link (l.setQueue c { l.queue c with stalled := true, retake := false })

/-- Call for the new taking of a channel's stalled head, when its kind is `kind`. -/
def callRetake (link : Nat) (c : Channel) (kind : Nat) (s : State) : State :=
  let l := s.link link
  let q := l.queue c
  if q.stalled && q.messages.head?.any (fun m => m.kind == kind) then
    s.setLink link (l.setQueue c { q with retake := true })
  else s

/-- After an event that removes a pending entry, every stalled Write Intent is taken again (R40). -/
def callIntentRetakes (s : State) : State :=
  [1, 2, 3, 4].foldl (fun s d => callRetake d .reclaim 1 s) (callRetake 0 .intent 1 s)

/-- After an event that makes a flush entry VACANT, a stalled Flush is taken again (R150). -/
def callFlushRetake (s : State) : State := callRetake 0 .intent 3 s

/-! ### Outbound traffic (R164 to R166) -/

/-- Place a message for a link: at the tail of its outbound queue, in its overflow line when the queue
holds 64 messages, and nowhere when the link is DOWN. -/
def place (link : Nat) (m : OutMessage) (s : State) : State :=
  let l := s.link link
  if l.up then
    if l.outbound.length < Config.outboundDepth then
      s.setLink link { l with outbound := l.outbound ++ [m] }
    else s.setLink link { l with overflow := l.overflow ++ [m] }
  else s

/-! ### Accounts and sets (Table 2-2, R58) -/

/-- The unused reserve of an account (R25). -/
def unusedReserve (a : Account) : Nat := a.reserve - a.used

/-- A sum over the 257 accounts. -/
def sumAccounts (f : Account → Nat) (s : State) : Nat :=
  ((List.range Config.accountCount).map (fun a => f (s.account a))).sum

/-- The shared free count (R25). -/
def sharedFree (s : State) : Nat := s.free - sumAccounts unusedReserve s

/-- Move `n` frames from F to account `a` (a grant, Table 2-2). -/
def chargeFrames (a n : Nat) (s : State) : State :=
  let v := s.account a
  (s.setAccount a { v with used := v.used + n }).setFree (s.free - n)

/-- Move `n` frames from account `a` back to F (Table 2-2). -/
def returnFrames (a n : Nat) (s : State) : State :=
  let v := s.account a
  (s.setAccount a { v with used := v.used - n }).setFree (s.free + n)

/-- Raise the reserved count of set `x` by `c` (R58). -/
def reserveWays (x c : Nat) (s : State) : State :=
  let v := s.indexSet x
  s.setIndexSet x { v with reserved := v.reserved + c }

/-- Lower the reserved count of set `x` by `c` (R58). -/
def releaseWays (x c : Nat) (s : State) : State :=
  let v := s.indexSet x
  s.setIndexSet x { v with reserved := v.reserved - c }

/-- The held-count of an account rises or falls with its entries on the pending list (R39). -/
def raiseHeld (a : Nat) (s : State) : State :=
  let v := s.account a
  s.setAccount a { v with heldCount := v.heldCount + 1 }

def lowerHeld (a : Nat) (s : State) : State :=
  let v := s.account a
  s.setAccount a { v with heldCount := v.heldCount - 1 }

/-! ### The index hash and lookups (R57, R59) -/

/-- The set of a key (R57). -/
def indexHash (k : Key) : Nat :=
  (k.lba % 4096) ^^^ ((k.lba / 4096) % 4096) ^^^ ((97 * k.handle) % 4096)

/-- Look a key up: the way number and the way that holds it (R59). -/
def lookup (s : State) (k : Key) : Option (Nat × Way) :=
  List.find? (fun p => p.2.key == k) (s.indexSet (indexHash k)).ways

end Sys2Proof.Machine
end

