-- ==== Sys2Proof/Machine/Flags.lean ====
section
/-! DEFINITION. The event flags, their masks and counts, and the two output lines that follow from the
state: ALERT_N (R180) and SAFE (R158). -/

namespace Sys2Proof.Machine

/-- The place of a flag in Table 10-4. -/
def Event.code : Event → Nat
  | .laneDown => 0
  | .offerLapse => 1
  | .unitFault => 2
  | .grantLapse => 3
  | .protectRefusal => 4
  | .fallback => 5
  | .pressureClose => 6
  | .setRelief => 7
  | .storeError => 8
  | .flushFault => 9
  | .powerFail => 10
  | .safe => 11

/-- The number of event flags (R179). -/
def eventCount : Nat := 12

/-- The record of flag number `i`. -/
def State.event (s : State) (i : Nat) : EventRecord := Table.getD EventRecord.reset s.events i

/-- A flag that is set and whose mask is open (R180). -/
def EventRecord.alerts (r : EventRecord) : Bool := r.flag && !r.masked

/-- ALERT_N follows whether any flag is set whose mask is open (R180). -/
def anyOpenFlag (t : Table EventRecord) : Bool := t.any (fun p => p.2.alerts)

/-- Write the event records; ALERT_N follows at once (R180). -/
def State.setEvents (s : State) (t : Table EventRecord) : State :=
  { s with events := t, alert := anyOpenFlag t }

/-- Set a flag: it is set, or stays set, and its set count rises, saturating (R179). -/
def setEvent (e : Event) (s : State) : State :=
  let r := s.event e.code
  s.setEvents
    (Table.put EventRecord.reset s.events e.code { r with flag := true, count := satSucc r.count })

/-- Set a flag when a condition holds. -/
def setEventIf (b : Bool) (e : Event) (s : State) : State := if b then setEvent e s else s

/-- Clear the flags named by a set of twelve bits (R179, Event Clear). -/
def clearEvents (named : Nat) (s : State) : State :=
  s.setEvents ((List.range eventCount).foldl
    (fun t i =>
      if named.testBit i then
        Table.put EventRecord.reset t i { Table.getD EventRecord.reset t i with flag := false }
      else t) s.events)

/-- Replace all twelve masks: the named flags are masked, the others open (R179, Event Mask). -/
def maskEvents (named : Nat) (s : State) : State :=
  s.setEvents ((List.range eventCount).foldl
    (fun t i =>
      Table.put EventRecord.reset t i
        { Table.getD EventRecord.reset t i with masked := named.testBit i }) s.events)

/-- The level R158 gives SAFE in a state. -/
def safeLevel (s : State) : Bool := s.part == .powerFail && s.drainCount == 0

/-- FLT evaluates SAFE: the line takes its level, and the SAFE flag is set at a change from deasserted
to asserted (R158). -/
def evalSafe (s : State) : State :=
  let level := safeLevel s
  setEventIf (level && !s.safe) .safe { s with safe := level }

end Sys2Proof.Machine
end

