-- ==== Sys2Proof/Machine/Assembly.lean ====
section
/-! DEFINITION. Streams and units: deadlines, the opening and the staging of units, the staged queue,
pressure and relief staging, and the end of a RETIRING stream (chapter 4). -/

namespace Sys2Proof.Machine

/-! ### Deadlines (R91) -/

/-- The deadline of the OPEN unit of stream `k` with the given first and last arrival times (R91). -/
def deadlineOf (k : Stream) (first last : Nat) : Option Deadline :=
  if k.state = .paused then none
  else if k.window = 0 then none
  else
    match k.mode with
    | .fixed => some { time := first + 10 * k.window, kind := .window }
    | .sliding =>
      let windowTerm := last + 10 * k.window
      let holdTerm := first + 1000 * k.hold
      if windowTerm < holdTerm then some { time := windowTerm, kind := .window }
      else some { time := holdTerm, kind := .hold }

/-- The close cause of an expired deadline (R92). -/
def DeadlineKind.cause : DeadlineKind → CloseCause
  | .window => .window
  | .hold => .hold

/-! ### Staging (R93) -/

/-- Stage unit `v` with a close cause. A unit that is not OPEN is left as it is (R93). -/
def stageUnit (cause : CloseCause) (v : Nat) (s : State) : State :=
  match s.unit? v with
  | some u =>
    if u.state = .opened then
      let k := s.stream (unitStream v)
      let s := s.setUnit v
        { u with state := .staged, cause := some cause, deadline := none,
                 stagedSeq := some s.stagedCounter }
      let s := s.setStream (unitStream v)
        { k with openUnit := none, padSlices := k.padSlices + (s.cfg.unitSize - u.fill) }
      s.setStagedCounter ((s.stagedCounter + 1) % Config.stagedModulus)
    else s
  | none => s

/-- Stage the OPEN unit of stream `k`, if it has one (R93). -/
def stageOpen (cause : CloseCause) (k : Nat) (s : State) : State :=
  match (s.stream k).openUnit with
  | some v => stageUnit cause v s
  | none => s

/-- The OPEN units, in rising unit id. -/
def openUnits (s : State) : List Nat :=
  (s.units.filter (fun p => p.2.state = .opened)).map (·.1)

/-- Stage a group of units in the order given, each taking the next staged sequence (R99). -/
def stageAll (cause : CloseCause) (vs : List Nat) (s : State) : State :=
  vs.foldl (fun s v => stageUnit cause v s) s

/-! ### Opening a unit and appending a frame (R62, R88, R89) -/

/-- The ring index of the record SAS opens next: the first VACANT one from the ring cursor on (R88). -/
def nextRecord (s : State) (k : Nat) : Option Nat :=
  (firstFrom
    (fun i => (s.unit? (unitId k (((s.stream k).cursor + i) % Config.ringSize))).isNone)
    Config.ringSize 0).map (fun i => ((s.stream k).cursor + i) % Config.ringSize)

/-- Open the record of ring index `r` of stream `k` (R88); the append follows at once. -/
def openRecord (k r : Nat) (s : State) : State :=
  let v := unitId k r
  let s := s.setUnit v
    { state := .opened, frames := [], firstArrival := s.now, lastArrival := s.now, deadline := none,
      cause := none, stagedSeq := none, lane := none, attempts := 0, restarted := false,
      handle := none, discard := false }
  let s := s.setStream k
    { s.stream k with openUnit := some v, cursor := (r + 1) % Config.ringSize }
  s.setDrainCount (s.drainCount + 1)

/-- The OPEN unit of stream `k`, opened first when there is none; none when the ring has no VACANT
record, which a law of the device excludes (R62, R88, R90). -/
def withOpenUnit (k : Nat) (s : State) : Option (Nat × State) :=
  match (s.stream k).openUnit with
  | some v => some (v, s)
  | none => (nextRecord s k).map (fun r => (unitId k r, openRecord k r s))

/-- An arrival into OPEN unit `v` of stream `k`: its last-arrival time is now, and its deadline is
computed again (R89, R91). -/
def arrive (k v : Nat) (s : State) : State :=
  s.modifyUnit v fun u =>
    { u with lastArrival := s.now, deadline := deadlineOf (s.stream k) u.firstArrival s.now }

/-- Append frame `f` to OPEN unit `v` of stream `k`: it takes the position equal to the fill count, and
a unit whose fill reaches U is staged FULL at once (R62, R89, R94). -/
def appendFrame (k v f : Nat) (s : State) : State :=
  let s := s.modifyUnit v (fun u => { u with frames := u.frames ++ [f] })
  let s := s.setStream k { s.stream k with slicesPlaced := (s.stream k).slicesPlaced + 1 }
  let s := arrive k v s
  if s.cfg.unitSize ≤ ((s.unit? v).map UnitRecord.fill).getD 0 then stageUnit .full v s else s

/-! ### The staged queue (R100) -/

/-- The distance of a staged sequence behind the counter (R100). -/
def stagedDistance (s : State) (q : Nat) : Nat :=
  (s.stagedCounter + Config.stagedModulus - q) % Config.stagedModulus

/-- Unit `v` is older than unit `w`: its distance is greater, or the same with a lower id (R100). -/
def olderUnit (s : State) (v w : Nat × UnitRecord) : Bool :=
  let dv := stagedDistance s (v.2.stagedSeq.getD 0)
  let dw := stagedDistance s (w.2.stagedSeq.getD 0)
  decide (dw < dv) || (dv == dw && decide (v.1 < w.1))

/-- Insert a unit at the place its staged sequence gives it. -/
def queueInsert (s : State) (v : Nat × UnitRecord) : List (Nat × UnitRecord) → List (Nat × UnitRecord)
  | [] => [v]
  | w :: rest => if olderUnit s v w then v :: w :: rest else w :: queueInsert s v rest

/-- The staged queue: every STAGED unit, oldest first (R100). -/
def stagedQueue (s : State) : List Nat :=
  (((s.units.filter (fun p => p.2.state = .staged)).foldr (queueInsert s) []).map (·.1))

/-- A unit goes back to STAGED: it keeps its staged sequence and close cause, and is on no lane (R93,
R110, R111, R116, R127). -/
def restage (v : Nat) (s : State) : State :=
  s.modifyUnit v (fun u => { u with state := .staged, lane := none })

/-! ### Pressure and relief (R97, R98) -/

/-- The unit pressure staging chooses among two candidates: the earlier first arrival, then the lower
unit id (R97). -/
def earlierUnit (p q : Nat × UnitRecord) : Nat × UnitRecord :=
  if p.2.firstArrival < q.2.firstArrival ∨
      (p.2.firstArrival = q.2.firstArrival ∧ p.1 < q.1) then p else q

/-- The OPEN unit pressure stages: the earliest first arrival among streams not PAUSED (R97). -/
def pressureUnit (s : State) : Option Nat :=
  ((s.units.filter (fun p =>
      p.2.state = .opened && (s.stream (unitStream p.1)).state != .paused)).foldl
    (fun best p => some (match best with | none => p | some q => earlierUnit p q)) none).map (·.1)

/-- Stage one OPEN unit with cause PRESSURE, setting PRESSURE_CLOSE; without a candidate nothing
changes (R97). -/
def pressureStage (s : State) : State :=
  match pressureUnit s with
  | some v => setEvent .pressureClose (stageUnit .pressure v s)
  | none => s

/-- The pressure comparison (R47). -/
def pressureCompare (s : State) : State :=
  if s.cfg.pressureThreshold ≠ 0 ∧ s.part ≠ .powerFail ∧ sharedFree s < s.cfg.pressureThreshold then
    pressureStage s
  else s

/-- The latest sequence and the unit of a way whose frame lies in an OPEN unit of a stream that is not
PAUSED (R98). -/
def reliefCandidate (s : State) (w : Way) : Option (Nat × Nat) :=
  match s.frame? w.frame with
  | some f =>
    match s.unit? f.record.unit with
    | some u =>
      if u.state = .opened ∧ (s.stream (unitStream f.record.unit)).state ≠ .paused then
        some (f.record.latestSeq, f.record.unit)
      else none
    | none => none
  | none => none

/-- The unit relief stages for set `x`: that of the candidate way with the smallest latest sequence
(R98). -/
def reliefUnit (s : State) (x : Nat) : Option Nat :=
  (((s.indexSet x).ways.filterMap (fun p => reliefCandidate s p.2)).foldl
    (fun best c => some (match best with
      | none => c
      | some b => if c.1 < b.1 then c else b)) none).map (·.2)

/-- Relief on set `x`: stage the unit with cause RELIEF, setting SET_RELIEF (R98); not asked for in
POWER_FAIL (R48). -/
def reliefStage (x : Nat) (s : State) : State :=
  if s.part = .powerFail then s
  else
    match reliefUnit s x with
    | some v => setEvent .setRelief (stageUnit .relief v s)
    | none => s

/-! ### The end of a RETIRING stream (R86) -/

/-- A RETIRING stream becomes UNBOUND when all its records are VACANT and none is reserved (R86). -/
def checkUnbound (k : Nat) (s : State) : State :=
  let v := s.stream k
  if v.state = .retiring ∧ v.reserved = 0 ∧ s.usedRecords k = 0 then
    s.setStream k { v with state := .unbound }
  else s

/-! ### End of placement (R95) -/

/-- Some lane of the stream's lane set is UP, has no outstanding offer and has room below its link's
depth (R95). -/
def idleLane (s : State) (k : Stream) : Bool :=
  (List.range Config.laneCount).any fun g =>
    k.lanes.getLsbD g && (s.lane g).state == .up && (s.lane g).offer.isNone &&
      decide ((s.lane g).inFlight < (s.drain (laneLink g)).depth)

/-- A unit of stream `k` waits or moves: it is STAGED, OFFERED or IN_FLIGHT (R95). -/
def unitMoving (s : State) (k : Nat) : Bool :=
  (List.range Config.ringSize).any fun r =>
    (s.unit? (unitId k r)).any fun u =>
      u.state == .staged || u.state == .offered || u.state == .inFlight

/-- The checks at the end of each placement into stream `k`: RETIRE, then ADAPTIVE (R95). -/
def endOfPlacement (k : Nat) (s : State) : State :=
  let s := if (s.stream k).state = .retiring then stageOpen .retire k s else s
  let v := s.stream k
  if v.policy = .adaptive ∧ v.state = .active ∧ v.openUnit.isSome ∧ unitMoving s k = false ∧
      idleLane s v = true then
    stageOpen .adaptive k s
  else s

end Sys2Proof.Machine
end

