-- ==== Sys2Proof/Machine/Operands.lean ====
section
/-! DEFINITION. Reading the fields of a received message from its body bytes (R170, R171, Tables 9-3,
9-5, 9-6 and 9-10), and the channel and the size that Tables 9-1 and 9-3 give each message kind. -/

namespace Sys2Proof.Machine

/-! ### Bytes -/

/-- Byte `i` of a body as a number. -/
def byteAt (b : List Byte) (i : Nat) : Nat := (b.getD i 0#8).toNat

/-- The `w`-byte number at byte `i`, least significant byte first (section 9.5). -/
def numAt (b : List Byte) (i : Nat) : (w : Nat) → Nat
  | 0 => 0
  | w + 1 => byteAt b i + 256 * numAt b (i + 1) w

/-- A 40-bit opaque value at byte `i` (Table 9-10). -/
def opaqueAt (b : List Byte) (i : Nat) : Opaque40 := BitVec.ofNat 40 (numAt b i 5)

/-- A flag or option: 0 clear, 1 set, no other value (Table 9-10; log entry 13). -/
def flagAt (b : List Byte) (i : Nat) : Option Bool :=
  match byteAt b i with
  | 0 => some false
  | 1 => some true
  | _ => none

/-- A 2-byte number that may instead be ANY or none, sent as all ones (Table 9-10). -/
def num2OrNone (b : List Byte) (i : Nat) : Option Nat :=
  let v := numAt b i 2
  if v = 65535 then none else some v

/-- A 1-byte number that may instead be ANY or none, sent as all ones (Table 9-10). -/
def byteOrNone (b : List Byte) (i : Nat) : Option Nat :=
  let v := byteAt b i
  if v = 255 then none else some v

/-! ### Kinds, channels and sizes (Tables 9-1 and 9-3) -/

/-- Kind codes of the messages the part takes (Table 9-3). -/
def kindWriteIntent : Nat := 1
def kindWithdraw : Nat := 2
def kindFlush : Nat := 3
def kindWriteData : Nat := 4
def kindReadProbe : Nat := 5
def kindReportFetch : Nat := 6
def kindLaneReady : Nat := 7
def kindLaneQuit : Nat := 8
def kindAccept : Nat := 9
def kindDecline : Nat := 10
def kindFetch : Nat := 11
def kindUnitDone : Nat := 12
def kindUnitFail : Nat := 13
def kindInquire : Nat := 14
def kindManagement : Nat := 15

/-- The channel that takes a kind on a link, if Table 9-1 lists the kind for that link. -/
def kindChannel (link kind : Nat) : Option Channel :=
  if link = 0 then
    if kind = 1 ∨ kind = 2 ∨ kind = 3 then some .intent
    else if kind = 4 then some .data
    else if kind = 5 ∨ kind = 6 then some .read
    else none
  else if link = 5 then
    if kind = 15 then some .mgmt else none
  else if isDrain link then
    if kind = 1 ∨ kind = 2 then some .reclaim
    else if kind = 4 then some .data
    else if 7 ≤ kind ∧ kind ≤ 14 then some .control
    else none
  else none

/-- The channel of the Write Intents and Withdraws of a link (Table 9-1). -/
def intentChannel (link : Nat) : Channel := if link = 0 then .intent else .reclaim

/-- The body length of an Inspect by its target: the code, then the selector (Table 9-10). A target
that the table of R178 does not name fixes no length. -/
def inspectLength (target : Nat) : Option Nat :=
  match target with
  | 1 | 3 | 4 | 7 | 9 | 10 | 11 | 14 | 15 | 17 | 19 | 20 | 25 => some 6
  | 12 => some 9
  | 6 => some 3
  | 0 | 2 | 5 | 8 | 13 | 16 | 18 | 21 | 22 | 23 | 24 | 26 => some 2
  | _ => none

/-- The body length of a Management Request by its request kind (Table 9-3, R171). A request kind that
Table 10-2 does not name fixes no length beyond its own byte (R177; log entry 13). -/
def requestLength (b : List Byte) : Option Nat :=
  match byteAt b 0 with
  | 1 | 2 | 22 => some 1
  | 3 => some 19
  | 4 | 6 => some 20
  | 5 | 16 => some 5
  | 7 => some 9
  | 8 | 9 | 12 | 13 | 14 | 17 | 18 => some 2
  | 10 => some 13
  | 11 => some 12
  | 15 | 19 | 20 | 23 | 24 => some 3
  | 21 => inspectLength (byteAt b 1)
  | _ => none

/-- The size check of R161: body length and payload count are those Table 9-3 gives for the kind. Every
Management Request carries its 1-byte request kind, so an empty body fails. -/
def sizeOk (link : Nat) (m : Message) : Bool :=
  match m.kind with
  | 1 => m.bodyLength == 12 && m.payloadCount == 0
  | 2 => m.bodyLength == 0 && m.payloadCount == 0
  | 3 => m.bodyLength == 3 && m.payloadCount == 0
  | 4 =>
    let n := byteAt m.body 1
    decide (1 ≤ n) && decide (n ≤ 32) && m.payloadCount == n &&
      m.bodyLength == (if link = 0 then 4 else 4 + 5 * n)
  | 5 => m.bodyLength == 8 && m.payloadCount == 0
  | 6 => m.bodyLength == 0 && m.payloadCount == 0
  | 7 => m.bodyLength == 1 && m.payloadCount == 0
  | 8 => m.bodyLength == 1 && m.payloadCount == 0
  | 9 => m.bodyLength == 3 && m.payloadCount == 0
  | 10 => m.bodyLength == 3 && m.payloadCount == 0
  | 11 => m.bodyLength == 4 && m.payloadCount == 0
  | 12 => m.bodyLength == 8 && m.payloadCount == 0
  | 13 => m.bodyLength == 4 && m.payloadCount == 0
  | 14 => m.bodyLength == 8 && m.payloadCount == 0
  | 15 =>
    decide (1 ≤ m.bodyLength) && (requestLength m.body).all (fun n => m.bodyLength == n) &&
      m.payloadCount == 0
  | _ => false

/-! ### Messages of the intake and drain links -/

/-- The fields of a Write Intent (Table 9-6). -/
structure Intent where
  tenant : Nat
  handle : Nat
  lba : Nat
  n : Nat
  /-- A present hint of 0..7; a hint of 8..15 counts as absent (R3). -/
  hint : Option Nat
  age : Nat
  deriving DecidableEq, Repr

/-- The hint byte: bit 7 present, bits 3..0 the value (Table 9-6); 8..15 is treated as absent (R3). -/
def presentHint (v : Nat) : Option Nat :=
  if v.testBit 7 && decide (v % 16 < 8) then some (v % 16) else none

/-- Read a Write Intent body (Table 9-6). -/
def readIntent (b : List Byte) : Intent :=
  { tenant := numAt b 0 2, handle := numAt b 2 2, lba := numAt b 4 5, n := byteAt b 9,
    hint := presentHint (byteAt b 10), age := byteAt b 11 % 4 }

/-- Read the scope of a Flush: a tenant as carried, ALL_TENANTS, or no member (Table 9-10). -/
def readScope (b : List Byte) : Option Scope :=
  match byteAt b 0 with
  | 0 => some (.tenant (numAt b 1 2))
  | 1 => some .all
  | _ => none

/-- The source locations of a Write Data on a drain link, in slice order (Table 9-10). -/
def readSource (link : Nat) (b : List Byte) (i : Nat) : Option Opaque40 :=
  if link = 0 then none else some (opaqueAt b (4 + 5 * i))

/-- A run of keys as Read Probe and Inquire name it: handle, LBA and count (Table 9-3). -/
structure KeyRun where
  key : Key
  n : Nat
  deriving DecidableEq, Repr

/-- Read the body of a Read Probe or an Inquire. -/
def readRun (b : List Byte) : KeyRun :=
  { key := { handle := numAt b 0 2, lba := numAt b 2 5 }, n := byteAt b 7 }

/-- The range check of Write Intent, Read Probe and Inquire: n in 1..32, handle in 0..1,023 and
LBA + n at most 2^40 (R27, R69, R72). -/
def runOk (handle lba n : Nat) : Bool :=
  decide (1 ≤ n) && decide (n ≤ 32) && decide (handle ≤ Config.maxHandle) &&
    decide (lba + n ≤ Config.lbaLimit)

/-- The reason of a Unit Fail (R124). -/
inductive FailReason where
  | retry
  | laneFault
  deriving DecidableEq, Repr

/-- Read the reason of a Unit Fail: RETRY 0, LANE_FAULT 1, or no member (Table 9-10). -/
def readReason (b : List Byte) : Option FailReason :=
  match byteAt b 3 with
  | 0 => some .retry
  | 1 => some .laneFault
  | _ => none

/-! ### Management requests -/

/-- Request kinds in the order of Table 10-2 (Table 9-10). -/
def requestKinds : Nat := 24

def readClass (v : Nat) : Option WriteClass :=
  match v with
  | 0 => some .host
  | 1 => some .reclaim
  | _ => none

def readPolicy (v : Nat) : Option Policy :=
  match v with
  | 0 => some .full
  | 1 => some .adaptive
  | _ => none

def readMode (v : Nat) : Option WindowMode :=
  match v with
  | 0 => some .fixed
  | 1 => some .sliding
  | _ => none

def readOrder (v : Nat) : Option FetchOrder :=
  match v with
  | 0 => some .linear
  | 1 => some .paired
  | _ => none

/-- A rule action: STREAM 0 with its stream, PROTECT 1, PASS 2 (Table 9-10). -/
def readAction (b : List Byte) (i : Nat) : Option RuleAction :=
  match byteAt b i with
  | 0 => some (.stream (byteAt b (i + 1)))
  | 1 => some .protect
  | 2 => some .pass
  | _ => none

/-- Read the rule a Rule Set carries (R4, Table 1-2); its hit count is 0. -/
def readRule (b : List Byte) : Option Rule :=
  match flagAt b 2, readAction b 18 with
  | some enabled, some action =>
    some { enabled := enabled, tenantLow := byteAt b 3, tenantHigh := byteAt b 4,
           handle := num2OrNone b 5, lbaLow := numAt b 7 5, lbaHigh := numAt b 12 5,
           hint := byteOrNone b 17, action := action, hits := 0 }
  | _, _ => none

/-- The classification fields a Tenant Set carries (R15). -/
structure TenantFields where
  defaultStream : Nat
  seqStream : Option Nat
  hintMap : List (Option Nat)
  deriving DecidableEq, Repr

/-- Read the classification fields of a Tenant Set: they follow the tenant, the reserve and the cap. -/
def readTenantFields (b : List Byte) : TenantFields :=
  { defaultStream := byteAt b 10, seqStream := byteOrNone b 11,
    hintMap := (List.range 8).map (fun h => byteOrNone b (12 + h)) }

/-- The policy fields of Stream Bind and Stream Set (R82, R83). -/
structure StreamFields where
  policy : Policy
  mode : WindowMode
  window : Nat
  hold : Nat
  lanes : LaneSet
  deriving DecidableEq, Repr

/-- Read policy, window mode, W, H and lane set from byte `i` on. -/
def readStreamFields (b : List Byte) (i : Nat) : Option StreamFields :=
  match readPolicy (byteAt b i), readMode (byteAt b (i + 1)) with
  | some policy, some mode =>
    some { policy := policy, mode := mode, window := numAt b (i + 2) 2, hold := numAt b (i + 4) 2,
           lanes := BitVec.ofNat 32 (numAt b (i + 6) 4) }
  | _, _ => none

/-- Everything a Configure carries (Table 10-3): the settings MGU holds and, for drain links 1..4, the
lane depths and then the fetch orders. -/
structure Settings where
  cfg : GlobalConfig
  drains : List DrainConfig
  deriving DecidableEq, Repr

/-- Read the drain link settings of a Configure, if every fetch order names a member. -/
def readDrains (b : List Byte) : List Nat → Option (List DrainConfig)
  | [] => some []
  | i :: rest =>
    match readOrder (byteAt b (15 + i)), readDrains b rest with
    | some order, some ds => some ({ depth := byteAt b (11 + i), order := order } :: ds)
    | _, _ => none

/-- Read a Configure (R176, Table 10-3). -/
def readSettings (b : List Byte) : Option Settings :=
  (readDrains b [0, 1, 2, 3]).map fun ds =>
    { cfg := { unitSize := byteAt b 1, slotPeriod := byteAt b 2, grantLifetime := numAt b 3 2,
               seqThreshold := numAt b 5 2, pressureThreshold := numAt b 7 4 },
      drains := ds }

end Sys2Proof.Machine
end

