-- ==== Sys2Proof/Machine/Classify.lean ====
section
/-! DEFINITION. Classification of intents, the run tracker, and refusals (chapter 1). -/

namespace Sys2Proof.Machine

/-! ### Rules (R5 to R7) -/

/-- The tenant, handle and hint conditions of R5. -/
def Rule.selects (r : Rule) (t handle : Nat) (hint : Option Nat) : Bool :=
  r.enabled && decide (r.tenantLow ≤ t) && decide (t ≤ r.tenantHigh) &&
    r.handle.all (· == handle) && r.hint.all (fun h => hint == some h)

/-- A PROTECT rule matches when the run of LBAs overlaps its range (R5). -/
def Rule.protects (r : Rule) (t handle lba n : Nat) (hint : Option Nat) : Bool :=
  r.action == .protect && r.selects t handle hint &&
    decide (lba ≤ r.lbaHigh) && decide (r.lbaLow ≤ lba + n - 1)

/-- A STREAM or PASS rule matches when the starting LBA lies in its range (R5). -/
def Rule.directs (r : Rule) (t handle lba : Nat) (hint : Option Nat) : Bool :=
  r.action != .protect && r.selects t handle hint &&
    decide (r.lbaLow ≤ lba) && decide (lba ≤ r.lbaHigh)

/-- The lowest-numbered PROTECT rule that matches (R6). -/
def protectRule (s : State) (t handle lba n : Nat) (hint : Option Nat) : Option Nat :=
  firstFrom (fun r => (s.rule r).protects t handle lba n hint) Config.ruleCount 0

/-- The rule that ends the rule search: the lowest-numbered STREAM or PASS rule that matches (R7). -/
def searchRule (s : State) (t handle lba : Nat) (hint : Option Nat) : Option Nat :=
  firstFrom (fun r => (s.rule r).directs t handle lba hint) Config.ruleCount 0

/-- A rule that decides has its hit count raised, saturating (R4). -/
def hitRule (r : Nat) (s : State) : State :=
  let v := s.rule r
  s.setRule r { v with hits := satSucc v.hits }

/-! ### The run tracker (R9) -/

/-- The run tracker after an intent of a tenant: its run continues, or a new run starts (R9). -/
def RunTracker.advance (k : RunTracker) (handle lba n : Nat) : RunTracker :=
  if k.handle = some handle ∧ k.nextLba = lba then
    { handle := some handle, nextLba := lba + n, runLength := min 4095 (k.runLength + n) }
  else { handle := some handle, nextLba := lba + n, runLength := n }

/-! ### The choice of a stream (R7 to R13, R17) -/

/-- A stream that is fit for a class (R12). -/
def Stream.fit (k : Stream) (c : WriteClass) : Bool :=
  (k.state == .active || k.state == .paused) && k.cls == c

/-- A classification's choice: the stream, or none where it is refused NO_STREAM; and whether FALLBACK
is set (R13, R17). -/
structure Choice where
  stream : Option Nat
  fellBack : Bool
  deriving DecidableEq, Repr

/-- Judge a choice `c` that falls back once to `d` (R13, R17, R18). -/
def judge (s : State) (cls : WriteClass) (c d : Nat) : Choice :=
  if (s.stream c).fit cls then { stream := some c, fellBack := false }
  else if (s.stream d).fit cls then { stream := some d, fellBack := true }
  else { stream := none, fellBack := false }

/-- Steps 3 to 5: the hint map, the sequential stream, the default stream (R8, R10, R11), with the run
length as R9 has updated it. -/
def chooseByRecord (s : State) (v : Tenant) (runLength : Nat) (hint : Option Nat) : Nat :=
  match hint.bind (fun h => (v.hintMap.getD h none)) with
  | some k => k
  | none =>
    match v.seqStream with
    | some k => if s.cfg.seqThreshold ≤ runLength then k else v.defaultStream
    | none => v.defaultStream

/-- Steps 2 to 5 for a HOST intent (Table 1-3): the rule that ended the search decides, or passes on. -/
def chooseHost (s : State) (v : Tenant) (ended : Option Nat) (runLength : Nat) (hint : Option Nat) :
    Nat :=
  match ended.map (fun r => (s.rule r).action) with
  | some (.stream k) => k
  | _ => chooseByRecord s v runLength hint

/-- The choice for a RECLAIM intent of age `g`: the reclaim map alone, falling back to entry 0 (R17).
An unfit entry 0 is its own fallback, and is unfit again. -/
def chooseReclaim (s : State) (g : Nat) : Choice :=
  judge s .reclaim (s.reclaimMap.getD g 0) (s.reclaimMap.getD 0 0)

/-! ### Refusals (R19 to R21) -/

/-- The refusal capture takes an entry, dropping its oldest when it holds 8, and the total refusal
count rises, saturating (R20). -/
def capture (c : Capture) (s : State) : State :=
  { s with
    captures := (if s.captures.length < Config.captureLimit then s.captures else s.captures.tail) ++ [c]
    refusals := satSucc s.refusals }

/-- Refuse a Write Intent: it is captured, and Intent Refused goes to its link (R19, R20). -/
def refuse (c : Capture) (s : State) : State :=
  place c.link (.intentRefused c.tag c.reason) (capture c s)

/-- The capture entry of an intent as carried (Table 1-6). -/
def Intent.captureOf (w : Intent) (link tag : Nat) (reason : RefusalCode) (rule : Option Nat) :
    Capture :=
  { link := link, tag := tag, tenant := if link = 0 then some w.tenant else none,
    key := { handle := w.handle, lba := w.lba }, count := w.n, reason := reason, rule := rule }

/-- The capture entry of a pending entry (R20). -/
def Entry.captureOf (e : Entry) (reason : RefusalCode) : Capture :=
  { link := e.link, tag := e.tag, tenant := if e.link = 0 then some e.account else none,
    key := e.key, count := e.n, reason := reason, rule := none }

/-! ### Management of the classifier's records -/

/-- Checks of Rule Set on the rule number and the rule's fields (R4). -/
def ruleOk (number : Nat) (r : Rule) : Bool :=
  decide (number < Config.ruleCount) && decide (r.tenantHigh ≤ 255) &&
    decide (r.tenantLow ≤ r.tenantHigh) && r.handle.all (fun h => decide (h ≤ Config.maxHandle)) &&
    decide (r.lbaHigh < Config.lbaLimit) && decide (r.lbaLow ≤ r.lbaHigh) &&
    r.hint.all (fun h => decide (h ≤ 7)) &&
    (match r.action with
     | .stream k => decide (k < Config.streamCount)
     | .protect => true
     | .pass => true)

/-- A stream number, or none (R15). -/
def streamOk (k : Option Nat) : Bool := k.all (fun k => decide (k < Config.streamCount))

/-- Checks of Tenant Set on the classification fields (R15). -/
def tenantFieldsOk (t : Nat) (f : TenantFields) : Bool :=
  decide (t < Config.tenantCount) && decide (f.defaultStream < Config.streamCount) &&
    streamOk f.seqStream && f.hintMap.all streamOk

/-- A reset of link 0 sets every tenant's run tracker to its values after the full reset (R22). -/
def clearTrackers (s : State) : State :=
  { s with
    tenants := Table.mapPut Tenant.reset (fun v => { v with tracker := RunTracker.reset }) s.tenants }

end Sys2Proof.Machine
end

