-- ==== Sys2Proof/Machine/Admission.lean ====
section
/-! DEFINITION. The admission test, grants, the pending list and its re-test walk (chapter 2). -/

namespace Sys2Proof.Machine

/-! ### The stages (R28 to R31) -/

/-- The keys of a run of n slices (Table 1-1). -/
def runKeys (key : Key) (n : Nat) : List Key := (List.range n).map key.offset

/-- Count one more key in set `x`; a set not met before joins the tail. -/
def bumpSet (x : Nat) : List (Nat × Nat) → List (Nat × Nat)
  | [] => [(x, 1)]
  | (y, c) :: rest => if y = x then (y, c + 1) :: rest else (y, c) :: bumpSet x rest

/-- The distinct sets of a run with c_x, in the order of the lowest LBA of each (R30). -/
def setCounts (key : Key) (n : Nat) : List (Nat × Nat) :=
  (runKeys key n).foldl (fun acc k => bumpSet (indexHash k) acc) []

/-- Stage 4 for one set: its occupied, reserved and newly needed ways fit in 16 (R30). -/
def waysFit (s : State) (p : Nat × Nat) : Bool :=
  decide ((s.indexSet p.1).occupied + (s.indexSet p.1).reserved + p.2 ≤ Config.wayCount)

/-- The first set in LBA order that fails stage 4 (R30). -/
def failingSet (s : State) (key : Key) (n : Nat) : Option Nat :=
  (List.find? (fun p => !waysFit s p) (setCounts key n)).map (·.1)

/-- The unit records an intent of n slices reserves, k (R31). -/
def recordsNeeded (s : State) (n : Nat) : Nat := ceilDiv n s.cfg.unitSize

/-- Stage 3: what the account's unused reserve does not cover fits in the shared free count (R29). -/
def poolOk (s : State) (a n : Nat) : Bool :=
  decide (n - unusedReserve (s.account a) ≤ sharedFree s)

/-- The lowest-numbered VACANT grant (R31, R32). -/
def vacantGrant (s : State) : Option Nat :=
  firstFrom (fun g => (s.grant? g).isNone) Config.grantCount 0

/-- Stages 2 to 6, all evaluated: the reasons of every stage that fails (R29 to R31). -/
def resourceReasons (s : State) (a k : Nat) (key : Key) (n : Nat) : Reasons :=
  { order := false, frozen := false,
    cap := decide ((s.account a).cap < (s.account a).used + n),
    frames := !poolOk s a n,
    ways := (failingSet s key n).isSome,
    units := decide (Config.ringSize <
      s.usedRecords k + (s.stream k).reserved + recordsNeeded s n),
    grants := (vacantGrant s).isNone }

/-- The account is a tenant whose frozen flag is set (R28, R42). -/
def isFrozen (s : State) (a : Nat) : Bool :=
  decide (a ≠ Config.reclaimAccount) && (s.account a).frozen

/-- A tag in use on a link: by a pending entry or a LIVE grant that came from it (R27). -/
def tagInUse (s : State) (link tag : Nat) : Bool :=
  s.waiting.any (fun e => e.link == link && e.tag == tag) ||
    s.grants.any (fun p => p.2.link == link && p.2.tag == tag)

/-! ### Grants (R32, R36, R37) -/

/-- Reserve ways in every set of a run, or return them (R32, R37). -/
def reserveSets (l : List (Nat × Nat)) (s : State) : State :=
  l.foldl (fun s p => reserveWays p.1 p.2 s) s

def releaseSets (l : List (Nat × Nat)) (s : State) : State :=
  l.foldl (fun s p => releaseWays p.1 p.2 s) s

/-- Raise the records of stream `k` reserved by LIVE grants (R81). -/
def reserveRecords (k c : Nat) (s : State) : State :=
  s.setStream k { s.stream k with reserved := (s.stream k).reserved + c }

/-- Lower the records of stream `k` reserved by LIVE grants; a RETIRING stream may become UNBOUND (R81,
R86). -/
def releaseRecords (k c : Nat) (s : State) : State :=
  checkUnbound k (s.setStream k { s.stream k with reserved := (s.stream k).reserved - c })

/-- The grant record made for an intent (R32). -/
def newGrant (s : State) (link tag a k : Nat) (key : Key) (n : Nat) : Grant :=
  { link := link, tag := tag, account := a, stream := k, key := key, n := n,
    sets := setCounts key n, k := recordsNeeded s n, lapse := s.now + 100 * s.cfg.grantLifetime }

/-- The records of a grant: frames, ways and unit records are promised, and the grant is LIVE (R32). -/
def grantRecords (g link tag a k : Nat) (key : Key) (n : Nat) (s : State) : State :=
  let v := newGrant s link tag a k key n
  let s := chargeFrames a n s
  let s := reserveSets v.sets s
  let s := reserveRecords k v.k s
  s.setGrant g v

/-- Grant an intent: all effects of R32 as one, the Grant message, and then the pressure comparison. -/
def makeGrant (g link tag a k : Nat) (key : Key) (n : Nat) (s : State) : State :=
  let s := grantRecords g link tag a k key n s
  let s := place link (.grant tag g k s.cfg.grantLifetime) s
  pressureCompare s

/-- The reservations of LIVE grant `g` return and it becomes VACANT (R37, R38). -/
def returnGrant (g : Nat) (v : Grant) (s : State) : State :=
  let s := returnFrames v.account v.n s
  let s := releaseSets v.sets s
  let s := s.clearGrant g
  releaseRecords v.stream v.k s

/-- LIVE grant `g` lapses, without the re-test walk that ends the event (R37). -/
def lapseGrant (g : Nat) (v : Grant) (s : State) : State :=
  setEvent .grantLapse (returnGrant g v s)

/-- Every LIVE grant that meets a condition lapses, lowest id first (R49 to R51). -/
def lapseGrants (p : Grant → Bool) (s : State) : State :=
  (s.grants.filter (fun q => p q.2)).foldl (fun s q => lapseGrant q.1 q.2 s) s

/-- ADM settles a grant whose placement has ended: its unit records return and it becomes VACANT (R36). -/
def settleGrant (g : Nat) (v : Grant) (s : State) : State :=
  releaseRecords v.stream v.k (s.clearGrant g)

/-! ### Holding (R33) -/

/-- What follows a hold: the pressure comparison when the reasons include FRAMES, relief when they
include WAYS (R33, R43). -/
def afterHold (r : Reasons) (relief : Option Nat) (s : State) : State :=
  let s := if r.frames then pressureCompare s else s
  match r.ways, relief with
  | true, some x => reliefStage x s
  | _, _ => s

/-- Hold an intent at the tail of the pending list; none when the list is full and it must stall (R33). -/
def holdIntent (e : Entry) (s : State) : Option State :=
  if s.waiting.length < Config.pendingLimit then
    let s := raiseHeld e.account (s.setWaiting (s.waiting ++ [e]))
    let s := place e.link (.holdNotice e.tag e.reasons) s
    some (afterHold e.reasons e.relief s)
  else none

/-- Stages 1 to 6 for an intent that has passed stage 0: it is granted or held, or stalls (none) (R28 to
R33). -/
def admission (link tag a : Nat) (cls : WriteClass) (k : Nat) (key : Key) (n : Nat) (s : State) :
    Option State :=
  let order := decide (0 < (s.account a).heldCount)
  let frozen := isFrozen s a
  let entry (r : Reasons) (relief : Option Nat) : Entry :=
    { link := link, tag := tag, account := a, cls := cls, key := key, n := n, stream := k,
      reasons := r, relief := relief }
  if order || frozen then
    holdIntent (entry { Reasons.none with order := order, frozen := frozen } none) s
  else
    match vacantGrant s with
    | some g =>
      if resourceReasons s a k key n = Reasons.none then some (makeGrant g link tag a k key n s)
      else holdIntent (entry (resourceReasons s a k key n) (failingSet s key n)) s
    | none => holdIntent (entry (resourceReasons s a k key n) (failingSet s key n)) s

/-! ### Taking a Write Intent (R27) -/

/-- Stage 0 from the count check on, and the later stages (R27 step 5, R28 to R33). -/
def admitOrRefuse (link tag a : Nat) (cls : WriteClass) (k : Nat) (w : Intent) (refused held : State) :
    Option State :=
  if (refused.account a).cap < w.n then
    some (refuse (w.captureOf link tag .exceedsCap none) refused)
  else admission link tag a cls k { handle := w.handle, lba := w.lba } w.n held

/-- The tenant's run tracker as a HOST intent leaves it (R9). -/
def trackerAfter (s : State) (w : Intent) : RunTracker :=
  (s.tenant w.tenant).tracker.advance w.handle w.lba w.n

/-- The rule that ends the rule search for a HOST intent (R7). -/
def endedRule (s : State) (w : Intent) : Option Nat := searchRule s w.tenant w.handle w.lba w.hint

/-- The choice of a stream for a HOST intent that no PROTECT rule refuses (R7 to R13). -/
def hostChoice (s : State) (w : Intent) : Choice :=
  let v := s.tenant w.tenant
  judge s .host (chooseHost s v (endedRule s w) (trackerAfter s w).runLength w.hint) v.defaultStream

/-- The hit count of the rule that ended the search rises, and a fallback sets FALLBACK (R4, R13). -/
def tellChoice (s : State) (w : Intent) : State :=
  setEventIf (hostChoice s w).fellBack .fallback
    (match endedRule s w with
     | some r => hitRule r s
     | none => s)

/-- As `tellChoice`, with the run tracker written (R14). -/
def classified (s : State) (w : Intent) : State :=
  (tellChoice s w).setTenant w.tenant { s.tenant w.tenant with tracker := trackerAfter s w }

/-- A HOST intent that has passed the arrival checks: classification, then admission; none when it
stalls (R6 to R14). The run tracker is written when the intent is granted, held or refused NO_STREAM
and set aside when it is refused EXCEEDS_CAP (R14). -/
def takeHost (tag : Nat) (w : Intent) (s : State) : Option State :=
  match protectRule s w.tenant w.handle w.lba w.n w.hint with
  | some r =>
    some (refuse (w.captureOf 0 tag .protectedRange (some r))
      (setEvent .protectRefusal (hitRule r s)))
  | none =>
    match (hostChoice s w).stream with
    | some k => admitOrRefuse 0 tag w.tenant .host k w (tellChoice s w) (classified s w)
    | none => some (refuse (w.captureOf 0 tag .noStream none) (classified s w))

/-- A RECLAIM intent that has passed the arrival checks (R17). -/
def takeReclaim (link tag : Nat) (w : Intent) (s : State) : Option State :=
  let choice := chooseReclaim s w.age
  let told := setEventIf choice.fellBack .fallback s
  match choice.stream with
  | some k => admitOrRefuse link tag Config.reclaimAccount .reclaim k w told told
  | none => some (refuse (w.captureOf link tag .noStream none) told)

/-- The fields of an intent lie in their ranges (R27 step 2). -/
def intentOk (link : Nat) (w : Intent) : Bool :=
  runOk w.handle w.lba w.n && (decide (link ≠ 0) || decide (w.tenant < Config.tenantCount))

/-- Stage 0 and what follows; none when the intent stalls (R27). -/
def takeIntent (link tag : Nat) (w : Intent) (s : State) : Option State :=
  match s.part with
  | .powerFail => some (refuse (w.captureOf link tag .powerFail none) s)
  | .starting => some (refuse (w.captureOf link tag .notRunning none) s)
  | .stopped => some (refuse (w.captureOf link tag .notRunning none) s)
  | .running =>
    if !intentOk link w then some (refuse (w.captureOf link tag .malformed none) s)
    else if tagInUse s link tag then some (refuse (w.captureOf link tag .duplicateTag none) s)
    else if link = 0 then takeHost tag w s
    else takeReclaim link tag w s

/-- Take the Write Intent `m` at the head of its channel: it leaves the queue, or stalls there with no
other change (R2, R27, R40). -/
def intentTaking (link : Nat) (m : Message) (s : State) : State :=
  match takeIntent link m.tag (readIntent m.body) (takeHead link (intentChannel link) s) with
  | some s' => s'
  | none => stallHead link (intentChannel link) s

/-! ### The re-test walk (R41 to R43) -/

/-- What a re-test does with an entry: it stays on the list, or leaves it. -/
inductive Retest where
  | keep (e : Entry) (s : State)
  | leave (s : State)

/-- The stream an entry falls back to at its re-check (R18). -/
def fallbackStream (s : State) (e : Entry) : Nat :=
  match e.cls with
  | .host => (s.tenant e.account).defaultStream
  | .reclaim => s.reclaimMap.getD 0 0

/-- A re-tested entry is refused: it leaves the list (R43). -/
def refuseEntry (e : Entry) (reason : RefusalCode) (s : State) : State :=
  callIntentRetakes (refuse (e.captureOf reason) (lowerHeld e.account s))

/-- Stages 2 to 6 for an entry with its stream as re-checked (R42 step 4, R43). -/
def retestResources (e : Entry) (s : State) : Retest :=
  let r := resourceReasons s e.account e.stream e.key e.n
  let relief := failingSet s e.key e.n
  match vacantGrant s with
  | some g =>
    if r = Reasons.none then
      .leave (callIntentRetakes
        (makeGrant g e.link e.tag e.account e.stream e.key e.n (lowerHeld e.account s)))
    else .keep { e with reasons := r, relief := relief } (afterHold r relief s)
  | none => .keep { e with reasons := r, relief := relief } (afterHold r relief s)

/-- Re-test one entry that has no older entry of its account on the list (R42, R43). -/
def retest (e : Entry) (s : State) : Retest :=
  let choice := judge s e.cls e.stream (fallbackStream s e)
  let s := setEventIf choice.fellBack .fallback s
  match choice.stream with
  | none => .leave (refuseEntry e .noStream s)
  | some k =>
    let e := { e with stream := k }
    if (s.account e.account).cap < e.n then .leave (refuseEntry e .exceedsCap s)
    else if isFrozen s e.account then
      .keep { e with reasons := { Reasons.none with frozen := true }, relief := none } s
    else retestResources e s

/-- Visit the entries from head to tail; `kept` are those that stayed on the list so far (R42). -/
def walkFrom (kept : List Entry) : List Entry → State → State
  | [], s => s.setWaiting kept
  | e :: rest, s =>
    if kept.any (fun o => o.account == e.account) then
      walkFrom (kept ++ [{ e with reasons := { Reasons.none with order := true }, relief := none }])
        rest s
    else
      match retest e s with
      | .keep e' s' => walkFrom (kept ++ [e']) rest s'
      | .leave s' => walkFrom kept rest s'

/-- The re-test walk of the pending list (R41, R42). -/
def retestWalk (s : State) : State := walkFrom [] s.waiting s

/-! ### Withdrawal and removal (R38, R49 to R51) -/

/-- Remove an entry without an answer: its account's held-count falls (R38, R49, R50). -/
def removeEntry (e : Entry) (s : State) : State :=
  callIntentRetakes (lowerHeld e.account (s.setWaiting (s.waiting.erase e)))

/-- Remove the entries of a link (R49, R50). -/
def removeLinkEntries (link : Nat) (s : State) : State :=
  (s.waiting.filter (fun e => e.link == link)).foldl (fun s e => removeEntry e s) s

/-- The pending entry with a tag on a link (R38). -/
def findEntry (s : State) (link tag : Nat) : Option Entry :=
  List.find? (fun e => e.link == link && e.tag == tag) s.waiting

/-- The LIVE grant with a tag on a link (R38). -/
def findGrant (s : State) (link tag : Nat) : Option (Nat × Grant) :=
  List.find? (fun p => p.2.link == link && p.2.tag == tag) s.grants

/-- Take a Withdraw (R38). -/
def withdrawTag (link tag : Nat) (s : State) : State :=
  match findEntry s link tag with
  | some e => retestWalk (place link (.withdrawAnswer tag true) (removeEntry e s))
  | none =>
    match findGrant s link tag with
    | some (g, v) => retestWalk (place link (.withdrawAnswer tag true) (returnGrant g v s))
    | none => place link (.withdrawAnswer tag false) s

/-- On entry to POWER_FAIL every LIVE grant lapses and every pending entry is refused, from head to
tail; no walk runs (R51). -/
def powerFailAdmission (s : State) : State :=
  let s := lapseGrants (fun _ => true) s
  (s.waiting.foldl (fun s e => refuseEntry e .powerFail s) s).setWaiting []

/-- A reset of a link ends its grants and entries; the walk follows when it ended any (R49, R50, R168). -/
def endLinkTraffic (link : Nat) (s : State) : State :=
  removeLinkEntries link (lapseGrants (fun v => v.link == link) s)

/-- A reset of the link would lapse a grant or remove an entry (R168). -/
def hasLinkTraffic (s : State) (link : Nat) : Bool :=
  s.grants.any (fun p => p.2.link == link) || s.waiting.any (fun e => e.link == link)

/-! ### Limits (R44 to R46) -/

/-- The reserve and cap checks of R45 on account `a`, in their order: BAD_FIELD, LIMIT, LIMIT, or none
where they pass. -/
def limitCheck (a reserve cap : Nat) (s : State) : Option MgmtCode :=
  let s' := s.setAccount a { s.account a with reserve := reserve }
  if Config.frameCount < reserve ∨ Config.frameCount < cap then some .badField
  else if Config.frameCount < sumAccounts (·.reserve) s' then some .limit
  else if s.free < sumAccounts unusedReserve s' then some .limit
  else none

/-- Replace the reserve and the cap of an account (R45, R46). -/
def setLimits (a reserve cap : Nat) (s : State) : State :=
  s.setAccount a { s.account a with reserve := reserve, cap := cap }

end Sys2Proof.Machine
end

