-- ==== Sys2Proof/Machine/Placement.lean ====
section
/-! DEFINITION. Placement of Write Data, reads of frame data, and the release of frames (chapter 3). -/

namespace Sys2Proof.Machine

/-! ### Fills (R53, R62) -/

/-- The lowest-numbered FREE frame (R53). -/
def freeFrame (s : State) : Option Nat :=
  firstFrom (fun f => (s.frame? f).isNone) Config.frameCount 0

/-- What one slice of a Write Data brings: the grant's stream and account, the class of the message, and
the slice's key, payload and source location (R60). -/
structure SliceWrite where
  stream : Nat
  account : Nat
  cls : WriteClass
  key : Key
  data : Slice
  source : Option Opaque40

/-- The slice record of a newly filled frame (R53). -/
def newRecord (w : SliceWrite) (seq unit position : Nat) : SliceRecord :=
  { key := w.key, account := w.account, cls := w.cls, firstSeq := seq, latestSeq := seq, unit := unit,
    position := position, void := false, damaged := false, source := w.source }

/-- Fill frame `f` for a slice and append it to OPEN unit `v` of its stream: the slice's bytes replace what
the frame held, with a fresh check code (R53, R62, R73). -/
def fillFrame (w : SliceWrite) (f v : Nat) (s : State) : State :=
  let position := ((s.unit? v).map UnitRecord.fill).getD 0
  let s := (s.clearFreed f).setFrame f
    { record := newRecord w s.nextSeq v position, data := w.data, latent := false }
  let s := s.setNextSeq (s.nextSeq + 1)
  appendFrame w.stream v f s

/-- Put a slice into a new frame of the OPEN unit of its stream, opening the unit when there is none;
the number of the frame and the state (R53, R62). -/
def placeNew (w : SliceWrite) (s : State) : Except Fault (Nat × State) :=
  match freeFrame s, withOpenUnit w.stream s with
  | some f, some (v, s') => .ok (f, fillFrame w f v s')
  | none, _ => .error .noFreeFrame
  | some _, none => .error .noVacantUnit

/-! ### Placement outcomes (R60 to R65) -/

/-- The lowest-numbered VACANT way of a set (R56). -/
def vacantWay (x : IndexSet) : Option Nat :=
  firstFrom (fun w => (Table.find? x.ways w).isNone) Config.wayCount 0

/-- Write way `w` of set `x` and lower the set's reserved count by 1 (R61, R64). -/
def writeWay (x w : Nat) (v : Way) (s : State) : State :=
  let q := s.indexSet x
  s.setIndexSet x { ways := Table.insert q.ways w v, reserved := q.reserved - 1 }

/-- A miss (R61). -/
def placeMiss (w : SliceWrite) (s : State) : Except Fault (Placed × State) :=
  let x := indexHash w.key
  match vacantWay (s.indexSet x) with
  | none => .error .noVacantWay
  | some i =>
    match placeNew w s with
    | .error e => .error e
    | .ok (f, s') => .ok (.placed s.nextSeq, writeWay x i { key := w.key, frame := f } s')

/-- An in-place hit on frame `f`, which holds record and data `v` in OPEN unit `v.record.unit` (R63). -/
def placeInPlace (w : SliceWrite) (f : Nat) (v : Frame) (s : State) : Placed × State :=
  let seq := s.nextSeq
  let s := s.setFrame f
    { record := { v.record with latestSeq := seq, damaged := false,
                                source := if w.cls = .reclaim then w.source else v.record.source },
      data := w.data, latent := false }
  let s := s.setNextSeq (seq + 1)
  let s := releaseWays (indexHash w.key) 1 s
  let s := returnFrames w.account 1 s
  let s := s.setStream w.stream
    { s.stream w.stream with inPlaceHits := (s.stream w.stream).inPlaceHits + 1 }
  (.overwritten seq, arrive w.stream v.record.unit s)

/-- A superseding hit on frame `f` through way `i` (R64). -/
def placeSupersede (w : SliceWrite) (i f : Nat) (v : Frame) (s : State) :
    Except Fault (Placed × State) :=
  let s' := s.setFrame f { v with record := { v.record with void := true } }
  match placeNew w s' with
  | .error e => .error e
  | .ok (f', s'') =>
    .ok (.placed s.nextSeq, writeWay (indexHash w.key) i { key := w.key, frame := f' } s'')

/-- A dropped relocation (R65). -/
def placeDropped (w : SliceWrite) (s : State) : Placed × State :=
  (.superseded, returnFrames w.account 1 (releaseWays (indexHash w.key) 1 s))

/-- Place one slice: the outcome follows Table 3-3 (R60). A way whose frame is not HELD, which a law of
the device excludes (R56), counts as a miss. -/
def placeSlice (w : SliceWrite) (s : State) : Except Fault (Placed × State) :=
  match lookup s w.key with
  | none => placeMiss w s
  | some (i, way) =>
    match s.frame? way.frame with
    | none => placeMiss w s
    | some v =>
      if v.record.cls = w.cls ∧ (s.stream w.stream).openUnit = some v.record.unit then
        .ok (placeInPlace w way.frame v s)
      else if w.cls = .reclaim ∧ v.record.cls = .host then .ok (placeDropped w s)
      else placeSupersede w i way.frame v s

/-- Place slices one after the other (R60). -/
def placeSlices : List SliceWrite → State → Except Fault (List Placed × State)
  | [], s => .ok ([], s)
  | w :: rest, s =>
    match placeSlice w s with
    | .error e => .error e
    | .ok (o, s') =>
      match placeSlices rest s' with
      | .error e => .error e
      | .ok (os, s'') => .ok (o :: os, s'')

/-- The slices of a Write Data placed against grant `v` (R35, R60). -/
def sliceWrites (link : Nat) (v : Grant) (m : Message) : List SliceWrite :=
  (List.range v.n).map fun i =>
    { stream := v.stream, account := v.account,
      cls := if link = 0 then .host else .reclaim,
      key := v.key.offset i, data := m.payloads.getD i [], source := readSource link m.body i }

/-- The acts that end a placement, in the order of R66. -/
def endPlacement (link g : Nat) (v : Grant) (outcomes : List Placed) (s : State) : State :=
  let s := settleGrant g v s
  let s := place link (.writeDone v.tag g v.stream v.n outcomes) s
  let s := endOfPlacement v.stream s
  evalSafe (retestWalk s)

/-- What ADM finds for a Write Data at its taking (R35). -/
inductive DataCheck where
  | proceeds (v : Grant)
  | refused (code : DataCode)

/-- The check of a Write Data against the grant table (R35). -/
def checkData (s : State) (link g tag count : Nat) : DataCheck :=
  match s.grant? g with
  | some v =>
    if v.link = link ∧ v.tag = tag then
      if v.n = count then .proceeds v else .refused .mismatch
    else .refused .late
  | none => .refused .late

/-- Take Write Data `m`, which has left its queue: it is placed whole or refused (R35, R60, R66). -/
def takeData (link : Nat) (m : Message) (s : State) : Result :=
  let g := byteAt m.body 0
  match checkData s link g m.tag (byteAt m.body 1) with
  | .refused code => .next (place link (.dataRefused m.tag g code) s)
  | .proceeds v =>
    match placeSlices (sliceWrites link v m) s with
    | .error e => .fault e
    | .ok (outcomes, s') => .next (endPlacement link g v outcomes s')

/-! ### Reads of frame data (R73, R75) -/

/-- The result of a read whose DRAM answers `r`: a correctable error found before is still in the stored
copy, and a read that finds nothing worse corrects it again (R73). -/
def readOutcome (v : Frame) (r : ReadResult) : ReadResult :=
  match v.latent, r with
  | true, .clean => .corrected
  | _, r => r

/-- Read frame `f`, which holds `v`: its record afterwards and the state (R73, R75). -/
def readFrame (f : Nat) (v : Frame) (r : ReadResult) (s : State) : Frame × State :=
  match readOutcome v r with
  | .clean => (v, s)
  | .corrected =>
    let v' := { v with latent := true }
    (v', { s.setFrame f v' with corrected := satSucc s.corrected })
  | .uncorrectable =>
    let v' := { v with record := { v.record with damaged := true } }
    (v', setEvent .storeError
      { s.setFrame f v' with uncorrectable := satSucc s.uncorrectable })

/-- The next DRAM result; a read for which the command carries none ends clean. -/
def nextRead (rs : List ReadResult) : ReadResult := rs.headD .clean

/-- The answers to the keys of a Read Probe: their statuses, the data of the hits, and the state (R70). -/
def probeKeys : List Key → List ReadResult → State → List ProbeStatus × List Slice × State
  | [], _, s => ([], [], s)
  | k :: ks, rs, s =>
    match (lookup s k).bind (fun p => (s.frame? p.2.frame).map (fun v => (p.2.frame, v))) with
    | none =>
      let (sts, ds, s') := probeKeys ks rs s
      (.miss :: sts, ds, s')
    | some (f, v) =>
      if v.record.damaged then
        let (sts, ds, s') := probeKeys ks rs s
        (.damaged :: sts, ds, s')
      else
        let (v', s1) := readFrame f v (nextRead rs) s
        let (sts, ds, s') := probeKeys ks rs.tail s1
        if v'.record.damaged then (.damaged :: sts, ds, s')
        else (.hit :: sts, v.data :: ds, s')

/-- Take a Read Probe (R69 to R71). -/
def takeProbe (tag : Nat) (q : KeyRun) (rs : List ReadResult) (s : State) : State :=
  if runOk q.key.handle q.key.lba q.n then
    if s.part = .starting then
      place 0 (.probeAnswer tag q.n (List.replicate q.n .miss) []) s
    else
      let (sts, ds, s') := probeKeys (runKeys q.key q.n) rs s
      place 0 (.probeAnswer tag q.n sts ds) s'
  else place 0 (.probeRefused tag) s

/-- Take an Inquire (R72). -/
def takeInquire (link tag : Nat) (q : KeyRun) (s : State) : State :=
  if runOk q.key.handle q.key.lba q.n then
    if s.part = .starting then
      place link (.inquireAnswer tag q.n (List.replicate q.n false)) s
    else
      place link (.inquireAnswer tag q.n ((runKeys q.key q.n).map (fun k => (lookup s k).isSome))) s
  else place link (.inquireRefused tag) s

/-! ### Release (R55) -/

/-- Remove the way of set `x` that names frame `f`. -/
def removeWay (x f : Nat) (s : State) : State :=
  let q := s.indexSet x
  s.setIndexSet x { q with ways := q.ways.filter (fun p => p.2.frame ≠ f) }

/-- Release one frame at the delivery of its unit's report (R55). Its bytes stay in the stacked DRAM until
the next fill (log entry 20). -/
def releaseFrame (f : Nat) (s : State) : State :=
  match s.frame? f with
  | none => s
  | some v =>
    let s := if v.record.void then s else removeWay (indexHash v.record.key) f s
    returnFrames v.record.account 1
      ((s.clearFrame f).setFreed f { data := v.data, latent := v.latent })

/-- Release the frames of a unit in rising position order (R55, R142). -/
def releaseFrames (fs : List Nat) (s : State) : State := fs.foldl (fun s f => releaseFrame f s) s

end Sys2Proof.Machine
end

