-- ==== Sys2Proof/Machine/Tracking.lean ====
section
/-! DEFINITION. Flush tracking (chapter 8), the report queue and the delivery of reports (chapter 7),
and messages leaving a link (R164, R165). -/

namespace Sys2Proof.Machine

/-! ### What a flush counts (R147) -/

/-- A frame is in a scope (R147). -/
def Scope.holds (c : Scope) (r : SliceRecord) : Bool :=
  r.cls == .host && (match c with
    | .tenant t => r.account == t
    | .all => true)

/-- A frame meets the scope and horizon conditions of R147. -/
def inFlush (c : Scope) (horizon : Nat) (r : SliceRecord) : Bool :=
  c.holds r && decide (r.firstSeq ≤ horizon)

/-- The unit states whose frames a flush counts (R147). -/
def UnitState.counted : UnitState → Bool
  | .opened => true
  | .staged => true
  | .offered => true
  | .inFlight => true
  | .releasing => false
  | .faulted => false

/-- The number of frames a flush counts (R147). -/
def flushCounts (s : State) (c : Scope) (horizon : Nat) : Nat :=
  (s.frames.filter fun p =>
    inFlush c horizon p.2.record && (s.unit? p.2.record.unit).any (fun u => u.state.counted)).length

/-- The number of frames of unit `v` that meet a flush's conditions, whatever the unit's state (R151). -/
def flushCountsIn (s : State) (c : Scope) (horizon : Nat) (v : Nat) : Nat :=
  (s.frames.filter fun p => inFlush c horizon p.2.record && p.2.record.unit == v).length

/-- The OPEN units that hold a frame a flush counts, in rising unit id (R149). -/
def flushUnits (s : State) (c : Scope) (horizon : Nat) : List Nat :=
  (openUnits s).filter fun v => decide (0 < flushCountsIn s c horizon v)

/-! ### Taking a Flush (R148 to R150) -/

/-- The horizon of a Flush taken now (R148). -/
def flushHorizon (s : State) : Nat := s.nextSeq - 1

/-- The lowest-numbered VACANT flush entry (R149). -/
def vacantFlush (s : State) : Option Nat :=
  firstFrom (fun e => (s.flush? e).isNone) Config.flushCount 0

/-- The newest ACTIVE flush entry (Table 8-1). -/
def newestFlush (s : State) : Option Nat := s.flushOrder.getLast?

/-- The scope of a merge (R150). -/
def mergeScope (a b : Scope) : Scope := if a = b then a else .all

/-- Give a Flush the VACANT entry `e` (R149). -/
def activateFlush (e tag : Nat) (c : Scope) (s : State) : State :=
  let h := flushHorizon s
  let s' := s.setFlush e { scope := c, horizon := h, count := flushCounts s c h, tags := [tag] }
  stageAll .flush (flushUnits s c h) { s' with flushOrder := s.flushOrder ++ [e] }

/-- Merge a Flush into the newest entry `e`, which holds `v` (R150). -/
def mergeFlush (e : Nat) (v : FlushEntry) (tag : Nat) (c : Scope) (s : State) : State :=
  let h := flushHorizon s
  let c' := mergeScope v.scope c
  let s' := s.setFlush e
    { scope := c', horizon := h, count := flushCounts s c' h, tags := v.tags ++ [tag] }
  stageAll .flush (flushUnits s c' h) s'

/-- A well-formed Flush: answered at once, given an entry, merged, or stalled (none) (R149, R150). -/
def takeScope (tag : Nat) (c : Scope) (s : State) : Option State :=
  if flushCounts s c (flushHorizon s) = 0 then some (place 0 (.flushDone tag true) s)
  else
    match vacantFlush s with
    | some e => some (activateFlush e tag c s)
    | none =>
      match newestFlush s with
      | none => none
      | some e =>
        match s.flush? e with
        | none => none
        | some v =>
          if v.tags.length < Config.flushTagLimit then some (mergeFlush e v tag c s) else none

/-- A Flush with the scope as read: a scope that names no member or a tenant above 255 is refused
MALFORMED (R148, R170). -/
def takeFlush (tag : Nat) (c : Option Scope) (s : State) : Option State :=
  match c with
  | none => some (place 0 (.flushRefused tag) s)
  | some (.tenant t) =>
    if t < Config.tenantCount then takeScope tag (.tenant t) s
    else some (place 0 (.flushRefused tag) s)
  | some .all => takeScope tag .all s

/-- Take the Flush `m` at the head of the INTENT channel: it leaves the queue, or stalls there with no
other change (R148, R150). -/
def flushTaking (m : Message) (s : State) : State :=
  match takeFlush m.tag (readScope m.body) (takeHead 0 .intent s) with
  | some s' => s'
  | none => stallHead 0 .intent s

/-! ### The end of a flush (R151 to R153) -/

/-- Flush entry `e`, which holds `v`, ends: one Flush Done for each tag, and the entry is VACANT (R152,
R153). -/
def endFlush (ok : Bool) (e : Nat) (v : FlushEntry) (s : State) : State :=
  let s := v.tags.foldl (fun s t => place 0 (.flushDone t ok) s) s
  callFlushRetake
    { s with flushes := Table.erase s.flushes e, flushOrder := s.flushOrder.filter (· ≠ e) }

/-- A Unit Done lowers an entry's covered count, and ends it OK at 0 (R151, R152). -/
def lowerFlush (v e : Nat) (s : State) : State :=
  match s.flush? e with
  | none => s
  | some q =>
    let left := q.count - flushCountsIn s q.scope q.horizon v
    if left = 0 then endFlush true e q s else s.setFlush e { q with count := left }

/-- A unit's fault ends an entry that counts one of its frames with FAULT (R153). -/
def faultFlush (v e : Nat) (s : State) : State :=
  match s.flush? e with
  | none => s
  | some q =>
    if 0 < flushCountsIn s q.scope q.horizon v then setEvent .flushFault (endFlush false e q s) else s

/-- A Unit Restage raises an entry's covered count (R151). -/
def raiseFlush (v e : Nat) (s : State) : State :=
  match s.flush? e with
  | none => s
  | some q => s.setFlush e { q with count := q.count + flushCountsIn s q.scope q.horizon v }

/-- FLT at a Unit Done of unit `v`, at its fault, at its restage: the ACTIVE entries in their activation
order (R151 to R153). -/
def flushesAtDone (v : Nat) (s : State) : State :=
  s.flushOrder.foldl (fun s e => lowerFlush v e s) s

def flushesAtFault (v : Nat) (s : State) : State :=
  s.flushOrder.foldl (fun s e => faultFlush v e s) s

def flushesAtRestage (v : Nat) (s : State) : State :=
  s.flushOrder.foldl (fun s e => raiseFlush v e s) s

/-- A reset of link 0 makes every ACTIVE entry VACANT without an answer (R155). -/
def vacateFlushes (s : State) : State := { s with flushes := [], flushOrder := [] }

/-! ### Messages that leave a link (R164, R165, R169) -/

/-- After the overflow line of a link has emptied, its stalled messages are taken again (R165). -/
def callLinkRetakes (link : Nat) (s : State) : State :=
  callRetake link (intentChannel link) kindWriteIntent
    (callRetake link (intentChannel link) kindFlush s)

/-- The head of a link's outbound queue leaves as message `m`: it carries the outbound link sequence,
the count of messages sent rises, and the oldest message of the overflow line takes the place that came
free (R161, R164, R165, R169). -/
def emit (link : Nat) (m : OutMessage) (s : State) : State :=
  let l := s.link link
  let s' := s.setLink link
    { l with
      outbound := l.outbound.tail ++ l.overflow.take 1
      overflow := l.overflow.tail
      outSeq := (l.outSeq + 1) % Config.linkSeqModulus
      sent := satSucc l.sent
      wire := some { linkSeq := l.outSeq, message := m } }
  if l.overflow.length = 1 then callLinkRetakes link s' else s'

/-! ### Report Fetch and delivery (R138 to R142) -/

/-- The oldest unit of the report queue whose issued mark is clear (R138). -/
def nextReport (s : State) : Option Nat :=
  (List.find? (fun i => !i.issued) s.reportQueue).map (·.unit)

/-- Set or clear the issued mark of a unit (R137). -/
def markIssued (b : Bool) (v : Nat) (s : State) : State :=
  s.setReportQueue (s.reportQueue.map fun i => if i.unit = v then { i with issued := b } else i)

/-- Take a Report Fetch (R138). -/
def takeReportFetch (tag : Nat) (s : State) : State :=
  match nextReport s with
  | some v => place 0 (.reportEntry tag v) (markIssued true v s)
  | none => place 0 (.reportEmpty tag) s

/-- The status of a report entry, by the first line of Table 7-1 that applies (R141). -/
def reportStatus (discard : Bool) (r : SliceRecord) : ReportStatus :=
  if discard then .discarded
  else if r.void then .void
  else if r.damaged then .damaged
  else .current

/-- The report entry of the frame at position `p` of a unit (R141). -/
def reportSlice (s : State) (u : UnitRecord) (p : Nat) : Option ReportSlice :=
  (u.frames[p]?).bind fun f => (s.frame? f).map fun v =>
    { position := p, status := reportStatus u.discard v.record, cls := v.record.cls,
      account := v.record.account, key := v.record.key, latestSeq := v.record.latestSeq,
      source := if v.record.cls = .reclaim then v.record.source else none }

/-- The header of a Placement Report (R140). -/
def reportHeader (s : State) (v : Nat) (u : UnitRecord) : ReportHeader :=
  { unit := v, stream := unitStream v, lane := u.lane, handle := u.handle, cause := u.cause,
    attempts := u.attempts, restarted := u.restarted, unitSize := s.cfg.unitSize,
    padCount := s.cfg.unitSize - u.fill }

/-- The Placement Report of unit `v`, built from the records as they stand (R139 to R141). -/
def buildReport (s : State) (tag v : Nat) (u : UnitRecord) : OutMessage :=
  .placementReport tag (reportHeader s v u) ((List.range u.fill).filterMap (reportSlice s u))

/-- A delivered unit leaves the report queue, and the delivered count rises (R137). -/
def leaveQueue (v : Nat) (s : State) : State :=
  { s with
    reportQueue := s.reportQueue.filter (fun i => i.unit ≠ v)
    delivered := s.delivered + 1 }

/-- The frames of a delivered unit are released and its record is VACANT (R55, R142). -/
def vacateUnit (v : Nat) (u : UnitRecord) (s : State) : State := (releaseFrames u.frames s).clearUnit v

/-- Release a delivered unit: its frames, its record, the UNBOUND check, the re-test walk (R142). -/
def releaseUnit (v : Nat) (u : UnitRecord) (s : State) : State :=
  retestWalk (checkUnbound (unitStream v) (vacateUnit v u s))

/-- Deliver the report of the unit named by the report entry that leaves link 0 (R139). -/
def deliverReport (tag v : Nat) (s : State) : Result :=
  match s.unit? v with
  | none => .fault .noIssuedUnit
  | some u =>
    if s.reportQueue.any (fun i => i.unit == v && i.issued) then
      .next (releaseUnit v u (leaveQueue v (emit 0 (buildReport s tag v u) s)))
    else .fault .noIssuedUnit

/-- The message at the head of an UP link's outbound queue leaves; a report entry is delivered (R164). -/
def sendHead (link : Nat) (s : State) : Result :=
  if (s.link link).up then
    match (s.link link).outbound with
    | [] => .next s
    | .reportEntry tag v :: _ => if link = 0 then deliverReport tag v s else .next s
    | m :: _ => .next (emit link m s)
  else .next s

end Sys2Proof.Machine
end

