-- ==== Sys2Proof/Machine/Wheel.lean ====
section
/-! DEFINITION. The dispatch wheel, the drain lanes (chapter 5), and the transfer and completion of units
(chapter 6). -/

namespace Sys2Proof.Machine

/-! ### Lanes leaving UP (R116) -/

/-- The units IN_FLIGHT on a lane (R135). They stand in rising id, an order no rule gives (DESIGN CHOICE, log
entry 27). -/
def unitsInFlight (s : State) (g : Nat) : List Nat :=
  (s.units.filter (fun p => p.2.state = .inFlight && p.2.lane == some g)).map (·.1)

/-- An IN_FLIGHT unit loses its lane: it is STAGED again with the restarted flag set (R116). -/
def restart (v : Nat) (s : State) : State :=
  s.modifyUnit v (fun u => { u with state := .staged, lane := none, restarted := true })

/-- The offer of unit `v` is withdrawn: the unit, OFFERED, is STAGED again in its place (R116). -/
def withdrawOffer (v : Nat) (s : State) : State :=
  match s.unit? v with
  | some u => if u.state = .offered then restage v s else s
  | none => s

/-- Lane `g` goes to a state other than UP: its offer is withdrawn, its IN_FLIGHT units are re-staged
and its in-flight count is cleared (R116). -/
def leaveUp (g : Nat) (dest : LaneState) (s : State) : State :=
  let s1 := match (s.lane g).offer with
    | some o => withdrawOffer o.unit s
    | none => s
  let s2 := (unitsInFlight s g).foldl (fun s v => restart v s) s1
  s2.setLane g { s2.lane g with state := dest, offer := none, inFlight := 0 }

/-- Lane `g` takes a state other than UP; R116 applies when it was UP (Table 5-2). -/
def laneTo (g : Nat) (dest : LaneState) (s : State) : State :=
  if (s.lane g).state = .up then leaveUp g dest s else s.setLane g { s.lane g with state := dest }

/-! ### Slot visits (R104 to R108, R111, R112) -/

/-- The slot names global lane `g` (R103). -/
def Slot.names (k : Slot) (g : Nat) : Bool := k.enabled && globalLane k.link k.lane == g

/-- The visit of slot `pos` is the lapse point of lane `g`'s outstanding offer (R105). -/
def lapsesAt (s : State) (pos g : Nat) : Bool :=
  match (s.lane g).offer with
  | some o => (s.slot pos).names g || o.slot == pos
  | none => false

/-- The offered unit goes back to STAGED, and the lane counts the lapse (R111). -/
def endLapsedOffer (g : Nat) (o : LaneOffer) (s : State) : State :=
  let s := restage o.unit s
  let v := s.lane g
  s.setLane g { v with offer := none, lapses := v.lapses + 1, totalLapses := satSucc v.totalLapses }

/-- The outstanding offer of lane `g` lapses (R111, R112). -/
def lapseOffer (g : Nat) (s : State) : State :=
  match (s.lane g).offer with
  | none => s
  | some o =>
    let s := setEvent .offerLapse (endLapsedOffer g o s)
    if Config.lapseLimit ≤ (s.lane g).lapses then setEvent .laneDown (leaveUp g .down s) else s

/-- A unit's stream lets it be offered to lane `g`; in POWER_FAIL a pause does not count, and a lane set
without an UP lane holds nothing back (R106, R107). -/
def eligible (s : State) (g v : Nat) : Bool :=
  let k := s.stream (unitStream v)
  if s.part = .powerFail then
    k.lanes.getLsbD g ||
      !(List.range Config.laneCount).any (fun i => k.lanes.getLsbD i && (s.lane i).state == .up)
  else k.state != .paused && k.lanes.getLsbD g

/-- Lane `g` can take an offer (R106). -/
def laneReadyForOffer (s : State) (g : Nat) : Bool :=
  (s.lane g).state == .up && (s.lane g).offer.isNone &&
    decide ((s.lane g).inFlight < (s.drain (laneLink g)).depth)

/-- The Offer of unit `v`, whose record is `u`, to lane `g` (R108). -/
def offerMessage (s : State) (g v : Nat) (u : UnitRecord) : OutMessage :=
  .offer v (laneIndex g) s.cfg.unitSize u.fill (unitStream v) u.attempts u.restarted
    (s.drain (laneLink g)).order

/-- The unit is OFFERED and the lane holds the offer (R108). -/
def recordOffer (g v pos : Nat) (u : UnitRecord) (s : State) : State :=
  let k := s.lane g
  let s := s.setUnit v { u with state := .offered, lane := some g }
  s.setLane g
    { k with offer := some { unit := v, slot := pos }, totalOffers := satSucc k.totalOffers }

/-- Offer unit `v` to lane `g` at slot `pos` (R108). -/
def makeOffer (g v pos : Nat) (u : UnitRecord) (s : State) : State :=
  place (laneLink g) (offerMessage s g v u) (recordOffer g v pos u s)

/-- The offer step for lane `g` at slot `pos`: the oldest eligible unit of the staged queue (R106). -/
def offerStep (g pos : Nat) (s : State) : State :=
  if laneReadyForOffer s g then
    match List.find? (eligible s g) (stagedQueue s) with
    | none => s
    | some v =>
      match s.unit? v with
      | some u => makeOffer g v pos u s
      | none => s
  else s

/-- The lanes whose offers lapse at the visit of slot `pos` (R105). -/
def lapsingLanes (s : State) (pos : Nat) : List Nat :=
  (List.range Config.laneCount).filter (lapsesAt s pos)

/-- The visit of slot `pos`: the lapse judgements, then the offer step for the lane an enabled slot
names, unless that lane's offer lapsed at this visit (R105, R106). -/
def visitSlot (pos : Nat) (s : State) : State :=
  let k := s.slot pos
  let lapsing := lapsingLanes s pos
  let s := lapsing.foldl (fun s g => lapseOffer g s) s
  let g := globalLane k.link k.lane
  if k.enabled && !lapsing.contains g then offerStep g pos s else s

/-- The slot the wheel visits next (R104). -/
def nextSlot (s : State) : Nat := (s.wheelPos + 1) % Config.slotCount

/-- A slot period ends: the wheel moves to the next slot, visits it, and the next period begins (R104). -/
def turnWheel (due : Nat) (s : State) : State :=
  let pos := nextSlot s
  visitSlot pos { s with wheelPos := pos, nextVisit := some (due + s.cfg.slotPeriod) }

/-- The reading at which a slot visit is due and has been reached (R104). -/
def visitDue (s : State) : Option Nat :=
  match s.nextVisit with
  | some t => if t ≤ s.now then some t else none
  | none => none

/-! ### Answers to offers (R109, R110, R118) -/

/-- Control Refused for a message about a unit (R118). -/
def refuseControl (link kind : Nat) (unit : Option Nat) (l : Nat) (code : ControlCode) (s : State) :
    State :=
  place link (.controlRefused kind unit l code) s

/-- The unit id and the lane are in range (R118). -/
def unitLaneOk (v l : Nat) : Bool := decide (v < Config.unitCount) && decide (l < 8)

/-- Lane `g` is UP and its offered unit is `v` (R109, R110). -/
def holdsOffer (s : State) (g v : Nat) : Bool :=
  (s.lane g).state == .up && (s.lane g).offer.any (fun o => o.unit == v)

/-- An accepted unit is IN_FLIGHT on its lane (R109). -/
def acceptOffer (g v : Nat) (s : State) : State :=
  let s := s.modifyUnit v (fun u => { u with state := .inFlight, lane := some g })
  s.setLane g { s.lane g with offer := none, inFlight := (s.lane g).inFlight + 1, lapses := 0 }

/-- A declined unit goes back to STAGED, and the lane counts the decline (R110). -/
def declineOffer (g v : Nat) (s : State) : State :=
  let s := restage v s
  s.setLane g
    { s.lane g with offer := none, totalDeclines := satSucc (s.lane g).totalDeclines, lapses := 0 }

/-- Take an Accept (R109). -/
def takeAccept (link v l : Nat) (s : State) : State :=
  let g := globalLane link l
  if !unitLaneOk v l then refuseControl link kindAccept (some v) l .malformed s
  else if holdsOffer s g v then acceptOffer g v s
  else refuseControl link kindAccept (some v) l .stale s

/-- Take a Decline (R110). -/
def takeDecline (link v l : Nat) (s : State) : State :=
  let g := globalLane link l
  if !unitLaneOk v l then refuseControl link kindDecline (some v) l .malformed s
  else if holdsOffer s g v then declineOffer g v s
  else refuseControl link kindDecline (some v) l .stale s

/-! ### Lane control (R113 to R115, R117) -/

/-- Take a Lane Ready (R113). -/
def takeLaneReady (link l : Nat) (s : State) : State :=
  if l < 8 then
    let g := globalLane link l
    match (s.lane g).state with
    | .absent => s.setLane g { s.lane g with state := .up, lapses := 0 }
    | .down => s.setLane g { s.lane g with state := .up, lapses := 0 }
    | .up => s
    | .blocked => s
  else refuseControl link kindLaneReady none l .malformed s

/-- Take a Lane Quit (R114). -/
def takeLaneQuit (link l : Nat) (s : State) : State :=
  if l < 8 then
    let g := globalLane link l
    match (s.lane g).state with
    | .up => leaveUp g .down s
    | .absent => s.setLane g { s.lane g with state := .down }
    | .down => s
    | .blocked => s
  else refuseControl link kindLaneQuit none l .malformed s

/-- A reset of drain link `d` sets each of its lanes to ABSENT with no consecutive lapses (R117). -/
def resetLanes (d : Nat) (s : State) : State :=
  (List.range 8).foldl (fun s l =>
    let g := globalLane d l
    let s := laneTo g .absent s
    s.setLane g { s.lane g with lapses := 0 }) s

/-! ### Fetch (R120 to R122) -/

/-- Position i of a Fetch from `k` (R121). -/
def fetchPosition (order : FetchOrder) (unitSize k i : Nat) : Nat :=
  match order with
  | .linear => (k + i) % unitSize
  | .paired => k ^^^ i

/-- The entries of a Fetch Data and the state after the frame reads (R122). A position below the fill
count whose frame is not HELD, which a law of the device excludes (R52), is sent as a pad. -/
def fetchEntries (u : UnitRecord) : List Nat → List ReadResult → State → List FetchEntry × State
  | [], _, s => ([], s)
  | p :: ps, rs, s =>
    match (u.frames[p]?).bind (fun f => (s.frame? f).map (fun v => (f, v))) with
    | none =>
      let (es, s') := fetchEntries u ps rs s
      ({ position := p, mark := .pad, bytes := zeroSlice } :: es, s')
    | some (f, v) =>
      let (v', s1) := readFrame f v (nextRead rs) s
      let (es, s') := fetchEntries u ps rs.tail s1
      if v'.record.damaged then
        ({ position := p, mark := .damaged, bytes := zeroSlice } :: es, s')
      else ({ position := p, mark := .data, bytes := v.data } :: es, s')

/-- Unit `v` is IN_FLIGHT on a lane of a drain link (R120). -/
def inFlightOn (s : State) (link v : Nat) : Option UnitRecord :=
  (s.unit? v).filter fun u =>
    u.state == .inFlight && u.lane.any (fun g => laneLink g == link)

/-- Take a Fetch (R120, R122). -/
def takeFetch (link tag v k m : Nat) (rs : List ReadResult) (s : State) : State :=
  let size := s.cfg.unitSize
  if Config.unitCount ≤ v ∨ size ≤ k ∨ m = 0 ∨ size < m then
    place link (.fetchRefused tag v .malformed) s
  else
    match inFlightOn s link v with
    | none => place link (.fetchRefused tag v .stale) s
    | some u =>
      let positions := (List.range m).map (fetchPosition (s.drain link).order size k)
      let (es, s') := fetchEntries u positions rs s
      place link (.fetchData tag v k m es) s'

/-! ### Completion (R124 to R129) -/

/-- Unit `v` is IN_FLIGHT on lane `g` (R124). -/
def inFlightAt (s : State) (g v : Nat) : Option UnitRecord :=
  (s.unit? v).filter fun u => u.state == .inFlight && u.lane == some g

/-- Lane `g` holds one IN_FLIGHT unit less (R125, R127). -/
def lowerInFlight (g : Nat) (s : State) : State :=
  s.setLane g { s.lane g with inFlight := (s.lane g).inFlight - 1 }

/-- A Unit Done for unit `v` on lane `g` that passes its checks (R125). -/
def completeUnit (g v : Nat) (u : UnitRecord) (handle : Opaque40) (s : State) : State :=
  let k := unitStream v
  let s := s.setUnit v { u with state := .releasing, handle := some handle }
  let s := lowerInFlight g s
  let s := s.setReportQueue (s.reportQueue ++ [{ unit := v, issued := false }])
  let s := s.setStream k { s.stream k with unitsCompleted := (s.stream k).unitsCompleted + 1 }
  let s := flushesAtDone v s
  evalSafe (s.setDrainCount (s.drainCount - 1))

/-- Take a Unit Done (R124, R125). -/
def takeUnitDone (link v l : Nat) (handle : Opaque40) (s : State) : State :=
  let g := globalLane link l
  if !unitLaneOk v l then refuseControl link kindUnitDone (some v) l .malformed s
  else
    match inFlightAt s g v with
    | none => refuseControl link kindUnitDone (some v) l .stale s
    | some u => completeUnit g v u handle s

/-- Unit `v` becomes FAULTED at its fourth failed attempt (R129). -/
def faultUnit (v : Nat) (s : State) : State :=
  let s := s.modifyUnit v (fun u => { u with state := .faulted })
  let s := s.setFaultList (s.faultList ++ [v])
  let s := setEvent .unitFault s
  let s := flushesAtFault v s
  s.setDrainCount (s.drainCount - 1)

/-- A Unit Fail for unit `v` on lane `g` that passes its checks (R127, R128). -/
def failUnit (g v : Nat) (u : UnitRecord) (reason : FailReason) (s : State) : State :=
  let s := lowerInFlight g s
  let s := s.setUnit v { u with state := .staged, lane := none, attempts := u.attempts + 1 }
  let s := if u.attempts + 1 < Config.attemptLimit then s else faultUnit v s
  let s := match reason with
    | .laneFault => setEvent .laneDown (leaveUp g .down s)
    | .retry => s
  evalSafe s

/-- Take a Unit Fail (R124, R127). -/
def takeUnitFail (link v l : Nat) (reason : Option FailReason) (s : State) : State :=
  let g := globalLane link l
  match reason with
  | none => refuseControl link kindUnitFail (some v) l .malformed s
  | some reason =>
    if !unitLaneOk v l then refuseControl link kindUnitFail (some v) l .malformed s
    else
      match inFlightAt s g v with
      | none => refuseControl link kindUnitFail (some v) l .stale s
      | some u => failUnit g v u reason s

/-! ### Faulted units (R131, R132) -/

/-- Unit Restage of a FAULTED unit (R131). -/
def restageFaulted (v : Nat) (u : UnitRecord) (s : State) : State :=
  let s := s.setFaultList (s.faultList.filter (· ≠ v))
  let s := s.setUnit v { u with state := .staged, attempts := 0 }
  let s := flushesAtRestage v s
  evalSafe (s.setDrainCount (s.drainCount + 1))

/-- Unit Discard of a FAULTED unit (R132). -/
def discardFaulted (v : Nat) (u : UnitRecord) (s : State) : State :=
  let s := s.setFaultList (s.faultList.filter (· ≠ v))
  let s := s.setUnit v { u with state := .releasing, discard := true }
  s.setReportQueue (s.reportQueue ++ [{ unit := v, issued := false }])

end Sys2Proof.Machine
end

