-- ==== Sys2Proof/Machine/Inspection.lean ====
section
/-! DEFINITION. What Inspect returns for each of its targets (R178 and the rules it names). -/

namespace Sys2Proof.Machine

/-- The content of a target whose number is in range, else none (R178). -/
def inRange (n bound : Nat) (r : InspectResult) : Option InspectResult :=
  if n < bound then some r else none

/-- The drain links in order (Table 0-1). -/
def drainLinks : List Nat := [1, 2, 3, 4]

/-- Inspect of the part (R173, R176). -/
def inspectPart (s : State) : InspectResult := .part s.part s.cfg (drainLinks.map s.drain)

/-- Inspect of an account; account 256 has no frozen flag, and its field reads clear (R23). -/
def inspectAccount (s : State) (a : Nat) : InspectResult :=
  .account { s.account a with frozen := isFrozen s a }

/-- Inspect of the admission totals (R23). -/
def inspectTotals (s : State) : InspectResult :=
  .totals s.free (sumAccounts (·.reserve) s) (sumAccounts unusedReserve s) (sharedFree s)

/-- Inspect of a grant: its fields, and for a LIVE grant the time remaining until its lapse (R34). -/
def inspectGrant (s : State) (g : Nat) : InspectResult :=
  match s.grant? g with
  | some v => .grant (some v) (v.lapse - s.now)
  | none => .grant none 0

/-- Inspect of a set (R80). -/
def inspectSet (s : State) (x : Nat) : InspectResult :=
  let v := s.indexSet x
  .set v.occupied v.reserved ((List.range Config.wayCount).map (Table.find? v.ways))

/-- Inspect of a key (R80). -/
def inspectKey (s : State) (k : Key) : InspectResult :=
  .key (indexHash k)
    ((lookup s k).bind fun p => (s.frame? p.2.frame).map fun f => (p.1, p.2.frame, f.record))

/-- Inspect of the store counters (R80). -/
def inspectStore (s : State) : InspectResult :=
  .store s.nextSeq s.heldFrames s.corrected s.uncorrectable

/-- Inspect of a stream (R81). -/
def inspectStream (s : State) (k : Nat) : InspectResult :=
  .stream (s.stream k)
    ((List.range Config.ringSize).map (fun r => (s.unit? (unitId k r)).map (·.state)))
    (s.usedRecords k)

/-- Inspect of a lane: its fields, the units IN_FLIGHT on it, and the lane depth of its link (Table 5-1). -/
def inspectLane (s : State) (g : Nat) : InspectResult :=
  .lane (s.lane g) (unitsInFlight s g) (s.drain (laneLink g)).depth

/-- Inspect of a drain link (R119). -/
def inspectDrain (s : State) (d : Nat) : InspectResult :=
  .drain (s.drain d)
    ((List.range 8).map fun l =>
      ((s.lane (globalLane d l)).inFlight, unitsInFlight s (globalLane d l)))

/-- Inspect of the flush table: each entry with its rank, the number ACTIVE and the newest (R147). The
oldest ACTIVE entry has rank 0, an origin Table 8-1 does not give (DESIGN CHOICE, log entry 27). -/
def inspectFlushes (s : State) : InspectResult :=
  .flushTable
    ((List.range Config.flushCount).map fun e => (s.flush? e).map fun v => (v, s.flushOrder.idxOf e))
    s.flushOrder.length (newestFlush s)

/-- The inbound channels of a link in the order of Table 9-1. -/
def linkChannels (link : Nat) : List Channel :=
  if link = 0 then [.intent, .data, .read]
  else if isDrain link then [.control, .reclaim, .data]
  else [.mgmt]

/-- Inspect of a link (R165, R169). For link 5 the counts are those after the Inspect itself has left the
queue, which R178 does not settle (DESIGN CHOICE, log entry 27). -/
def inspectLink (s : State) (i : Nat) : InspectResult :=
  let l := s.link i
  .link l.up l.taken l.sent l.refused l.resets
    ((linkChannels i).map (fun c => (l.queue c).messages.length)) l.outbound.length l.overflow.length

/-- The twelve event records in the order of Table 10-4 (R179). -/
def eventRecords (s : State) : List EventRecord := (List.range eventCount).map s.event

/-- The content of the target an Inspect names by code and selector, or none where the target or its
number is out of range (R178, Table 9-10). -/
def inspectTarget (b : List Byte) (s : State) : Option InspectResult :=
  let n := numAt b 2 4
  match byteAt b 1 with
  | 0 => some (inspectPart s)
  | 1 => inRange n Config.accountCount (inspectAccount s n)
  | 2 => some (inspectTotals s)
  | 3 => inRange n Config.tenantCount (.tenant (s.tenant n))
  | 4 => inRange n Config.ruleCount (.rule (s.rule n))
  | 5 => some (.reclaimMap s.reclaimMap)
  | 6 => (flagAt b 2).map fun _ => .capture s.captures s.refusals
  | 7 => inRange n Config.grantCount (inspectGrant s n)
  | 8 => some (.pendingList s.waiting.length)
  | 9 => (s.waiting[n]?).map .pendingEntry
  | 10 => inRange n Config.frameCount (.frame ((s.frame? n).map (·.record)))
  | 11 => inRange n Config.setCount (inspectSet s n)
  | 12 =>
    let k : Key := { handle := numAt b 2 2, lba := numAt b 4 5 }
    inRange k.handle (Config.maxHandle + 1) (inspectKey s k)
  | 13 => some (inspectStore s)
  | 14 => inRange n Config.streamCount (inspectStream s n)
  | 15 => inRange n Config.unitCount (.unit (s.unit? n) s.cfg.unitSize)
  | 16 => some (.stagedQueue (stagedQueue s))
  | 17 => inRange n Config.slotCount (.slot (s.slot n))
  | 18 => some (.wheel s.wheelPos s.cfg.slotPeriod)
  | 19 => inRange n Config.laneCount (inspectLane s n)
  | 20 => if isDrain n then some (inspectDrain s n) else none
  | 21 => some (.faultList s.faultList)
  | 22 => some (.reportQueue s.reportQueue s.delivered)
  | 23 => some (inspectFlushes s)
  | 24 => some (.powerFail s.drainCount s.safe s.entryState s.entryTime)
  | 25 => inRange n 6 (inspectLink s n)
  | 26 => some (.events (eventRecords s))
  | _ => none

/-- The request is an Inspect of the refusal capture with its take option (R21). -/
def takesCapture (b : List Byte) : Bool := byteAt b 1 == 6 && flagAt b 2 == some true

end Sys2Proof.Machine
end

