-- ==== Sys2Proof/Machine/Intake.lean ====
section
/-! DEFINITION. The commands that take a message from a channel of the intake link or of a drain link, and
the timed commands (chapters 2 to 8).

A taking is enabled when the message at the head of its channel can be taken and is of its kind. A
command that is not enabled leaves the state as it is: no such event takes place (log entry 2). -/

namespace Sys2Proof.Machine

/-- Take the head of a channel when it is of kind `kind`: `f` applies it, the message having left the
queue (R162, R163). -/
def taking (link : Nat) (c : Channel) (kind : Nat) (f : Message → State → State) (s : State) : State :=
  match takeable s link c with
  | some m => if m.kind = kind then f m (takeHead link c s) else s
  | none => s

/-- A taking from the CONTROL channel of a drain link. -/
def controlTaking (link kind : Nat) (f : Message → State → State) (s : State) : State :=
  if isDrain link then taking link .control kind f s else s

/-- The links that carry Write Intents and Write Data (Table 9-1). -/
def isWriteLink (link : Nat) : Bool := decide (link ≤ 4)

/-! ### Intents (chapters 1 and 2) -/

/-- WRITE_INTENT (R27). -/
def execWriteIntent (link : Nat) (s : State) : Result :=
  match takeable s link (intentChannel link) with
  | some m =>
    if isWriteLink link && m.kind == kindWriteIntent then .next (intentTaking link m s) else .next s
  | none => .next s

/-- STALLED_INTENT_RETAKE (R40). -/
def execStalledIntentRetake (link : Nat) (s : State) : Result :=
  match retakeable s link (intentChannel link) with
  | some m =>
    if isWriteLink link && m.kind == kindWriteIntent then .next (intentTaking link m s) else .next s
  | none => .next s

/-- WITHDRAW (R38). -/
def execWithdraw (link : Nat) (s : State) : Result :=
  if isWriteLink link then
    .next (taking link (intentChannel link) kindWithdraw (fun m s => withdrawTag link m.tag s) s)
  else .next s

/-- GRANT_LAPSE: a LIVE grant whose lapse time the timebase has reached (R37). -/
def execGrantLapse (g : Nat) (s : State) : Result :=
  match s.grant? g with
  | some v => if v.lapse ≤ s.now then .next (retestWalk (lapseGrant g v s)) else .next s
  | none => .next s

/-! ### Data, probes, inquiries and reports (chapters 3 and 7) -/

/-- WRITE_DATA (R35, R60). -/
def execWriteData (link : Nat) (s : State) : Result :=
  match takeable s link .data with
  | some m =>
    if isWriteLink link && m.kind == kindWriteData then takeData link m (takeHead link .data s)
    else .next s
  | none => .next s

/-- READ_PROBE (R69 to R71). -/
def execReadProbe (reads : List ReadResult) (s : State) : Result :=
  .next (taking 0 .read kindReadProbe (fun m s => takeProbe m.tag (readRun m.body) reads s) s)

/-- INQUIRE (R72). -/
def execInquire (link : Nat) (s : State) : Result :=
  .next (controlTaking link kindInquire (fun m s => takeInquire link m.tag (readRun m.body) s) s)

/-- REPORT_FETCH (R138). -/
def execReportFetch (s : State) : Result :=
  .next (taking 0 .read kindReportFetch (fun m s => takeReportFetch m.tag s) s)

/-! ### Flushes (chapter 8) -/

/-- FLUSH (R148). -/
def execFlush (s : State) : Result :=
  match takeable s 0 .intent with
  | some m => if m.kind = kindFlush then .next (flushTaking m s) else .next s
  | none => .next s

/-- STALLED_FLUSH_RETAKE (R150). -/
def execStalledFlushRetake (s : State) : Result :=
  match retakeable s 0 .intent with
  | some m => if m.kind = kindFlush then .next (flushTaking m s) else .next s
  | none => .next s

/-! ### Deadlines and the wheel (chapters 4 and 5) -/

/-- The deadline of unit `v` has been reached, and it is OPEN (R92). -/
def expiredDeadline (s : State) (v : Nat) : Option Deadline :=
  match s.unit? v with
  | some u => if u.state = .opened then u.deadline.filter (fun d => decide (d.time ≤ s.now)) else none
  | none => none

/-- DEADLINE_EXPIRY (R92). -/
def execDeadlineExpiry (v : Nat) (s : State) : Result :=
  match expiredDeadline s v with
  | some d => .next (stageUnit d.kind.cause v s)
  | none => .next s

/-- SLOT_VISIT (R104 to R108). -/
def execSlotVisit (s : State) : Result :=
  match visitDue s with
  | some t => .next (turnWheel t s)
  | none => .next s

/-- OFFER_LAPSE: the slot visit now due is the lapse point of the lane's outstanding offer. The lapse is
part of that visit, which is taken whole (R105, R111; log entry 7). -/
def execOfferLapse (g : Nat) (s : State) : Result :=
  match visitDue s with
  | some t => if lapsesAt s (nextSlot s) g then .next (turnWheel t s) else .next s
  | none => .next s

/-! ### Drain control (chapters 5 and 6) -/

/-- ACCEPT (R109). -/
def execAccept (link : Nat) (s : State) : Result :=
  .next (controlTaking link kindAccept
    (fun m s => takeAccept link (numAt m.body 0 2) (byteAt m.body 2) s) s)

/-- DECLINE (R110). -/
def execDecline (link : Nat) (s : State) : Result :=
  .next (controlTaking link kindDecline
    (fun m s => takeDecline link (numAt m.body 0 2) (byteAt m.body 2) s) s)

/-- LANE_READY (R113). -/
def execLaneReady (link : Nat) (s : State) : Result :=
  .next (controlTaking link kindLaneReady (fun m s => takeLaneReady link (byteAt m.body 0) s) s)

/-- LANE_QUIT (R114). -/
def execLaneQuit (link : Nat) (s : State) : Result :=
  .next (controlTaking link kindLaneQuit (fun m s => takeLaneQuit link (byteAt m.body 0) s) s)

/-- FETCH (R120 to R122). -/
def execFetch (link : Nat) (reads : List ReadResult) (s : State) : Result :=
  .next (controlTaking link kindFetch
    (fun m s => takeFetch link m.tag (numAt m.body 0 2) (byteAt m.body 2) (byteAt m.body 3) reads s) s)

/-- UNIT_DONE (R124, R125). -/
def execUnitDone (link : Nat) (s : State) : Result :=
  .next (controlTaking link kindUnitDone
    (fun m s => takeUnitDone link (numAt m.body 0 2) (byteAt m.body 2) (opaqueAt m.body 3) s) s)

/-- UNIT_FAIL (R124, R127 to R129). -/
def execUnitFail (link : Nat) (s : State) : Result :=
  .next (controlTaking link kindUnitFail
    (fun m s => takeUnitFail link (numAt m.body 0 2) (byteAt m.body 2) (readReason m.body) s) s)

end Sys2Proof.Machine
end

