-- ==== Sys2Proof/Machine/Links.lean ====
section
/-! DEFINITION. The commands of the links and of the board: arrival and sending of messages, link-up, link
reset (chapter 9), the full reset, start-up and entry to POWER_FAIL (chapters 8 and 10). -/

namespace Sys2Proof.Machine

/-! ### Link reset (R167, R168, Table 9-2) -/

/-- The units named by the report entries of a list of outbound messages. -/
def reportUnits (ms : List OutMessage) : List Nat :=
  ms.filterMap fun
    | .reportEntry _ v => some v
    | _ => none

/-- LIF's part of a reset: the queues of the link are cleared, it is DOWN, its reset count rises, and
the units of cleared report entries lose their issued marks (R145, R167 to R169). -/
def downLink (link : Nat) (s : State) : State :=
  let l := s.link link
  let s' := s.setLink link
    { Link.reset with
      inSeq := l.inSeq, outSeq := l.outSeq, taken := l.taken, sent := l.sent, refused := l.refused,
      resets := satSucc l.resets, wire := l.wire }
  (reportUnits (l.outbound ++ l.overflow)).foldl (fun s v => markIssued false v s) s'

/-- The owners' acts at a reset of a link (Table 9-2). -/
def ownersReset (link : Nat) (s : State) : State :=
  if link = 0 then vacateFlushes (endLinkTraffic 0 (clearTrackers s))
  else if isDrain link then endLinkTraffic link (resetLanes link s)
  else s

/-- A reset of a link that is UP, whole (R168). -/
def resetUpLink (link : Nat) (s : State) : State :=
  let walk := hasLinkTraffic s link
  let s := ownersReset link (downLink link s)
  if walk then retestWalk s else s

/-- A reset order, or the loss of signal; it changes nothing on a DOWN link (R167). -/
def resetLink (link : Nat) (s : State) : State :=
  if (s.link link).up then resetUpLink link s else s

/-- A DOWN link becomes UP with empty queues and link sequences at 0 (R160). -/
def bringUp (link : Nat) (s : State) : State :=
  let l := s.link link
  s.setLink link
    { Link.reset with
      up := true, taken := l.taken, sent := l.sent, refused := l.refused, resets := l.resets,
      wire := l.wire }

/-! ### Arrival (R161) -/

/-- LIF refuses an arriving message (R161). -/
def refuseMessage (link : Nat) (m : Message) (code : LinkCode) (s : State) : State :=
  let l := s.link link
  place link (.messageRefused m.kind m.tag code)
    (s.setLink link { l with refused := satSucc l.refused })

/-- A message that passes its checks joins the tail of its channel's queue (R161). -/
def enqueue (link : Nat) (c : Channel) (m : Message) (s : State) : State :=
  let l := s.link link
  let q := l.queue c
  s.setLink link (l.setQueue c { q with messages := q.messages ++ [m] })

/-- A message arrives on an UP link: the checks of R161 in their order. -/
def arrival (link : Nat) (m : Message) (s : State) : State :=
  let l := s.link link
  if m.linkSeq ≠ l.inSeq then resetUpLink link s
  else
    let s := s.setLink link { l with inSeq := (l.inSeq + 1) % Config.linkSeqModulus }
    match kindChannel link m.kind with
    | none => refuseMessage link m .unknownKind s
    | some c =>
      if !sizeOk link m then refuseMessage link m .badLength s
      else if ((s.link link).queue c).messages.length < channelDepth link c then enqueue link c m s
      else refuseMessage link m .overrun s

/-! ### Entry to POWER_FAIL (R156, Table 8-3) -/

/-- The reading of the first slot visit when the wheel begins to turn now (R104). -/
def firstVisit (s : State) : Option Nat := some (s.now + s.cfg.slotPeriod)

/-- POWER_FAIL is entered as one event; a scrub under way stops where it stands (R78, R156). -/
def enterPowerFail (s : State) : State :=
  let visit := if s.part = .running then s.nextVisit else firstVisit s
  let s := { s with
    part := .powerFail, scrubbing := false, nextVisit := visit, entryState := some s.part,
    entryTime := some s.now }
  let s := setEvent .powerFail s
  let s := powerFailAdmission s
  let s := stageAll .powerFail (openUnits s) s
  evalSafe s

/-! ### The start-up scrub (R78) -/

/-- STS has written the frames 0 .. n − 1 with zero data and a matching check code (R78). -/
def scrubTo (n : Nat) (s : State) : State :=
  { s with scrubbed := n, freed := s.freed.filter (fun p => decide (n ≤ p.1)) }

/-! ### The commands -/

/-- FULL_RESET: every record takes its value after the full reset; the links are DOWN, SAFE and ALERT_N
deasserted (R172). The PFAIL_N line is an input and keeps its level; the queue of commands and the index
of the free values are the model's own. -/
def execFullReset (s : State) : Result :=
  .next { State.reset with
    pending := s.pending, idles := s.idles, pfailAsserted := s.pfailAsserted }

/-- RESET_N_RELEASE: the part enters STARTING and the scrub begins, at frame 0 where the full reset left
it (R78); a PFAIL_N that is asserted is taken
at once (R156, R173). Nothing is released while RESET_N is not asserted. -/
def execResetNRelease (pfail : Bool) (s : State) : Result :=
  if s.resetAsserted then
    let s := { s with
      resetAsserted := false, part := .starting, scrubbing := true, pfailAsserted := pfail }
    .next (if pfail then enterPowerFail s else s)
  else .next s

/-- SCRUB_COMPLETE: the scrub that is under way in STARTING has written every frame, and the part enters
STOPPED (R78, R173). -/
def execScrubComplete (s : State) : Result :=
  if s.part = .starting ∧ s.scrubbing = true then
    .next { scrubTo Config.frameCount s with part := .stopped, scrubbing := false }
  else .next s

/-- PFAIL_N_ASSERTION: taken in RUNNING, STOPPED and STARTING; in POWER_FAIL and while RESET_N is asserted
the line alone changes (R156). -/
def execPfailNAssertion (s : State) : Result :=
  let s := { s with pfailAsserted := true }
  .next (if s.resetAsserted = true ∨ s.part = .powerFail then s else enterPowerFail s)

/-- The links 0..5 (Table 0-1). -/
def linkOk (link : Nat) : Bool := decide (link ≤ 5)

/-- LINK_UP: a DOWN link becomes UP; on an UP link the order is a reset followed by the link-up. No link
leaves DOWN while RESET_N is asserted (R160, R167). -/
def execLinkUp (link : Nat) (s : State) : Result :=
  if linkOk link && !s.resetAsserted then .next (bringUp link (resetLink link s)) else .next s

/-- LINK_RESET (R167, R168). -/
def execLinkReset (link : Nat) (s : State) : Result :=
  if linkOk link then .next (resetLink link s) else .next s

/-- MESSAGE_ARRIVAL: messages arrive only on an UP link (R160, R161). -/
def execMessageArrival (link : Nat) (m : Message) (s : State) : Result :=
  if linkOk link && (s.link link).up then .next (arrival link m s) else .next s

/-- MESSAGE_SENT (R164, R165). -/
def execMessageSent (link : Nat) (s : State) : Result :=
  if linkOk link then sendHead link s else .next s

/-- PLACEMENT_REPORT_DELIVERY: the report entry at the head of link 0's outbound queue leaves (R139). -/
def execPlacementReportDelivery (s : State) : Result :=
  if (s.link 0).up then
    match (s.link 0).outbound with
    | .reportEntry tag v :: _ => deliverReport tag v s
    | _ => .next s
  else .next s

end Sys2Proof.Machine
end

