-- ==== Sys2Proof/Machine/Management.lean ====
section
/-! DEFINITION. The management requests (chapter 10): taking a request from link 5, the effect of each of
the 24 kinds of Table 10-2, and the answer. -/

namespace Sys2Proof.Machine

/-- What a request does: the code of its answer, the result an answer may carry, and the state. -/
structure Answer where
  code : MgmtCode
  result : Option InspectResult
  state : State

/-- A refused request changes no record (R177). -/
def denied (code : MgmtCode) (s : State) : Answer := { code := code, result := none, state := s }

/-- An accepted request has taken effect (R177). -/
def accepted (s : State) : Answer := { code := .accepted, result := none, state := s }

/-- A request accepted with a result (R178, R179). -/
def answered (r : InspectResult) (s : State) : Answer :=
  { code := .accepted, result := some r, state := s }

/-- Place the Management Answer on link 5 (R177). -/
def replyMgmt (tag : Nat) (a : Answer) : State :=
  place 5 (.mgmtAnswer tag a.code a.result) a.state

/-- The request at the head of the MGMT channel, when it can be taken and `kinds` holds of its request
kind (R177). -/
def takeRequest (kinds : Nat → Bool) (s : State) : Option Message :=
  (takeable s 5 .mgmt).filter fun m => m.kind == kindManagement && kinds (byteAt m.body 0)

/-- Take a request of kind `kind`: it leaves the queue, is refused NOT_READY in STARTING, and is otherwise
applied at its owner (R177 steps 2 and 3). -/
def request (kind : Nat) (f : List Byte → State → Answer) (s : State) : Result :=
  match takeRequest (· == kind) s with
  | some m =>
    let s' := takeHead 5 .mgmt s
    .next (replyMgmt m.tag (if s'.part = .starting then denied .notReady s' else f m.body s'))
  | none => .next s

/-- Apply `f` when a check holds, else refuse BAD_FIELD (R177). -/
def checked (b : Bool) (a : Answer) (s : State) : Answer := if b then a else denied .badField s

/-! ### Start, Stop, Configure (R174 to R176) -/

/-- Start (R174). -/
def startPart (s : State) : Answer :=
  if s.part = .stopped then accepted { s with part := .running, nextVisit := firstVisit s }
  else denied .badState s

/-- The four conditions of Stop (R175). -/
def nothingInUse (s : State) : Bool :=
  s.units.isEmpty && s.grants.isEmpty && s.waiting.isEmpty && s.flushes.isEmpty

/-- Stop (R175). -/
def stopPart (s : State) : Answer :=
  if s.part = .running then
    if nothingInUse s then accepted { s with part := .stopped, nextVisit := none }
    else denied .busy s
  else denied .badState s

/-- Every setting lies in its range (Table 10-3). -/
def settingsOk (q : Settings) : Bool :=
  (q.cfg.unitSize == 8 || q.cfg.unitSize == 16 || q.cfg.unitSize == 32) &&
    decide (1 ≤ q.cfg.slotPeriod) && decide (q.cfg.slotPeriod ≤ 255) &&
    decide (1 ≤ q.cfg.grantLifetime) && decide (q.cfg.grantLifetime ≤ 1000) &&
    decide (8 ≤ q.cfg.seqThreshold) && decide (q.cfg.seqThreshold ≤ 4095) &&
    decide (q.cfg.pressureThreshold ≤ Config.frameCount) &&
    q.drains.all (fun d => decide (1 ≤ d.depth) && decide (d.depth ≤ 4))

/-- Replace every setting together (R176). -/
def applySettings (q : Settings) (s : State) : State :=
  (drainLinks.zip q.drains).foldl (fun s p => s.setDrain p.1 p.2) { s with cfg := q.cfg }

/-- Configure (R176). -/
def configurePart (q : Option Settings) (s : State) : Answer :=
  if s.part = .stopped then
    match q with
    | some q => checked (settingsOk q) (accepted (applySettings q s)) s
    | none => denied .badField s
  else denied .badState s

/-! ### Classifier and accounts (R4, R15, R16, R44 to R46) -/

/-- Rule Set (R4). -/
def setClassRule (number : Nat) (r : Option Rule) (s : State) : Answer :=
  match r with
  | some r => checked (ruleOk number r) (accepted (s.setRule number r)) s
  | none => denied .badField s

/-- Reclaim Map Set (R16). -/
def setReclaimMap (m : List Nat) (s : State) : Answer :=
  checked (m.all (fun k => decide (k < Config.streamCount)))
    (accepted (retestWalk { s with reclaimMap := m })) s

/-- Replace a tenant's classification fields together (R15). -/
def setTenantFields (t : Nat) (f : TenantFields) (s : State) : State :=
  s.setTenant t
    { s.tenant t with
      defaultStream := f.defaultStream, seqStream := f.seqStream, hintMap := f.hintMap }

/-- Tenant Set (R15, R45). -/
def setTenantRequest (t reserve cap : Nat) (f : TenantFields) (s : State) : Answer :=
  if tenantFieldsOk t f then
    match limitCheck t reserve cap s with
    | some code => denied code s
    | none => accepted (retestWalk (setTenantFields t f (setLimits t reserve cap s)))
  else denied .badField s

/-- Reclaim Account Set (R46). -/
def setReclaimAccount (reserve cap : Nat) (s : State) : Answer :=
  match limitCheck Config.reclaimAccount reserve cap s with
  | some code => denied code s
  | none => accepted (retestWalk (setLimits Config.reclaimAccount reserve cap s))

/-- Write a tenant's frozen flag (R44). -/
def setFrozen (t : Nat) (b : Bool) (s : State) : State :=
  s.setAccount t { s.account t with frozen := b }

/-- Tenant Freeze (R44). -/
def freezeTenant (t : Nat) (s : State) : Answer :=
  checked (decide (t < Config.tenantCount)) (accepted (setFrozen t true s)) s

/-- Tenant Thaw (R44). -/
def thawTenant (t : Nat) (s : State) : Answer :=
  checked (decide (t < Config.tenantCount)) (accepted (retestWalk (setFrozen t false s))) s

/-! ### Streams (R82 to R86, R94) -/

/-- The checks of step 1 of R82 on the stream number, the hold limit and the lane set. -/
def streamFieldsOk (k : Nat) (f : StreamFields) : Bool :=
  decide (k < Config.streamCount) && decide (1 ≤ f.hold) && decide (f.hold ≤ 1000) && f.lanes != 0#32

/-- Stream Bind (R82). -/
def bindStream (k : Nat) (c : Option WriteClass) (f : Option StreamFields) (s : State) : Answer :=
  match c, f with
  | some c, some f =>
    if streamFieldsOk k f then
      if (s.stream k).state = .unbound then
        accepted (retestWalk (s.setStream k
          { s.stream k with
            state := .active, cls := c, policy := f.policy, mode := f.mode, window := f.window,
            hold := f.hold, lanes := f.lanes, cursor := 0, slicesPlaced := 0, padSlices := 0,
            unitsCompleted := 0, inPlaceHits := 0 }))
      else denied .busy s
    else denied .badField s
  | _, _ => denied .badField s

/-- Stream Set (R83). -/
def setStreamPolicy (k : Nat) (f : Option StreamFields) (s : State) : Answer :=
  match f with
  | some f =>
    if streamFieldsOk k f then
      match (s.stream k).state with
      | .unbound => denied .badState s
      | .retiring => denied .badState s
      | _ =>
        accepted (s.setStream k
          { s.stream k with
            policy := f.policy, mode := f.mode, window := f.window, hold := f.hold,
            lanes := f.lanes })
    else denied .badField s
  | none => denied .badField s

/-- An ACTIVE stream becomes PAUSED, and its OPEN unit has no deadline (R84). -/
def pauseActive (k : Nat) (s : State) : State :=
  let v := s.stream k
  let s := match v.openUnit with
    | some u => s.modifyUnit u (fun u => { u with deadline := none })
    | none => s
  s.setStream k { v with state := .paused }

/-- Stream Pause (R84). -/
def pauseStream (k : Nat) (s : State) : Answer :=
  if k < Config.streamCount then
    match (s.stream k).state with
    | .active => accepted (retestWalk (pauseActive k s))
    | .paused => accepted s
    | .unbound => denied .badState s
    | .retiring => denied .badState s
  else denied .badField s

/-- A PAUSED stream becomes ACTIVE: both times of its OPEN unit are now, and its deadline is computed
from them (R85). -/
def resumePaused (k : Nat) (s : State) : State :=
  let s := s.setStream k { s.stream k with state := .active }
  match (s.stream k).openUnit with
  | some v =>
    s.modifyUnit v fun u =>
      { u with firstArrival := s.now, lastArrival := s.now,
               deadline := deadlineOf (s.stream k) s.now s.now }
  | none => s

/-- Stream Resume (R85). -/
def resumeStream (k : Nat) (s : State) : Answer :=
  if k < Config.streamCount then
    match (s.stream k).state with
    | .paused => accepted (retestWalk (resumePaused k s))
    | .active => accepted s
    | .unbound => denied .badState s
    | .retiring => denied .badState s
  else denied .badField s

/-- A stream becomes RETIRING: its OPEN unit is staged with cause RETIRE, and it becomes UNBOUND at once
when nothing is in use or reserved (R86). -/
def retireBound (k : Nat) (s : State) : State :=
  checkUnbound k (stageOpen .retire k (s.setStream k { s.stream k with state := .retiring }))

/-- Stream Retire (R86). -/
def retireStream (k : Nat) (s : State) : Answer :=
  if k < Config.streamCount then
    match (s.stream k).state with
    | .active => accepted (retestWalk (retireBound k s))
    | .paused => accepted (retestWalk (retireBound k s))
    | .retiring => accepted s
    | .unbound => denied .badState s
  else denied .badField s

/-- Unit `v` is in a state (Table 4-3). -/
def unitIs (s : State) (v : Nat) (st : UnitState) : Bool := (s.unit? v).any (fun u => u.state == st)

/-- Unit Close (R94). In POWER_FAIL R94 gives an id above 4,095 two codes, BAD_FIELD for the id and BAD_STATE for
the part state; the model answers BAD_FIELD (DESIGN CHOICE, log entry 28). -/
def closeUnit (v : Nat) (s : State) : Answer :=
  if v < Config.unitCount then
    if unitIs s v .opened then accepted (stageUnit .manual v s) else denied .badState s
  else denied .badField s

/-! ### Slots and lanes (R103, R115) -/

/-- Slot Set (R103). -/
def setSlotRecord (i : Nat) (enabled : Option Bool) (d l : Nat) (s : State) : Answer :=
  match enabled with
  | some b =>
    checked (decide (i < Config.slotCount) && isDrain d && decide (l < 8))
      (accepted (s.setSlot i { enabled := b, link := d, lane := l })) s
  | none => denied .badField s

/-- Lane Block (R115). -/
def blockLane (g : Nat) (s : State) : Answer :=
  checked (decide (g < Config.laneCount))
    (accepted (if (s.lane g).state = .blocked then s else laneTo g .blocked s)) s

/-- Lane Unblock (R115). -/
def unblockLane (g : Nat) (s : State) : Answer :=
  if g < Config.laneCount then
    if (s.lane g).state = .blocked then
      accepted (s.setLane g { s.lane g with state := .down })
    else denied .badState s
  else denied .badField s

/-! ### Faulted units (R131, R132) -/

/-- Apply `f` to the record of FAULTED unit `v`: BAD_FIELD for an id above 4,095, BAD_STATE for a unit
that is not FAULTED (R131, R132). -/
def faultedRequest (v : Nat) (f : UnitRecord → State → State) (s : State) : Answer :=
  if v < Config.unitCount then
    match (s.unit? v).filter (fun u => u.state == .faulted) with
    | some u => accepted (f u s)
    | none => denied .badState s
  else denied .badField s

/-! ### Inspect and events (R178, R179) -/

/-- Inspect (R178); with the take option the refusal capture is emptied after it is returned (R21). -/
def inspectRequest (b : List Byte) (s : State) : Answer :=
  match inspectTarget b s with
  | some r => answered r (if takesCapture b then { s with captures := [] } else s)
  | none => denied .badField s

/-- A set of event flags names no bit outside the twelve (R179). -/
def eventSetOk (named : Nat) : Bool := decide (named < 2 ^ eventCount)

/-! ### The commands -/

/-- START (R174). -/
def execStart (s : State) : Result := request 1 (fun _ => startPart) s

/-- STOP (R175). -/
def execStop (s : State) : Result := request 2 (fun _ => stopPart) s

/-- CONFIGURE (R176). -/
def execConfigure (s : State) : Result := request 3 (fun b => configurePart (readSettings b)) s

/-- RULE_SET (R4). -/
def execRuleSet (s : State) : Result := request 4 (fun b => setClassRule (byteAt b 1) (readRule b)) s

/-- RECLAIM_MAP_SET (R16). -/
def execReclaimMapSet (s : State) : Result :=
  request 5 (fun b => setReclaimMap [byteAt b 1, byteAt b 2, byteAt b 3, byteAt b 4]) s

/-- TENANT_SET (R15, R45). -/
def execTenantSet (s : State) : Result :=
  request 6 (fun b =>
    setTenantRequest (byteAt b 1) (numAt b 2 4) (numAt b 6 4) (readTenantFields b)) s

/-- RECLAIM_ACCOUNT_SET (R46). -/
def execReclaimAccountSet (s : State) : Result :=
  request 7 (fun b => setReclaimAccount (numAt b 1 4) (numAt b 5 4)) s

/-- TENANT_FREEZE (R44). -/
def execTenantFreeze (s : State) : Result := request 8 (fun b => freezeTenant (byteAt b 1)) s

/-- TENANT_THAW (R44). -/
def execTenantThaw (s : State) : Result := request 9 (fun b => thawTenant (byteAt b 1)) s

/-- STREAM_BIND (R82). -/
def execStreamBind (s : State) : Result :=
  request 10 (fun b => bindStream (byteAt b 1) (readClass (byteAt b 2)) (readStreamFields b 3)) s

/-- STREAM_SET (R83). -/
def execStreamSet (s : State) : Result :=
  request 11 (fun b => setStreamPolicy (byteAt b 1) (readStreamFields b 2)) s

/-- STREAM_PAUSE (R84). -/
def execStreamPause (s : State) : Result := request 12 (fun b => pauseStream (byteAt b 1)) s

/-- STREAM_RESUME (R85). -/
def execStreamResume (s : State) : Result := request 13 (fun b => resumeStream (byteAt b 1)) s

/-- STREAM_RETIRE (R86). -/
def execStreamRetire (s : State) : Result := request 14 (fun b => retireStream (byteAt b 1)) s

/-- UNIT_CLOSE (R94). -/
def execUnitClose (s : State) : Result := request 15 (fun b => closeUnit (numAt b 1 2)) s

/-- SLOT_SET (R103). -/
def execSlotSet (s : State) : Result :=
  request 16 (fun b => setSlotRecord (byteAt b 1) (flagAt b 2) (byteAt b 3) (byteAt b 4)) s

/-- LANE_BLOCK (R115). -/
def execLaneBlock (s : State) : Result := request 17 (fun b => blockLane (byteAt b 1)) s

/-- LANE_UNBLOCK (R115). -/
def execLaneUnblock (s : State) : Result := request 18 (fun b => unblockLane (byteAt b 1)) s

/-- UNIT_RESTAGE (R131). -/
def execUnitRestage (s : State) : Result :=
  request 19 (fun b => faultedRequest (numAt b 1 2) (restageFaulted (numAt b 1 2))) s

/-- UNIT_DISCARD (R132). -/
def execUnitDiscard (s : State) : Result :=
  request 20 (fun b => faultedRequest (numAt b 1 2) (discardFaulted (numAt b 1 2))) s

/-- INSPECT: taken in every part state (R177, R178). Its result is read after the request has left the queue,
so that an Inspect of link 5 counts its own taking: R178 says "at the taking" and no more (DESIGN CHOICE, log
entry 27). -/
def execInspect (s : State) : Result :=
  match takeRequest (· == 21) s with
  | some m => .next (replyMgmt m.tag (inspectRequest m.body (takeHead 5 .mgmt s)))
  | none => .next s

/-- EVENT_FETCH (R179). -/
def execEventFetch (s : State) : Result :=
  request 22 (fun _ s => answered (.events (eventRecords s)) s) s

/-- EVENT_CLEAR (R179). -/
def execEventClear (s : State) : Result :=
  request 23 (fun b s =>
    checked (eventSetOk (numAt b 1 2)) (accepted (clearEvents (numAt b 1 2) s)) s) s

/-- EVENT_MASK (R179). -/
def execEventMask (s : State) : Result :=
  request 24 (fun b s =>
    checked (eventSetOk (numAt b 1 2)) (accepted (maskEvents (numAt b 1 2) s)) s) s

/-- UNKNOWN_REQUEST_KIND: a request kind that names no kind of Table 10-2 is refused BAD_FIELD, in every
part state (R177 step 1). -/
def execUnknownRequestKind (s : State) : Result :=
  match takeRequest (fun k => k == 0 || decide (requestKinds < k)) s with
  | some m => .next (replyMgmt m.tag (denied .badField (takeHead 5 .mgmt s)))
  | none => .next s

end Sys2Proof.Machine
end

