-- ==== Sys2Proof/Machine/Dispatch.lean ====
section
/-! DEFINITION. The effect of each command of the opcode table: one arm per constructor of Instr. -/

namespace Sys2Proof.Machine

def exec (i : Instr) (s : State) : Host.Outcome State Fault Refusal :=
  match i with
  | .fullReset => Sys2Proof.Machine.execFullReset s
  | .resetNRelease pfail => Sys2Proof.Machine.execResetNRelease pfail s
  | .scrubComplete => Sys2Proof.Machine.execScrubComplete s
  | .pfailNAssertion => Sys2Proof.Machine.execPfailNAssertion s
  | .linkUp link => Sys2Proof.Machine.execLinkUp link s
  | .linkReset link => Sys2Proof.Machine.execLinkReset link s
  | .messageArrival link m => Sys2Proof.Machine.execMessageArrival link m s
  | .messageSent link => Sys2Proof.Machine.execMessageSent link s
  | .placementReportDelivery => Sys2Proof.Machine.execPlacementReportDelivery s
  | .writeIntent link => Sys2Proof.Machine.execWriteIntent link s
  | .stalledIntentRetake link => Sys2Proof.Machine.execStalledIntentRetake link s
  | .withdraw link => Sys2Proof.Machine.execWithdraw link s
  | .grantLapse grant => Sys2Proof.Machine.execGrantLapse grant s
  | .writeData link => Sys2Proof.Machine.execWriteData link s
  | .readProbe reads => Sys2Proof.Machine.execReadProbe reads s
  | .inquire link => Sys2Proof.Machine.execInquire link s
  | .reportFetch => Sys2Proof.Machine.execReportFetch s
  | .flush => Sys2Proof.Machine.execFlush s
  | .stalledFlushRetake => Sys2Proof.Machine.execStalledFlushRetake s
  | .deadlineExpiry unit => Sys2Proof.Machine.execDeadlineExpiry unit s
  | .slotVisit => Sys2Proof.Machine.execSlotVisit s
  | .offerLapse lane => Sys2Proof.Machine.execOfferLapse lane s
  | .accept link => Sys2Proof.Machine.execAccept link s
  | .decline link => Sys2Proof.Machine.execDecline link s
  | .laneReady link => Sys2Proof.Machine.execLaneReady link s
  | .laneQuit link => Sys2Proof.Machine.execLaneQuit link s
  | .fetch link reads => Sys2Proof.Machine.execFetch link reads s
  | .unitDone link => Sys2Proof.Machine.execUnitDone link s
  | .unitFail link => Sys2Proof.Machine.execUnitFail link s
  | .start => Sys2Proof.Machine.execStart s
  | .stop => Sys2Proof.Machine.execStop s
  | .configure => Sys2Proof.Machine.execConfigure s
  | .ruleSet => Sys2Proof.Machine.execRuleSet s
  | .reclaimMapSet => Sys2Proof.Machine.execReclaimMapSet s
  | .tenantSet => Sys2Proof.Machine.execTenantSet s
  | .reclaimAccountSet => Sys2Proof.Machine.execReclaimAccountSet s
  | .tenantFreeze => Sys2Proof.Machine.execTenantFreeze s
  | .tenantThaw => Sys2Proof.Machine.execTenantThaw s
  | .streamBind => Sys2Proof.Machine.execStreamBind s
  | .streamSet => Sys2Proof.Machine.execStreamSet s
  | .streamPause => Sys2Proof.Machine.execStreamPause s
  | .streamResume => Sys2Proof.Machine.execStreamResume s
  | .streamRetire => Sys2Proof.Machine.execStreamRetire s
  | .unitClose => Sys2Proof.Machine.execUnitClose s
  | .slotSet => Sys2Proof.Machine.execSlotSet s
  | .laneBlock => Sys2Proof.Machine.execLaneBlock s
  | .laneUnblock => Sys2Proof.Machine.execLaneUnblock s
  | .unitRestage => Sys2Proof.Machine.execUnitRestage s
  | .unitDiscard => Sys2Proof.Machine.execUnitDiscard s
  | .inspect => Sys2Proof.Machine.execInspect s
  | .eventFetch => Sys2Proof.Machine.execEventFetch s
  | .eventClear => Sys2Proof.Machine.execEventClear s
  | .eventMask => Sys2Proof.Machine.execEventMask s
  | .unknownRequestKind => Sys2Proof.Machine.execUnknownRequestKind s

end Sys2Proof.Machine
end

