-- ==== Sys2Proof/Machine/Idle.lean ====
section
/-! DEFINITION. What the part does when no command waits: its own clock goes on. A timed event that is due
is taken, and otherwise the timebase advances by 1 µs (log entry 4). -/

namespace Sys2Proof.Machine

/-- The start-up scrub completes now: it is under way in STARTING, and either its bound is reached or the
free value says so (R78; log entry 5). -/
def scrubDue (s : State) : Bool :=
  s.part == .starting && s.scrubbing &&
    (decide (Config.scrubBound ≤ s.now) || Config.scrubDone s.idles)

/-- The timed events due at this reading of the timebase, none of which the manual puts before another:
the end of the scrub (R78), grant lapses (R37), deadline expiries (R92) and the slot visit (R104). -/
def dueEvents (s : State) : List Instr :=
  (if scrubDue s then [Instr.scrubComplete] else []) ++
    (s.grants.filter (fun p => decide (p.2.lapse ≤ s.now))).map (fun p => Instr.grantLapse p.1) ++
    (s.units.filter (fun p => (expiredDeadline s p.1).isSome)).map (fun p => Instr.deadlineExpiry p.1) ++
    (if (visitDue s).isSome then [Instr.slotVisit] else [])

/-- The scrub that is under way in STARTING goes on, by as many frames as the free value says (R78; log
entry 5). -/
def scrubOn (s : State) : State :=
  if s.part = .starting ∧ s.scrubbing = true then
    scrubTo (min Config.frameCount (s.scrubbed + Config.scrubStride s.idles)) s
  else s

/-- The timebase advances by 1 µs, and the scrub goes on; it stands at 0 while RESET_N is asserted (section
3.3 of the scope file; log entry 22). -/
def tick (s : State) : State :=
  if s.resetAsserted then s else scrubOn { s with now := s.now + 1 }

/-- A step on an empty queue: no event due, the timebase advances; several due, the free value picks one
(log entry 4). The index of the free values rises by 1 in either case. -/
def idle (s : State) : Result :=
  let due := dueEvents s
  let s' := { s with idles := s.idles + 1 }
  match due[Config.dueChoice s.idles % due.length]? with
  | some c => exec c s'
  | none => .next (tick s')

end Sys2Proof.Machine
end

