-- ==== Sys2Proof/Machine/Layouts.lean ====
section
/-! DEFINITION. The bytes of the messages the part sends: the header of Table 9-5 and the bodies of R170
and R171 (Tables 9-4, 9-7, 9-8 and 9-10). Log entry 14 says where the manual leaves a layout to be read
from its wording. -/

namespace Sys2Proof.Machine

/-! ### Fields (Table 9-10) -/

/-- A number in `w` bytes, least significant byte first (section 9.5). -/
def leBytes : (w : Nat) → Nat → List Byte
  | 0, _ => []
  | w + 1, x => BitVec.ofNat 8 x :: leBytes w (x / 256)

/-- A number of `w` bytes that may be none: none is the all-ones value of the width. -/
def leOption (w : Nat) (x : Option Nat) : List Byte := leBytes w (x.getD (256 ^ w - 1))

/-- A flag or option: 0 clear, 1 set. -/
def flagByte (b : Bool) : List Byte := leBytes 1 b.toNat

/-- A 40-bit opaque value. -/
def opaqueBytes (v : Opaque40) : List Byte := leBytes 5 v.toNat

/-- A key: namespace handle, then LBA. -/
def Key.bytes (k : Key) : List Byte := leBytes 2 k.handle ++ leBytes 5 k.lba

/-- A reasons set: bits 0 to 6 are ORDER, FROZEN, CAP, FRAMES, WAYS, UNITS, GRANTS. -/
def Reasons.bits (r : Reasons) : Nat :=
  r.order.toNat + 2 * r.frozen.toNat + 4 * r.cap.toNat + 8 * r.frames.toNat + 16 * r.ways.toNat +
    32 * r.units.toNat + 64 * r.grants.toNat

/-! ### Codes of enumerated values (Table 9-10) -/

/-- In the order of Table 1-5. -/
def RefusalCode.code : RefusalCode → Nat
  | .notRunning => 0
  | .powerFail => 1
  | .malformed => 2
  | .duplicateTag => 3
  | .protectedRange => 4
  | .noStream => 5
  | .exceedsCap => 6

def DataCode.code : DataCode → Nat
  | .late => 0
  | .mismatch => 1

def ControlCode.code : ControlCode → Nat
  | .malformed => 0
  | .stale => 1

/-- ACCEPTED is 0 and the others follow in the order of R177. -/
def MgmtCode.code : MgmtCode → Nat
  | .accepted => 0
  | .badState => 1
  | .badField => 2
  | .busy => 3
  | .limit => 4
  | .notReady => 5

def LinkCode.code : LinkCode → Nat
  | .unknownKind => 0
  | .badLength => 1
  | .overrun => 2

/-- In the order of Table 4-4. -/
def CloseCause.code : CloseCause → Nat
  | .full => 0
  | .window => 1
  | .hold => 2
  | .adaptive => 3
  | .flush => 4
  | .pressure => 5
  | .relief => 6
  | .retire => 7
  | .manual => 8
  | .powerFail => 9

/-- In the order of Table 10-1. -/
def PartState.code : PartState → Nat
  | .starting => 0
  | .stopped => 1
  | .running => 2
  | .powerFail => 3

def WriteClass.code : WriteClass → Nat
  | .host => 0
  | .reclaim => 1

def Policy.code : Policy → Nat
  | .full => 0
  | .adaptive => 1

def WindowMode.code : WindowMode → Nat
  | .fixed => 0
  | .sliding => 1

def FetchOrder.code : FetchOrder → Nat
  | .linear => 0
  | .paired => 1

def StreamState.code : StreamState → Nat
  | .unbound => 0
  | .active => 1
  | .paused => 2
  | .retiring => 3

/-- In the order of Table 4-3, in which VACANT is 0. -/
def UnitState.code : UnitState → Nat
  | .opened => 1
  | .staged => 2
  | .offered => 3
  | .inFlight => 4
  | .releasing => 5
  | .faulted => 6

def LaneState.code : LaneState → Nat
  | .absent => 0
  | .up => 1
  | .down => 2
  | .blocked => 3

def DeadlineKind.code : DeadlineKind → Nat
  | .window => 0
  | .hold => 1

def ProbeStatus.code : ProbeStatus → Nat
  | .hit => 0
  | .miss => 1
  | .damaged => 2

def FetchMark.code : FetchMark → Nat
  | .data => 0
  | .pad => 1
  | .damaged => 2

/-- Table 9-8. -/
def ReportStatus.code : ReportStatus → Nat
  | .current => 0
  | .void => 1
  | .damaged => 2
  | .discarded => 3

/-! ### Bodies of the intake and drain messages -/

/-- One slice of a Write Done: its outcome, and its sequence when it was filled (R67). -/
def Placed.bytes : Placed → List Byte
  | .placed seq => leBytes 1 0 ++ leBytes 8 seq
  | .overwritten seq => leBytes 1 1 ++ leBytes 8 seq
  | .superseded => leBytes 1 2

/-- The header fields of a Placement Report in the order of R140; what is absent is sent as 0. -/
def ReportHeader.bytes (h : ReportHeader) : List Byte :=
  leBytes 2 h.unit ++ leBytes 1 h.stream ++ leBytes 1 ((h.lane.map laneLink).getD 0) ++
    leBytes 1 ((h.lane.map laneIndex).getD 0) ++ opaqueBytes (h.handle.getD 0#40) ++
    leBytes 1 ((h.cause.map CloseCause.code).getD 0) ++ leBytes 1 h.attempts ++
    flagByte h.restarted ++ leBytes 1 h.unitSize ++ leBytes 1 h.padCount

/-- A slice entry of a Placement Report, 28 bytes (Table 9-8). -/
def ReportSlice.bytes (e : ReportSlice) : List Byte :=
  leBytes 1 e.position ++ leBytes 1 e.status.code ++ leBytes 1 e.cls.code ++ leBytes 1 0 ++
    leBytes 2 e.account ++ leBytes 2 e.key.handle ++ leBytes 8 e.latestSeq ++ leBytes 5 e.key.lba ++
    opaqueBytes (e.source.getD 0#40) ++ leBytes 2 0

/-- The Offer body, 8 bytes (Table 9-7). -/
def offerBytes (unit lane unitSize fill stream attempts : Nat) (restarted : Bool)
    (order : FetchOrder) : List Byte :=
  leBytes 2 unit ++ leBytes 1 lane ++ leBytes 1 unitSize ++ leBytes 1 fill ++ leBytes 1 stream ++
    leBytes 1 attempts ++ leBytes 1 (restarted.toNat + 2 * order.code)

/-! ### Inspect results (R178) -/

/-- The rule action: STREAM 0 with its stream, PROTECT 1, PASS 2. -/
def RuleAction.bytes : RuleAction → List Byte
  | .stream k => leBytes 1 0 ++ leBytes 1 k
  | .protect => leBytes 1 1 ++ leBytes 1 0
  | .pass => leBytes 1 2 ++ leBytes 1 0

/-- A rule in the order of Table 1-2. -/
def Rule.bytes (r : Rule) : List Byte :=
  flagByte r.enabled ++ leBytes 1 r.tenantLow ++ leBytes 1 r.tenantHigh ++ leOption 2 r.handle ++
    leBytes 5 r.lbaLow ++ leBytes 5 r.lbaHigh ++ leOption 1 r.hint ++ r.action.bytes ++
    leBytes 4 r.hits

/-- A tenant record in the order of Table 1-4. -/
def Tenant.bytes (t : Tenant) : List Byte :=
  leBytes 1 t.defaultStream ++ leOption 1 t.seqStream ++ t.hintMap.flatMap (leOption 1) ++
    leOption 2 t.tracker.handle ++ leBytes 8 t.tracker.nextLba ++ leBytes 2 t.tracker.runLength

/-- A capture entry in the order of Table 1-6; the rule takes bytes only when the reason is PROTECTED. -/
def Capture.bytes (c : Capture) : List Byte :=
  leBytes 1 c.link ++ leBytes 2 c.tag ++ leOption 2 c.tenant ++ c.key.bytes ++ leBytes 1 c.count ++
    leBytes 1 c.reason.code ++ (match c.rule with | some r => leBytes 1 r | none => [])

/-- An account in the order of Table 2-1. -/
def Account.bytes (a : Account) : List Byte :=
  leBytes 4 a.reserve ++ leBytes 4 a.cap ++ leBytes 4 a.used ++ flagByte a.frozen ++
    leBytes 1 a.heldCount

/-- A LIVE grant in the order of Table 2-5. -/
def Grant.bytes (g : Grant) : List Byte :=
  leBytes 1 g.link ++ leBytes 2 g.tag ++ leBytes 2 g.account ++ leBytes 1 g.stream ++ g.key.bytes ++
    leBytes 1 g.n ++ leBytes 2 g.sets.length ++
    g.sets.flatMap (fun p => leBytes 2 p.1 ++ leBytes 1 p.2) ++ leBytes 1 g.k ++ leBytes 8 g.lapse

/-- A pending entry in the order of R39; the relief set takes bytes only when WAYS is a reason. -/
def Entry.bytes (e : Entry) : List Byte :=
  leBytes 1 e.link ++ leBytes 2 e.tag ++ leBytes 2 e.account ++ leBytes 1 e.cls.code ++
    e.key.bytes ++ leBytes 1 e.n ++ leBytes 1 e.stream ++ leBytes 1 e.reasons.bits ++
    (match e.relief with | some x => leBytes 2 x | none => [])

/-- A slice record in the order of Table 3-1; the source location is present for RECLAIM frames. -/
def SliceRecord.bytes (r : SliceRecord) : List Byte :=
  r.key.bytes ++ leBytes 2 r.account ++ leBytes 1 r.cls.code ++ leBytes 8 r.firstSeq ++
    leBytes 8 r.latestSeq ++ leBytes 2 r.unit ++ leBytes 1 r.position ++ flagByte r.void ++
    flagByte r.damaged ++ (match r.source with | some v => opaqueBytes v | none => [])

/-- A stream context in the order of Table 4-1. -/
def Stream.bytes (k : Stream) : List Byte :=
  leBytes 1 k.state.code ++ leBytes 1 k.cls.code ++ leBytes 1 k.policy.code ++
    leBytes 1 k.mode.code ++ leBytes 2 k.window ++ leBytes 2 k.hold ++ leBytes 4 k.lanes.toNat ++
    leOption 2 k.openUnit ++ leBytes 1 k.cursor ++ leBytes 1 k.reserved ++
    leBytes 8 k.slicesPlaced ++ leBytes 8 k.padSlices ++ leBytes 8 k.unitsCompleted ++
    leBytes 8 k.inPlaceHits

/-- The state of a unit record, in which VACANT is 0 (Table 4-3). -/
def unitStateCode (u : Option UnitState) : Nat := (u.map UnitState.code).getD 0

/-- The fields of a unit record after its state, in the order of Table 4-3. The slice list is its U
positions after their 2-byte count, which no other field of the message gives (R171); a PAD is sent as all
ones (log entry 14). The lane is one byte, its global number 0 to 31; an absent physical handle is five bytes of
ones; a deadline or close cause that is none is the ones of its widths (DESIGN CHOICE, log entry 27). -/
def UnitRecord.fieldBytes (unitSize : Nat) (u : UnitRecord) : List Byte :=
  leBytes 2 unitSize ++ (List.range unitSize).flatMap (fun p => leOption 2 (u.frames[p]?)) ++ leBytes 1 u.fill ++
    leBytes 8 u.firstArrival ++ leBytes 8 u.lastArrival ++ leOption 8 (u.deadline.map (·.time)) ++
    leOption 1 (u.deadline.map (fun d => d.kind.code)) ++
    leOption 1 (u.cause.map CloseCause.code) ++ leOption 4 u.stagedSeq ++ leOption 1 u.lane ++
    leBytes 1 u.attempts ++ flagByte u.restarted ++ leOption 5 (u.handle.map (·.toNat)) ++
    flagByte u.discard

/-- A unit record; a VACANT one has state 0, no slice at any of its U positions, which are sent as PAD (log
entry 14), fill 0 and its other fields at none or 0 (R87). -/
def unitBytes (unitSize : Nat) : Option UnitRecord → List Byte
  | some u => leBytes 1 u.state.code ++ u.fieldBytes unitSize
  | none =>
    leBytes 1 0 ++ UnitRecord.fieldBytes unitSize
      { state := .opened, frames := [], firstArrival := 0, lastArrival := 0, deadline := none,
        cause := none, stagedSeq := none, lane := none, attempts := 0, restarted := false,
        handle := none, discard := false }

/-- A list of unit ids. -/
def idBytes (ids : List Nat) : List Byte := ids.flatMap (leBytes 2)

/-- A lane record in the order of Table 5-1. -/
def Lane.bytes (l : Lane) : List Byte :=
  leBytes 1 l.state.code ++ leOption 2 (l.offer.map (·.unit)) ++ leOption 1 (l.offer.map (·.slot)) ++
    leBytes 1 l.inFlight ++ leBytes 1 l.lapses ++ leBytes 4 l.totalOffers ++
    leBytes 4 l.totalLapses ++ leBytes 4 l.totalDeclines

/-- The settings of Table 10-3, the lane depths before the fetch orders. -/
def configBytes (c : GlobalConfig) (drains : List DrainConfig) : List Byte :=
  leBytes 1 c.unitSize ++ leBytes 1 c.slotPeriod ++ leBytes 2 c.grantLifetime ++
    leBytes 2 c.seqThreshold ++ leBytes 4 c.pressureThreshold ++
    drains.flatMap (fun d => leBytes 1 d.depth) ++ drains.flatMap (fun d => leBytes 1 d.order.code)

/-- The scope of a flush, 3 bytes; the tenant bytes of ALL_TENANTS, which a receiver ignores (Table 9-10),
are sent as 0 (DESIGN CHOICE, log entry 27). -/
def Scope.bytes : Scope → List Byte
  | .tenant t => leBytes 1 0 ++ leBytes 2 t
  | .all => leBytes 1 1 ++ leBytes 2 0

/-- A flush entry in the order of Table 8-1 with its rank. -/
def flushBytes : Option (FlushEntry × Nat) → List Byte
  | none => leBytes 1 0
  | some (e, rank) =>
    leBytes 1 1 ++ e.scope.bytes ++ leBytes 8 e.horizon ++ leBytes 4 e.count ++
      leBytes 2 e.tags.length ++ e.tags.flatMap (leBytes 2) ++ leBytes 1 rank

/-- The set of those of twelve event records that a test holds of, as bits (Table 9-10). -/
def eventBits (p : EventRecord → Bool) : List EventRecord → Nat
  | [] => 0
  | r :: rest => (p r).toNat + 2 * eventBits p rest

/-- The set of flags, the set of masks, the set counts in the order of Table 10-4 (R171). -/
def eventBytes (rs : List EventRecord) : List Byte :=
  leBytes 2 (eventBits (·.flag) rs) ++ leBytes 2 (eventBits (·.masked) rs) ++
    rs.flatMap (fun r => leBytes 4 r.count)

/-- A way of a set: VACANT 0, or OCCUPIED 1 with its key and frame number (R80). -/
def wayBytes : Option Way → List Byte
  | none => leBytes 1 0
  | some w => leBytes 1 1 ++ w.key.bytes ++ leBytes 2 w.frame

/-- The values of an Inspect result, in the order in which the owning rule names them (R171). After the set
number, the result of Inspect of a key has a byte 0 for a hit and 1 for NOT_INDEXED, a code that neither R80
nor R171 gives (DESIGN CHOICE, log entry 27). The time remaining of a grant, at most 100,000 µs, is a number
of 4 bytes (Table 9-10). -/
def InspectResult.bytes : InspectResult → List Byte
  | .part p cfg drains => leBytes 1 p.code ++ configBytes cfg drains
  | .account a => a.bytes
  | .totals free reserves unused shared =>
    leBytes 4 free ++ leBytes 4 reserves ++ leBytes 4 unused ++ leBytes 4 shared
  | .tenant t => t.bytes
  | .rule r => r.bytes
  | .reclaimMap m => m.flatMap (leBytes 1)
  | .capture entries total =>
    leBytes 1 entries.length ++ entries.flatMap Capture.bytes ++ leBytes 4 total
  | .grant none _ => leBytes 1 0
  | .grant (some g) remaining => leBytes 1 1 ++ g.bytes ++ leBytes 4 remaining
  | .pendingList n => leBytes 1 n
  | .pendingEntry e => e.bytes
  | .frame none => leBytes 1 0
  | .frame (some r) => leBytes 1 1 ++ r.bytes
  | .set occupied reserved ways =>
    leBytes 1 occupied ++ leBytes 1 reserved ++ ways.flatMap wayBytes
  | .key x none => leBytes 2 x ++ leBytes 1 1
  | .key x (some (w, f, r)) => leBytes 2 x ++ leBytes 1 0 ++ leBytes 1 w ++ leBytes 2 f ++ r.bytes
  | .store nextSeq held corrected uncorrectable =>
    leBytes 8 nextSeq ++ leBytes 4 held ++ leBytes 4 corrected ++ leBytes 4 uncorrectable
  | .stream k units used =>
    k.bytes ++ units.flatMap (fun u => leBytes 1 (unitStateCode u)) ++ leBytes 1 used
  | .unit u unitSize => unitBytes unitSize u
  | .stagedQueue ids => leBytes 2 ids.length ++ idBytes ids
  | .slot k => flagByte k.enabled ++ leBytes 1 k.link ++ leBytes 1 k.lane
  | .wheel position period => leBytes 1 position ++ leBytes 1 period
  | .lane l units depth => l.bytes ++ idBytes units ++ leBytes 1 depth
  | .drain c lanes =>
    leBytes 1 c.depth ++ leBytes 1 c.order.code ++
      lanes.flatMap (fun p => leBytes 1 p.1 ++ idBytes p.2)
  | .faultList ids => leBytes 2 ids.length ++ idBytes ids
  | .reportQueue items delivered =>
    leBytes 2 items.length ++ idBytes (items.map (·.unit)) ++
      items.flatMap (fun i => flagByte i.issued) ++ leBytes 8 delivered
  | .flushTable entries active newest =>
    entries.flatMap flushBytes ++ leBytes 1 active ++ leOption 1 newest
  | .powerFail drainCount safe entryState entryTime =>
    leBytes 2 drainCount ++ flagByte safe ++
      (match entryState with | some p => leBytes 1 p.code | none => []) ++
      (match entryTime with | some t => leBytes 8 t | none => [])
  | .link up taken sent refused resets queues outbound overflow =>
    flagByte up ++ leBytes 4 taken ++ leBytes 4 sent ++ leBytes 4 refused ++ leBytes 4 resets ++
      queues.flatMap (leBytes 1) ++ leBytes 1 outbound ++ leBytes 4 overflow
  | .events rs => eventBytes rs

/-! ### Messages (Table 9-4) -/

/-- The kind code of a message the part sends. A report entry leaves as a Placement Report (R139). -/
def OutMessage.kind : OutMessage → Nat
  | .grant .. => 32
  | .holdNotice .. => 33
  | .intentRefused .. => 34
  | .withdrawAnswer .. => 35
  | .writeDone .. => 36
  | .dataRefused .. => 37
  | .probeAnswer .. => 38
  | .probeRefused .. => 39
  | .placementReport .. => 40
  | .reportEntry .. => 40
  | .reportEmpty .. => 41
  | .flushDone .. => 42
  | .flushRefused .. => 43
  | .offer .. => 44
  | .fetchData .. => 45
  | .fetchRefused .. => 46
  | .controlRefused .. => 47
  | .inquireAnswer .. => 48
  | .inquireRefused .. => 49
  | .mgmtAnswer .. => 50
  | .messageRefused .. => 51

/-- The tag in the header; 0 for a kind whose table gives none (section 9.4). -/
def OutMessage.tag : OutMessage → Nat
  | .grant tag .. => tag
  | .holdNotice tag .. => tag
  | .intentRefused tag .. => tag
  | .withdrawAnswer tag .. => tag
  | .writeDone tag .. => tag
  | .dataRefused tag .. => tag
  | .probeAnswer tag .. => tag
  | .probeRefused tag => tag
  | .placementReport tag .. => tag
  | .reportEntry tag _ => tag
  | .reportEmpty tag => tag
  | .flushDone tag _ => tag
  | .flushRefused tag => tag
  | .offer .. => 0
  | .fetchData tag .. => tag
  | .fetchRefused tag .. => tag
  | .controlRefused .. => 0
  | .inquireAnswer tag .. => tag
  | .inquireRefused tag => tag
  | .mgmtAnswer tag .. => tag
  | .messageRefused _ tag _ => tag

/-- The body of a message (Table 9-4, R171). A code whose kind has MALFORMED alone is 0. -/
def OutMessage.bodyBytes : OutMessage → List Byte
  | .grant _ g stream lifetime => leBytes 1 g ++ leBytes 1 stream ++ leBytes 2 lifetime
  | .holdNotice _ r => leBytes 1 r.bits
  | .intentRefused _ code => leBytes 1 code.code
  | .withdrawAnswer _ withdrawn => leBytes 1 (if withdrawn then 0 else 1)
  | .writeDone _ g stream n outcomes =>
    leBytes 1 g ++ leBytes 1 stream ++ leBytes 1 n ++ outcomes.flatMap Placed.bytes
  | .dataRefused _ g code => leBytes 1 g ++ leBytes 1 code.code
  | .probeAnswer _ n statuses _ => leBytes 1 n ++ statuses.flatMap (fun p => leBytes 1 p.code)
  | .probeRefused _ => leBytes 1 0
  | .placementReport _ header slices => header.bytes ++ slices.flatMap ReportSlice.bytes
  | .reportEntry _ _ => []
  | .reportEmpty _ => []
  | .flushDone _ ok => leBytes 1 (if ok then 0 else 1)
  | .flushRefused _ => leBytes 1 0
  | .offer unit lane unitSize fill stream attempts restarted order =>
    offerBytes unit lane unitSize fill stream attempts restarted order
  | .fetchData _ unit k m entries =>
    leBytes 2 unit ++ leBytes 1 k ++ leBytes 1 m ++
      entries.flatMap (fun e => leBytes 1 e.position ++ leBytes 1 e.mark.code)
  | .fetchRefused _ unit code => leBytes 2 unit ++ leBytes 1 code.code
  | .controlRefused kind unit lane code =>
    leBytes 1 kind ++ (match unit with | some v => leBytes 2 v | none => []) ++ leBytes 1 lane ++
      leBytes 1 code.code
  | .inquireAnswer _ n indexed =>
    leBytes 1 n ++ indexed.flatMap (fun b => leBytes 1 (if b then 0 else 1))
  | .inquireRefused _ => leBytes 1 0
  | .mgmtAnswer _ code result =>
    leBytes 1 code.code ++ (match result with | some r => r.bytes | none => [])
  | .messageRefused kind _ code => leBytes 1 kind ++ leBytes 1 code.code

/-- The payloads of a message: one slice per HIT, or one per entry of Fetch Data (Table 9-4). -/
def OutMessage.payloads : OutMessage → List Slice
  | .probeAnswer _ _ _ slices => slices
  | .fetchData _ _ _ _ entries => entries.map (·.bytes)
  | _ => []

/-- The header of a message, 8 bytes (Table 9-5). -/
def headerBytes (kind payloadCount tag bodyLength linkSeq : Nat) : List Byte :=
  leBytes 1 kind ++ leBytes 1 payloadCount ++ leBytes 2 tag ++ leBytes 2 bodyLength ++
    leBytes 2 linkSeq

/-- Everything the partner receives of a message that has left: header, body, payloads. -/
def Sent.bytes (x : Sent) : List Byte :=
  headerBytes x.message.kind x.message.payloads.length x.message.tag x.message.bodyBytes.length
      x.linkSeq ++
    x.message.bodyBytes ++ x.message.payloads.flatten

end Sys2Proof.Machine
end

