-- ==== Sys2Proof/Safety.lean ====
section
/-! DEFINITION. The laws of the device that hold between events, and the words in which statements about
commands are made: which message waits at the head of a channel, and what a request or a drain's control
message finds there. -/

namespace Sys2Proof.Machine

/-! ### A message about to be taken -/

/-- Message `m` stands at the head of a channel of an UP link whose overflow line is empty, and has not
stalled (R160, R163, R165). -/
structure Waits (s : State) (link : Nat) (c : Channel) (m : Message) : Prop where
  up : (s.link link).up = true
  noOverflow : (s.link link).overflow = []
  notStalled : ((s.link link).queue c).stalled = false
  head : ((s.link link).queue c).messages.head? = some m

/-- As `Waits`, for a message that has stalled and whose new taking an event has called for (R40, R150). -/
structure WaitsAgain (s : State) (link : Nat) (c : Channel) (m : Message) : Prop where
  up : (s.link link).up = true
  noOverflow : (s.link link).overflow = []
  stalled : ((s.link link).queue c).stalled = true
  called : ((s.link link).queue c).retake = true
  head : ((s.link link).queue c).messages.head? = some m

/-- A message of kind `kind` waits on the CONTROL channel of drain link `link` (Table 9-1). -/
structure ControlWaits (s : State) (link kind : Nat) (m : Message) : Prop where
  drain : 1 ≤ link ∧ link ≤ 4
  waits : Waits s link .control m
  isKind : m.kind = kind

/-- A Management Request of request kind `kind` waits on link 5 (R177). -/
structure RequestWaits (s : State) (kind : Nat) (m : Message) : Prop where
  waits : Waits s 5 .mgmt m
  isRequest : m.kind = kindManagement
  isKind : byteAt m.body 0 = kind

/-- The state after a request that waits has left its queue, with its answer placed on link 5 (R177). -/
def answeredWith (m : Message) (code : MgmtCode) (result : Option InspectResult) (s : State) : State :=
  place 5 (.mgmtAnswer m.tag code result) s

/-- Command `c` takes the Write Intent `m` at the head of its channel of `link`: its first taking, or the
new taking of one that stalled (R27, R40). -/
inductive TakesIntent (s : State) (link : Nat) (m : Message) : Instr → Prop where
  | first : Waits s link (intentChannel link) m → TakesIntent s link m (.writeIntent link)
  | again : WaitsAgain s link (intentChannel link) m → TakesIntent s link m (.stalledIntentRetake link)

/-- Command `c` takes the Flush `m` at the head of link 0's INTENT channel: its first taking, or the new
taking of one that stalled (R148, R150). -/
inductive TakesFlush (s : State) (m : Message) : Instr → Prop where
  | first : Waits s 0 .intent m → TakesFlush s m .flush
  | again : WaitsAgain s 0 .intent m → TakesFlush s m .stalledFlushRetake

/-- A HOST intent passes stage 0 with stream `k` (R27, R6, R13). -/
structure HostPasses (s : State) (tag : Nat) (w : Intent) (k : Nat) : Prop where
  running : s.part = .running
  fields : intentOk 0 w = true
  tagFree : tagInUse s 0 tag = false
  unprotected : protectRule s w.tenant w.handle w.lba w.n w.hint = none
  stream : (hostChoice s w).stream = some k
  underCap : w.n ≤ (s.account w.tenant).cap

/-- A RECLAIM intent of a drain link passes stage 0 with stream `k` (R27, R17). -/
structure ReclaimPasses (s : State) (link tag : Nat) (w : Intent) (k : Nat) : Prop where
  drain : 1 ≤ link ∧ link ≤ 4
  running : s.part = .running
  fields : intentOk link w = true
  tagFree : tagInUse s link tag = false
  stream : (chooseReclaim s w.age).stream = some k
  underCap : w.n ≤ (s.account Config.reclaimAccount).cap

/-- The reasons for which stages 1 to 6 hold an intent; none where it is granted (R28 to R31). -/
def holdReasons (s : State) (a k : Nat) (key : Key) (n : Nat) : Reasons :=
  if 0 < (s.account a).heldCount ∨ isFrozen s a = true then
    { Reasons.none with order := decide (0 < (s.account a).heldCount), frozen := isFrozen s a }
  else resourceReasons s a k key n

/-- The entry an intent becomes when it is held (R33, R39). -/
def heldEntry (s : State) (link tag a : Nat) (cls : WriteClass) (k : Nat) (key : Key) (n : Nat) : Entry :=
  { link := link, tag := tag, account := a, cls := cls, key := key, n := n, stream := k,
    reasons := holdReasons s a k key n,
    relief :=
      if 0 < (s.account a).heldCount ∨ isFrozen s a = true then none else failingSet s key n }

/-- Two states differ at most in the record of one link. -/
structure LinkFrame (s t : State) (link : Nat) : Prop where
  links : ∀ l, l ≠ link → t.link l = s.link l
  rest : { t with links := s.links } = s

/-! ### What the lapse of grants returns (R37, R49 to R51) -/

/-- The frames promised to the LIVE grants of account `a` that meet a condition. -/
def lapsedFrom (s : State) (p : Grant → Bool) (a : Nat) : Nat :=
  ((s.grants.filter fun q => p q.2 && q.2.account == a).map (·.2.n)).sum

/-- The frames promised to the LIVE grants that meet a condition. -/
def lapsedFrames (s : State) (p : Grant → Bool) : Nat := ((s.grants.filter fun q => p q.2).map (·.2.n)).sum

/-- The c_x recorded for set `x` by the LIVE grants that meet a condition. -/
def lapsedWays (s : State) (p : Grant → Bool) (x : Nat) : Nat :=
  ((s.grants.filter fun q => p q.2).map fun q =>
    ((q.2.sets.filter fun c => c.1 == x).map (·.2)).sum).sum

/-- The records of stream `k` reserved by the LIVE grants that meet a condition. -/
def lapsedRecords (s : State) (p : Grant → Bool) (k : Nat) : Nat :=
  ((s.grants.filter fun q => p q.2 && q.2.stream == k).map (·.2.k)).sum

/-- The HELD frame a key is found at (R59). -/
def frameOf (s : State) (k : Key) : Option Frame := (lookup s k).bind fun p => s.frame? p.2.frame

/-- The status of a key in a Probe Answer when the DRAM reads clean (R70). -/
def cleanStatus (s : State) (k : Key) : ProbeStatus :=
  match frameOf s k with
  | none => .miss
  | some v => if v.record.damaged then .damaged else .hit

/-- The data of a key in a Probe Answer when the DRAM reads clean (R70). -/
def cleanData (s : State) (k : Key) : Option Slice :=
  (frameOf s k).bind fun v => if v.record.damaged then none else some v.data

/-- No stored copy holds a correctable error found before (R73). -/
def NoLatent (s : State) : Prop := ∀ f v, s.frame? f = some v → v.latent = false

/-! ### What one act does to one record -/

/-- One link keeps its bounds: an outbound queue of at most 64 messages, which is full while the overflow
line is not empty, and inbound queues of at most their depths (R161, R164, R165). -/
structure LinkBounds (link : Nat) (l : Link) : Prop where
  outbound : l.outbound.length ≤ Config.outboundDepth
  overflow : l.overflow ≠ [] → l.outbound.length = Config.outboundDepth
  inbound : ∀ c, (l.queue c).messages.length ≤ channelDepth link c

/-- OPEN unit `v`, whose record is `u`, has been staged with cause `c` between `s` and `t`: it keeps its frames
and takes the next staged sequence, and its stream has no OPEN unit and counts the pads (R93). -/
structure Staged (s t : State) (c : CloseCause) (v : Nat) (u : UnitRecord) : Prop where
  unit : t.unit? v = some
    { u with state := .staged, cause := some c, deadline := none, stagedSeq := some s.stagedCounter }
  others : ∀ i, i ≠ v → t.unit? i = s.unit? i
  stream : t.stream (v / 64) =
    { s.stream (v / 64) with
      openUnit := none,
      padSlices := (s.stream (v / 64)).padSlices + (s.cfg.unitSize - u.frames.length) }
  streams : ∀ k, k ≠ v / 64 → t.stream k = s.stream k
  counter : t.stagedCounter = (s.stagedCounter + 1) % 4294967296
  rest : { t with units := s.units, streams := s.streams, stagedCounter := s.stagedCounter } = s

/-- ACTIVE flush entry `e`, which holds `q`, has ended between `s` and `t`: one Flush Done with the result for
each of its tags, in their order, and the entry is VACANT; a stalled Flush is called for again (R150, R152,
R153). -/
structure FlushEnds (s t : State) (e : Nat) (q : FlushEntry) (ok : Bool) : Prop where
  vacant : t.flush? e = none
  others : ∀ i, i ≠ e → t.flush? i = s.flush? i
  order : t.flushOrder = s.flushOrder.filter (fun i => i ≠ e)
  answers : (s.link 0).up = true → LinkBounds 0 (s.link 0) →
    (t.link 0).outbound ++ (t.link 0).overflow =
      (s.link 0).outbound ++ (s.link 0).overflow ++ q.tags.map (fun tag => .flushDone tag ok)
  again : ∀ m, ((s.link 0).queue .intent).stalled = true →
    ((s.link 0).queue .intent).messages.head? = some m → m.kind = kindFlush →
    ((t.link 0).queue .intent).retake = true
  links : ∀ l, l ≠ 0 → t.link l = s.link l
  rest : { t with
    flushes := s.flushes, flushOrder := s.flushOrder, links := s.links, events := s.events,
    alert := s.alert } = s

/-- An intent of tenant `t` meets the tenant, handle and hint conditions of an enabled rule (R5). -/
def Selects (r : Rule) (t handle : Nat) (hint : Option Nat) : Prop :=
  r.enabled = true ∧ r.tenantLow ≤ t ∧ t ≤ r.tenantHigh ∧ (∀ h, r.handle = some h → handle = h) ∧
    (∀ h, r.hint = some h → hint = some h)

/-- A PROTECT rule matches an intent whose run of LBAs overlaps its range (R5). -/
def Protects (r : Rule) (t handle lba n : Nat) (hint : Option Nat) : Prop :=
  r.action = .protect ∧ Selects r t handle hint ∧ lba ≤ r.lbaHigh ∧ r.lbaLow ≤ lba + n - 1

/-- A STREAM or PASS rule matches an intent whose starting LBA lies in its range (R5). -/
def Directs (r : Rule) (t handle lba : Nat) (hint : Option Nat) : Prop :=
  r.action ≠ .protect ∧ Selects r t handle hint ∧ r.lbaLow ≤ lba ∧ lba ≤ r.lbaHigh

/-- An account is in the scope of a flush (R147). -/
def inScope (c : Scope) (a : Nat) : Bool :=
  match c with
  | .tenant t => a == t
  | .all => true

/-! ### The laws of the device -/

/-- ALERT_N is asserted while at least one flag is set whose mask is open (R180). -/
def AlertLaw (s : State) : Prop := s.alert = anyOpenFlag s.events

/-- SAFE is asserted in POWER_FAIL while the drain count is 0, and deasserted otherwise; while RESET_N is
asserted the part is not in POWER_FAIL and no scrub runs (R158, R172). -/
structure SafeLaw (s : State) : Prop where
  level : s.safe = safeLevel s
  inReset : s.resetAsserted = true → s.part = .starting ∧ s.scrubbing = false

/-- A lane that is not UP has no offered unit and no unit IN_FLIGHT (the law of the device of section
5.2.1). -/
def LaneLaw (s : State) : Prop :=
  ∀ g, (s.lane g).state ≠ .up → (s.lane g).offer = none ∧ (s.lane g).inFlight = 0

/-- Every HELD frame has first sequence ≤ latest sequence < the placement sequence counter (R54). -/
def SequenceLaw (s : State) : Prop :=
  ∀ f v, s.frame? f = some v →
    v.record.firstSeq ≤ v.record.latestSeq ∧ v.record.latestSeq < s.nextSeq

/-- The held-count of every account is the number of its entries on the pending list (R39). -/
def HeldLaw (s : State) : Prop :=
  ∀ a, (s.account a).heldCount = s.waiting.countP (fun e => e.account == a)

/-- The counts and lists of units agree with the unit records: the drain count (R158), the in-flight count of
every lane (R135), the outstanding offer of every lane (Table 5-1), the report queue, which holds exactly the
RELEASING units, each once (R137), and the fault list, which holds exactly the FAULTED ones (R130). The
records stand in rising unit id (the model's own form, log entry 20). -/
structure UnitLaw (s : State) : Prop where
  sorted : Table.sorted s.units = true
  drainCount : s.drainCount = s.units.countP (fun p => p.2.state.counted)
  inFlight : ∀ g, (s.lane g).inFlight =
    s.units.countP (fun p => p.2.state == .inFlight && p.2.lane == some g)
  offers : ∀ g o, (s.lane g).offer = some o →
    ∃ u, s.unit? o.unit = some u ∧ u.state = .offered ∧ u.lane = some g
  reportsOnce : (s.reportQueue.map (·.unit)).Nodup
  reports : ∀ v, v ∈ s.reportQueue.map (·.unit) ↔ ∃ u, s.unit? v = some u ∧ u.state = .releasing
  faultsOnce : s.faultList.Nodup
  faults : ∀ v, v ∈ s.faultList ↔ ∃ u, s.unit? v = some u ∧ u.state = .faulted

/-- The number of frames HELD for an account (R24). -/
def heldFor (s : State) (a : Nat) : Nat := s.frames.countP (fun p => p.2.record.account == a)

/-- The number of frames promised to the LIVE grants of an account (R24, R34). -/
def promisedTo (s : State) (a : Nat) : Nat :=
  ((s.grants.filter (fun p => p.2.account == a)).map (·.2.n)).sum

/-- The two laws of R24, F plus the sum of u equals 65,536 and F is at least the sum of the unused reserves,
with what they rest on: u of an account is the frames HELD for it and promised to it, and every grant, pending
entry and frame names one of the 257 accounts. Grants and frames stand in rising number (the model's own
form, log entry 20). -/
structure BalanceLaw (s : State) : Prop where
  grantsSorted : Table.sorted s.grants = true
  framesSorted : Table.sorted s.frames = true
  balance : s.free + sumAccounts (·.used) s = 65536
  reserves : sumAccounts unusedReserve s ≤ s.free
  used : ∀ a, (s.account a).used = heldFor s a + promisedTo s a
  grants : ∀ p ∈ s.grants, p.2.account < 257
  waiting : ∀ e ∈ s.waiting, e.account < 257
  frames : ∀ p ∈ s.frames, p.2.record.account < 257

/-- The ways of set `x` promised to LIVE grants: the keys of their runs that lie in it (R30, R58). -/
def promisedWays (s : State) (x : Nat) : Nat :=
  (s.grants.map fun p => (runKeys p.2.key p.2.n).countP (fun q => indexHash q == x)).sum

/-- The occupied and the reserved ways of every set fit in 16, and the reserved ones are those promised to
LIVE grants, each of which records its (x, c_x) pairs (R32, R58). Grants and the ways of a set stand in
rising number (the model's own form, log entry 20). -/
structure SetLaw (s : State) : Prop where
  grantsSorted : Table.sorted s.grants = true
  pairs : ∀ p ∈ s.grants, p.2.sets = setCounts p.2.key p.2.n
  reserved : ∀ x, (s.indexSet x).reserved = promisedWays s x
  room : ∀ x, (s.indexSet x).occupied + (s.indexSet x).reserved ≤ 16
  waysSorted : ∀ x, Table.sorted (s.indexSet x).ways = true
  ways : ∀ x, ∀ p ∈ (s.indexSet x).ways, p.1 < 16

/-- The laws of the index (R56): every OCCUPIED way stands in its key's set and names a HELD frame that is
not void and has the way's key, no two hold the same key, and every HELD frame that is not void is named by a
way. The ways of a set stand in rising number (the model's own form, log entry 20). -/
structure IndexLaw (s : State) : Prop where
  sorted : ∀ x, Table.sorted (s.indexSet x).ways = true
  named : ∀ x, ∀ p ∈ (s.indexSet x).ways, indexHash p.2.key = x ∧
    ∃ v, s.frame? p.2.frame = some v ∧ v.record.key = p.2.key ∧ v.record.void = false
  once : ∀ x, ∀ p ∈ (s.indexSet x).ways, ∀ q ∈ (s.indexSet x).ways, p.2.key = q.2.key → p = q
  current : ∀ f v, s.frame? f = some v → v.record.void = false →
    ∃ p ∈ (s.indexSet (indexHash v.record.key)).ways, p.2.frame = f

/-- The bounded lists keep their bounds: the refusal capture (R20), the pending list (R39), and the queues
of every link. -/
structure BoundsLaw (s : State) : Prop where
  captures : s.captures.length ≤ Config.captureLimit
  waiting : s.waiting.length ≤ Config.pendingLimit
  links : ∀ l, LinkBounds l (s.link l)

/-- The staging store's table of frames is in canonical form: frame numbers strictly rising, only HELD
frames listed. -/
def framesWf (s : State) : Bool := Table.sorted s.frames

/-- Every table of records is in canonical form: numbers strictly rising, and no record listed that equals
what an unlisted number holds. -/
def tablesWf (s : State) : Bool :=
  framesWf s && Table.wf (fun _ => Stored.zero) s.freed && Table.sorted s.grants &&
    Table.sorted s.units && Table.sorted s.flushes &&
    Table.wf (fun _ => DrainConfig.reset) s.drains && Table.wf (fun _ => Rule.reset) s.rules &&
    Table.wf (fun _ => Tenant.reset) s.tenants && Table.wf (fun _ => Account.reset) s.accounts &&
    Table.wf (fun _ => IndexSet.reset) s.sets && Table.wf (fun _ => Stream.reset) s.streams &&
    Table.wf Slot.reset s.slots && Table.wf (fun _ => Lane.reset) s.lanes &&
    Table.wf (fun _ => EventRecord.reset) s.events && Table.wf (fun _ => Link.reset) s.links &&
    s.sets.all (fun p => Table.sorted p.2.ways)

/-! ### Safe steps -/

/-- A step is safe when it gives a next state. -/
def SafeStep (s : State) : Prop := ∃ t, step s = .next t

end Sys2Proof.Machine
end

