-- ==== Sys2Proof/Certificates/Slice0/Obligations.lean ====
section
/-! DEFINITION. The statements for the provers, as propositions. Each docstring names the rules or the log
entries its clauses rest on; OBLIGATIONS.json lists them. -/

section Statements

open Sys2Proof Sys2Proof.Machine

/-! ### The machine -/

/-- A step runs the command at the front of the queue on the state with the queue's rest. -/
def Obligations.StepRunsFrontCommand : Prop :=
  ∀ (c : Instr) (rest : List Instr) (s : State), s.pending = c :: rest →
    step s = exec c { s with pending := rest }

/-- On an empty queue a step takes one of the timed events that are due, and where none is due the timebase
advances by 1 µs, unless RESET_N is asserted; while the start-up scrub is under way it goes on by some number
of frames (the model's choice: log entries 4, 5 and 22). -/
def Obligations.IdleStepFollowsTheClock : Prop :=
  ∀ s : State, s.pending = [] →
    (dueEvents s = [] → s.resetAsserted = false → ¬(s.part = .starting ∧ s.scrubbing = true) →
      step s = .next { s with idles := s.idles + 1, now := s.now + 1 }) ∧
    (s.resetAsserted = false → s.part = .starting → s.scrubbing = true → s.scrubbed ≤ 65536 →
      (∀ c ∈ dueEvents s, c = .scrubComplete) →
      (dueEvents s = [] ∧ ∃ n, s.scrubbed ≤ n ∧ n ≤ 65536 ∧
        step s = .next { s with
          idles := s.idles + 1, now := s.now + 1, scrubbed := n,
          freed := s.freed.filter (fun p => decide (n ≤ p.1)) }) ∨
      (dueEvents s ≠ [] ∧ step s = exec .scrubComplete { s with idles := s.idles + 1 })) ∧
    (dueEvents s = [] → s.resetAsserted = true → step s = .next { s with idles := s.idles + 1 }) ∧
    (dueEvents s ≠ [] → ∃ c ∈ dueEvents s, step s = exec c { s with idles := s.idles + 1 })

/-- No command touches the queue of commands or the index of the free values, FULL_RESET
among them (the model's choice, log entry 12), and none but the full reset moves the timebase, which only an
idle step advances (log entry 4). -/
def Obligations.CommandsKeepTheQueue : Prop :=
  ∀ (c : Instr) (s t : State), exec c s = .next t →
    t.pending = s.pending ∧ t.idles = s.idles ∧ (c ≠ .fullReset → t.now = s.now)

/-- Every record of the part after the full reset, as its chapter states it: the settings and the drain
links, the rules (Table 1-2) and the tenants (Table 1-4), the accounts, the grants and the pending list, the
staging store and the index, the streams and the units, the wheel and the lanes, the fault list and the
report queue, the flush entries, the events, the links and the two output lines. That the part state reads
STARTING with no scrub while RESET_N is asserted is log entry 3. -/
def Obligations.ResetValues : Prop :=
  State.reset.cfg = { unitSize := 16, slotPeriod := 8, grantLifetime := 100, seqThreshold := 256,
                      pressureThreshold := 4096 } ∧
  (∀ d, State.reset.drain d = { depth := 2, order := .linear }) ∧
  (∀ r, State.reset.rule r =
    { enabled := false, tenantLow := 0, tenantHigh := 255, handle := none, lbaLow := 0,
      lbaHigh := 2 ^ 40 - 1, hint := none, action := .pass, hits := 0 }) ∧
  (∀ t, State.reset.tenant t =
    { defaultStream := 0, seqStream := none,
      hintMap := [none, none, none, none, none, none, none, none],
      tracker := { handle := none, nextLba := 0, runLength := 0 } }) ∧
  State.reset.reclaimMap = [0, 0, 0, 0] ∧
  State.reset.captures = [] ∧ State.reset.refusals = 0 ∧
  (∀ a, State.reset.account a =
    { reserve := 0, cap := 65536, used := 0, frozen := false, heldCount := 0 }) ∧
  State.reset.free = 65536 ∧ sharedFree State.reset = 65536 ∧
  (∀ g, State.reset.grant? g = none) ∧ State.reset.waiting = [] ∧
  (∀ f, State.reset.frame? f = none ∧ State.reset.stored? f = none) ∧ State.reset.nextSeq = 1 ∧
  State.reset.corrected = 0 ∧ State.reset.uncorrectable = 0 ∧
  (∀ x, State.reset.indexSet x = { ways := [], reserved := 0 }) ∧
  (∀ k, State.reset.stream k =
    { state := .unbound, cls := .host, policy := .full, mode := .sliding, window := 50, hold := 5,
      lanes := 0xFFFFFFFF#32, openUnit := none, cursor := 0, reserved := 0, slicesPlaced := 0,
      padSlices := 0, unitsCompleted := 0, inPlaceHits := 0 }) ∧
  (∀ v, State.reset.unit? v = none) ∧ State.reset.stagedCounter = 0 ∧ stagedQueue State.reset = [] ∧
  State.reset.wheelPos = 31 ∧ State.reset.nextVisit = none ∧
  (∀ i, State.reset.slot i = { enabled := true, link := 1 + i / 8, lane := i % 8 }) ∧
  (∀ g, State.reset.lane g =
    { state := .absent, offer := none, inFlight := 0, lapses := 0, totalOffers := 0, totalLapses := 0,
      totalDeclines := 0 }) ∧
  State.reset.faultList = [] ∧ State.reset.reportQueue = [] ∧ State.reset.delivered = 0 ∧
  (∀ e, State.reset.flush? e = none) ∧ State.reset.flushOrder = [] ∧ State.reset.drainCount = 0 ∧
  State.reset.entryState = none ∧ State.reset.entryTime = none ∧
  (∀ i, State.reset.event i = { flag := false, masked := false, count := 0 }) ∧
  (∀ l, (State.reset.link l).up = false ∧
    (∀ c, (State.reset.link l).queue c = { messages := [], stalled := false, retake := false }) ∧
    (State.reset.link l).outbound = [] ∧ (State.reset.link l).overflow = [] ∧
    (State.reset.link l).inSeq = 0 ∧ (State.reset.link l).outSeq = 0 ∧
    (State.reset.link l).taken = 0 ∧ (State.reset.link l).sent = 0 ∧
    (State.reset.link l).refused = 0 ∧ (State.reset.link l).resets = 0) ∧
  State.reset.part = .starting ∧ State.reset.scrubbing = false ∧ State.reset.scrubbed = 0 ∧
  State.reset.now = 0 ∧ State.reset.safe = false ∧ State.reset.alert = false

/-! ### The board lines and the start-up -/

/-- The full reset gives every record its value after the full reset; the level of the PFAIL_N input, the
queue of commands and the index of the free values stay (log entries 3, 12 and 17). -/
def Obligations.FullResetRestoresRecords : Prop :=
  ∀ s : State, exec .fullReset s =
    .next { State.reset with
      pending := s.pending, idles := s.idles, pfailAsserted := s.pfailAsserted }

/-- The release of RESET_N enters STARTING and begins the scrub; a PFAIL_N asserted at the release is taken
at once. -/
def Obligations.ReleaseStartsTheScrub : Prop :=
  ∀ s : State, s.resetAsserted = true →
    exec (.resetNRelease false) s =
      .next { s with
        resetAsserted := false, part := .starting, scrubbing := true, pfailAsserted := false } ∧
    ∃ t, exec (.resetNRelease true) s = .next t ∧
      t.resetAsserted = false ∧ t.part = .powerFail ∧ t.scrubbing = false ∧ t.pfailAsserted = true ∧
      t.entryState = some .starting ∧ t.entryTime = some s.now ∧ t.grants = [] ∧ t.waiting = []

/-- The scrub that is under way in STARTING ends in STOPPED: every frame holds zero data with a matching check
code, and no other record changes; where none is under way no such event takes place (log entry 2). -/
def Obligations.ScrubCompletionStops : Prop :=
  ∀ s : State,
    (s.part = .starting → s.scrubbing = true → ∃ t,
      exec .scrubComplete s = .next t ∧ t.scrubbed = 65536 ∧
      (∀ f, f < 65536 → s.frame? f = none →
        t.stored? f = some { data := List.replicate 4096 0#8, latent := false }) ∧
      { t with scrubbed := s.scrubbed, freed := s.freed } =
        { s with part := .stopped, scrubbing := false }) ∧
    (s.part ≠ .starting ∨ s.scrubbing = false → exec .scrubComplete s = .next s)

/-- An assertion of PFAIL_N enters POWER_FAIL as one event. Every LIVE grant lapses: its frames, its ways and
its records return, and GRANT_LAPSE is set. Every pending entry is refused POWER_FAIL from head to tail: it is
captured, counted and answered with Intent Refused on its link. Every OPEN unit is STAGED with cause
POWER_FAIL, in rising unit id, and its stream has no OPEN unit. The frames, the flush entries and the lanes
are kept, the POWER_FAIL flag is set, a scrub stops where it stands, and SAFE follows the drain count. -/
def Obligations.PowerFailEntry : Prop :=
  ∀ s : State, s.resetAsserted = false →
    (s.part ≠ .powerFail → ∃ t, exec .pfailNAssertion s = .next t ∧
      t.part = .powerFail ∧ t.pfailAsserted = true ∧ t.scrubbing = false ∧ t.scrubbed = s.scrubbed ∧
      t.entryState = some s.part ∧ t.entryTime = some s.now ∧
      (t.event Event.powerFail.code).flag = true ∧
      t.grants = [] ∧ t.free = s.free + lapsedFrames s (fun _ => true) ∧
      (∀ a, t.account a =
        { s.account a with
          used := (s.account a).used - lapsedFrom s (fun _ => true) a,
          heldCount := (s.account a).heldCount - s.waiting.countP (fun e => e.account == a) }) ∧
      (HeldLaw s → ∀ a, (t.account a).heldCount = 0) ∧
      (∀ x, t.indexSet x =
        { s.indexSet x with
          reserved := (s.indexSet x).reserved - lapsedWays s (fun _ => true) x }) ∧
      (∀ k, (t.stream k).reserved = (s.stream k).reserved - lapsedRecords s (fun _ => true) k) ∧
      (s.grants ≠ [] → (t.event Event.grantLapse.code).flag = true) ∧
      t.waiting = [] ∧
      (s.captures.length ≤ 8 →
        t.captures = (s.captures ++ s.waiting.map fun e => e.captureOf .powerFail).drop
          (s.captures.length + s.waiting.length - 8)) ∧
      (s.refusals ≤ 4294967295 → t.refusals = min (s.refusals + s.waiting.length) 4294967295) ∧
      (∀ l, (s.link l).up = true → LinkBounds l (s.link l) →
        (t.link l).outbound ++ (t.link l).overflow =
          (s.link l).outbound ++ (s.link l).overflow ++
            (s.waiting.filter fun e => e.link == l).map fun e => .intentRefused e.tag .powerFail) ∧
      (Table.sorted s.units = true → s.stagedCounter < 4294967296 → ∀ v u, s.unit? v = some u →
        (u.state ≠ .opened → t.unit? v = some u) ∧
        (∀ earlier later, openUnits s = earlier ++ v :: later →
          u.state = .opened ∧ (t.stream (v / 64)).openUnit = none ∧
          t.unit? v = some
            { u with
              state := .staged, cause := some .powerFail, deadline := none,
              stagedSeq := some ((s.stagedCounter + earlier.length) % 4294967296) })) ∧
      (∀ v u, s.unit? v = some u → u.state = .opened → v ∈ openUnits s) ∧
      (∀ v, s.unit? v = none → t.unit? v = none) ∧
      t.frames = s.frames ∧ t.freed = s.freed ∧ t.nextSeq = s.nextSeq ∧ t.flushes = s.flushes ∧
      t.flushOrder = s.flushOrder ∧ t.lanes = s.lanes ∧ t.faultList = s.faultList ∧
      t.reportQueue = s.reportQueue ∧ t.tenants = s.tenants ∧ t.rules = s.rules ∧
      t.drainCount = s.drainCount ∧ t.safe = (s.drainCount == 0) ∧ t.wheelPos = s.wheelPos ∧
      (s.part = .running → t.nextVisit = s.nextVisit) ∧
      (s.part ≠ .running → t.nextVisit = some (s.now + s.cfg.slotPeriod))) ∧
    (s.part = .powerFail → exec .pfailNAssertion s = .next { s with pfailAsserted := true })

/-! ### Links -/

/-- A message placed for an UP link joins the tail of its outbound queue, or of its overflow line when the
queue holds 64; one placed for a DOWN link is discarded. The message at the head of a channel that is taken
leaves its queue, and the count of messages taken rises. Neither touches anything but that link. -/
def Obligations.QueuesTakeAndPlace : Prop :=
  ∀ (s : State) (l : Nat) (m : OutMessage) (c : Channel),
    ((s.link l).up = false → place l m s = s) ∧
    ((s.link l).up = true → (s.link l).outbound.length < 64 →
      (place l m s).link l = { s.link l with outbound := (s.link l).outbound ++ [m] }) ∧
    ((s.link l).up = true → 64 ≤ (s.link l).outbound.length →
      (place l m s).link l = { s.link l with overflow := (s.link l).overflow ++ [m] }) ∧
    LinkFrame s (place l m s) l ∧
    (((takeHead l c s).link l).queue c =
      { messages := ((s.link l).queue c).messages.tail, stalled := false, retake := false }) ∧
    (∀ c', c' ≠ c → ((takeHead l c s).link l).queue c' = (s.link l).queue c') ∧
    ((takeHead l c s).link l).taken = satSucc (s.link l).taken ∧
    ((takeHead l c s).link l).outbound = (s.link l).outbound ∧
    LinkFrame s (takeHead l c s) l

/-- A DOWN link becomes UP with empty queues and both link sequences at 0, its counts kept; on an UP link
the order is a reset, at once followed by the link-up. -/
def Obligations.LinkUpEffect : Prop :=
  ∀ (s : State) (l : Nat), l ≤ 5 → s.resetAsserted = false →
    ((s.link l).up = false → ∃ t, exec (.linkUp l) s = .next t ∧
      t.link l =
        { Link.reset with
          up := true, taken := (s.link l).taken, sent := (s.link l).sent,
          refused := (s.link l).refused, resets := (s.link l).resets, wire := (s.link l).wire } ∧
      LinkFrame s t l) ∧
    ((s.link l).up = true → ∃ t u, exec (.linkReset l) s = .next t ∧ exec (.linkUp l) t = .next u ∧
      exec (.linkUp l) s = .next u)

/-- A reset of an UP link: its queues and its overflow line are cleared, the issued marks of its cleared
report entries with them, it is DOWN and its reset count rises; its grants lapse with what they return, its
entries leave the list, and where there were any the re-test walk ends the event; link 0 also loses its flush
entries and the run trackers, a drain link its lanes, whose offers are withdrawn and whose IN_FLIGHT units
are re-staged as restarted. A reset of a DOWN link changes nothing. -/
def Obligations.LinkResetEffect : Prop :=
  ∀ (s : State) (l : Nat), l ≤ 5 →
    ((s.link l).up = false → exec (.linkReset l) s = .next s) ∧
    ((s.link l).up = true → ∃ t, exec (.linkReset l) s = .next t ∧
      t.link l =
        { Link.reset with
          inSeq := (s.link l).inSeq, outSeq := (s.link l).outSeq, taken := (s.link l).taken,
          sent := (s.link l).sent, refused := (s.link l).refused,
          resets := satSucc (s.link l).resets, wire := (s.link l).wire } ∧
      t.frames = s.frames ∧ t.nextSeq = s.nextSeq ∧ t.slots = s.slots ∧ t.wheelPos = s.wheelPos ∧
      t.faultList = s.faultList ∧ t.part = s.part ∧ t.cfg = s.cfg ∧ t.rules = s.rules ∧
      t.reclaimMap = s.reclaimMap ∧
      (l ≤ 4 → (∀ g v, t.grant? g = some v → v.link ≠ l) ∧ (∀ e ∈ t.waiting, e.link ≠ l)) ∧
      (l = 0 → t.flushes = [] ∧ t.flushOrder = [] ∧ t.lanes = s.lanes ∧
        ∀ i, (t.tenant i).tracker = RunTracker.reset) ∧
      (1 ≤ l → l ≤ 4 → t.flushes = s.flushes ∧ t.tenants = s.tenants ∧
        ∀ i, i < 8 → (t.lane (globalLane l i)).state = .absent ∧
          (t.lane (globalLane l i)).lapses = 0 ∧
          (LaneLaw s → (t.lane (globalLane l i)).offer = none ∧
            (t.lane (globalLane l i)).inFlight = 0)) ∧
      (l = 5 → hasLinkTraffic s 5 = false → t.units = s.units ∧ t.lanes = s.lanes ∧ t.flushes = s.flushes ∧
        t.grants = s.grants ∧ t.waiting = s.waiting ∧ t.events = s.events ∧ t.alert = s.alert) ∧
      t.reportQueue = s.reportQueue.map (fun i =>
        if i.unit ∈ reportUnits ((s.link l).outbound ++ (s.link l).overflow) then
          { i with issued := false } else i) ∧
      (l ≤ 4 → ∃ r, t = (if hasLinkTraffic s l = true then retestWalk r else r) ∧
        (Table.sorted s.grants = true → r.grants = s.grants.filter (fun q => !(q.2.link == l))) ∧
        r.free = s.free + lapsedFrames s (fun v => v.link == l) ∧
        (∀ a, r.account a =
          { s.account a with
            used := (s.account a).used - lapsedFrom s (fun v => v.link == l) a,
            heldCount := (s.account a).heldCount -
              s.waiting.countP (fun e => e.link == l && e.account == a) }) ∧
        (∀ x, r.indexSet x =
          { s.indexSet x with
            reserved := (s.indexSet x).reserved - lapsedWays s (fun v => v.link == l) x }) ∧
        (∀ k, (r.stream k).reserved = (s.stream k).reserved - lapsedRecords s (fun v => v.link == l) k) ∧
        ((∃ q ∈ s.grants, q.2.link = l) → (r.event Event.grantLapse.code).flag = true) ∧
        r.waiting = s.waiting.filter (fun e => !(e.link == l)) ∧
        (l = 0 → r.units = s.units) ∧
        (1 ≤ l → UnitLaw s → LaneLaw s → ∀ v u, s.unit? v = some u →
          (u.state = .inFlight → (∃ i, i < 8 ∧ u.lane = some (globalLane l i)) →
            r.unit? v = some { u with state := .staged, lane := none, restarted := true }) ∧
          (u.state = .offered →
            (∃ i o, i < 8 ∧ (s.lane (globalLane l i)).offer = some o ∧ o.unit = v) →
            r.unit? v = some { u with state := .staged, lane := none }) ∧
          (¬(u.state = .inFlight ∧ ∃ i, i < 8 ∧ u.lane = some (globalLane l i)) →
            (∀ i o, i < 8 → (s.lane (globalLane l i)).offer = some o → o.unit ≠ v) →
            r.unit? v = some u))))

/-- A message that passes the checks of its arrival joins the tail of its channel's queue, and the inbound
link sequence rises by 1 modulo 65,536. -/
def Obligations.ArrivalJoinsItsQueue : Prop :=
  ∀ (s : State) (l : Nat) (m : Message) (c : Channel), l ≤ 5 → (s.link l).up = true →
    m.linkSeq = (s.link l).inSeq → kindChannel l m.kind = some c → sizeOk l m = true →
    ((s.link l).queue c).messages.length < channelDepth l c →
    ∃ t, exec (.messageArrival l m) s = .next t ∧
      ((t.link l).queue c).messages = ((s.link l).queue c).messages ++ [m] ∧
      ((t.link l).queue c).stalled = ((s.link l).queue c).stalled ∧
      (∀ c', c' ≠ c → (t.link l).queue c' = (s.link l).queue c') ∧
      (t.link l).inSeq = ((s.link l).inSeq + 1) % 65536 ∧
      (t.link l).outbound = (s.link l).outbound ∧ (t.link l).refused = (s.link l).refused ∧
      LinkFrame s t l

/-- A message whose link sequence is wrong resets its link. One with the right sequence is discarded with
Message Refused where its kind, its size or its channel's room fails, in that order, and the count of
refused messages rises. -/
def Obligations.ArrivalTurnedAway : Prop :=
  ∀ (s : State) (l : Nat) (m : Message), l ≤ 5 → (s.link l).up = true →
    (m.linkSeq ≠ (s.link l).inSeq → exec (.messageArrival l m) s = exec (.linkReset l) s) ∧
    (m.linkSeq = (s.link l).inSeq →
      ∀ code : LinkCode,
        (code = .unknownKind ∧ kindChannel l m.kind = none) ∨
          (code = .badLength ∧ (kindChannel l m.kind).isSome = true ∧ sizeOk l m = false) ∨
          (code = .overrun ∧ sizeOk l m = true ∧ ∃ c, kindChannel l m.kind = some c ∧
            channelDepth l c ≤ ((s.link l).queue c).messages.length) →
        ∃ r, r.link l =
            { s.link l with
              inSeq := ((s.link l).inSeq + 1) % 65536, refused := satSucc (s.link l).refused } ∧
          LinkFrame s r l ∧
          exec (.messageArrival l m) s = .next (place l (.messageRefused m.kind m.tag code) r))

/-- The message at the head of an UP link's outbound queue leaves: it carries the outbound link sequence,
the oldest message of the overflow line takes the free place, and the count of messages sent rises. When
the overflow line has emptied, a Write Intent or Flush stalled on the link is called for again. -/
def Obligations.SentMessageLeaves : Prop :=
  ∀ (s : State) (l : Nat) (m : OutMessage) (rest : List OutMessage), l ≤ 5 → (s.link l).up = true →
    (s.link l).outbound = m :: rest → (∀ tag v, m ≠ .reportEntry tag v) →
    ∃ t, exec (.messageSent l) s = .next t ∧
      (t.link l).outbound = rest ++ (s.link l).overflow.take 1 ∧
      (t.link l).overflow = (s.link l).overflow.tail ∧
      (t.link l).outSeq = ((s.link l).outSeq + 1) % 65536 ∧
      (t.link l).sent = satSucc (s.link l).sent ∧
      (t.link l).wire = some { linkSeq := (s.link l).outSeq, message := m } ∧
      (t.link l).up = true ∧ (t.link l).inSeq = (s.link l).inSeq ∧
      (t.link l).taken = (s.link l).taken ∧ (t.link l).resets = (s.link l).resets ∧
      (∀ c, ((t.link l).queue c).messages = ((s.link l).queue c).messages ∧
        ((t.link l).queue c).stalled = ((s.link l).queue c).stalled) ∧
      ((s.link l).overflow.length ≠ 1 → ∀ c, (t.link l).queue c = (s.link l).queue c) ∧
      ((s.link l).overflow.length = 1 →
        ((s.link l).queue (intentChannel l)).stalled = true →
        (∃ h, ((s.link l).queue (intentChannel l)).messages.head? = some h ∧
          (h.kind = kindWriteIntent ∨ h.kind = kindFlush)) →
        ((t.link l).queue (intentChannel l)).retake = true) ∧
      LinkFrame s t l

/-- A Placement Report is delivered when its entry leaves link 0. It is built from the records as they stand:
its header, and one entry for each slice with the status of Table 7-1. The unit leaves the report queue; each
of its frames becomes FREE, its bytes stay in the stacked DRAM (log entry 20), its way leaves the index where
the frame is not void, and it returns from its account to F; the record is VACANT, a RETIRING stream may become
UNBOUND, and the re-test walk ends the event. -/
def Obligations.ReportDelivery : Prop :=
  ∀ (s : State) (tag v : Nat) (u : UnitRecord) (rest : List OutMessage) (c : Instr),
    c = .placementReportDelivery ∨ c = .messageSent 0 →
    (s.link 0).up = true → (s.link 0).outbound = .reportEntry tag v :: rest → s.unit? v = some u →
    (s.reportQueue.any fun i => i.unit == v && i.issued) = true →
    ∃ (t r : State) (slices : List ReportSlice), exec c s = .next t ∧ t = retestWalk r ∧
      (r.link 0).wire = some
        { linkSeq := (s.link 0).outSeq,
          message := .placementReport tag
            { unit := v, stream := v / 64, lane := u.lane, handle := u.handle, cause := u.cause,
              attempts := u.attempts, restarted := u.restarted, unitSize := s.cfg.unitSize,
              padCount := s.cfg.unitSize - u.frames.length } slices } ∧
      (t.link 0).wire = (r.link 0).wire ∧
      (r.link 0).outbound = rest ++ (s.link 0).overflow.take 1 ∧
      (r.link 0).overflow = (s.link 0).overflow.tail ∧
      (r.link 0).outSeq = ((s.link 0).outSeq + 1) % 65536 ∧
      (r.link 0).sent = satSucc (s.link 0).sent ∧
      ((∀ f ∈ u.frames, (s.frame? f).isSome = true) → slices.length = u.frames.length ∧
        ∀ p f fr, u.frames[p]? = some f → s.frame? f = some fr → slices[p]? = some
          ({ position := p,
             status :=
               if u.discard = true then .discarded
               else if fr.record.void = true then .void
               else if fr.record.damaged = true then .damaged
               else .current,
             cls := fr.record.cls, account := fr.record.account, key := fr.record.key,
             latestSeq := fr.record.latestSeq,
             source := if fr.record.cls = .reclaim then fr.record.source else none } : ReportSlice)) ∧
      r.unit? v = none ∧ (∀ i, i ≠ v → r.unit? i = s.unit? i) ∧
      r.reportQueue = s.reportQueue.filter (fun i => i.unit ≠ v) ∧
      r.delivered = s.delivered + 1 ∧
      (∀ f ∈ u.frames, r.frame? f = none) ∧ (∀ f, f ∉ u.frames → r.frame? f = s.frame? f) ∧
      (∀ f ∈ u.frames, ∀ fr, s.frame? f = some fr → f < s.scrubbed →
        r.stored? f = some { data := fr.data, latent := fr.latent }) ∧
      (Table.sorted s.frames = true →
        r.free = s.free + s.frames.countP (fun p => u.frames.contains p.1) ∧
        ∀ a, r.account a =
          { s.account a with
            used := (s.account a).used -
              s.frames.countP (fun p => u.frames.contains p.1 && p.2.record.account == a) }) ∧
      (IndexLaw s → ∀ x, r.indexSet x =
        { s.indexSet x with
          ways := (s.indexSet x).ways.filter (fun p => !u.frames.contains p.2.frame) }) ∧
      r.stream (v / 64) =
        (if (s.stream (v / 64)).state = .retiring ∧ (s.stream (v / 64)).reserved = 0 ∧
            (∀ i, i < 64 → 64 * (v / 64) + i ≠ v → s.unit? (64 * (v / 64) + i) = none) then
          { s.stream (v / 64) with state := .unbound }
        else s.stream (v / 64)) ∧
      (∀ k, k ≠ v / 64 → r.stream k = s.stream k) ∧
      { r with
        units := s.units, frames := s.frames, freed := s.freed, sets := s.sets,
        accounts := s.accounts, free := s.free, streams := s.streams,
        reportQueue := s.reportQueue, delivered := s.delivered, links := s.links } = s ∧
      t.unit? v = none ∧ t.reportQueue = r.reportQueue ∧ t.delivered = r.delivered ∧
      t.frames = r.frames ∧
      t.nextSeq = s.nextSeq ∧ t.lanes = s.lanes ∧ t.flushes = s.flushes ∧ t.tenants = s.tenants ∧
      t.drainCount = s.drainCount ∧ t.faultList = s.faultList ∧ t.cfg = s.cfg

/-! ### Classification and admission -/

/-- When a stream is fit for a class. -/
def Obligations.StreamFitness : Prop :=
  ∀ (k : Sys2Proof.Machine.Stream) (c : WriteClass),
    (k.fit c = true ↔ (k.state = .active ∨ k.state = .paused) ∧ k.cls = c) ∧
    (k.state = .unbound ∨ k.state = .retiring → k.fit c = false) ∧
    (k.cls = .reclaim → k.fit .host = false) ∧ (k.cls = .host → k.fit .reclaim = false)

/-- The run tracker: a continuation raises the run length by n, up to 4,095, and any other
intent starts a new run of n; either way the next LBA follows the intent's run. The steps of classification:
the lowest-numbered rule that protects, and the lowest-numbered STREAM or PASS rule that matches; the rule's
stream, the hint map, the sequential stream from the threshold on, the default stream; and the judgement of
the choice, with the one fallback, for HOST and for RECLAIM. -/
def Obligations.RunTrackerFollows : Prop :=
  (∀ (k : RunTracker) (handle lba n : Nat),
    (k.advance handle lba n).handle = some handle ∧ (k.advance handle lba n).nextLba = lba + n ∧
    (k.handle = some handle ∧ k.nextLba = lba →
      (k.advance handle lba n).runLength = min 4095 (k.runLength + n)) ∧
    (k.handle ≠ some handle ∨ k.nextLba ≠ lba → (k.advance handle lba n).runLength = n)) ∧
  (∀ (s : State) (t handle lba n r : Nat) (hint : Option Nat),
    (protectRule s t handle lba n hint = some r ↔
      r < 32 ∧ Protects (s.rule r) t handle lba n hint ∧
        ∀ j, j < r → ¬Protects (s.rule j) t handle lba n hint) ∧
    (protectRule s t handle lba n hint = none ↔
      ∀ j, j < 32 → ¬Protects (s.rule j) t handle lba n hint) ∧
    (searchRule s t handle lba hint = some r ↔
      r < 32 ∧ Directs (s.rule r) t handle lba hint ∧
        ∀ j, j < r → ¬Directs (s.rule j) t handle lba hint) ∧
    (searchRule s t handle lba hint = none ↔
      ∀ j, j < 32 → ¬Directs (s.rule j) t handle lba hint)) ∧
  (∀ (s : State) (v : Tenant) (ended hint : Option Nat) (length : Nat),
    (∀ r k, ended = some r → (s.rule r).action = .stream k → chooseHost s v ended length hint = k) ∧
    ((∀ r k, ended = some r → (s.rule r).action ≠ .stream k) →
      (∀ h k, hint = some h → v.hintMap.getD h none = some k → chooseHost s v ended length hint = k) ∧
      ((∀ h, hint = some h → v.hintMap.getD h none = none) →
        (∀ k, v.seqStream = some k → s.cfg.seqThreshold ≤ length →
          chooseHost s v ended length hint = k) ∧
        (v.seqStream = none ∨ length < s.cfg.seqThreshold →
          chooseHost s v ended length hint = v.defaultStream)))) ∧
  (∀ (s : State) (w : Intent) (c d : Nat),
    (c = chooseHost s (s.tenant w.tenant) (searchRule s w.tenant w.handle w.lba w.hint)
        ((s.tenant w.tenant).tracker.advance w.handle w.lba w.n).runLength w.hint →
      d = (s.tenant w.tenant).defaultStream →
      ((s.stream c).fit .host = true → hostChoice s w = { stream := some c, fellBack := false }) ∧
      ((s.stream c).fit .host = false → (s.stream d).fit .host = true →
        hostChoice s w = { stream := some d, fellBack := true }) ∧
      ((s.stream c).fit .host = false → (s.stream d).fit .host = false →
        hostChoice s w = { stream := none, fellBack := false })) ∧
    (c = s.reclaimMap.getD w.age 0 → d = s.reclaimMap.getD 0 0 →
      ((s.stream c).fit .reclaim = true →
        chooseReclaim s w.age = { stream := some c, fellBack := false }) ∧
      ((s.stream c).fit .reclaim = false → (s.stream d).fit .reclaim = true →
        chooseReclaim s w.age = { stream := some d, fellBack := true }) ∧
      ((s.stream c).fit .reclaim = false → (s.stream d).fit .reclaim = false →
        chooseReclaim s w.age = { stream := none, fellBack := false })))

/-- The refusals of stage 0, at a first taking and at the taking of a stalled intent, each
with the state the refusal is made in. A refusal adds one entry to the capture, which drops its oldest when it
holds 8, raises the total count and places an Intent Refused; the rule that decided has one hit more; a
fallback sets FALLBACK; and the run tracker is written as R14 says. All counts saturate. That a refusal
EXCEEDS_CAP keeps the rule hit and FALLBACK is log entry 21. -/
def Obligations.IntentsRefused : Prop :=
  (∀ (s : State) (x : Capture), ∃ r, refuse x s = place x.link (.intentRefused x.tag x.reason) r ∧
    (s.captures.length < 8 → r.captures = s.captures ++ [x]) ∧
    (8 ≤ s.captures.length → r.captures = s.captures.tail ++ [x]) ∧
    r.refusals = min (s.refusals + 1) 4294967295 ∧
    { r with captures := s.captures, refusals := s.refusals } = s) ∧
  (∀ (w : Intent) (l tag : Nat) (reason : RefusalCode) (rule : Option Nat) (x : Capture),
    x = w.captureOf l tag reason rule →
    x.link = l ∧ x.tag = tag ∧ x.key = { handle := w.handle, lba := w.lba } ∧ x.count = w.n ∧
      x.reason = reason ∧ x.rule = rule ∧ (l = 0 → x.tenant = some w.tenant) ∧
      (l ≠ 0 → x.tenant = none)) ∧
  (∀ (s : State) (r : Nat),
    (hitRule r s).rule r = { s.rule r with hits := min ((s.rule r).hits + 1) 4294967295 } ∧
    (∀ j, j ≠ r → (hitRule r s).rule j = s.rule j) ∧ { hitRule r s with rules := s.rules } = s) ∧
  (∀ (s : State) (e : Event),
    (setEvent e s).event e.code =
      { s.event e.code with flag := true, count := min ((s.event e.code).count + 1) 4294967295 } ∧
    (∀ i, i ≠ e.code → (setEvent e s).event i = s.event i) ∧
    (setEvent e s).alert = anyOpenFlag (setEvent e s).events ∧
    { setEvent e s with events := s.events, alert := s.alert } = s ∧
    setEventIf true e s = setEvent e s ∧ setEventIf false e s = s) ∧
  (∀ (s : State) (w : Intent),
    (∀ r, searchRule s w.tenant w.handle w.lba w.hint = some r →
      tellChoice s w = setEventIf (hostChoice s w).fellBack .fallback (hitRule r s)) ∧
    (searchRule s w.tenant w.handle w.lba w.hint = none →
      tellChoice s w = setEventIf (hostChoice s w).fellBack .fallback s) ∧
    (classified s w).tenant w.tenant =
      { s.tenant w.tenant with
        tracker := (s.tenant w.tenant).tracker.advance w.handle w.lba w.n } ∧
    (∀ j, j ≠ w.tenant → (classified s w).tenant j = s.tenant j) ∧
    { classified s w with tenants := s.tenants } = tellChoice s w) ∧
  ∀ (s : State) (l : Nat) (m : Message) (w : Intent) (c : Instr), l ≤ 4 →
    TakesIntent s l m c → m.kind = kindWriteIntent → readIntent m.body = w →
    (s.part = .powerFail → exec c s =
      .next (refuse (w.captureOf l m.tag .powerFail none) (takeHead l (intentChannel l) s))) ∧
    (s.part = .starting ∨ s.part = .stopped → exec c s =
      .next (refuse (w.captureOf l m.tag .notRunning none) (takeHead l (intentChannel l) s))) ∧
    (s.part = .running → intentOk l w = false → exec c s =
      .next (refuse (w.captureOf l m.tag .malformed none) (takeHead l (intentChannel l) s))) ∧
    (s.part = .running → intentOk l w = true → tagInUse s l m.tag = true → exec c s =
      .next (refuse (w.captureOf l m.tag .duplicateTag none) (takeHead l (intentChannel l) s))) ∧
    (l = 0 → s.part = .running → intentOk l w = true → tagInUse s l m.tag = false →
      (∀ r, protectRule s w.tenant w.handle w.lba w.n w.hint = some r → exec c s =
        .next (refuse (w.captureOf 0 m.tag .protectedRange (some r))
          (setEvent .protectRefusal (hitRule r (takeHead 0 .intent s))))) ∧
      (protectRule s w.tenant w.handle w.lba w.n w.hint = none → (hostChoice s w).stream = none →
        exec c s =
          .next (refuse (w.captureOf 0 m.tag .noStream none)
            (classified (takeHead 0 .intent s) w))) ∧
      (protectRule s w.tenant w.handle w.lba w.n w.hint = none →
        (hostChoice s w).stream.isSome = true → (s.account w.tenant).cap < w.n → exec c s =
          .next (refuse (w.captureOf 0 m.tag .exceedsCap none)
            (tellChoice (takeHead 0 .intent s) w)))) ∧
    (1 ≤ l → s.part = .running → intentOk l w = true → tagInUse s l m.tag = false →
      ((chooseReclaim s w.age).stream = none → exec c s =
        .next (refuse (w.captureOf l m.tag .noStream none) (takeHead l .reclaim s))) ∧
      ((chooseReclaim s w.age).stream.isSome = true → (s.account 256).cap < w.n → exec c s =
        .next (refuse (w.captureOf l m.tag .exceedsCap none)
          (setEventIf (chooseReclaim s w.age).fellBack .fallback (takeHead l .reclaim s)))))

/-- A HOST intent that passes stage 0 and that no stage holds is granted, at its first taking and at the
taking after a stall; its run tracker is written. -/
def Obligations.HostIntentGranted : Prop :=
  ∀ (s : State) (m : Message) (w : Intent) (k g : Nat) (c : Instr),
    TakesIntent s 0 m c → m.kind = kindWriteIntent → readIntent m.body = w →
    HostPasses s m.tag w k →
    holdReasons s w.tenant k { handle := w.handle, lba := w.lba } w.n = Reasons.none →
    vacantGrant s = some g →
    exec c s =
      .next (makeGrant g 0 m.tag w.tenant k { handle := w.handle, lba := w.lba } w.n
        (classified (takeHead 0 .intent s) w))

/-- A RECLAIM intent that passes stage 0 and that no stage holds is granted to account 256. -/
def Obligations.ReclaimIntentGranted : Prop :=
  ∀ (s : State) (l : Nat) (m : Message) (w : Intent) (k g : Nat) (c : Instr),
    TakesIntent s l m c → m.kind = kindWriteIntent → readIntent m.body = w →
    ReclaimPasses s l m.tag w k →
    holdReasons s 256 k { handle := w.handle, lba := w.lba } w.n = Reasons.none →
    vacantGrant s = some g →
    exec c s =
      .next (makeGrant g l m.tag 256 k { handle := w.handle, lba := w.lba } w.n
        (setEventIf (chooseReclaim s w.age).fellBack .fallback (takeHead l .reclaim s)))

/-- What a grant does: n frames pass from F to the account, each set of the run's keys reserves one way for
each of its keys, the stream reserves the unit records, the grant is LIVE with its lapse time, and the
Grant is placed on the link; the frames, the lanes and the pending list are as before. -/
def Obligations.GrantEffects : Prop :=
  ∀ (s : State) (g link tag a k n : Nat) (key : Key),
    ∃ t, makeGrant g link tag a k key n s = t ∧
      t.free = s.free - n ∧
      t.account a = { s.account a with used := (s.account a).used + n } ∧
      (∀ b, b ≠ a → t.account b = s.account b) ∧
      (∃ v, t.grant? g = some v ∧ v.link = link ∧ v.tag = tag ∧ v.account = a ∧ v.stream = k ∧
        v.key = key ∧ v.n = n ∧ v.sets = setCounts key n ∧ v.k = ceilDiv n s.cfg.unitSize ∧
        v.lapse = s.now + 100 * s.cfg.grantLifetime) ∧
      (∀ i, i ≠ g → t.grant? i = s.grant? i) ∧
      (∀ x, (t.indexSet x).ways = (s.indexSet x).ways ∧
        (t.indexSet x).reserved =
          (s.indexSet x).reserved + (runKeys key n).countP (fun q => indexHash q == x)) ∧
      (t.stream k).reserved = (s.stream k).reserved + ceilDiv n s.cfg.unitSize ∧
      t.link link = (place link (.grant tag g k s.cfg.grantLifetime) s).link link ∧
      (∀ i, i ≠ link → t.link i = s.link i) ∧
      { t with
        accounts := s.accounts, free := s.free, grants := s.grants, sets := s.sets,
        streams := s.streams, units := s.units, stagedCounter := s.stagedCounter,
        events := s.events, alert := s.alert, links := s.links } = s

/-- An intent that some stage holds joins the tail of the pending list with its reasons, and a Hold Notice
is placed; it promises nothing. On a full list it stalls: nothing changes but the mark of the stall. The
reasons of stages 1 to 6, the first set that fails and the grant that would be taken are written out. -/
def Obligations.IntentHeldOrStalled : Prop :=
  (∀ (s : State) (a k n : Nat) (key : Key) (r : Reasons) (full : Nat → Prop),
    r = holdReasons s a k key n →
    (∀ x, full x ↔ 16 < (s.indexSet x).ways.length + (s.indexSet x).reserved +
      (runKeys key n).countP (fun q => indexHash q == x)) →
    (r.order = true ↔ 0 < (s.account a).heldCount) ∧
    (r.frozen = true ↔ a ≠ 256 ∧ (s.account a).frozen = true) ∧
    (r.order = true ∨ r.frozen = true →
      r = { Reasons.none with order := r.order, frozen := r.frozen }) ∧
    (r.order = false → r.frozen = false →
      (r.cap = true ↔ (s.account a).cap < (s.account a).used + n) ∧
      (r.frames = true ↔
        s.free - sumAccounts unusedReserve s < n - unusedReserve (s.account a)) ∧
      (r.ways = true ↔ ∃ i, i < n ∧ full (indexHash (key.offset i))) ∧
      (r.units = true ↔
        64 < s.usedRecords k + (s.stream k).reserved + ceilDiv n s.cfg.unitSize) ∧
      (r.grants = true ↔ ∀ g, g < 128 → (s.grant? g).isSome = true)) ∧
    (∀ x, failingSet s key n = some x → ∃ i, i < n ∧ x = indexHash (key.offset i) ∧ full x ∧
      ∀ j, j < i → ¬full (indexHash (key.offset j))) ∧
    (∀ g, vacantGrant s = some g ↔
      g < 128 ∧ s.grant? g = none ∧ ∀ j, j < g → (s.grant? j).isSome = true)) ∧
  ∀ (s : State) (l : Nat) (m : Message) (w : Intent) (k a : Nat) (cls : WriteClass) (c : Instr)
    (e : Entry),
    TakesIntent s l m c → m.kind = kindWriteIntent → readIntent m.body = w →
    (l = 0 ∧ HostPasses s m.tag w k ∧ a = w.tenant ∧ cls = .host) ∨
      (ReclaimPasses s l m.tag w k ∧ a = 256 ∧ cls = .reclaim) →
    holdReasons s a k { handle := w.handle, lba := w.lba } w.n ≠ Reasons.none →
    e = heldEntry s l m.tag a cls k { handle := w.handle, lba := w.lba } w.n →
    (s.waiting.length < 64 → ∃ t, exec c s = .next t ∧
      t.waiting = s.waiting ++ [e] ∧
      t.account a = { s.account a with heldCount := (s.account a).heldCount + 1 } ∧
      (∀ b, b ≠ a → t.account b = s.account b) ∧
      t.link l = (place l (.holdNotice m.tag e.reasons) (takeHead l (intentChannel l) s)).link l ∧
      (∀ i, i ≠ l → t.link i = s.link i) ∧
      (l = 0 → t.tenant w.tenant = { s.tenant w.tenant with tracker := trackerAfter s w }) ∧
      t.free = s.free ∧ t.grants = s.grants ∧ t.sets = s.sets ∧ t.frames = s.frames ∧
      t.nextSeq = s.nextSeq ∧ t.lanes = s.lanes ∧ t.flushes = s.flushes ∧
      t.captures = s.captures ∧ t.refusals = s.refusals ∧ t.part = s.part) ∧
    (64 ≤ s.waiting.length → exec c s = .next (stallHead l (intentChannel l) s))

/-- A Withdraw removes the pending entry, or returns the LIVE grant, that its tag names on its link, and
answers WITHDRAWN; where neither has the tag it answers UNKNOWN and changes no record. The re-test walk is
the last act. -/
def Obligations.WithdrawEffects : Prop :=
  ∀ (s : State) (l : Nat) (m : Message), l ≤ 4 → Waits s l (intentChannel l) m →
    m.kind = kindWithdraw →
    (∀ e, findEntry s l m.tag = some e → ∃ r,
      exec (.withdraw l) s = .next (retestWalk (place l (.withdrawAnswer m.tag true) r)) ∧
      r.waiting = s.waiting.erase e ∧
      r.account e.account =
        { s.account e.account with heldCount := (s.account e.account).heldCount - 1 } ∧
      { r with waiting := s.waiting, accounts := s.accounts, links := s.links } = s) ∧
    (findEntry s l m.tag = none → ∀ g v, findGrant s l m.tag = some (g, v) →
      exec (.withdraw l) s =
        .next (retestWalk (place l (.withdrawAnswer m.tag true)
          (returnGrant g v (takeHead l (intentChannel l) s))))) ∧
    (findEntry s l m.tag = none → findGrant s l m.tag = none →
      exec (.withdraw l) s =
        .next (place l (.withdrawAnswer m.tag false) (takeHead l (intentChannel l) s)))

/-- A LIVE grant whose lapse time is reached returns everything it reserved and sets GRANT_LAPSE, and the
re-test walk follows; before its lapse time no such event takes place (log entry 2). -/
def Obligations.GrantLapseReturns : Prop :=
  ∀ (s : State) (g : Nat) (v : Grant), s.grant? g = some v →
    (v.lapse ≤ s.now → ∃ r, exec (.grantLapse g) s = .next (retestWalk r) ∧
      r.grant? g = none ∧ (∀ i, i ≠ g → r.grant? i = s.grant? i) ∧
      r.free = s.free + v.n ∧
      r.account v.account = { s.account v.account with used := (s.account v.account).used - v.n } ∧
      (∀ b, b ≠ v.account → r.account b = s.account b) ∧
      (∀ x, (r.indexSet x).ways = (s.indexSet x).ways ∧
        (r.indexSet x).reserved =
          (s.indexSet x).reserved - ((v.sets.filter (fun p => p.1 == x)).map (·.2)).sum) ∧
      (r.stream v.stream).reserved = (s.stream v.stream).reserved - v.k ∧
      (∀ k, k ≠ v.stream → r.stream k = s.stream k) ∧
      (r.event Event.grantLapse.code).flag = true ∧
      (r.event Event.grantLapse.code).count = satSucc (s.event Event.grantLapse.code).count ∧
      { r with
        accounts := s.accounts, free := s.free, grants := s.grants, sets := s.sets,
        streams := s.streams, events := s.events, alert := s.alert } = s) ∧
    (s.now < v.lapse → exec (.grantLapse g) s = .next s)

/-- The re-test walk visits the entries from head to tail. An entry behind an older one of its account that
stayed has reasons {ORDER}. Any other has its stream re-checked: a stream that is unfit is replaced by the
fallback, which sets FALLBACK, and an entry without a fit stream is refused NO_STREAM. Then an entry above
its account's cap is refused EXCEEDS_CAP, one of a frozen tenant stays with {FROZEN}, one that every stage
admits is granted, and any other stays with its new reasons and relief set. An entry that leaves lowers the
held-count of its account. On an empty list the walk changes nothing; the entries that stay keep their order,
with their links and tags; and the walk touches no frame, no tenant, no lane, no flush entry and no report. -/
def Obligations.RetestWalkEffects : Prop :=
  (∀ s : State, retestWalk s = walkFrom [] s.waiting s) ∧
  (∀ (s : State) (kept : List Entry), walkFrom kept [] s = s.setWaiting kept) ∧
  (∀ (s : State) (e : Entry) (kept rest : List Entry),
    (kept.any fun o => o.account == e.account) = true →
    walkFrom kept (e :: rest) s =
      walkFrom (kept ++ [{ e with reasons := { Reasons.none with order := true }, relief := none }])
        rest s) ∧
  (∀ (s t : State) (e : Entry) (kept rest : List Entry) (d k : Nat),
    (kept.any fun o => o.account == e.account) = false →
    (e.cls = .host → d = (s.tenant e.account).defaultStream) →
    (e.cls = .reclaim → d = s.reclaimMap.getD 0 0) →
    ((s.stream e.stream).fit e.cls = false → (s.stream d).fit e.cls = false →
      walkFrom kept (e :: rest) s = walkFrom kept rest (callIntentRetakes
        (refuse (e.captureOf .noStream) (lowerHeld e.account s)))) ∧
    ((s.stream e.stream).fit e.cls = true ∧ k = e.stream ∧ t = s ∨
        (s.stream e.stream).fit e.cls = false ∧ (s.stream d).fit e.cls = true ∧ k = d ∧
          t = setEvent .fallback s →
      ((s.account e.account).cap < e.n →
        walkFrom kept (e :: rest) s = walkFrom kept rest (callIntentRetakes
          (refuse (e.captureOf .exceedsCap) (lowerHeld e.account t)))) ∧
      (e.n ≤ (s.account e.account).cap → e.account ≠ 256 →
        (s.account e.account).frozen = true →
        walkFrom kept (e :: rest) s = walkFrom
          (kept ++ [{ e with
            stream := k, reasons := { Reasons.none with frozen := true }, relief := none }])
          rest t) ∧
      (e.n ≤ (s.account e.account).cap →
        e.account = 256 ∨ (s.account e.account).frozen = false →
        (∀ g, resourceReasons s e.account k e.key e.n = Reasons.none → vacantGrant s = some g →
          walkFrom kept (e :: rest) s = walkFrom kept rest (callIntentRetakes
            (makeGrant g e.link e.tag e.account k e.key e.n (lowerHeld e.account t)))) ∧
        (resourceReasons s e.account k e.key e.n ≠ Reasons.none →
          walkFrom kept (e :: rest) s = walkFrom
            (kept ++ [{ e with
              stream := k, reasons := resourceReasons s e.account k e.key e.n,
              relief := failingSet s e.key e.n }])
            rest (afterHold (resourceReasons s e.account k e.key e.n)
              (failingSet s e.key e.n) t))))) ∧
  (∀ (e : Entry) (reason : RefusalCode) (x : Capture), x = e.captureOf reason →
    x.link = e.link ∧ x.tag = e.tag ∧ x.key = e.key ∧ x.count = e.n ∧ x.reason = reason ∧
      x.rule = none ∧ (e.link = 0 → x.tenant = some e.account) ∧
      (e.link ≠ 0 → x.tenant = none)) ∧
  (∀ (s : State) (a : Nat),
    (lowerHeld a s).account a =
      { s.account a with heldCount := (s.account a).heldCount - 1 } ∧
    (∀ b, b ≠ a → (lowerHeld a s).account b = s.account b) ∧
    { lowerHeld a s with accounts := s.accounts } = s) ∧
  (∀ (s : State) (r : Reasons) (x : Nat),
    (r.frames = false → r.ways = false → afterHold r (some x) s = s) ∧
    (r.frames = true → r.ways = false → afterHold r (some x) s = pressureCompare s) ∧
    (r.frames = false → r.ways = true → afterHold r (some x) s = reliefStage x s) ∧
    (r.frames = true → r.ways = true →
      afterHold r (some x) s = reliefStage x (pressureCompare s)) ∧
    (r.frames = false → afterHold r none s = s) ∧
    (r.frames = true → afterHold r none s = pressureCompare s)) ∧
  ∀ s : State,
    (s.waiting = [] → retestWalk s = s) ∧
    ((retestWalk s).waiting.map (fun e => (e.link, e.tag, e.account, e.key, e.n))).Sublist
      (s.waiting.map (fun e => (e.link, e.tag, e.account, e.key, e.n))) ∧
    (∀ older e younger, (retestWalk s).waiting = older ++ e :: younger →
      (older.any fun o => o.account == e.account) = true →
      e.reasons = { Reasons.none with order := true } ∧ e.relief = none) ∧
    { retestWalk s with
      waiting := s.waiting, accounts := s.accounts, free := s.free, grants := s.grants,
      sets := s.sets, streams := s.streams, units := s.units, stagedCounter := s.stagedCounter,
      events := s.events, alert := s.alert, captures := s.captures, refusals := s.refusals,
      links := s.links } = s

/-! ### Placement -/

/-- Write Data that does not match its grant is refused: LATE where no LIVE grant of this link and tag has
the id, MISMATCH where only the count differs. Nothing else changes. -/
def Obligations.DataRefused : Prop :=
  ∀ (s : State) (l : Nat) (m : Message), l ≤ 4 → Waits s l .data m → m.kind = kindWriteData →
    (s.grant? (byteAt m.body 0) = none ∨
        (∃ v, s.grant? (byteAt m.body 0) = some v ∧ (v.link ≠ l ∨ v.tag ≠ m.tag)) →
      exec (.writeData l) s =
        .next (place l (.dataRefused m.tag (byteAt m.body 0) .late) (takeHead l .data s))) ∧
    (∀ v, s.grant? (byteAt m.body 0) = some v → v.link = l → v.tag = m.tag →
      v.n ≠ byteAt m.body 1 →
      exec (.writeData l) s =
        .next (place l (.dataRefused m.tag (byteAt m.body 0) .mismatch) (takeHead l .data s)))

/-- Write Data that matches its grant is placed whole: each slice has its outcome, the grant
is settled, the Write Done carries the outcomes, and after the end-of-placement checks and the re-test walk
SAFE has its level (that it is evaluated at this event is log entry 26). Of one slice, it completes wherever a
FREE frame, a VACANT way of the key's set and an OPEN unit or a VACANT record of the stream are at hand. -/
def Obligations.DataPlacedWhole : Prop :=
  ∀ (s : State) (l : Nat) (m : Message) (v : Grant), l ≤ 4 → Waits s l .data m →
    m.kind = kindWriteData → s.grant? (byteAt m.body 0) = some v →
    v.link = l → v.tag = m.tag → v.n = byteAt m.body 1 →
    (∀ outcomes r, placeSlices (sliceWrites l v m) (takeHead l .data s) = .ok (outcomes, r) →
      outcomes.length = v.n ∧
      (settleGrant (byteAt m.body 0) v r).grant? (byteAt m.body 0) = none ∧
      ((settleGrant (byteAt m.body 0) v r).stream v.stream).reserved =
        (r.stream v.stream).reserved - v.k ∧
      ∃ t, exec (.writeData l) s = .next t ∧
        t = evalSafe (retestWalk (endOfPlacement v.stream
          (place l (.writeDone m.tag (byteAt m.body 0) v.stream v.n outcomes)
            (settleGrant (byteAt m.body 0) v r)))) ∧
        t.frames = r.frames ∧ t.nextSeq = r.nextSeq ∧ t.drainCount = r.drainCount ∧
        t.tenants = r.tenants ∧ t.lanes = r.lanes ∧ t.flushes = r.flushes ∧
        t.safe = safeLevel t) ∧
    (v.n = 1 → (freeFrame s).isSome = true →
      (vacantWay (s.indexSet (indexHash v.key))).isSome = true →
      (withOpenUnit v.stream s).isSome = true → ∃ t, exec (.writeData l) s = .next t)

/-- A miss, and a hit that supersedes: the lowest-numbered FREE frame holds the slice with
the next sequence, the way names it, it is appended to the stream's OPEN unit, and F and the accounts keep
their values. A superseded frame keeps all but its void flag. Where the stream has no OPEN unit, the first
VACANT record of its ring from the cursor on is opened, and the cursor moves past it. -/
def Obligations.NewFramePlacement : Prop :=
  (∀ (s s1 : State) (w : SliceWrite) (f i v : Nat) (old : Option (Nat × Frame)),
    (lookup s w.key = none ∧ old = none ∧ vacantWay (s.indexSet (indexHash w.key)) = some i) ∨
      (∃ way o, lookup s w.key = some (i, way) ∧ s.frame? way.frame = some o ∧
        old = some (way.frame, o) ∧
        ¬(o.record.cls = w.cls ∧ (s.stream w.stream).openUnit = some o.record.unit) ∧
        ¬(w.cls = .reclaim ∧ o.record.cls = .host)) →
    freeFrame s = some f → withOpenUnit w.stream s = some (v, s1) →
    ∃ t, placeSlice w s = .ok (.placed s.nextSeq, t) ∧
      t.frame? f = some
        { record :=
            { key := w.key, account := w.account, cls := w.cls, firstSeq := s.nextSeq,
              latestSeq := s.nextSeq, unit := v,
              position := ((s1.unit? v).map UnitRecord.fill).getD 0, void := false,
              damaged := false, source := w.source },
          data := w.data, latent := false } ∧
      (∀ j o, old = some (j, o) →
        t.frame? j = some { o with record := { o.record with void := true } }) ∧
      (∀ j, j ≠ f → (∀ o, old ≠ some (j, o)) → t.frame? j = s.frame? j) ∧
      t.nextSeq = s.nextSeq + 1 ∧
      t.indexSet (indexHash w.key) =
        { ways := Table.insert (s.indexSet (indexHash w.key)).ways i { key := w.key, frame := f },
          reserved := (s.indexSet (indexHash w.key)).reserved - 1 } ∧
      (∀ x, x ≠ indexHash w.key → t.indexSet x = s.indexSet x) ∧
      t.free = s.free ∧ t.accounts = s.accounts ∧ t.grants = s.grants ∧ t.waiting = s.waiting ∧
      t.lanes = s.lanes ∧ t.links = s.links ∧
      (∀ u, s1.unit? v = some u → ∃ u', t.unit? v = some u' ∧ u'.frames = u.frames ++ [f] ∧
        u'.lastArrival = s.now ∧
        (u.fill + 1 < s.cfg.unitSize → u'.state = u.state) ∧
        (s.cfg.unitSize ≤ u.fill + 1 → u.state = .opened →
          u'.state = .staged ∧ u'.cause = some .full))) ∧
  (∀ (s s1 : State) (k v : Nat), withOpenUnit k s = some (v, s1) →
    (∀ w, (s.stream k).openUnit = some w → v = w ∧ s1 = s) ∧
    ((s.stream k).openUnit = none → ∃ i, i < 64 ∧
      v = 64 * k + ((s.stream k).cursor + i) % 64 ∧ s.unit? v = none ∧
      (∀ j, j < i → s.unit? (64 * k + ((s.stream k).cursor + j) % 64) ≠ none) ∧
      s1.unit? v = some
        { state := .opened, frames := [], firstArrival := s.now, lastArrival := s.now, deadline := none,
          cause := none, stagedSeq := none, lane := none, attempts := 0, restarted := false,
          handle := none, discard := false } ∧
      (∀ j, j ≠ v → s1.unit? j = s.unit? j) ∧
      s1.stream k =
        { s.stream k with
          openUnit := some v, cursor := (((s.stream k).cursor + i) % 64 + 1) % 64 } ∧
      (∀ j, j ≠ k → s1.stream j = s.stream j) ∧ s1.drainCount = s.drainCount + 1 ∧
      { s1 with units := s.units, streams := s.streams, drainCount := s.drainCount } = s)) ∧
  ∀ (s : State) (k : Nat), (s.stream k).openUnit = none →
    (∃ r, r < 64 ∧ s.unit? (64 * k + r) = none) → (withOpenUnit k s).isSome = true

/-- A hit in the OPEN unit of the stream, in a frame of the same class, is written over in place; a
relocation that hits a HOST frame is dropped. In both the promised way and the promised frame return. -/
def Obligations.InPlaceAndDropped : Prop :=
  ∀ (s : State) (w : SliceWrite) (i : Nat) (way : Way) (o : Frame),
    lookup s w.key = some (i, way) → s.frame? way.frame = some o →
    (o.record.cls = w.cls → (s.stream w.stream).openUnit = some o.record.unit →
      ∃ t, placeSlice w s = .ok (.overwritten s.nextSeq, t) ∧
        t.frame? way.frame = some
          { record :=
              { o.record with
                latestSeq := s.nextSeq, damaged := false,
                source := if w.cls = .reclaim then w.source else o.record.source },
            data := w.data, latent := false } ∧
        (∀ j, j ≠ way.frame → t.frame? j = s.frame? j) ∧ t.nextSeq = s.nextSeq + 1 ∧
        t.indexSet (indexHash w.key) =
          { s.indexSet (indexHash w.key) with
            reserved := (s.indexSet (indexHash w.key)).reserved - 1 } ∧
        t.free = s.free + 1 ∧
        t.account w.account = { s.account w.account with used := (s.account w.account).used - 1 } ∧
        (∀ b, b ≠ w.account → t.account b = s.account b) ∧
        t.stream w.stream =
          { s.stream w.stream with inPlaceHits := (s.stream w.stream).inPlaceHits + 1 } ∧
        (∀ u, s.unit? o.record.unit = some u → t.unit? o.record.unit = some
          { u with
            lastArrival := s.now,
            deadline := deadlineOf (s.stream w.stream) u.firstArrival s.now }) ∧
        (∀ v, v ≠ o.record.unit → t.unit? v = s.unit? v) ∧
        t.grants = s.grants ∧ t.waiting = s.waiting ∧ t.lanes = s.lanes ∧ t.links = s.links) ∧
    (w.cls = .reclaim → o.record.cls = .host →
      ∃ t, placeSlice w s = .ok (.superseded, t) ∧
        t.indexSet (indexHash w.key) =
          { s.indexSet (indexHash w.key) with
            reserved := (s.indexSet (indexHash w.key)).reserved - 1 } ∧
        (∀ x, x ≠ indexHash w.key → t.indexSet x = s.indexSet x) ∧
        t.account w.account = { s.account w.account with used := (s.account w.account).used - 1 } ∧
        (∀ b, b ≠ w.account → t.account b = s.account b) ∧ t.free = s.free + 1 ∧
        { t with sets := s.sets, accounts := s.accounts, free := s.free } = s)

/-! ### The index and the reads of frame data -/

/-- The index hash, with the examples of Table 3-2: stage 4 counts a run's keys by it, and a lookup searches
the set it names. -/
def Obligations.IndexHash : Prop :=
  ∀ k : Key,
    indexHash k = (k.lba % 4096) ^^^ ((k.lba / 4096) % 4096) ^^^ ((97 * k.handle) % 4096) ∧
    indexHash k < 4096 ∧
    indexHash { handle := 5, lba := 100 } = 385 ∧ indexHash { handle := 5, lba := 8192 } = 487 ∧
    indexHash { handle := 0, lba := 8388607 } = 2048 ∧
    indexHash { handle := 0, lba := 8388608 } = 2048 ∧
    (∀ n, ∀ p ∈ setCounts k n,
      p.2 = (runKeys k n).countP (fun q => indexHash q == p.1) ∧ 1 ≤ p.2) ∧
    (∀ s p, lookup s k = some p → p ∈ (s.indexSet (indexHash k)).ways ∧ p.2.key = k) ∧
    ∀ s, lookup s k = none → ∀ p ∈ (s.indexSet (indexHash k)).ways, p.2.key ≠ k

/-- Read Probes and Inquires that fail their checks are refused; in STARTING every key
misses; otherwise each key is answered from the index, an Inquire changes no record, and neither does a Read
Probe whose reads end clean. That a read without a result in the command ends clean, and that an error found
before is found again, is log entry 6; that a way whose frame is not HELD answers MISS is log entry 15. -/
def Obligations.ProbesAndInquiries : Prop :=
  ∀ (s : State) (l : Nat) (m : Message) (q : KeyRun), readRun m.body = q →
    (Waits s 0 .read m → m.kind = kindReadProbe →
      (runOk q.key.handle q.key.lba q.n = false → ∀ reads,
        exec (.readProbe reads) s = .next (place 0 (.probeRefused m.tag) (takeHead 0 .read s))) ∧
      (runOk q.key.handle q.key.lba q.n = true → s.part = .starting → ∀ reads,
        exec (.readProbe reads) s =
          .next (place 0 (.probeAnswer m.tag q.n (List.replicate q.n .miss) [])
            (takeHead 0 .read s))) ∧
      (runOk q.key.handle q.key.lba q.n = true → s.part ≠ .starting → NoLatent s →
        exec (.readProbe []) s =
          .next (place 0
            (.probeAnswer m.tag q.n ((runKeys q.key q.n).map (cleanStatus s))
              ((runKeys q.key q.n).filterMap (cleanData s)))
            (takeHead 0 .read s))) ∧
      (runOk q.key.handle q.key.lba q.n = true → s.part ≠ .starting → ∀ reads, ∃ sts ds r,
        sts.length = q.n ∧
        exec (.readProbe reads) s = .next (place 0 (.probeAnswer m.tag q.n sts ds) r) ∧
        { r with
          frames := s.frames, corrected := s.corrected, uncorrectable := s.uncorrectable,
          events := s.events, alert := s.alert, links := s.links } = s)) ∧
    (ControlWaits s l kindInquire m →
      (runOk q.key.handle q.key.lba q.n = false →
        exec (.inquire l) s =
          .next (place l (.inquireRefused m.tag) (takeHead l .control s))) ∧
      (runOk q.key.handle q.key.lba q.n = true → s.part = .starting →
        exec (.inquire l) s =
          .next (place l (.inquireAnswer m.tag q.n (List.replicate q.n false))
            (takeHead l .control s))) ∧
      (runOk q.key.handle q.key.lba q.n = true → s.part ≠ .starting →
        exec (.inquire l) s =
          .next (place l
            (.inquireAnswer m.tag q.n ((runKeys q.key q.n).map fun k => (lookup s k).isSome))
            (takeHead l .control s))))

/-- The three results of a read of a HELD frame: a clean read changes nothing; a correctable error is
counted and stays in the stored copy, so that the next read corrects it again; an uncorrectable one sets
the frame's damaged flag and STORE_ERROR. -/
def Obligations.FrameReadEffects : Prop :=
  ∀ (s : State) (f : Nat) (v : Frame) (r : ReadResult), s.frame? f = some v →
    (r = .clean → v.latent = false → readFrame f v r s = (v, s)) ∧
    (r = .corrected ∨ (r = .clean ∧ v.latent = true) →
      (readFrame f v r s).1 = { v with latent := true } ∧
      (readFrame f v r s).2.frame? f = some { v with latent := true } ∧
      (∀ j, j ≠ f → (readFrame f v r s).2.frame? j = s.frame? j) ∧
      (readFrame f v r s).2.corrected = min (s.corrected + 1) 4294967295 ∧
      { (readFrame f v r s).2 with frames := s.frames, corrected := s.corrected } = s) ∧
    (r = .uncorrectable →
      (readFrame f v r s).1 = { v with record := { v.record with damaged := true } } ∧
      (readFrame f v r s).2.frame? f =
        some { v with record := { v.record with damaged := true } } ∧
      (∀ j, j ≠ f → (readFrame f v r s).2.frame? j = s.frame? j) ∧
      (readFrame f v r s).2.uncorrectable = min (s.uncorrectable + 1) 4294967295 ∧
      ((readFrame f v r s).2.event Event.storeError.code).flag = true ∧
      { (readFrame f v r s).2 with
        frames := s.frames, uncorrectable := s.uncorrectable, events := s.events,
        alert := s.alert } = s)

/-! ### Reports -/

/-- A Report Fetch chooses the oldest unit of the report queue whose issued mark is clear and sets its mark,
or is answered Report Empty where there is none; it changes no other record. -/
def Obligations.ReportFetchChooses : Prop :=
  ∀ (s : State) (m : Message), Waits s 0 .read m → m.kind = kindReportFetch →
    (∀ earlier v later, s.reportQueue = earlier ++ { unit := v, issued := false } :: later →
      (∀ i ∈ earlier, i.issued = true) →
      exec .reportFetch s = .next (place 0 (.reportEntry m.tag v)
        { takeHead 0 .read s with
          reportQueue :=
            s.reportQueue.map (fun i => if i.unit = v then { i with issued := true } else i) })) ∧
    ((∀ i ∈ s.reportQueue, i.issued = true) →
      exec .reportFetch s = .next (place 0 (.reportEmpty m.tag) (takeHead 0 .read s)))

/-! ### Flushes -/

/-- A Flush, at its first taking and at its taking after a stall: refused where its scope names no member
or no tenant, and answered OK at once where nothing in its scope is still on its way. -/
def Obligations.FlushAnsweredAtOnce : Prop :=
  ∀ (s : State) (m : Message) (c : Instr), TakesFlush s m c → m.kind = kindFlush →
    (readScope m.body = none →
      exec c s = .next (place 0 (.flushRefused m.tag) (takeHead 0 .intent s))) ∧
    (∀ t, readScope m.body = some (.tenant t) → 256 ≤ t →
      exec c s = .next (place 0 (.flushRefused m.tag) (takeHead 0 .intent s))) ∧
    (∀ scope, readScope m.body = some scope → (∀ t, scope = .tenant t → t < 256) →
      flushCounts s scope (s.nextSeq - 1) = 0 →
      exec c s = .next (place 0 (.flushDone m.tag true) (takeHead 0 .intent s)))

/-- A Flush that must wait takes the lowest-numbered VACANT entry, or merges into the newest entry when
none is VACANT; either way the OPEN units it counts are STAGED with cause FLUSH. With 4 tags in the newest
entry it stalls. An ACTIVE entry's count falls at a Unit Done, where it ends OK at 0, rises at a Unit
Restage, and a unit's fault ends the entries that count one of its frames with FAULT, in activation order. -/
def Obligations.FlushWaits : Prop :=
  (∀ (s : State) (c : Scope) (h v : Nat),
    flushCounts s c h = s.frames.countP (fun p =>
      p.2.record.cls == .host && inScope c p.2.record.account && decide (p.2.record.firstSeq ≤ h) &&
        (s.unit? p.2.record.unit).any (fun u => u.state == .opened || u.state == .staged ||
          u.state == .offered || u.state == .inFlight)) ∧
    flushCountsIn s c h v = s.frames.countP (fun p =>
      p.2.record.cls == .host && inScope c p.2.record.account && decide (p.2.record.firstSeq ≤ h) &&
        p.2.record.unit == v) ∧
    (Table.sorted s.units = true → (v ∈ flushUnits s c h ↔
      (∃ u, s.unit? v = some u ∧ u.state = .opened) ∧ 0 < flushCountsIn s c h v))) ∧
  (∀ (s : State) (m : Message) (c : Instr) (scope : Scope), TakesFlush s m c → m.kind = kindFlush →
    readScope m.body = some scope → (∀ t, scope = .tenant t → t < 256) →
    flushCounts s scope (s.nextSeq - 1) ≠ 0 →
    (∀ e, vacantFlush s = some e → ∃ t, exec c s = .next t ∧
      t.flush? e =
        some { scope := scope, horizon := s.nextSeq - 1,
               count := flushCounts s scope (s.nextSeq - 1), tags := [m.tag] } ∧
      (∀ i, i ≠ e → t.flush? i = s.flush? i) ∧ t.flushOrder = s.flushOrder ++ [e] ∧
      (∀ v u, s.unit? v = some u → v ∈ flushUnits s scope (s.nextSeq - 1) → u.state = .opened →
        ∃ q, t.unit? v = some
          { u with state := .staged, cause := some .flush, deadline := none, stagedSeq := some q }) ∧
      (∀ v, v ∉ flushUnits s scope (s.nextSeq - 1) → t.unit? v = s.unit? v) ∧
      t.link 0 = (takeHead 0 .intent s).link 0 ∧
      { t with
        flushes := s.flushes, flushOrder := s.flushOrder, units := s.units, streams := s.streams,
        stagedCounter := s.stagedCounter, links := s.links } = s) ∧
    (∀ e v, vacantFlush s = none → newestFlush s = some e → s.flush? e = some v →
      (v.tags.length < 4 → ∃ t, exec c s = .next t ∧
        t.flush? e =
          some { scope := if v.scope = scope then scope else .all, horizon := s.nextSeq - 1,
                 count := flushCounts s (if v.scope = scope then scope else .all) (s.nextSeq - 1),
                 tags := v.tags ++ [m.tag] } ∧
        (∀ i, i ≠ e → t.flush? i = s.flush? i) ∧ t.flushOrder = s.flushOrder ∧
        (∀ w u, s.unit? w = some u →
          w ∈ flushUnits s (if v.scope = scope then scope else .all) (s.nextSeq - 1) →
          u.state = .opened → ∃ q, t.unit? w = some
            { u with state := .staged, cause := some .flush, deadline := none, stagedSeq := some q }) ∧
        (∀ w, w ∉ flushUnits s (if v.scope = scope then scope else .all) (s.nextSeq - 1) →
          t.unit? w = s.unit? w) ∧
        t.link 0 = (takeHead 0 .intent s).link 0 ∧
        { t with
          flushes := s.flushes, units := s.units, streams := s.streams,
          stagedCounter := s.stagedCounter, links := s.links } = s) ∧
      (4 ≤ v.tags.length → exec c s = .next (stallHead 0 .intent s)))) ∧
  (∀ (s : State) (v e : Nat) (q : FlushEntry), s.flush? e = some q →
    (0 < q.count - flushCountsIn s q.scope q.horizon v →
      lowerFlush v e s =
        s.setFlush e { q with count := q.count - flushCountsIn s q.scope q.horizon v }) ∧
    (q.count - flushCountsIn s q.scope q.horizon v = 0 →
      FlushEnds s (lowerFlush v e s) e q true ∧ (lowerFlush v e s).events = s.events) ∧
    raiseFlush v e s =
      s.setFlush e { q with count := q.count + flushCountsIn s q.scope q.horizon v } ∧
    (flushCountsIn s q.scope q.horizon v = 0 → faultFlush v e s = s) ∧
    (0 < flushCountsIn s q.scope q.horizon v →
      FlushEnds s (faultFlush v e s) e q false ∧
      ((faultFlush v e s).event Event.flushFault.code).flag = true)) ∧
  (∀ (s : State) (l v i : Nat) (m : Message) (u : UnitRecord), s.unit? v = some u →
    (numAt m.body 0 2 = v → byteAt m.body 2 = i → v < 4096 → i < 8 → u.state = .inFlight →
      u.lane = some (globalLane l i) →
      (ControlWaits s l kindUnitDone m → ∃ r t, exec (.unitDone l) s = .next t ∧
        r.frames = s.frames ∧ r.flushes = s.flushes ∧ r.flushOrder = s.flushOrder ∧
        r.links = (takeHead l .control s).links ∧
        t.flushes = (s.flushOrder.foldl (fun q e => lowerFlush v e q) r).flushes ∧
        t.flushOrder = (s.flushOrder.foldl (fun q e => lowerFlush v e q) r).flushOrder ∧
        t.links = (s.flushOrder.foldl (fun q e => lowerFlush v e q) r).links) ∧
      (∀ reason, ControlWaits s l kindUnitFail m → readReason m.body = some reason →
        (u.attempts + 1 < 4 → ∃ t, exec (.unitFail l) s = .next t ∧
          t.flushes = s.flushes ∧ t.flushOrder = s.flushOrder) ∧
        (4 ≤ u.attempts + 1 → ∃ r t, exec (.unitFail l) s = .next t ∧
          r.frames = s.frames ∧ r.flushes = s.flushes ∧ r.flushOrder = s.flushOrder ∧
          r.links = (takeHead l .control s).links ∧
          t.flushes = (s.flushOrder.foldl (fun q e => faultFlush v e q) r).flushes ∧
          t.flushOrder = (s.flushOrder.foldl (fun q e => faultFlush v e q) r).flushOrder ∧
          t.links = (s.flushOrder.foldl (fun q e => faultFlush v e q) r).links))) ∧
    (numAt m.body 1 2 = v → v < 4096 → u.state = .faulted → s.part ≠ .starting →
      RequestWaits s 19 m → ∃ r t, exec .unitRestage s = .next t ∧
        r.frames = s.frames ∧ r.flushes = s.flushes ∧
        t.flushes = (s.flushOrder.foldl (fun q e => raiseFlush v e q) r).flushes ∧
        t.flushOrder = s.flushOrder))

/-! ### Deadlines, the wheel and the lanes -/

/-- The deadline of an OPEN unit. -/
def Obligations.DeadlineRule : Prop :=
  ∀ (k : Sys2Proof.Machine.Stream) (first last : Nat),
    (k.state = .paused → deadlineOf k first last = none) ∧
    (k.window = 0 → deadlineOf k first last = none) ∧
    (k.state ≠ .paused → 1 ≤ k.window → k.mode = .fixed →
      deadlineOf k first last = some { time := first + 10 * k.window, kind := .window }) ∧
    (k.state ≠ .paused → 1 ≤ k.window → k.mode = .sliding →
      last + 10 * k.window < first + 1000 * k.hold →
      deadlineOf k first last = some { time := last + 10 * k.window, kind := .window }) ∧
    (k.state ≠ .paused → 1 ≤ k.window → k.mode = .sliding →
      first + 1000 * k.hold ≤ last + 10 * k.window →
      deadlineOf k first last = some { time := first + 1000 * k.hold, kind := .hold })

/-- An OPEN unit whose deadline is reached is staged with the deadline's kind as its close
cause: it keeps its frames, takes the next staged sequence, and its stream has no OPEN unit and counts the
pads. Before the deadline no such event takes place (log entry 2). Staging does the same for every cause, and
these acts choose its unit: the pressure comparison after a grant and after a hold for FRAMES stages the OPEN
unit with the earliest first arrival; relief after a hold for WAYS the one whose way of the set has the
smallest latest sequence; and the end of a placement the OPEN unit of a RETIRING stream, or of an ADAPTIVE one
none of whose units waits or moves and one of whose lanes is idle. -/
def Obligations.DeadlineStages : Prop :=
  (∀ (s : State) (v : Nat) (u : UnitRecord) (d : Deadline), s.unit? v = some u → u.state = .opened →
    u.deadline = some d →
    (d.time ≤ s.now → ∃ t, exec (.deadlineExpiry v) s = .next t ∧
      t.unit? v = some
        { u with state := .staged, cause := some d.kind.cause, deadline := none,
                 stagedSeq := some s.stagedCounter } ∧
      (∀ i, i ≠ v → t.unit? i = s.unit? i) ∧
      t.stream (v / 64) =
        { s.stream (v / 64) with
          openUnit := none,
          padSlices := (s.stream (v / 64)).padSlices + (s.cfg.unitSize - u.frames.length) } ∧
      (∀ k, k ≠ v / 64 → t.stream k = s.stream k) ∧
      t.stagedCounter = (s.stagedCounter + 1) % 4294967296 ∧
      { t with units := s.units, streams := s.streams, stagedCounter := s.stagedCounter } = s) ∧
    (s.now < d.time → exec (.deadlineExpiry v) s = .next s)) ∧
  (∀ (s : State) (c : CloseCause) (v : Nat) (u : UnitRecord), s.unit? v = some u → u.state = .opened →
    Staged s (stageUnit c v s) c v u) ∧
  (∀ s : State,
    (s.cfg.pressureThreshold = 0 ∨ s.part = .powerFail ∨ s.cfg.pressureThreshold ≤ sharedFree s →
      pressureCompare s = s) ∧
    ((∀ p ∈ s.units, p.2.state = .opened → (s.stream (p.1 / 64)).state = .paused) →
      pressureCompare s = s) ∧
    (∀ v u, s.cfg.pressureThreshold ≠ 0 → s.part ≠ .powerFail →
      sharedFree s < s.cfg.pressureThreshold → (v, u) ∈ s.units → u.state = .opened →
      (s.stream (v / 64)).state ≠ .paused →
      (∀ p ∈ s.units, p.2.state = .opened → (s.stream (p.1 / 64)).state ≠ .paused →
        p = (v, u) ∨ u.firstArrival < p.2.firstArrival ∨
          (u.firstArrival = p.2.firstArrival ∧ v < p.1)) →
      pressureCompare s = setEvent .pressureClose (stageUnit .pressure v s))) ∧
  (∀ (s : State) (x : Nat),
    (s.part = .powerFail → reliefStage x s = s) ∧
    ((∀ p ∈ (s.indexSet x).ways, reliefCandidate s p.2 = none) → reliefStage x s = s) ∧
    (∀ p ∈ (s.indexSet x).ways, ∀ q v, s.part ≠ .powerFail → reliefCandidate s p.2 = some (q, v) →
      (∀ o ∈ (s.indexSet x).ways, ∀ q' v', reliefCandidate s o.2 = some (q', v') →
        (q', v') = (q, v) ∨ q < q') →
      reliefStage x s = setEvent .setRelief (stageUnit .relief v s))) ∧
  (∀ (s : State) (w : Way) (q v : Nat), reliefCandidate s w = some (q, v) ↔
    ∃ f u, s.frame? w.frame = some f ∧ f.record.latestSeq = q ∧ f.record.unit = v ∧
      s.unit? v = some u ∧ u.state = .opened ∧ (s.stream (v / 64)).state ≠ .paused) ∧
  (∀ (g link tag a k n : Nat) (key : Key) (s : State), ∃ r,
    makeGrant g link tag a k key n s =
      pressureCompare (place link (.grant tag g k s.cfg.grantLifetime) r) ∧
    r.units = s.units ∧ r.cfg = s.cfg ∧ r.part = s.part) ∧
  (∀ (e : Entry) (s : State), s.waiting.length < 64 → ∃ r,
    holdIntent e s = some (afterHold e.reasons e.relief r) ∧ r.units = s.units ∧ r.sets = s.sets) ∧
  (∀ (q : Reasons) (relief : Option Nat) (s : State),
    (q.frames = false → q.ways = false → afterHold q relief s = s) ∧
    (q.frames = true → q.ways = false → afterHold q relief s = pressureCompare s) ∧
    (∀ x, relief = some x → q.ways = true →
      (q.frames = false → afterHold q relief s = reliefStage x s) ∧
      (q.frames = true → afterHold q relief s = reliefStage x (pressureCompare s)))) ∧
  (∀ (s : State) (k : Nat),
    ((s.stream k).openUnit = none → endOfPlacement k s = s) ∧
    (∀ v, (s.stream k).openUnit = some v → (s.stream k).state = .retiring →
      endOfPlacement k s = stageUnit .retire v s) ∧
    (∀ v, (s.stream k).openUnit = some v → (s.stream k).policy = .adaptive →
      (s.stream k).state = .active →
      (∀ i u, i < 64 → s.unit? (64 * k + i) = some u →
        u.state ≠ .staged ∧ u.state ≠ .offered ∧ u.state ≠ .inFlight) →
      (∃ g, g < 32 ∧ (s.stream k).lanes.getLsbD g = true ∧ (s.lane g).state = .up ∧
        (s.lane g).offer = none ∧ (s.lane g).inFlight < (s.drain (laneLink g)).depth) →
      endOfPlacement k s = stageUnit .adaptive v s) ∧
    ((s.stream k).state ≠ .retiring →
      ((s.stream k).policy = .full ∨ (s.stream k).state ≠ .active ∨
        (∃ i u, i < 64 ∧ s.unit? (64 * k + i) = some u ∧
          (u.state = .staged ∨ u.state = .offered ∨ u.state = .inFlight)) ∨
        (∀ g, g < 32 → (s.stream k).lanes.getLsbD g = true → (s.lane g).state = .up →
          (s.lane g).offer = none → (s.drain (laneLink g)).depth ≤ (s.lane g).inFlight)) →
      endOfPlacement k s = s))

/-- A slot visit that is due moves the wheel to the next slot and begins the next period. Where no offer
lapses and the slot is disabled it does nothing else; where it is enabled the offer step for the lane it
names follows. -/
def Obligations.SlotVisitTurnsTheWheel : Prop :=
  ∀ (s : State) (due : Nat), s.nextVisit = some due → due ≤ s.now →
    ∃ t, exec .slotVisit s = .next t ∧
      t.wheelPos = (s.wheelPos + 1) % 32 ∧ t.nextVisit = some (due + s.cfg.slotPeriod) ∧
      t.frames = s.frames ∧ t.accounts = s.accounts ∧ t.grants = s.grants ∧
      t.waiting = s.waiting ∧ t.flushes = s.flushes ∧ t.drainCount = s.drainCount ∧
      t.streams = s.streams ∧ t.slots = s.slots ∧
      (lapsingLanes s (nextSlot s) = [] → (s.slot (nextSlot s)).enabled = false →
        t = { s with wheelPos := nextSlot s, nextVisit := some (due + s.cfg.slotPeriod) }) ∧
      (lapsingLanes s (nextSlot s) = [] → (s.slot (nextSlot s)).enabled = true →
        t = offerStep (globalLane (s.slot (nextSlot s)).link (s.slot (nextSlot s)).lane) (nextSlot s)
          { s with wheelPos := nextSlot s, nextVisit := some (due + s.cfg.slotPeriod) })

/-- The offer step: a lane that is UP, has no offer and has room is offered the first unit
of the staged queue that is eligible for it; otherwise nothing changes. The staged queue holds every STAGED
unit once, by its distance behind the staged counter, the oldest first. A unit is eligible where its stream is
not PAUSED and its lane set names the lane; in POWER_FAIL a pause does not count, and a lane set without an UP
lane holds nothing back. -/
def Obligations.OfferStepEffects : Prop :=
  (∀ (s : State) (g pos : Nat),
    ((s.lane g).state ≠ .up ∨ (s.lane g).offer ≠ none ∨
        (s.drain (laneLink g)).depth ≤ (s.lane g).inFlight → offerStep g pos s = s) ∧
    ((∀ v ∈ stagedQueue s, eligible s g v = false) → offerStep g pos s = s) ∧
    (∀ earlier v later u, (s.lane g).state = .up → (s.lane g).offer = none →
      (s.lane g).inFlight < (s.drain (laneLink g)).depth →
      stagedQueue s = earlier ++ v :: later → (∀ i ∈ earlier, eligible s g i = false) →
      eligible s g v = true → s.unit? v = some u →
      ∃ t, offerStep g pos s = t ∧
        t.unit? v = some { u with state := .offered, lane := some g } ∧
        (∀ i, i ≠ v → t.unit? i = s.unit? i) ∧
        t.lane g =
          { s.lane g with
            offer := some { unit := v, slot := pos },
            totalOffers := satSucc (s.lane g).totalOffers } ∧
        (∀ i, i ≠ g → t.lane i = s.lane i) ∧
        t.link (laneLink g) =
          (place (laneLink g)
            (.offer v (laneIndex g) s.cfg.unitSize u.fill (unitStream v) u.attempts u.restarted
              (s.drain (laneLink g)).order) s).link (laneLink g) ∧
        { t with units := s.units, lanes := s.lanes, links := s.links } = s)) ∧
  (∀ s : State, Table.sorted s.units = true →
    (∀ v, v ∈ stagedQueue s ↔ ∃ u, s.unit? v = some u ∧ u.state = .staged) ∧
    (stagedQueue s).Nodup ∧
    ∀ earlier v later w, stagedQueue s = earlier ++ v :: later → w ∈ later →
      ∀ u x, s.unit? v = some u → s.unit? w = some x → ∀ p q,
        p = (s.stagedCounter + 4294967296 - u.stagedSeq.getD 0) % 4294967296 →
        q = (s.stagedCounter + 4294967296 - x.stagedSeq.getD 0) % 4294967296 →
        q < p ∨ (q = p ∧ v < w)) ∧
  (∀ (s : State) (g v : Nat),
    (s.part ≠ .powerFail → (eligible s g v = true ↔
      (s.stream (v / 64)).state ≠ .paused ∧ (s.stream (v / 64)).lanes.getLsbD g = true)) ∧
    (s.part = .powerFail → (eligible s g v = true ↔
      (s.stream (v / 64)).lanes.getLsbD g = true ∨
        ∀ i, i < 32 → (s.stream (v / 64)).lanes.getLsbD i = true → (s.lane i).state ≠ .up)))

/-- The visit that is the lapse point of a lane's offer ends it: the offered unit is STAGED again, the lapse
counts rise, and at the eighth lapse in a row the lane goes DOWN with its IN_FLIGHT units re-staged as
restarted. The offer step of the visit follows, for the lane its slot names, unless that lane's offer lapsed.
That the lapse is part of the slot visit, so that the two commands do the same, is log entry 7. -/
def Obligations.OfferLapseEffects : Prop :=
  ∀ (s : State) (g due : Nat) (o : LaneOffer), g < 32 → s.nextVisit = some due → due ≤ s.now →
    (s.lane g).offer = some o →
    ((s.slot (nextSlot s)).enabled = true ∧
        globalLane (s.slot (nextSlot s)).link (s.slot (nextSlot s)).lane = g ∨
      o.slot = nextSlot s) →
    exec (.offerLapse g) s = exec .slotVisit s ∧
    (∀ j, j ∈ lapsingLanes s (nextSlot s) ↔ j < 32 ∧ ∃ p, (s.lane j).offer = some p ∧
      ((s.slot (nextSlot s)).enabled = true ∧
          globalLane (s.slot (nextSlot s)).link (s.slot (nextSlot s)).lane = j ∨
        p.slot = nextSlot s)) ∧
    ∃ t r, exec (.offerLapse g) s = .next t ∧
      (((s.slot (nextSlot s)).enabled = true ∧
          globalLane (s.slot (nextSlot s)).link (s.slot (nextSlot s)).lane ∉
            lapsingLanes s (nextSlot s) →
        t = offerStep (globalLane (s.slot (nextSlot s)).link (s.slot (nextSlot s)).lane)
          (nextSlot s) r) ∧
       (¬((s.slot (nextSlot s)).enabled = true ∧
          globalLane (s.slot (nextSlot s)).link (s.slot (nextSlot s)).lane ∉
            lapsingLanes s (nextSlot s)) → t = r)) ∧
      t.wheelPos = nextSlot s ∧ (t.event Event.offerLapse.code).flag = true ∧
      (t.lane g).offer = none ∧ (t.lane g).lapses = (s.lane g).lapses + 1 ∧
      (t.lane g).totalLapses = satSucc (s.lane g).totalLapses ∧
      (t.lane g).totalOffers = (s.lane g).totalOffers ∧
      ((s.lane g).lapses + 1 < 8 →
        (t.lane g).state = (s.lane g).state ∧ (t.lane g).inFlight = (s.lane g).inFlight) ∧
      (8 ≤ (s.lane g).lapses + 1 →
        (t.lane g).state = .down ∧ (t.lane g).inFlight = 0 ∧
        (t.event Event.laneDown.code).flag = true) ∧
      (UnitLaw s → ∀ v u, s.unit? v = some u →
        (∀ j p, j ∈ lapsingLanes s (nextSlot s) → (s.lane j).offer = some p → p.unit = v →
          u.state = .offered ∧ r.unit? v = some { u with state := .staged, lane := none }) ∧
        (∀ j, j ∈ lapsingLanes s (nextSlot s) → 8 ≤ (s.lane j).lapses + 1 → u.state = .inFlight →
          u.lane = some j →
          r.unit? v = some { u with state := .staged, lane := none, restarted := true }) ∧
        ((∀ j p, j ∈ lapsingLanes s (nextSlot s) → (s.lane j).offer = some p → p.unit ≠ v) →
          (∀ j, j ∈ lapsingLanes s (nextSlot s) → 8 ≤ (s.lane j).lapses + 1 →
            ¬(u.state = .inFlight ∧ u.lane = some j)) →
          r.unit? v = some u))

/-- A valid Accept makes the offered unit IN_FLIGHT on the lane; a valid Decline gives it back to the
staged queue and counts. Both end the offer and set the consecutive lapses to 0, and neither is answered. -/
def Obligations.OfferAnswers : Prop :=
  ∀ (s : State) (l v i g : Nat) (m : Message) (u : UnitRecord), i < 8 → v < 4096 →
    numAt m.body 0 2 = v → byteAt m.body 2 = i → g = globalLane l i → (s.lane g).state = .up →
    (∃ slot, (s.lane g).offer = some { unit := v, slot := slot }) → s.unit? v = some u →
    (ControlWaits s l kindAccept m → ∃ t, exec (.accept l) s = .next t ∧
      t.unit? v = some { u with state := .inFlight, lane := some g } ∧
      t.lane g =
        { s.lane g with offer := none, inFlight := (s.lane g).inFlight + 1, lapses := 0 } ∧
      (∀ j, j ≠ v → t.unit? j = s.unit? j) ∧ (∀ j, j ≠ g → t.lane j = s.lane j) ∧
      t.links = (takeHead l .control s).links ∧
      { t with units := s.units, lanes := s.lanes, links := s.links } = s) ∧
    (ControlWaits s l kindDecline m → ∃ t, exec (.decline l) s = .next t ∧
      t.unit? v = some { u with state := .staged, lane := none } ∧
      t.lane g =
        { s.lane g with
          offer := none, totalDeclines := satSucc (s.lane g).totalDeclines, lapses := 0 } ∧
      (∀ j, j ≠ v → t.unit? j = s.unit? j) ∧ (∀ j, j ≠ g → t.lane j = s.lane j) ∧
      t.links = (takeHead l .control s).links ∧
      { t with units := s.units, lanes := s.lanes, links := s.links } = s)

/-- Lane Ready raises an ABSENT or DOWN lane to UP; Lane Quit takes an UP lane DOWN, its offer withdrawn
and its units re-staged as restarted, and an ABSENT lane DOWN. Otherwise the lane stays as it is, and
neither is answered; a lane number above 7 is answered MALFORMED. -/
def Obligations.LaneReadyAndQuit : Prop :=
  ∀ (s : State) (l i g : Nat) (m : Message), byteAt m.body 0 = i → g = globalLane l i →
    (8 ≤ i →
      (ControlWaits s l kindLaneReady m → exec (.laneReady l) s = .next
        (place l (.controlRefused kindLaneReady none i .malformed) (takeHead l .control s))) ∧
      (ControlWaits s l kindLaneQuit m → exec (.laneQuit l) s = .next
        (place l (.controlRefused kindLaneQuit none i .malformed) (takeHead l .control s)))) ∧
    (i < 8 → ControlWaits s l kindLaneReady m →
      ((s.lane g).state = .absent ∨ (s.lane g).state = .down → exec (.laneReady l) s =
        .next ((takeHead l .control s).setLane g { s.lane g with state := .up, lapses := 0 })) ∧
      ((s.lane g).state = .up ∨ (s.lane g).state = .blocked →
        exec (.laneReady l) s = .next (takeHead l .control s))) ∧
    (i < 8 → ControlWaits s l kindLaneQuit m →
      ((s.lane g).state = .absent → exec (.laneQuit l) s =
        .next ((takeHead l .control s).setLane g { s.lane g with state := .down })) ∧
      ((s.lane g).state = .down ∨ (s.lane g).state = .blocked →
        exec (.laneQuit l) s = .next (takeHead l .control s)) ∧
      ((s.lane g).state = .up → ∃ t, exec (.laneQuit l) s = .next t ∧
        t.lane g = { s.lane g with state := .down, offer := none, inFlight := 0 } ∧
        (∀ j, j ≠ g → t.lane j = s.lane j) ∧
        (Table.sorted s.units = true →
          (∀ v u, s.unit? v = some u → u.state = .inFlight → u.lane = some g →
            t.unit? v = some { u with state := .staged, lane := none, restarted := true }) ∧
          (∀ v u, s.unit? v = some u → (u.state ≠ .inFlight ∨ u.lane ≠ some g) →
            (u.state ≠ .offered ∨ ∀ o, (s.lane g).offer = some o → o.unit ≠ v) →
            t.unit? v = some u) ∧
          (∀ o u, (s.lane g).offer = some o → s.unit? o.unit = some u → u.state = .offered →
            t.unit? o.unit = some { u with state := .staged, lane := none })) ∧
        { t with units := s.units, lanes := s.lanes } = takeHead l .control s))

/-! ### Transfer and completion -/

/-- The slices a Fetch returns, in order: the positions of a LINEAR and of a PAIRED Fetch, which lie in the
unit and are distinct; a PAIRED Fetch stays within the aligned block of the smallest power-of-two size at
least m that holds k. -/
def Obligations.FetchPositions : Prop :=
  (∀ (s : State) (l v k n : Nat) (m : Message) (u : UnitRecord) (reads : List ReadResult),
    ControlWaits s l kindFetch m → numAt m.body 0 2 = v → byteAt m.body 2 = k →
    byteAt m.body 3 = n → v < 4096 → k < s.cfg.unitSize → 1 ≤ n → n ≤ s.cfg.unitSize →
    s.unit? v = some u → u.state = .inFlight → (∃ g, u.lane = some g ∧ laneLink g = l) →
    ∃ es r, exec (.fetch l reads) s = .next (place l (.fetchData m.tag v k n es) r) ∧
      es.map (·.position) =
        (List.range n).map (fetchPosition (s.drain l).order s.cfg.unitSize k)) ∧
  ∀ (size k m : Nat), size = 8 ∨ size = 16 ∨ size = 32 → k < size → m ≤ size →
    (∀ block ∈ [1, 2, 4, 8, 16, 32], m ≤ block → ∀ i, i < m →
      fetchPosition .paired size k i / block = k / block) ∧
    (∀ i, i < m → fetchPosition .linear size k i = (k + i) % size) ∧
    (∀ i, i < m → fetchPosition .paired size k i = k ^^^ i) ∧
    (∀ (order : FetchOrder) (i : Nat), i < m → fetchPosition order size k i < size) ∧
    (∀ (order : FetchOrder) (i j : Nat), i < m → j < m →
      fetchPosition order size k i = fetchPosition order size k j → i = j)

/-- A Fetch that passes its checks is answered whole by Fetch Data with one entry for each
position in the link's order. Of the frames only the damaged flag, and the mark of a correctable error in the
stored copy, may change, and only in the unit's own; the counts and the flag of the store's errors may rise,
and every other record is kept. That a read without a result in the command ends clean, and that mark, are log
entry 6. -/
def Obligations.FetchServed : Prop :=
  ∀ (s : State) (l v k n : Nat) (m : Message) (u : UnitRecord) (reads : List ReadResult),
    ControlWaits s l kindFetch m → numAt m.body 0 2 = v → byteAt m.body 2 = k →
    byteAt m.body 3 = n → v < 4096 → k < s.cfg.unitSize → 1 ≤ n → n ≤ s.cfg.unitSize →
    s.unit? v = some u → u.state = .inFlight → (∃ g, u.lane = some g ∧ laneLink g = l) →
    ∃ es r, exec (.fetch l reads) s = .next (place l (.fetchData m.tag v k n es) r) ∧
      es.map (·.position) =
        (List.range n).map (fetchPosition (s.drain l).order s.cfg.unitSize k) ∧
      (∀ e ∈ es, u.frames.length ≤ e.position → e.mark = .pad ∧ e.bytes = zeroSlice) ∧
      (∀ e ∈ es, ∀ f fr, u.frames[e.position]? = some f → s.frame? f = some fr →
        (e.mark = .data ∧ e.bytes = fr.data ∧ fr.record.damaged = false) ∨
          (e.mark = .damaged ∧ e.bytes = zeroSlice)) ∧
      (∀ f fr, s.frame? f = some fr → ∃ damaged latent,
        r.frame? f =
          some { fr with record := { fr.record with damaged := damaged }, latent := latent } ∧
        (fr.record.damaged = true → damaged = true)) ∧
      (∀ f, s.frame? f = none → r.frame? f = none) ∧
      (∀ f, f ∉ u.frames → r.frame? f = s.frame? f) ∧
      (reads = [] → NoLatent s → r = takeHead l .control s ∧
        ∀ e ∈ es, ∀ f fr, u.frames[e.position]? = some f → s.frame? f = some fr →
          (fr.record.damaged = false → e.mark = .data ∧ e.bytes = fr.data) ∧
          (fr.record.damaged = true → e.mark = .damaged ∧ e.bytes = zeroSlice)) ∧
      { r with
        frames := s.frames, corrected := s.corrected, uncorrectable := s.uncorrectable,
        events := s.events, alert := s.alert } = takeHead l .control s

/-- A Unit Done that passes its checks makes the unit RELEASING with its handle at the tail
of the report queue, lowers the lane's count and the drain count, and raises the stream's completed units; the
frames and the accounts are kept, and SAFE has its level. Of the flush entries it speaks only where none is
ACTIVE; FlushWaits says what a Unit Done does to the others. -/
def Obligations.UnitDoneEffects : Prop :=
  ∀ (s : State) (l v i g : Nat) (m : Message) (u : UnitRecord), ControlWaits s l kindUnitDone m →
    numAt m.body 0 2 = v → byteAt m.body 2 = i → v < 4096 → i < 8 → g = globalLane l i →
    s.unit? v = some u → u.state = .inFlight → u.lane = some g →
    ∃ t, exec (.unitDone l) s = .next t ∧
      t.unit? v = some { u with state := .releasing, handle := some (opaqueAt m.body 3) } ∧
      (∀ j, j ≠ v → t.unit? j = s.unit? j) ∧
      t.lane g = { s.lane g with inFlight := (s.lane g).inFlight - 1 } ∧
      (∀ j, j ≠ g → t.lane j = s.lane j) ∧
      t.reportQueue = s.reportQueue ++ [{ unit := v, issued := false }] ∧
      t.stream (v / 64) =
        { s.stream (v / 64) with unitsCompleted := (s.stream (v / 64)).unitsCompleted + 1 } ∧
      t.drainCount = s.drainCount - 1 ∧ t.safe = safeLevel t ∧
      (s.flushOrder = [] → t.flushes = s.flushes ∧ t.links = (takeHead l .control s).links) ∧
      t.frames = s.frames ∧ t.accounts = s.accounts ∧ t.free = s.free ∧ t.sets = s.sets ∧
      t.grants = s.grants ∧ t.waiting = s.waiting ∧ t.nextSeq = s.nextSeq ∧ t.part = s.part ∧
      t.faultList = s.faultList ∧ t.tenants = s.tenants ∧ t.wheelPos = s.wheelPos

/-- A Unit Fail that passes its checks raises the attempt count and re-stages the unit, or at
the fourth attempt makes it FAULTED at the tail of the fault list, lowers the drain count and evaluates SAFE;
LANE_FAULT also takes the lane DOWN, its offer withdrawn and its other units IN_FLIGHT re-staged as restarted.
Of the flush entries it speaks only where none is ACTIVE; FlushWaits says what a fault does to the others. -/
def Obligations.UnitFailEffects : Prop :=
  ∀ (s : State) (l v i g : Nat) (m : Message) (u : UnitRecord) (reason : FailReason),
    ControlWaits s l kindUnitFail m → numAt m.body 0 2 = v → byteAt m.body 2 = i → v < 4096 →
    i < 8 → g = globalLane l i → readReason m.body = some reason → s.unit? v = some u →
    u.state = .inFlight → u.lane = some g → Table.sorted s.units = true →
    ∃ t, exec (.unitFail l) s = .next t ∧
      (u.attempts + 1 < 4 →
        t.unit? v = some { u with state := .staged, lane := none, attempts := u.attempts + 1 } ∧
        t.faultList = s.faultList ∧ t.drainCount = s.drainCount) ∧
      (4 ≤ u.attempts + 1 →
        t.unit? v = some { u with state := .faulted, lane := none, attempts := u.attempts + 1 } ∧
        t.faultList = s.faultList ++ [v] ∧ t.drainCount = s.drainCount - 1 ∧
        (t.event Event.unitFault.code).flag = true) ∧
      (reason = .retry →
        t.lane g = { s.lane g with inFlight := (s.lane g).inFlight - 1 } ∧
        ∀ j, j ≠ v → t.unit? j = s.unit? j) ∧
      (reason = .laneFault →
        t.lane g = { s.lane g with state := .down, offer := none, inFlight := 0 } ∧
        (t.event Event.laneDown.code).flag = true ∧
        (∀ j x, j ≠ v → s.unit? j = some x → x.state = .inFlight → x.lane = some g →
          t.unit? j = some { x with state := .staged, lane := none, restarted := true }) ∧
        (∀ j x, j ≠ v → s.unit? j = some x → (x.state ≠ .inFlight ∨ x.lane ≠ some g) →
          (x.state ≠ .offered ∨ ∀ o, (s.lane g).offer = some o → o.unit ≠ j) →
          t.unit? j = some x) ∧
        (∀ o x, (s.lane g).offer = some o → s.unit? o.unit = some x → x.state = .offered →
          t.unit? o.unit = some { x with state := .staged, lane := none })) ∧
      (∀ j, j ≠ g → t.lane j = s.lane j) ∧ t.safe = safeLevel t ∧
      (s.flushOrder = [] ∨ u.attempts + 1 < 4 →
        t.flushes = s.flushes ∧ t.links = (takeHead l .control s).links) ∧
      t.frames = s.frames ∧ t.accounts = s.accounts ∧ t.free = s.free ∧ t.sets = s.sets ∧
      t.reportQueue = s.reportQueue ∧ t.streams = s.streams ∧ t.part = s.part ∧
      t.waiting = s.waiting ∧ t.grants = s.grants

/-- A drain's control message that is not taken is answered with Control Refused, a Fetch with Fetch
Refused, MALFORMED where a field is out of its range and STALE where the unit is not where the message
puts it; nothing else changes. -/
def Obligations.ControlMessagesRefused : Prop :=
  ∀ (s : State) (l v i : Nat) (m : Message), numAt m.body 0 2 = v → byteAt m.body 2 = i →
    (∀ kind c, (kind, c) ∈ [(kindAccept, Instr.accept l), (kindDecline, Instr.decline l),
        (kindUnitDone, Instr.unitDone l), (kindUnitFail, Instr.unitFail l)] →
      ControlWaits s l kind m →
      (4096 ≤ v ∨ 8 ≤ i ∨ (kind = kindUnitFail ∧ readReason m.body = none) → exec c s =
        .next (place l (.controlRefused kind (some v) i .malformed) (takeHead l .control s))) ∧
      (v < 4096 → i < 8 → (kind = kindUnitFail → (readReason m.body).isSome = true) →
        (kind = kindAccept ∨ kind = kindDecline →
          holdsOffer s (globalLane l i) v = false) →
        (kind = kindUnitDone ∨ kind = kindUnitFail →
          ∀ u, s.unit? v = some u → ¬(u.state = .inFlight ∧ u.lane = some (globalLane l i))) →
        exec c s =
          .next (place l (.controlRefused kind (some v) i .stale) (takeHead l .control s)))) ∧
    (ControlWaits s l kindFetch m → ∀ reads,
      (4096 ≤ v ∨ s.cfg.unitSize ≤ i ∨ byteAt m.body 3 = 0 ∨ s.cfg.unitSize < byteAt m.body 3 →
        exec (.fetch l reads) s =
          .next (place l (.fetchRefused m.tag v .malformed) (takeHead l .control s))) ∧
      (v < 4096 → i < s.cfg.unitSize → 1 ≤ byteAt m.body 3 → byteAt m.body 3 ≤ s.cfg.unitSize →
        (∀ u g, s.unit? v = some u → u.state = .inFlight → u.lane = some g → laneLink g ≠ l) →
        exec (.fetch l reads) s =
          .next (place l (.fetchRefused m.tag v .stale) (takeHead l .control s))))

/-! ### Management requests -/

/-- In STARTING every request but an Inspect is refused NOT_READY, and a request kind that names no kind is
refused BAD_FIELD in every part state. -/
def Obligations.RequestsNotReady : Prop :=
  ∀ (s : State) (m : Message),
    (s.part = .starting → ∀ kind c, (kind, c) ∈
        [(1, Instr.start), (2, Instr.stop), (3, Instr.configure), (4, Instr.ruleSet),
          (5, Instr.reclaimMapSet), (6, Instr.tenantSet), (7, Instr.reclaimAccountSet),
          (8, Instr.tenantFreeze), (9, Instr.tenantThaw), (10, Instr.streamBind),
          (11, Instr.streamSet), (12, Instr.streamPause), (13, Instr.streamResume),
          (14, Instr.streamRetire), (15, Instr.unitClose), (16, Instr.slotSet),
          (17, Instr.laneBlock), (18, Instr.laneUnblock), (19, Instr.unitRestage),
          (20, Instr.unitDiscard), (22, Instr.eventFetch), (23, Instr.eventClear),
          (24, Instr.eventMask)] →
      RequestWaits s kind m →
      exec c s = .next (answeredWith m .notReady none (takeHead 5 .mgmt s))) ∧
    (∀ kind, RequestWaits s kind m → kind = 0 ∨ 24 < kind →
      exec .unknownRequestKind s = .next (answeredWith m .badField none (takeHead 5 .mgmt s)))

/-- Start, Stop and Configure in every part state. -/
def Obligations.StartStopConfigure : Prop :=
  ∀ (s : State) (m : Message),
    (∀ kind c, (kind, c) ∈ [(1, Instr.start), (2, Instr.stop), (3, Instr.configure)] →
      RequestWaits s kind m → s.part = .starting →
      exec c s = .next (answeredWith m .notReady none (takeHead 5 .mgmt s))) ∧
    (∀ q, settingsOk q = true ↔
      (q.cfg.unitSize = 8 ∨ q.cfg.unitSize = 16 ∨ q.cfg.unitSize = 32) ∧
      1 ≤ q.cfg.slotPeriod ∧ q.cfg.slotPeriod ≤ 255 ∧
      1 ≤ q.cfg.grantLifetime ∧ q.cfg.grantLifetime ≤ 1000 ∧
      8 ≤ q.cfg.seqThreshold ∧ q.cfg.seqThreshold ≤ 4095 ∧ q.cfg.pressureThreshold ≤ 65536 ∧
      ∀ d ∈ q.drains, 1 ≤ d.depth ∧ d.depth ≤ 4) ∧
    (RequestWaits s 1 m →
      (s.part = .stopped → exec .start s =
        .next (answeredWith m .accepted none
          { takeHead 5 .mgmt s with
            part := .running, nextVisit := some (s.now + s.cfg.slotPeriod) })) ∧
      (s.part = .running ∨ s.part = .powerFail → exec .start s =
        .next (answeredWith m .badState none (takeHead 5 .mgmt s)))) ∧
    (RequestWaits s 2 m →
      (s.part = .running → s.units = [] → s.grants = [] → s.waiting = [] → s.flushes = [] →
        exec .stop s =
          .next (answeredWith m .accepted none
            { takeHead 5 .mgmt s with part := .stopped, nextVisit := none })) ∧
      (s.part = .running →
        s.units ≠ [] ∨ s.grants ≠ [] ∨ s.waiting ≠ [] ∨ s.flushes ≠ [] →
        exec .stop s = .next (answeredWith m .busy none (takeHead 5 .mgmt s))) ∧
      (s.part = .stopped ∨ s.part = .powerFail → exec .stop s =
        .next (answeredWith m .badState none (takeHead 5 .mgmt s)))) ∧
    (RequestWaits s 3 m →
      (∀ q, s.part = .stopped → readSettings m.body = some q → settingsOk q = true →
        ∃ t, exec .configure s = .next (answeredWith m .accepted none t) ∧ t.cfg = q.cfg ∧
          (∀ i, i < 4 → t.drain (i + 1) = q.drains.getD i DrainConfig.reset) ∧
          { t with cfg := s.cfg, drains := s.drains, links := s.links } = s) ∧
      (s.part = .stopped →
        readSettings m.body = none ∨ (∃ q, readSettings m.body = some q ∧ settingsOk q = false) →
        exec .configure s = .next (answeredWith m .badField none (takeHead 5 .mgmt s))) ∧
      (s.part = .running ∨ s.part = .powerFail → exec .configure s =
        .next (answeredWith m .badState none (takeHead 5 .mgmt s))))

/-- Rule Set, Reclaim Map Set, Tenant Set, Reclaim Account Set, Tenant Freeze and
Tenant Thaw, outside STARTING: what an accepted request replaces, and when a request is refused, with the
checks of a rule and of a tenant's fields written out. That a Rule Set whose enable byte is neither 0 nor 1
is refused BAD_FIELD (`readRule` answers none) is log entry 13. -/
def Obligations.ClassifierAndAccountRequests : Prop :=
  (∀ (n : Nat) (r : Rule), ruleOk n r = true ↔
    n ≤ 31 ∧ r.tenantHigh ≤ 255 ∧ r.tenantLow ≤ r.tenantHigh ∧ (∀ h, r.handle = some h → h ≤ 1023) ∧
    r.lbaHigh ≤ 2 ^ 40 - 1 ∧ r.lbaLow ≤ r.lbaHigh ∧ (∀ h, r.hint = some h → h ≤ 7) ∧
    (∀ k, r.action = .stream k → k ≤ 63)) ∧
  (∀ (t : Nat) (f : TenantFields), tenantFieldsOk t f = true ↔
    t ≤ 255 ∧ f.defaultStream ≤ 63 ∧ (∀ k, f.seqStream = some k → k ≤ 63) ∧
    ∀ h ∈ f.hintMap, ∀ k, h = some k → k ≤ 63) ∧
  ∀ (s : State) (m : Message), s.part ≠ .starting →
    (RequestWaits s 4 m →
      (∀ r, readRule m.body = some r → ruleOk (byteAt m.body 1) r = true → r.hits = 0 ∧
        exec .ruleSet s =
          .next (answeredWith m .accepted none ((takeHead 5 .mgmt s).setRule (byteAt m.body 1) r))) ∧
      (readRule m.body = none ∨
          (∃ r, readRule m.body = some r ∧ ruleOk (byteAt m.body 1) r = false) →
        exec .ruleSet s = .next (answeredWith m .badField none (takeHead 5 .mgmt s)))) ∧
    (RequestWaits s 5 m →
      ((∀ i, 1 ≤ i → i ≤ 4 → byteAt m.body i < 64) → exec .reclaimMapSet s =
        .next (answeredWith m .accepted none
          (retestWalk
            { takeHead 5 .mgmt s with
              reclaimMap :=
                [byteAt m.body 1, byteAt m.body 2, byteAt m.body 3, byteAt m.body 4] }))) ∧
      (∀ i, 1 ≤ i → i ≤ 4 → 64 ≤ byteAt m.body i → exec .reclaimMapSet s =
        .next (answeredWith m .badField none (takeHead 5 .mgmt s)))) ∧
    (∀ t r c f, byteAt m.body 1 = t → numAt m.body 2 4 = r → numAt m.body 6 4 = c →
      readTenantFields m.body = f → RequestWaits s 6 m →
      (tenantFieldsOk t f = false → exec .tenantSet s =
        .next (answeredWith m .badField none (takeHead 5 .mgmt s))) ∧
      (tenantFieldsOk t f = true → ∀ code, limitCheck t r c s = some code → exec .tenantSet s =
        .next (answeredWith m code none (takeHead 5 .mgmt s))) ∧
      (tenantFieldsOk t f = true → limitCheck t r c s = none → exec .tenantSet s =
        .next (answeredWith m .accepted none
          (retestWalk
            (((takeHead 5 .mgmt s).setAccount t
                { s.account t with reserve := r, cap := c }).setTenant t
              { s.tenant t with
                defaultStream := f.defaultStream, seqStream := f.seqStream,
                hintMap := f.hintMap }))))) ∧
    (∀ r c, numAt m.body 1 4 = r → numAt m.body 5 4 = c → RequestWaits s 7 m →
      (∀ code, limitCheck 256 r c s = some code → exec .reclaimAccountSet s =
        .next (answeredWith m code none (takeHead 5 .mgmt s))) ∧
      (limitCheck 256 r c s = none → exec .reclaimAccountSet s =
        .next (answeredWith m .accepted none
          (retestWalk
            ((takeHead 5 .mgmt s).setAccount 256
              { s.account 256 with reserve := r, cap := c }))))) ∧
    (∀ a r c,
      (65536 < r ∨ 65536 < c → limitCheck a r c s = some .badField) ∧
      (r ≤ 65536 → c ≤ 65536 →
        (65536 < sumAccounts (·.reserve) (s.setAccount a { s.account a with reserve := r }) ∨
            s.free <
              sumAccounts unusedReserve (s.setAccount a { s.account a with reserve := r }) →
          limitCheck a r c s = some .limit) ∧
        (sumAccounts (·.reserve) (s.setAccount a { s.account a with reserve := r }) ≤ 65536 →
          sumAccounts unusedReserve (s.setAccount a { s.account a with reserve := r }) ≤ s.free →
          limitCheck a r c s = none))) ∧
    (∀ t, byteAt m.body 1 = t → t < 256 →
      (RequestWaits s 8 m → exec .tenantFreeze s =
        .next (answeredWith m .accepted none
          ((takeHead 5 .mgmt s).setAccount t { s.account t with frozen := true }))) ∧
      (RequestWaits s 9 m → exec .tenantThaw s =
        .next (answeredWith m .accepted none
          (retestWalk
            ((takeHead 5 .mgmt s).setAccount t { s.account t with frozen := false })))))

/-- Stream Bind, Set, Pause, Resume and Retire and Unit Close, outside STARTING. Retire and Unit Close stage
the OPEN unit, and change no other unit and no other stream. That Pause, Resume and Retire of a stream above 63
are refused BAD_FIELD is log entry 24, and that Unit Close of an id above 4,095 is so in POWER_FAIL too is log
entry 28. -/
def Obligations.StreamRequests : Prop :=
  ∀ (s : State) (m : Message) (k : Nat), s.part ≠ .starting → byteAt m.body 1 = k →
    (∀ c f, RequestWaits s 10 m → readClass (byteAt m.body 2) = some c →
      readStreamFields m.body 3 = some f →
      (64 ≤ k ∨ f.hold = 0 ∨ 1000 < f.hold ∨ f.lanes = 0#32 → exec .streamBind s =
        .next (answeredWith m .badField none (takeHead 5 .mgmt s))) ∧
      (k < 64 → 1 ≤ f.hold → f.hold ≤ 1000 → f.lanes ≠ 0#32 →
        ((s.stream k).state ≠ .unbound → exec .streamBind s =
          .next (answeredWith m .busy none (takeHead 5 .mgmt s))) ∧
        ((s.stream k).state = .unbound → exec .streamBind s =
          .next (answeredWith m .accepted none
            (retestWalk
              ((takeHead 5 .mgmt s).setStream k
                { s.stream k with
                  state := .active, cls := c, policy := f.policy, mode := f.mode,
                  window := f.window, hold := f.hold, lanes := f.lanes, cursor := 0,
                  slicesPlaced := 0, padSlices := 0, unitsCompleted := 0, inPlaceHits := 0 })))))) ∧
    (RequestWaits s 10 m →
      readClass (byteAt m.body 2) = none ∨ readStreamFields m.body 3 = none →
      exec .streamBind s = .next (answeredWith m .badField none (takeHead 5 .mgmt s))) ∧
    (RequestWaits s 11 m → readStreamFields m.body 2 = none →
      exec .streamSet s = .next (answeredWith m .badField none (takeHead 5 .mgmt s))) ∧
    (64 ≤ k → ∀ kind c,
      (kind, c) ∈ [(12, Instr.streamPause), (13, Instr.streamResume), (14, Instr.streamRetire)] →
      RequestWaits s kind m →
      exec c s = .next (answeredWith m .badField none (takeHead 5 .mgmt s))) ∧
    (∀ f, RequestWaits s 11 m → readStreamFields m.body 2 = some f →
      (64 ≤ k ∨ f.hold = 0 ∨ 1000 < f.hold ∨ f.lanes = 0#32 → exec .streamSet s =
        .next (answeredWith m .badField none (takeHead 5 .mgmt s))) ∧
      (k < 64 → 1 ≤ f.hold → f.hold ≤ 1000 → f.lanes ≠ 0#32 →
        ((s.stream k).state = .unbound ∨ (s.stream k).state = .retiring → exec .streamSet s =
          .next (answeredWith m .badState none (takeHead 5 .mgmt s))) ∧
        ((s.stream k).state = .active ∨ (s.stream k).state = .paused → exec .streamSet s =
          .next (answeredWith m .accepted none
            ((takeHead 5 .mgmt s).setStream k
              { s.stream k with
                policy := f.policy, mode := f.mode, window := f.window, hold := f.hold,
                lanes := f.lanes }))))) ∧
    (k < 64 →
      (RequestWaits s 12 m →
        ((s.stream k).state = .active → ∃ r,
          exec .streamPause s = .next (answeredWith m .accepted none (retestWalk r)) ∧
          r.stream k = { s.stream k with state := .paused } ∧
          (∀ v u, (s.stream k).openUnit = some v → s.unit? v = some u →
            r.unit? v = some { u with deadline := none }) ∧
          (∀ v, (s.stream k).openUnit ≠ some v → r.unit? v = s.unit? v) ∧
          (∀ j, j ≠ k → r.stream j = s.stream j) ∧
          { r with units := s.units, streams := s.streams } = takeHead 5 .mgmt s) ∧
        ((s.stream k).state = .paused → exec .streamPause s =
          .next (answeredWith m .accepted none (takeHead 5 .mgmt s))) ∧
        ((s.stream k).state = .unbound ∨ (s.stream k).state = .retiring → exec .streamPause s =
          .next (answeredWith m .badState none (takeHead 5 .mgmt s)))) ∧
      (RequestWaits s 13 m →
        ((s.stream k).state = .paused → ∃ r,
          exec .streamResume s = .next (answeredWith m .accepted none (retestWalk r)) ∧
          r.stream k = { s.stream k with state := .active } ∧
          (∀ v u, (s.stream k).openUnit = some v → s.unit? v = some u →
            r.unit? v = some
              { u with
                firstArrival := s.now, lastArrival := s.now,
                deadline := deadlineOf { s.stream k with state := .active } s.now s.now }) ∧
          (∀ v, (s.stream k).openUnit ≠ some v → r.unit? v = s.unit? v) ∧
          (∀ j, j ≠ k → r.stream j = s.stream j) ∧
          { r with units := s.units, streams := s.streams } = takeHead 5 .mgmt s) ∧
        ((s.stream k).state = .active → exec .streamResume s =
          .next (answeredWith m .accepted none (takeHead 5 .mgmt s))) ∧
        ((s.stream k).state = .unbound ∨ (s.stream k).state = .retiring → exec .streamResume s =
          .next (answeredWith m .badState none (takeHead 5 .mgmt s)))) ∧
      (RequestWaits s 14 m →
        ((s.stream k).state = .active ∨ (s.stream k).state = .paused → ∃ r,
          exec .streamRetire s = .next (answeredWith m .accepted none (retestWalk r)) ∧
          ((s.stream k).openUnit = none →
            r.stream k =
              { s.stream k with
                state :=
                  if (s.stream k).reserved = 0 ∧ s.usedRecords k = 0 then .unbound
                  else .retiring } ∧
            (∀ j, j ≠ k → r.stream j = s.stream j) ∧
            { r with streams := s.streams } = takeHead 5 .mgmt s) ∧
          ∀ v u, (s.stream k).openUnit = some v → unitStream v = k → s.unit? v = some u →
            u.state = .opened →
            Staged ((takeHead 5 .mgmt s).setStream k { s.stream k with state := .retiring })
              r .retire v u) ∧
        ((s.stream k).state = .retiring → exec .streamRetire s =
          .next (answeredWith m .accepted none (takeHead 5 .mgmt s))) ∧
        ((s.stream k).state = .unbound → exec .streamRetire s =
          .next (answeredWith m .badState none (takeHead 5 .mgmt s))))) ∧
    (∀ v, numAt m.body 1 2 = v → RequestWaits s 15 m →
      (4096 ≤ v → exec .unitClose s =
        .next (answeredWith m .badField none (takeHead 5 .mgmt s))) ∧
      (v < 4096 → (∀ u, s.unit? v = some u → u.state ≠ .opened) → exec .unitClose s =
        .next (answeredWith m .badState none (takeHead 5 .mgmt s))) ∧
      (∀ u, v < 4096 → s.unit? v = some u → u.state = .opened → ∃ r,
        exec .unitClose s = .next (answeredWith m .accepted none r) ∧
        Staged (takeHead 5 .mgmt s) r .manual v u))

/-- Slot Set, Lane Block, Lane Unblock, Unit Restage and Unit Discard, outside STARTING. A Lane Block of an UP
lane withdraws its offer and re-stages its units IN_FLIGHT as restarted. That an enable byte other than 0 and 1
is refused BAD_FIELD is log entry 13. -/
def Obligations.WheelAndFaultRequests : Prop :=
  ∀ (s : State) (m : Message), s.part ≠ .starting →
    (RequestWaits s 16 m →
      (∀ b, flagAt m.body 2 = some b → byteAt m.body 1 < 32 → 1 ≤ byteAt m.body 3 →
        byteAt m.body 3 ≤ 4 → byteAt m.body 4 < 8 → exec .slotSet s =
          .next (answeredWith m .accepted none
            ((takeHead 5 .mgmt s).setSlot (byteAt m.body 1)
              { enabled := b, link := byteAt m.body 3, lane := byteAt m.body 4 }))) ∧
      (flagAt m.body 2 = none ∨ 32 ≤ byteAt m.body 1 ∨ byteAt m.body 3 = 0 ∨
          4 < byteAt m.body 3 ∨ 8 ≤ byteAt m.body 4 → exec .slotSet s =
        .next (answeredWith m .badField none (takeHead 5 .mgmt s)))) ∧
    (∀ g, byteAt m.body 1 = g → RequestWaits s 17 m →
      (32 ≤ g → exec .laneBlock s =
        .next (answeredWith m .badField none (takeHead 5 .mgmt s))) ∧
      (g < 32 → ∃ r, exec .laneBlock s = .next (answeredWith m .accepted none r) ∧
        (r.lane g).state = .blocked ∧ (∀ j, j ≠ g → r.lane j = s.lane j) ∧
        ((s.lane g).state = .up →
          r.lane g = { s.lane g with state := .blocked, offer := none, inFlight := 0 }) ∧
        ((s.lane g).state ≠ .up → r.lane g = { s.lane g with state := .blocked } ∧
          r.units = s.units) ∧
        ((s.lane g).state = .up → Table.sorted s.units = true →
          (∀ v u, s.unit? v = some u → u.state = .inFlight → u.lane = some g →
            r.unit? v = some { u with state := .staged, lane := none, restarted := true }) ∧
          (∀ v u, s.unit? v = some u → (u.state ≠ .inFlight ∨ u.lane ≠ some g) →
            (u.state ≠ .offered ∨ ∀ o, (s.lane g).offer = some o → o.unit ≠ v) →
            r.unit? v = some u) ∧
          (∀ o u, (s.lane g).offer = some o → s.unit? o.unit = some u → u.state = .offered →
            r.unit? o.unit = some { u with state := .staged, lane := none })) ∧
        { r with units := s.units, lanes := s.lanes } = takeHead 5 .mgmt s)) ∧
    (∀ g, byteAt m.body 1 = g → RequestWaits s 18 m →
      (32 ≤ g → exec .laneUnblock s =
        .next (answeredWith m .badField none (takeHead 5 .mgmt s))) ∧
      (g < 32 → (s.lane g).state = .blocked → exec .laneUnblock s =
        .next (answeredWith m .accepted none
          ((takeHead 5 .mgmt s).setLane g { s.lane g with state := .down }))) ∧
      (g < 32 → (s.lane g).state ≠ .blocked → exec .laneUnblock s =
        .next (answeredWith m .badState none (takeHead 5 .mgmt s)))) ∧
    (∀ v kind c, numAt m.body 1 2 = v →
      (kind = 19 ∧ c = Instr.unitRestage ∨ kind = 20 ∧ c = Instr.unitDiscard) →
      RequestWaits s kind m →
      (4096 ≤ v → exec c s = .next (answeredWith m .badField none (takeHead 5 .mgmt s))) ∧
      (v < 4096 → (∀ u, s.unit? v = some u → u.state ≠ .faulted) → exec c s =
        .next (answeredWith m .badState none (takeHead 5 .mgmt s))) ∧
      (∀ u, v < 4096 → s.unit? v = some u → u.state = .faulted → ∃ r,
        exec c s = .next (answeredWith m .accepted none r) ∧
        r.faultList = s.faultList.filter (fun j => j ≠ v) ∧
        (∀ j, j ≠ v → r.unit? j = s.unit? j) ∧
        { r with
          units := s.units, faultList := s.faultList, drainCount := s.drainCount, safe := s.safe,
          events := s.events, alert := s.alert, flushes := s.flushes,
          reportQueue := s.reportQueue } = takeHead 5 .mgmt s ∧
        (kind = 19 → r.unit? v = some { u with state := .staged, attempts := 0 } ∧
          r.drainCount = s.drainCount + 1 ∧ r.safe = safeLevel r ∧
          r.reportQueue = s.reportQueue) ∧
        (kind = 20 → r.unit? v = some { u with state := .releasing, discard := true } ∧
          r.reportQueue = s.reportQueue ++ [{ unit := v, issued := false }] ∧
          r.drainCount = s.drainCount ∧ r.safe = s.safe ∧ r.events = s.events ∧
          r.alert = s.alert ∧ r.flushes = s.flushes)))

/-- Inspect, in every part state, answers with the target's content and changes no record, but that the
take option empties the refusal capture; the content of each of the 27 targets is written out. Event Fetch, Event
Clear and Event Mask, outside STARTING. The model's choices here: the content is read after the Inspect itself
has left its queue, as an Inspect of link 5 shows, the order of the units IN_FLIGHT on a lane and the rank of a
flush entry (log entry 27), the positions of the pending list and a VACANT grant's time (log entry 23), and a
take option that is neither 0 nor 1 (log entry 13). -/
def Obligations.InspectAndEventRequests : Prop :=
  (∀ (s : State) (b : List Byte) (n : Nat), numAt b 2 4 = n →
    (byteAt b 1 = 0 → inspectTarget b s =
      some (.part s.part s.cfg [s.drain 1, s.drain 2, s.drain 3, s.drain 4])) ∧
    (byteAt b 1 = 1 → (n < 256 → inspectTarget b s = some (.account (s.account n))) ∧
      (n = 256 → inspectTarget b s = some (.account { s.account 256 with frozen := false })) ∧
      (256 < n → inspectTarget b s = none)) ∧
    (byteAt b 1 = 2 → inspectTarget b s =
      some (.totals s.free (sumAccounts (·.reserve) s) (sumAccounts unusedReserve s)
        (sharedFree s))) ∧
    (byteAt b 1 = 3 → (n < 256 → inspectTarget b s = some (.tenant (s.tenant n))) ∧
      (256 ≤ n → inspectTarget b s = none)) ∧
    (byteAt b 1 = 4 → (n < 32 → inspectTarget b s = some (.rule (s.rule n))) ∧
      (32 ≤ n → inspectTarget b s = none)) ∧
    (byteAt b 1 = 5 → inspectTarget b s = some (.reclaimMap s.reclaimMap)) ∧
    (byteAt b 1 = 6 →
      (∀ take, flagAt b 2 = some take → inspectTarget b s = some (.capture s.captures s.refusals)) ∧
      (flagAt b 2 = none → inspectTarget b s = none)) ∧
    (byteAt b 1 = 7 →
      (∀ v, n < 128 → s.grant? n = some v →
        inspectTarget b s = some (.grant (some v) (v.lapse - s.now))) ∧
      (n < 128 → s.grant? n = none → inspectTarget b s = some (.grant none 0)) ∧
      (128 ≤ n → inspectTarget b s = none)) ∧
    (byteAt b 1 = 8 → inspectTarget b s = some (.pendingList s.waiting.length)) ∧
    (byteAt b 1 = 9 → (∀ e, s.waiting[n]? = some e → inspectTarget b s = some (.pendingEntry e)) ∧
      (s.waiting.length ≤ n → inspectTarget b s = none)) ∧
    (byteAt b 1 = 10 →
      (∀ v, n < 65536 → s.frame? n = some v →
        inspectTarget b s = some (.frame (some v.record))) ∧
      (n < 65536 → s.frame? n = none → inspectTarget b s = some (.frame none)) ∧
      (65536 ≤ n → inspectTarget b s = none)) ∧
    (byteAt b 1 = 11 →
      (n < 4096 → inspectTarget b s =
        some (.set (s.indexSet n).ways.length (s.indexSet n).reserved
          ((List.range 16).map (Table.find? (s.indexSet n).ways)))) ∧
      (4096 ≤ n → inspectTarget b s = none)) ∧
    (byteAt b 1 = 12 → ∀ k : Key, k = { handle := numAt b 2 2, lba := numAt b 4 5 } →
      (∀ i way v, k.handle ≤ 1023 → lookup s k = some (i, way) → s.frame? way.frame = some v →
        inspectTarget b s = some (.key (indexHash k) (some (i, way.frame, v.record)))) ∧
      (k.handle ≤ 1023 → lookup s k = none → inspectTarget b s = some (.key (indexHash k) none)) ∧
      (1023 < k.handle → inspectTarget b s = none)) ∧
    (byteAt b 1 = 13 → inspectTarget b s =
      some (.store s.nextSeq s.frames.length s.corrected s.uncorrectable)) ∧
    (byteAt b 1 = 14 →
      (n < 64 → inspectTarget b s =
        some (.stream (s.stream n)
          ((List.range 64).map fun r => (s.unit? (64 * n + r)).map (·.state))
          (s.usedRecords n))) ∧
      (64 ≤ n → inspectTarget b s = none)) ∧
    (byteAt b 1 = 15 → (n < 4096 → inspectTarget b s = some (.unit (s.unit? n) s.cfg.unitSize)) ∧
      (4096 ≤ n → inspectTarget b s = none)) ∧
    (byteAt b 1 = 16 → inspectTarget b s = some (.stagedQueue (stagedQueue s))) ∧
    (byteAt b 1 = 17 → (n < 32 → inspectTarget b s = some (.slot (s.slot n))) ∧
      (32 ≤ n → inspectTarget b s = none)) ∧
    (byteAt b 1 = 18 → inspectTarget b s = some (.wheel s.wheelPos s.cfg.slotPeriod)) ∧
    (byteAt b 1 = 19 →
      (n < 32 → inspectTarget b s =
        some (.lane (s.lane n) (unitsInFlight s n) (s.drain (n / 8 + 1)).depth)) ∧
      (32 ≤ n → inspectTarget b s = none)) ∧
    (byteAt b 1 = 20 →
      (1 ≤ n → n ≤ 4 → inspectTarget b s =
        some (.drain (s.drain n) ((List.range 8).map fun i =>
          ((s.lane (8 * (n - 1) + i)).inFlight, unitsInFlight s (8 * (n - 1) + i))))) ∧
      (n = 0 ∨ 4 < n → inspectTarget b s = none)) ∧
    (byteAt b 1 = 21 → inspectTarget b s = some (.faultList s.faultList)) ∧
    (byteAt b 1 = 22 → inspectTarget b s = some (.reportQueue s.reportQueue s.delivered)) ∧
    (byteAt b 1 = 23 → inspectTarget b s =
      some (.flushTable
        ((List.range 16).map fun e => (s.flush? e).map fun v => (v, s.flushOrder.idxOf e))
        s.flushOrder.length s.flushOrder.getLast?)) ∧
    (byteAt b 1 = 24 → inspectTarget b s =
      some (.powerFail s.drainCount s.safe s.entryState s.entryTime)) ∧
    (byteAt b 1 = 25 →
      (∀ sizes, n ≤ 5 →
        (n = 0 → sizes = [(s.link n).intent, (s.link n).data, (s.link n).read]) →
        (1 ≤ n → n ≤ 4 → sizes = [(s.link n).control, (s.link n).reclaim, (s.link n).data]) →
        (n = 5 → sizes = [(s.link n).mgmt]) →
        inspectTarget b s =
          some (.link (s.link n).up (s.link n).taken (s.link n).sent (s.link n).refused
            (s.link n).resets (sizes.map (·.messages.length)) (s.link n).outbound.length
            (s.link n).overflow.length)) ∧
      (5 < n → inspectTarget b s = none)) ∧
    (byteAt b 1 = 26 → inspectTarget b s = some (.events ((List.range 12).map s.event))) ∧
    (26 < byteAt b 1 → inspectTarget b s = none) ∧
    (∀ v : UnitRecord, ∀ i g : Nat, Table.sorted s.units = true → s.unit? i = some v →
      (i ∈ unitsInFlight s g ↔ v.state = .inFlight ∧ v.lane = some g))) ∧
  ∀ (s : State) (m : Message),
    (RequestWaits s 21 m →
      (∀ r, inspectTarget m.body (takeHead 5 .mgmt s) = some r →
        (takesCapture m.body = false → exec .inspect s =
          .next (answeredWith m .accepted (some r) (takeHead 5 .mgmt s))) ∧
        (takesCapture m.body = true → r = .capture s.captures s.refusals ∧ exec .inspect s =
          .next (answeredWith m .accepted (some r)
            { takeHead 5 .mgmt s with captures := [] }))) ∧
      (inspectTarget m.body (takeHead 5 .mgmt s) = none → exec .inspect s =
        .next (answeredWith m .badField none (takeHead 5 .mgmt s)))) ∧
    (s.part ≠ .starting →
      (RequestWaits s 22 m → exec .eventFetch s =
        .next (answeredWith m .accepted
          (some (.events ((List.range 12).map s.event))) (takeHead 5 .mgmt s))) ∧
      (∀ named, numAt m.body 1 2 = named →
        (RequestWaits s 23 m → named < 4096 → ∃ r,
          exec .eventClear s = .next (answeredWith m .accepted none r) ∧
          (∀ i, i < 12 → r.event i =
            { s.event i with flag := (s.event i).flag && !named.testBit i }) ∧
          (∀ i, 12 ≤ i → r.event i = s.event i) ∧ r.alert = anyOpenFlag r.events ∧
          { r with events := s.events, alert := s.alert } = takeHead 5 .mgmt s) ∧
        (RequestWaits s 24 m → named < 4096 → ∃ r,
          exec .eventMask s = .next (answeredWith m .accepted none r) ∧
          (∀ i, i < 12 → r.event i = { s.event i with masked := named.testBit i }) ∧
          (∀ i, 12 ≤ i → r.event i = s.event i) ∧ r.alert = anyOpenFlag r.events ∧
          { r with events := s.events, alert := s.alert } = takeHead 5 .mgmt s) ∧
        (4096 ≤ named →
          (RequestWaits s 23 m → exec .eventClear s =
            .next (answeredWith m .badField none (takeHead 5 .mgmt s))) ∧
          (RequestWaits s 24 m → exec .eventMask s =
            .next (answeredWith m .badField none (takeHead 5 .mgmt s))))))

/-! ### The laws of the device -/

/-- The laws of the device hold after the full reset: those of the two output lines (while RESET_N is
asserted the part state reads STARTING with no scrub, log entry 3), of the lanes, the sequences, the
held-counts, the units, the frame balance, the sets and the index, the bounds of the queues, and the canonical
form of the tables, which is the model's own representation (log entry 20). -/
def Obligations.LawsHoldAtReset : Prop :=
  AlertLaw State.reset ∧ SafeLaw State.reset ∧ LaneLaw State.reset ∧ SequenceLaw State.reset ∧
  HeldLaw State.reset ∧ BoundsLaw State.reset ∧ tablesWf State.reset = true ∧
  UnitLaw State.reset ∧ BalanceLaw State.reset ∧ SetLaw State.reset ∧ IndexLaw State.reset

/-- Every step keeps the laws of the two output lines: ALERT_N follows the open
flags, and SAFE is asserted in POWER_FAIL exactly while the drain count is 0. The law's other part, that while
RESET_N is asserted the part state reads STARTING with no scrub, is the model's choice (log entry 3). -/
def Obligations.OutputLinesFollowTheState : Prop :=
  ∀ s t : State, AlertLaw s → SafeLaw s → step s = .next t → AlertLaw t ∧ SafeLaw t

/-- Every step keeps the canonical form of every table of records, the staging
store's among them. The form is the model's own representation of the records, which the manual does not speak
of (log entry 20). -/
def Obligations.StepsKeepTheTablesCanonical : Prop :=
  ∀ s t : State, tablesWf s = true → step s = .next t → tablesWf t = true

/-- Every step keeps the law that a lane that is not UP has no offered unit and no unit IN_FLIGHT, and the
laws that the counts and lists of units follow the unit records: the drain count, the in-flight counts, the
offers, the report queue and the fault list. The unit laws' clause that the records stand in rising unit id is
the model's own form of the table (log entry 20). -/
def Obligations.StepsKeepTheLaneLaw : Prop :=
  (∀ s t : State, LaneLaw s → step s = .next t → LaneLaw t) ∧
  ∀ s t : State, UnitLaw s → step s = .next t → UnitLaw t

/-- Every step keeps the law that a HELD frame has first sequence ≤ latest sequence < the counter, and the
laws of the index: each OCCUPIED way stands in its key's set and names the HELD frame of that key, no two hold
one key, and every HELD frame that is not void is named by a way. The index laws' clause that the ways of a set
stand in rising number is the model's own form of the table (log entry 20). -/
def Obligations.StepsKeepTheSequenceLaw : Prop :=
  (∀ s t : State, SequenceLaw s → step s = .next t → SequenceLaw t) ∧
  ∀ s t : State, IndexLaw s → step s = .next t → IndexLaw t

/-- Every step keeps the law that an account's held-count is the number of its pending entries, the laws of
the frame balance (F and the sum of u make 65,536, F covers the unused reserves, and u counts the frames HELD
and promised), and the law of the sets (occupied and reserved ways fit in 16, and the reserved ones are those
promised to LIVE grants). The clauses of the last two that grants, frames and ways stand in rising number are
the model's own form of the tables (log entry 20). -/
def Obligations.StepsKeepTheHeldCounts : Prop :=
  (∀ s t : State, HeldLaw s → step s = .next t → HeldLaw t) ∧
  (∀ s t : State, BalanceLaw s → step s = .next t → BalanceLaw t) ∧
  ∀ s t : State, SetLaw s → step s = .next t → SetLaw t

/-- Every step keeps the bounds of the refusal capture, the pending list and the queues of the links. -/
def Obligations.StepsKeepTheBounds : Prop :=
  ∀ s t : State, BoundsLaw s → step s = .next t → BoundsLaw t

end Statements
end

