-- ==== Sys2Proof/Laws/Table.lean ====
section
/-! SUPPORT. Reading a table after writing it, and the canonical form that every write keeps. -/

namespace Sys2Proof.Table

variable {α : Type}

@[simp] theorem find?_nil (k : Nat) : find? ([] : Table α) k = none := rfl

theorem find?_cons (p : Nat × α) (t : Table α) (k : Nat) :
    find? (p :: t) k = if p.1 = k then some p.2 else find? t k := rfl

theorem find?_insert (t : Table α) (k k' : Nat) (v : α) :
    find? (insert t k v) k' = if k = k' then some v else find? t k' := by
  induction t with
  | nil => rfl
  | cons p t ih =>
    simp only [insert]
    split
    · simp [find?_cons]
    · split
      · simp only [find?_cons]; split_ifs <;> simp_all
      · simp only [find?_cons, ih]; split_ifs <;> simp_all

theorem find?_erase (t : Table α) (k k' : Nat) :
    find? (erase t k) k' = if k = k' then none else find? t k' := by
  induction t with
  | nil => simp [erase]
  | cons p t ih =>
    simp only [erase, List.filter_cons] at ih ⊢
    by_cases h : p.1 = k
    · simp only [h, ne_eq, not_true_eq_false, decide_false, Bool.false_eq_true, if_false, ih,
        find?_cons]
      split_ifs <;> simp_all
    · simp only [ne_eq, h, not_false_eq_true, decide_true, if_true, find?_cons, ih]
      split_ifs <;> simp_all

theorem getD_put [DecidableEq α] (d : α) (t : Table α) (k k' : Nat) (v : α) :
    getD d (put d t k v) k' = if k = k' then v else getD d t k' := by
  unfold getD put
  by_cases h : v = d
  · simp only [if_pos h, find?_erase]; split_ifs <;> simp [h]
  · simp only [if_neg h, find?_insert]; split_ifs <;> simp

/-! ### The canonical form -/

theorem sorted_iff (t : Table α) : sorted t = true ↔ t.Pairwise (fun p q => p.1 < q.1) := by
  rw [← List.isChain_iff_pairwise]
  induction t with
  | nil => simp [sorted]
  | cons p t ih =>
    cases t with
    | nil => simp [sorted]
    | cons q t => simp [sorted, ih]

theorem mem_insert {t : Table α} {k : Nat} {v : α} {p : Nat × α} (h : p ∈ insert t k v) :
    p = (k, v) ∨ p ∈ t := by
  induction t with
  | nil => simpa [insert] using h
  | cons q t ih =>
    simp only [insert] at h
    split at h
    · simpa using h
    · split at h
      · rcases List.mem_cons.1 h with h | h <;> simp [h]
      · rcases List.mem_cons.1 h with h | h
        · simp [h]
        · rcases ih h with h | h <;> simp [h]

theorem sorted_insert {t : Table α} (k : Nat) (v : α) (h : sorted t = true) :
    sorted (insert t k v) = true := by
  rw [sorted_iff] at *
  induction t with
  | nil => simp [insert]
  | cons q t ih =>
    rw [List.pairwise_cons] at h
    simp only [insert]
    split
    · rename_i hlt
      refine List.pairwise_cons.2 ⟨fun p hp => ?_, List.pairwise_cons.2 h⟩
      rcases List.mem_cons.1 hp with rfl | hp
      · exact hlt
      · exact lt_trans hlt (h.1 p hp)
    · split
      · rename_i heq; exact List.pairwise_cons.2 ⟨fun p hp => by have := h.1 p hp; simp_all, h.2⟩
      · refine List.pairwise_cons.2 ⟨fun p hp => ?_, ih h.2⟩
        rcases mem_insert hp with rfl | h'
        · simp only; omega
        · exact h.1 p h'

theorem sorted_filter {t : Table α} (f : Nat × α → Bool) (h : sorted t = true) :
    sorted (t.filter f) = true := by
  rw [sorted_iff] at *; exact h.filter f

theorem sorted_erase {t : Table α} (k : Nat) (h : sorted t = true) : sorted (erase t k) = true :=
  sorted_filter _ h

theorem sorted_map {β : Type} {t : Table α} (f : Nat × α → β) (h : sorted t = true) :
    sorted (t.map (fun p => (p.1, f p))) = true := by
  rw [sorted_iff] at *; rw [List.pairwise_map]; exact h

theorem wf_put [DecidableEq α] {d : Nat → α} {t : Table α} (k : Nat) (v : α)
    (h : wf d t = true) : wf d (put (d k) t k v) = true := by
  simp only [wf, Bool.and_eq_true, List.all_eq_true, decide_eq_true_eq] at *
  unfold put
  split
  · exact ⟨sorted_erase k h.1, fun p hp => h.2 p (List.mem_of_mem_filter hp)⟩
  · rename_i hv
    refine ⟨sorted_insert k v h.1, fun p hp => ?_⟩
    rcases mem_insert hp with rfl | h'
    · exact hv
    · exact h.2 p h'

theorem wf_mapPut [DecidableEq α] {d : α} {t : Table α} (f : α → α)
    (h : wf (fun _ => d) t = true) : wf (fun _ => d) (mapPut d f t) = true := by
  simp only [wf, Bool.and_eq_true, List.all_eq_true, decide_eq_true_eq] at *
  refine ⟨sorted_filter _ (sorted_map (fun p => f p.2) h.1), fun p hp => ?_⟩
  have := (List.mem_filter.1 hp).2
  simpa using this

theorem wf_filter [DecidableEq α] {d : Nat → α} {t : Table α} (f : Nat × α → Bool)
    (h : wf d t = true) : wf d (t.filter f) = true := by
  simp only [wf, Bool.and_eq_true, List.all_eq_true, decide_eq_true_eq] at *
  exact ⟨sorted_filter f h.1, fun p hp => h.2 p (List.mem_of_mem_filter hp)⟩

theorem wf_erase [DecidableEq α] {d : Nat → α} {t : Table α} (k : Nat) (h : wf d t = true) :
    wf d (erase t k) = true := wf_filter _ h

/-! ### Lookup and membership -/

/-- A record found in a table is listed in it. -/
theorem mem_of_find? {t : Table α} {k : Nat} {v : α} (h : find? t k = some v) : (k, v) ∈ t := by
  induction t with
  | nil => simp at h
  | cons p t ih =>
    rw [find?_cons] at h
    split at h
    · rename_i hk; cases h; subst hk; simp
    · exact List.mem_cons_of_mem _ (ih h)

/-- In a table whose numbers rise, a listed record is the one found. -/
theorem find?_of_mem {t : Table α} {k : Nat} {v : α} (hs : sorted t = true)
    (h : (k, v) ∈ t) : find? t k = some v := by
  rw [sorted_iff] at hs
  induction t with
  | nil => simp at h
  | cons p t ih =>
    rw [List.pairwise_cons] at hs
    rw [find?_cons]
    rcases List.mem_cons.1 h with h | h
    · subst h; simp
    · rw [if_neg (Nat.ne_of_lt (hs.1 _ h))]
      exact ih hs.2 h

/-! ### Counting over a table -/

theorem erase_of_find?_none {t : Table α} {k : Nat} (h : find? t k = none) : erase t k = t := by
  induction t with
  | nil => rfl
  | cons p t ih =>
    rw [find?_cons] at h
    split at h
    · cases h
    · rename_i hk
      have h1 : erase (p :: t) k = p :: erase t k := by simp [erase, hk]
      rw [h1, ih h]

theorem erase_cons_self (t : Table α) (k : Nat) (v : α) : erase ((k, v) :: t) k = erase t k := by
  simp [erase]

theorem erase_cons_ne {t : Table α} {k : Nat} {p : Nat × α} (h : p.1 ≠ k) :
    erase (p :: t) k = p :: erase t k := by simp [erase, h]

/-- Listing a record leaves the others as they were. -/
theorem insert_perm {t : Table α} (k : Nat) (v : α) (hs : sorted t = true) :
    (insert t k v).Perm ((k, v) :: erase t k) := by
  rw [sorted_iff] at hs
  induction t with
  | nil => simp [insert, erase]
  | cons p t ih =>
    rw [List.pairwise_cons] at hs
    simp only [insert]
    split
    · rename_i hlt
      have h1 : find? (p :: t) k = none := by
        cases hf : find? (p :: t) k with
        | none => rfl
        | some w =>
          rcases List.mem_cons.1 (mem_of_find? hf) with h | h
          · rw [← h] at hlt; exact absurd hlt (lt_irrefl _)
          · exact absurd (hs.1 _ h) (by simp only; omega)
      rw [erase_of_find?_none h1]
    · split
      · rename_i heq
        have h1 : find? t k = none := by
          cases hf : find? t k with
          | none => rfl
          | some w => exact absurd (hs.1 _ (mem_of_find? hf)) (by simp only; omega)
        obtain ⟨j, w⟩ := p
        cases heq
        rw [erase_cons_self, erase_of_find?_none h1]
      · rename_i hne
        rw [erase_cons_ne hne]
        exact ((ih hs.2).cons p).trans (List.Perm.swap _ _ _)

/-- A table is the record of one number and the others. -/
theorem find?_perm {t : Table α} {k : Nat} {v : α} (hs : sorted t = true) (h : find? t k = some v) :
    t.Perm ((k, v) :: erase t k) := by
  rw [sorted_iff] at hs
  induction t with
  | nil => simp at h
  | cons p t ih =>
    rw [List.pairwise_cons] at hs
    rw [find?_cons] at h
    obtain ⟨j, w⟩ := p
    by_cases hj : j = k
    · subst hj
      rw [if_pos rfl] at h
      cases h
      have h1 : find? t j = none := by
        cases hf : find? t j with
        | none => rfl
        | some w => exact absurd (hs.1 _ (mem_of_find? hf)) (lt_irrefl _)
      rw [erase_cons_self, erase_of_find?_none h1]
    · rw [if_neg hj] at h
      rw [erase_cons_ne hj]
      exact ((ih hs.2 h).cons _).trans (List.Perm.swap _ _ _)

/-- Two tables in which the numbers rise are the same when they list the same records. -/
theorem ext_find? {t u : Table α} (ht : sorted t = true) (hu : sorted u = true)
    (h : ∀ k, find? t k = find? u k) : t = u := by
  have hp : ∀ {t u : Table α}, sorted t = true → sorted u = true → (∀ k, find? t k = find? u k) →
      ∀ p ∈ t, p ∈ u := by
    intro t u ht _ h p hp
    have h1 := find?_of_mem ht (k := p.1) (v := p.2) hp
    rw [h] at h1
    exact mem_of_find? h1
  have nd : ∀ {t : Table α}, sorted t = true → t.Nodup := by
    intro t ht
    rw [sorted_iff] at ht
    exact ht.imp (fun {a b} hab he => by subst he; exact absurd hab (lt_irrefl _))
  refine List.Perm.eq_of_pairwise (le := fun p q => p.1 < q.1) ?_
    ((sorted_iff _).1 ht) ((sorted_iff _).1 hu)
    ((List.perm_ext_iff_of_nodup (nd ht) (nd hu)).2 fun p =>
      ⟨hp ht hu h p, hp hu ht (fun k => (h k).symm) p⟩)
  intro a b _ _ h1 h2
  exact absurd (lt_trans h1 h2) (lt_irrefl _)

theorem find?_map {β : Type} (f : Nat → α → β) (t : Table α) (k : Nat) :
    find? (t.map (fun p => (p.1, f p.1 p.2))) k = (find? t k).map (f k) := by
  induction t with
  | nil => rfl
  | cons p t ih =>
    rw [List.map_cons, find?_cons, find?_cons, ih]
    split
    · rename_i h; simp only at h; rw [h]; rfl
    · rfl

/-- Replacing a record changes a count by what the two records count for. -/
theorem countP_insert {t : Table α} {k : Nat} {old : α} (v : α) (p : Nat × α → Bool)
    (hs : sorted t = true) (h : find? t k = some old) :
    (insert t k v).countP p + (if p (k, old) then 1 else 0) =
      t.countP p + (if p (k, v) then 1 else 0) := by
  rw [(insert_perm k v hs).countP_eq, (find?_perm hs h).countP_eq, List.countP_cons, List.countP_cons]
  omega

theorem countP_insert_new {t : Table α} {k : Nat} (v : α) (p : Nat × α → Bool)
    (hs : sorted t = true) (h : find? t k = none) :
    (insert t k v).countP p = t.countP p + (if p (k, v) then 1 else 0) := by
  rw [(insert_perm k v hs).countP_eq, erase_of_find?_none h, List.countP_cons]

theorem countP_erase {t : Table α} {k : Nat} {old : α} (p : Nat × α → Bool)
    (hs : sorted t = true) (h : find? t k = some old) :
    (erase t k).countP p + (if p (k, old) then 1 else 0) = t.countP p := by
  rw [(find?_perm hs h).countP_eq, List.countP_cons]

/-- Listing a record under a number of its own adds its share to a sum, and erasing one takes it away. -/
theorem sum_insert_new {t : Table α} {k : Nat} (v : α) (f : Nat × α → Nat) (hs : sorted t = true)
    (h : find? t k = none) : ((insert t k v).map f).sum = f (k, v) + (t.map f).sum := by
  rw [((insert_perm k v hs).map f).sum_nat, erase_of_find?_none h, List.map_cons, List.sum_cons]

theorem sum_erase {t : Table α} {k : Nat} {old : α} (f : Nat × α → Nat) (hs : sorted t = true)
    (h : find? t k = some old) : f (k, old) + ((erase t k).map f).sum = (t.map f).sum := by
  rw [((find?_perm hs h).map f).sum_nat, List.map_cons, List.sum_cons]

end Sys2Proof.Table
end

