-- ==== Sys2Proof/Laws/State.lean ====
section
/-! SUPPORT. What each update of the state leaves as it was, field by field and record by record, and what
reading a record back after a write gives. Each theorem of the first part is one simp rule per field. -/

namespace Sys2Proof.Machine.State

variable (s : State)

/-! ### What an update leaves as it was -/

@[simp] theorem setRule_fields (r : Nat) (v : Rule) :
    (s.setRule r v).pending = s.pending ∧ (s.setRule r v).idles = s.idles ∧
    (s.setRule r v).now = s.now ∧ (s.setRule r v).resetAsserted = s.resetAsserted ∧
    (s.setRule r v).pfailAsserted = s.pfailAsserted ∧ (s.setRule r v).safe = s.safe ∧
    (s.setRule r v).alert = s.alert ∧ (s.setRule r v).part = s.part ∧
    (s.setRule r v).scrubbing = s.scrubbing ∧ (s.setRule r v).scrubbed = s.scrubbed ∧
    (s.setRule r v).cfg = s.cfg ∧ (s.setRule r v).drains = s.drains ∧
    (s.setRule r v).tenants = s.tenants ∧ (s.setRule r v).reclaimMap = s.reclaimMap ∧
    (s.setRule r v).captures = s.captures ∧ (s.setRule r v).refusals = s.refusals ∧
    (s.setRule r v).accounts = s.accounts ∧ (s.setRule r v).free = s.free ∧
    (s.setRule r v).grants = s.grants ∧ (s.setRule r v).waiting = s.waiting ∧
    (s.setRule r v).frames = s.frames ∧ (s.setRule r v).freed = s.freed ∧
    (s.setRule r v).nextSeq = s.nextSeq ∧ (s.setRule r v).corrected = s.corrected ∧
    (s.setRule r v).uncorrectable = s.uncorrectable ∧ (s.setRule r v).sets = s.sets ∧
    (s.setRule r v).streams = s.streams ∧ (s.setRule r v).units = s.units ∧
    (s.setRule r v).stagedCounter = s.stagedCounter ∧ (s.setRule r v).slots = s.slots ∧
    (s.setRule r v).wheelPos = s.wheelPos ∧ (s.setRule r v).nextVisit = s.nextVisit ∧
    (s.setRule r v).lanes = s.lanes ∧ (s.setRule r v).faultList = s.faultList ∧
    (s.setRule r v).reportQueue = s.reportQueue ∧ (s.setRule r v).delivered = s.delivered ∧
    (s.setRule r v).flushes = s.flushes ∧ (s.setRule r v).flushOrder = s.flushOrder ∧
    (s.setRule r v).entryState = s.entryState ∧ (s.setRule r v).entryTime = s.entryTime ∧
    (s.setRule r v).drainCount = s.drainCount ∧ (s.setRule r v).events = s.events ∧
    (s.setRule r v).links = s.links :=
  ⟨rfl, rfl, rfl, rfl, rfl, rfl, rfl, rfl, rfl, rfl, rfl, rfl, rfl, rfl, rfl, rfl, rfl, rfl, rfl,
    rfl, rfl, rfl, rfl, rfl, rfl, rfl, rfl, rfl, rfl, rfl, rfl, rfl, rfl, rfl, rfl, rfl, rfl, rfl,
    rfl, rfl, rfl, rfl, rfl⟩

@[simp] theorem setTenant_fields (t : Nat) (v : Tenant) :
    (s.setTenant t v).pending = s.pending ∧ (s.setTenant t v).idles = s.idles ∧
    (s.setTenant t v).now = s.now ∧ (s.setTenant t v).resetAsserted = s.resetAsserted ∧
    (s.setTenant t v).pfailAsserted = s.pfailAsserted ∧ (s.setTenant t v).safe = s.safe ∧
    (s.setTenant t v).alert = s.alert ∧ (s.setTenant t v).part = s.part ∧
    (s.setTenant t v).scrubbing = s.scrubbing ∧ (s.setTenant t v).scrubbed = s.scrubbed ∧
    (s.setTenant t v).cfg = s.cfg ∧ (s.setTenant t v).drains = s.drains ∧
    (s.setTenant t v).rules = s.rules ∧ (s.setTenant t v).reclaimMap = s.reclaimMap ∧
    (s.setTenant t v).captures = s.captures ∧ (s.setTenant t v).refusals = s.refusals ∧
    (s.setTenant t v).accounts = s.accounts ∧ (s.setTenant t v).free = s.free ∧
    (s.setTenant t v).grants = s.grants ∧ (s.setTenant t v).waiting = s.waiting ∧
    (s.setTenant t v).frames = s.frames ∧ (s.setTenant t v).freed = s.freed ∧
    (s.setTenant t v).nextSeq = s.nextSeq ∧ (s.setTenant t v).corrected = s.corrected ∧
    (s.setTenant t v).uncorrectable = s.uncorrectable ∧ (s.setTenant t v).sets = s.sets ∧
    (s.setTenant t v).streams = s.streams ∧ (s.setTenant t v).units = s.units ∧
    (s.setTenant t v).stagedCounter = s.stagedCounter ∧ (s.setTenant t v).slots = s.slots ∧
    (s.setTenant t v).wheelPos = s.wheelPos ∧ (s.setTenant t v).nextVisit = s.nextVisit ∧
    (s.setTenant t v).lanes = s.lanes ∧ (s.setTenant t v).faultList = s.faultList ∧
    (s.setTenant t v).reportQueue = s.reportQueue ∧ (s.setTenant t v).delivered = s.delivered ∧
    (s.setTenant t v).flushes = s.flushes ∧ (s.setTenant t v).flushOrder = s.flushOrder ∧
    (s.setTenant t v).entryState = s.entryState ∧ (s.setTenant t v).entryTime = s.entryTime ∧
    (s.setTenant t v).drainCount = s.drainCount ∧ (s.setTenant t v).events = s.events ∧
    (s.setTenant t v).links = s.links :=
  ⟨rfl, rfl, rfl, rfl, rfl, rfl, rfl, rfl, rfl, rfl, rfl, rfl, rfl, rfl, rfl, rfl, rfl, rfl, rfl,
    rfl, rfl, rfl, rfl, rfl, rfl, rfl, rfl, rfl, rfl, rfl, rfl, rfl, rfl, rfl, rfl, rfl, rfl, rfl,
    rfl, rfl, rfl, rfl, rfl⟩

@[simp] theorem setAccount_fields (a : Nat) (v : Account) :
    (s.setAccount a v).pending = s.pending ∧ (s.setAccount a v).idles = s.idles ∧
    (s.setAccount a v).now = s.now ∧ (s.setAccount a v).resetAsserted = s.resetAsserted ∧
    (s.setAccount a v).pfailAsserted = s.pfailAsserted ∧ (s.setAccount a v).safe = s.safe ∧
    (s.setAccount a v).alert = s.alert ∧ (s.setAccount a v).part = s.part ∧
    (s.setAccount a v).scrubbing = s.scrubbing ∧ (s.setAccount a v).scrubbed = s.scrubbed ∧
    (s.setAccount a v).cfg = s.cfg ∧ (s.setAccount a v).drains = s.drains ∧
    (s.setAccount a v).rules = s.rules ∧ (s.setAccount a v).tenants = s.tenants ∧
    (s.setAccount a v).reclaimMap = s.reclaimMap ∧ (s.setAccount a v).captures = s.captures ∧
    (s.setAccount a v).refusals = s.refusals ∧ (s.setAccount a v).free = s.free ∧
    (s.setAccount a v).grants = s.grants ∧ (s.setAccount a v).waiting = s.waiting ∧
    (s.setAccount a v).frames = s.frames ∧ (s.setAccount a v).freed = s.freed ∧
    (s.setAccount a v).nextSeq = s.nextSeq ∧ (s.setAccount a v).corrected = s.corrected ∧
    (s.setAccount a v).uncorrectable = s.uncorrectable ∧ (s.setAccount a v).sets = s.sets ∧
    (s.setAccount a v).streams = s.streams ∧ (s.setAccount a v).units = s.units ∧
    (s.setAccount a v).stagedCounter = s.stagedCounter ∧ (s.setAccount a v).slots = s.slots ∧
    (s.setAccount a v).wheelPos = s.wheelPos ∧ (s.setAccount a v).nextVisit = s.nextVisit ∧
    (s.setAccount a v).lanes = s.lanes ∧ (s.setAccount a v).faultList = s.faultList ∧
    (s.setAccount a v).reportQueue = s.reportQueue ∧ (s.setAccount a v).delivered = s.delivered ∧
    (s.setAccount a v).flushes = s.flushes ∧ (s.setAccount a v).flushOrder = s.flushOrder ∧
    (s.setAccount a v).entryState = s.entryState ∧ (s.setAccount a v).entryTime = s.entryTime ∧
    (s.setAccount a v).drainCount = s.drainCount ∧ (s.setAccount a v).events = s.events ∧
    (s.setAccount a v).links = s.links :=
  ⟨rfl, rfl, rfl, rfl, rfl, rfl, rfl, rfl, rfl, rfl, rfl, rfl, rfl, rfl, rfl, rfl, rfl, rfl, rfl,
    rfl, rfl, rfl, rfl, rfl, rfl, rfl, rfl, rfl, rfl, rfl, rfl, rfl, rfl, rfl, rfl, rfl, rfl, rfl,
    rfl, rfl, rfl, rfl, rfl⟩

@[simp] theorem setGrant_fields (g : Nat) (v : Grant) :
    (s.setGrant g v).pending = s.pending ∧ (s.setGrant g v).idles = s.idles ∧
    (s.setGrant g v).now = s.now ∧ (s.setGrant g v).resetAsserted = s.resetAsserted ∧
    (s.setGrant g v).pfailAsserted = s.pfailAsserted ∧ (s.setGrant g v).safe = s.safe ∧
    (s.setGrant g v).alert = s.alert ∧ (s.setGrant g v).part = s.part ∧
    (s.setGrant g v).scrubbing = s.scrubbing ∧ (s.setGrant g v).scrubbed = s.scrubbed ∧
    (s.setGrant g v).cfg = s.cfg ∧ (s.setGrant g v).drains = s.drains ∧
    (s.setGrant g v).rules = s.rules ∧ (s.setGrant g v).tenants = s.tenants ∧
    (s.setGrant g v).reclaimMap = s.reclaimMap ∧ (s.setGrant g v).captures = s.captures ∧
    (s.setGrant g v).refusals = s.refusals ∧ (s.setGrant g v).accounts = s.accounts ∧
    (s.setGrant g v).free = s.free ∧ (s.setGrant g v).waiting = s.waiting ∧
    (s.setGrant g v).frames = s.frames ∧ (s.setGrant g v).freed = s.freed ∧
    (s.setGrant g v).nextSeq = s.nextSeq ∧ (s.setGrant g v).corrected = s.corrected ∧
    (s.setGrant g v).uncorrectable = s.uncorrectable ∧ (s.setGrant g v).sets = s.sets ∧
    (s.setGrant g v).streams = s.streams ∧ (s.setGrant g v).units = s.units ∧
    (s.setGrant g v).stagedCounter = s.stagedCounter ∧ (s.setGrant g v).slots = s.slots ∧
    (s.setGrant g v).wheelPos = s.wheelPos ∧ (s.setGrant g v).nextVisit = s.nextVisit ∧
    (s.setGrant g v).lanes = s.lanes ∧ (s.setGrant g v).faultList = s.faultList ∧
    (s.setGrant g v).reportQueue = s.reportQueue ∧ (s.setGrant g v).delivered = s.delivered ∧
    (s.setGrant g v).flushes = s.flushes ∧ (s.setGrant g v).flushOrder = s.flushOrder ∧
    (s.setGrant g v).entryState = s.entryState ∧ (s.setGrant g v).entryTime = s.entryTime ∧
    (s.setGrant g v).drainCount = s.drainCount ∧ (s.setGrant g v).events = s.events ∧
    (s.setGrant g v).links = s.links :=
  ⟨rfl, rfl, rfl, rfl, rfl, rfl, rfl, rfl, rfl, rfl, rfl, rfl, rfl, rfl, rfl, rfl, rfl, rfl, rfl,
    rfl, rfl, rfl, rfl, rfl, rfl, rfl, rfl, rfl, rfl, rfl, rfl, rfl, rfl, rfl, rfl, rfl, rfl, rfl,
    rfl, rfl, rfl, rfl, rfl⟩

@[simp] theorem clearGrant_fields (g : Nat) :
    (s.clearGrant g).pending = s.pending ∧ (s.clearGrant g).idles = s.idles ∧
    (s.clearGrant g).now = s.now ∧ (s.clearGrant g).resetAsserted = s.resetAsserted ∧
    (s.clearGrant g).pfailAsserted = s.pfailAsserted ∧ (s.clearGrant g).safe = s.safe ∧
    (s.clearGrant g).alert = s.alert ∧ (s.clearGrant g).part = s.part ∧
    (s.clearGrant g).scrubbing = s.scrubbing ∧ (s.clearGrant g).scrubbed = s.scrubbed ∧
    (s.clearGrant g).cfg = s.cfg ∧ (s.clearGrant g).drains = s.drains ∧
    (s.clearGrant g).rules = s.rules ∧ (s.clearGrant g).tenants = s.tenants ∧
    (s.clearGrant g).reclaimMap = s.reclaimMap ∧ (s.clearGrant g).captures = s.captures ∧
    (s.clearGrant g).refusals = s.refusals ∧ (s.clearGrant g).accounts = s.accounts ∧
    (s.clearGrant g).free = s.free ∧ (s.clearGrant g).waiting = s.waiting ∧
    (s.clearGrant g).frames = s.frames ∧ (s.clearGrant g).freed = s.freed ∧
    (s.clearGrant g).nextSeq = s.nextSeq ∧ (s.clearGrant g).corrected = s.corrected ∧
    (s.clearGrant g).uncorrectable = s.uncorrectable ∧ (s.clearGrant g).sets = s.sets ∧
    (s.clearGrant g).streams = s.streams ∧ (s.clearGrant g).units = s.units ∧
    (s.clearGrant g).stagedCounter = s.stagedCounter ∧ (s.clearGrant g).slots = s.slots ∧
    (s.clearGrant g).wheelPos = s.wheelPos ∧ (s.clearGrant g).nextVisit = s.nextVisit ∧
    (s.clearGrant g).lanes = s.lanes ∧ (s.clearGrant g).faultList = s.faultList ∧
    (s.clearGrant g).reportQueue = s.reportQueue ∧ (s.clearGrant g).delivered = s.delivered ∧
    (s.clearGrant g).flushes = s.flushes ∧ (s.clearGrant g).flushOrder = s.flushOrder ∧
    (s.clearGrant g).entryState = s.entryState ∧ (s.clearGrant g).entryTime = s.entryTime ∧
    (s.clearGrant g).drainCount = s.drainCount ∧ (s.clearGrant g).events = s.events ∧
    (s.clearGrant g).links = s.links :=
  ⟨rfl, rfl, rfl, rfl, rfl, rfl, rfl, rfl, rfl, rfl, rfl, rfl, rfl, rfl, rfl, rfl, rfl, rfl, rfl,
    rfl, rfl, rfl, rfl, rfl, rfl, rfl, rfl, rfl, rfl, rfl, rfl, rfl, rfl, rfl, rfl, rfl, rfl, rfl,
    rfl, rfl, rfl, rfl, rfl⟩

@[simp] theorem setFrame_fields (f : Nat) (v : Frame) :
    (s.setFrame f v).pending = s.pending ∧ (s.setFrame f v).idles = s.idles ∧
    (s.setFrame f v).now = s.now ∧ (s.setFrame f v).resetAsserted = s.resetAsserted ∧
    (s.setFrame f v).pfailAsserted = s.pfailAsserted ∧ (s.setFrame f v).safe = s.safe ∧
    (s.setFrame f v).alert = s.alert ∧ (s.setFrame f v).part = s.part ∧
    (s.setFrame f v).scrubbing = s.scrubbing ∧ (s.setFrame f v).scrubbed = s.scrubbed ∧
    (s.setFrame f v).cfg = s.cfg ∧ (s.setFrame f v).drains = s.drains ∧
    (s.setFrame f v).rules = s.rules ∧ (s.setFrame f v).tenants = s.tenants ∧
    (s.setFrame f v).reclaimMap = s.reclaimMap ∧ (s.setFrame f v).captures = s.captures ∧
    (s.setFrame f v).refusals = s.refusals ∧ (s.setFrame f v).accounts = s.accounts ∧
    (s.setFrame f v).free = s.free ∧ (s.setFrame f v).grants = s.grants ∧
    (s.setFrame f v).waiting = s.waiting ∧ (s.setFrame f v).freed = s.freed ∧
    (s.setFrame f v).nextSeq = s.nextSeq ∧ (s.setFrame f v).corrected = s.corrected ∧
    (s.setFrame f v).uncorrectable = s.uncorrectable ∧ (s.setFrame f v).sets = s.sets ∧
    (s.setFrame f v).streams = s.streams ∧ (s.setFrame f v).units = s.units ∧
    (s.setFrame f v).stagedCounter = s.stagedCounter ∧ (s.setFrame f v).slots = s.slots ∧
    (s.setFrame f v).wheelPos = s.wheelPos ∧ (s.setFrame f v).nextVisit = s.nextVisit ∧
    (s.setFrame f v).lanes = s.lanes ∧ (s.setFrame f v).faultList = s.faultList ∧
    (s.setFrame f v).reportQueue = s.reportQueue ∧ (s.setFrame f v).delivered = s.delivered ∧
    (s.setFrame f v).flushes = s.flushes ∧ (s.setFrame f v).flushOrder = s.flushOrder ∧
    (s.setFrame f v).entryState = s.entryState ∧ (s.setFrame f v).entryTime = s.entryTime ∧
    (s.setFrame f v).drainCount = s.drainCount ∧ (s.setFrame f v).events = s.events ∧
    (s.setFrame f v).links = s.links :=
  ⟨rfl, rfl, rfl, rfl, rfl, rfl, rfl, rfl, rfl, rfl, rfl, rfl, rfl, rfl, rfl, rfl, rfl, rfl, rfl,
    rfl, rfl, rfl, rfl, rfl, rfl, rfl, rfl, rfl, rfl, rfl, rfl, rfl, rfl, rfl, rfl, rfl, rfl, rfl,
    rfl, rfl, rfl, rfl, rfl⟩

@[simp] theorem clearFrame_fields (f : Nat) :
    (s.clearFrame f).pending = s.pending ∧ (s.clearFrame f).idles = s.idles ∧
    (s.clearFrame f).now = s.now ∧ (s.clearFrame f).resetAsserted = s.resetAsserted ∧
    (s.clearFrame f).pfailAsserted = s.pfailAsserted ∧ (s.clearFrame f).safe = s.safe ∧
    (s.clearFrame f).alert = s.alert ∧ (s.clearFrame f).part = s.part ∧
    (s.clearFrame f).scrubbing = s.scrubbing ∧ (s.clearFrame f).scrubbed = s.scrubbed ∧
    (s.clearFrame f).cfg = s.cfg ∧ (s.clearFrame f).drains = s.drains ∧
    (s.clearFrame f).rules = s.rules ∧ (s.clearFrame f).tenants = s.tenants ∧
    (s.clearFrame f).reclaimMap = s.reclaimMap ∧ (s.clearFrame f).captures = s.captures ∧
    (s.clearFrame f).refusals = s.refusals ∧ (s.clearFrame f).accounts = s.accounts ∧
    (s.clearFrame f).free = s.free ∧ (s.clearFrame f).grants = s.grants ∧
    (s.clearFrame f).waiting = s.waiting ∧ (s.clearFrame f).freed = s.freed ∧
    (s.clearFrame f).nextSeq = s.nextSeq ∧ (s.clearFrame f).corrected = s.corrected ∧
    (s.clearFrame f).uncorrectable = s.uncorrectable ∧ (s.clearFrame f).sets = s.sets ∧
    (s.clearFrame f).streams = s.streams ∧ (s.clearFrame f).units = s.units ∧
    (s.clearFrame f).stagedCounter = s.stagedCounter ∧ (s.clearFrame f).slots = s.slots ∧
    (s.clearFrame f).wheelPos = s.wheelPos ∧ (s.clearFrame f).nextVisit = s.nextVisit ∧
    (s.clearFrame f).lanes = s.lanes ∧ (s.clearFrame f).faultList = s.faultList ∧
    (s.clearFrame f).reportQueue = s.reportQueue ∧ (s.clearFrame f).delivered = s.delivered ∧
    (s.clearFrame f).flushes = s.flushes ∧ (s.clearFrame f).flushOrder = s.flushOrder ∧
    (s.clearFrame f).entryState = s.entryState ∧ (s.clearFrame f).entryTime = s.entryTime ∧
    (s.clearFrame f).drainCount = s.drainCount ∧ (s.clearFrame f).events = s.events ∧
    (s.clearFrame f).links = s.links :=
  ⟨rfl, rfl, rfl, rfl, rfl, rfl, rfl, rfl, rfl, rfl, rfl, rfl, rfl, rfl, rfl, rfl, rfl, rfl, rfl,
    rfl, rfl, rfl, rfl, rfl, rfl, rfl, rfl, rfl, rfl, rfl, rfl, rfl, rfl, rfl, rfl, rfl, rfl, rfl,
    rfl, rfl, rfl, rfl, rfl⟩

@[simp] theorem setIndexSet_fields (x : Nat) (v : IndexSet) :
    (s.setIndexSet x v).pending = s.pending ∧ (s.setIndexSet x v).idles = s.idles ∧
    (s.setIndexSet x v).now = s.now ∧ (s.setIndexSet x v).resetAsserted = s.resetAsserted ∧
    (s.setIndexSet x v).pfailAsserted = s.pfailAsserted ∧ (s.setIndexSet x v).safe = s.safe ∧
    (s.setIndexSet x v).alert = s.alert ∧ (s.setIndexSet x v).part = s.part ∧
    (s.setIndexSet x v).scrubbing = s.scrubbing ∧ (s.setIndexSet x v).scrubbed = s.scrubbed ∧
    (s.setIndexSet x v).cfg = s.cfg ∧ (s.setIndexSet x v).drains = s.drains ∧
    (s.setIndexSet x v).rules = s.rules ∧ (s.setIndexSet x v).tenants = s.tenants ∧
    (s.setIndexSet x v).reclaimMap = s.reclaimMap ∧ (s.setIndexSet x v).captures = s.captures ∧
    (s.setIndexSet x v).refusals = s.refusals ∧ (s.setIndexSet x v).accounts = s.accounts ∧
    (s.setIndexSet x v).free = s.free ∧ (s.setIndexSet x v).grants = s.grants ∧
    (s.setIndexSet x v).waiting = s.waiting ∧ (s.setIndexSet x v).frames = s.frames ∧
    (s.setIndexSet x v).freed = s.freed ∧ (s.setIndexSet x v).nextSeq = s.nextSeq ∧
    (s.setIndexSet x v).corrected = s.corrected ∧
    (s.setIndexSet x v).uncorrectable = s.uncorrectable ∧ (s.setIndexSet x v).streams = s.streams ∧
    (s.setIndexSet x v).units = s.units ∧ (s.setIndexSet x v).stagedCounter = s.stagedCounter ∧
    (s.setIndexSet x v).slots = s.slots ∧ (s.setIndexSet x v).wheelPos = s.wheelPos ∧
    (s.setIndexSet x v).nextVisit = s.nextVisit ∧ (s.setIndexSet x v).lanes = s.lanes ∧
    (s.setIndexSet x v).faultList = s.faultList ∧ (s.setIndexSet x v).reportQueue = s.reportQueue ∧
    (s.setIndexSet x v).delivered = s.delivered ∧ (s.setIndexSet x v).flushes = s.flushes ∧
    (s.setIndexSet x v).flushOrder = s.flushOrder ∧ (s.setIndexSet x v).entryState = s.entryState ∧
    (s.setIndexSet x v).entryTime = s.entryTime ∧ (s.setIndexSet x v).drainCount = s.drainCount ∧
    (s.setIndexSet x v).events = s.events ∧ (s.setIndexSet x v).links = s.links :=
  ⟨rfl, rfl, rfl, rfl, rfl, rfl, rfl, rfl, rfl, rfl, rfl, rfl, rfl, rfl, rfl, rfl, rfl, rfl, rfl,
    rfl, rfl, rfl, rfl, rfl, rfl, rfl, rfl, rfl, rfl, rfl, rfl, rfl, rfl, rfl, rfl, rfl, rfl, rfl,
    rfl, rfl, rfl, rfl, rfl⟩

@[simp] theorem setStream_fields (k : Nat) (v : Stream) :
    (s.setStream k v).pending = s.pending ∧ (s.setStream k v).idles = s.idles ∧
    (s.setStream k v).now = s.now ∧ (s.setStream k v).resetAsserted = s.resetAsserted ∧
    (s.setStream k v).pfailAsserted = s.pfailAsserted ∧ (s.setStream k v).safe = s.safe ∧
    (s.setStream k v).alert = s.alert ∧ (s.setStream k v).part = s.part ∧
    (s.setStream k v).scrubbing = s.scrubbing ∧ (s.setStream k v).scrubbed = s.scrubbed ∧
    (s.setStream k v).cfg = s.cfg ∧ (s.setStream k v).drains = s.drains ∧
    (s.setStream k v).rules = s.rules ∧ (s.setStream k v).tenants = s.tenants ∧
    (s.setStream k v).reclaimMap = s.reclaimMap ∧ (s.setStream k v).captures = s.captures ∧
    (s.setStream k v).refusals = s.refusals ∧ (s.setStream k v).accounts = s.accounts ∧
    (s.setStream k v).free = s.free ∧ (s.setStream k v).grants = s.grants ∧
    (s.setStream k v).waiting = s.waiting ∧ (s.setStream k v).frames = s.frames ∧
    (s.setStream k v).freed = s.freed ∧ (s.setStream k v).nextSeq = s.nextSeq ∧
    (s.setStream k v).corrected = s.corrected ∧ (s.setStream k v).uncorrectable = s.uncorrectable ∧
    (s.setStream k v).sets = s.sets ∧ (s.setStream k v).units = s.units ∧
    (s.setStream k v).stagedCounter = s.stagedCounter ∧ (s.setStream k v).slots = s.slots ∧
    (s.setStream k v).wheelPos = s.wheelPos ∧ (s.setStream k v).nextVisit = s.nextVisit ∧
    (s.setStream k v).lanes = s.lanes ∧ (s.setStream k v).faultList = s.faultList ∧
    (s.setStream k v).reportQueue = s.reportQueue ∧ (s.setStream k v).delivered = s.delivered ∧
    (s.setStream k v).flushes = s.flushes ∧ (s.setStream k v).flushOrder = s.flushOrder ∧
    (s.setStream k v).entryState = s.entryState ∧ (s.setStream k v).entryTime = s.entryTime ∧
    (s.setStream k v).drainCount = s.drainCount ∧ (s.setStream k v).events = s.events ∧
    (s.setStream k v).links = s.links :=
  ⟨rfl, rfl, rfl, rfl, rfl, rfl, rfl, rfl, rfl, rfl, rfl, rfl, rfl, rfl, rfl, rfl, rfl, rfl, rfl,
    rfl, rfl, rfl, rfl, rfl, rfl, rfl, rfl, rfl, rfl, rfl, rfl, rfl, rfl, rfl, rfl, rfl, rfl, rfl,
    rfl, rfl, rfl, rfl, rfl⟩

@[simp] theorem setUnit_fields (v : Nat) (u : UnitRecord) :
    (s.setUnit v u).pending = s.pending ∧ (s.setUnit v u).idles = s.idles ∧
    (s.setUnit v u).now = s.now ∧ (s.setUnit v u).resetAsserted = s.resetAsserted ∧
    (s.setUnit v u).pfailAsserted = s.pfailAsserted ∧ (s.setUnit v u).safe = s.safe ∧
    (s.setUnit v u).alert = s.alert ∧ (s.setUnit v u).part = s.part ∧
    (s.setUnit v u).scrubbing = s.scrubbing ∧ (s.setUnit v u).scrubbed = s.scrubbed ∧
    (s.setUnit v u).cfg = s.cfg ∧ (s.setUnit v u).drains = s.drains ∧
    (s.setUnit v u).rules = s.rules ∧ (s.setUnit v u).tenants = s.tenants ∧
    (s.setUnit v u).reclaimMap = s.reclaimMap ∧ (s.setUnit v u).captures = s.captures ∧
    (s.setUnit v u).refusals = s.refusals ∧ (s.setUnit v u).accounts = s.accounts ∧
    (s.setUnit v u).free = s.free ∧ (s.setUnit v u).grants = s.grants ∧
    (s.setUnit v u).waiting = s.waiting ∧ (s.setUnit v u).frames = s.frames ∧
    (s.setUnit v u).freed = s.freed ∧ (s.setUnit v u).nextSeq = s.nextSeq ∧
    (s.setUnit v u).corrected = s.corrected ∧ (s.setUnit v u).uncorrectable = s.uncorrectable ∧
    (s.setUnit v u).sets = s.sets ∧ (s.setUnit v u).streams = s.streams ∧
    (s.setUnit v u).stagedCounter = s.stagedCounter ∧ (s.setUnit v u).slots = s.slots ∧
    (s.setUnit v u).wheelPos = s.wheelPos ∧ (s.setUnit v u).nextVisit = s.nextVisit ∧
    (s.setUnit v u).lanes = s.lanes ∧ (s.setUnit v u).faultList = s.faultList ∧
    (s.setUnit v u).reportQueue = s.reportQueue ∧ (s.setUnit v u).delivered = s.delivered ∧
    (s.setUnit v u).flushes = s.flushes ∧ (s.setUnit v u).flushOrder = s.flushOrder ∧
    (s.setUnit v u).entryState = s.entryState ∧ (s.setUnit v u).entryTime = s.entryTime ∧
    (s.setUnit v u).drainCount = s.drainCount ∧ (s.setUnit v u).events = s.events ∧
    (s.setUnit v u).links = s.links :=
  ⟨rfl, rfl, rfl, rfl, rfl, rfl, rfl, rfl, rfl, rfl, rfl, rfl, rfl, rfl, rfl, rfl, rfl, rfl, rfl,
    rfl, rfl, rfl, rfl, rfl, rfl, rfl, rfl, rfl, rfl, rfl, rfl, rfl, rfl, rfl, rfl, rfl, rfl, rfl,
    rfl, rfl, rfl, rfl, rfl⟩

@[simp] theorem clearUnit_fields (v : Nat) :
    (s.clearUnit v).pending = s.pending ∧ (s.clearUnit v).idles = s.idles ∧
    (s.clearUnit v).now = s.now ∧ (s.clearUnit v).resetAsserted = s.resetAsserted ∧
    (s.clearUnit v).pfailAsserted = s.pfailAsserted ∧ (s.clearUnit v).safe = s.safe ∧
    (s.clearUnit v).alert = s.alert ∧ (s.clearUnit v).part = s.part ∧
    (s.clearUnit v).scrubbing = s.scrubbing ∧ (s.clearUnit v).scrubbed = s.scrubbed ∧
    (s.clearUnit v).cfg = s.cfg ∧ (s.clearUnit v).drains = s.drains ∧
    (s.clearUnit v).rules = s.rules ∧ (s.clearUnit v).tenants = s.tenants ∧
    (s.clearUnit v).reclaimMap = s.reclaimMap ∧ (s.clearUnit v).captures = s.captures ∧
    (s.clearUnit v).refusals = s.refusals ∧ (s.clearUnit v).accounts = s.accounts ∧
    (s.clearUnit v).free = s.free ∧ (s.clearUnit v).grants = s.grants ∧
    (s.clearUnit v).waiting = s.waiting ∧ (s.clearUnit v).frames = s.frames ∧
    (s.clearUnit v).freed = s.freed ∧ (s.clearUnit v).nextSeq = s.nextSeq ∧
    (s.clearUnit v).corrected = s.corrected ∧ (s.clearUnit v).uncorrectable = s.uncorrectable ∧
    (s.clearUnit v).sets = s.sets ∧ (s.clearUnit v).streams = s.streams ∧
    (s.clearUnit v).stagedCounter = s.stagedCounter ∧ (s.clearUnit v).slots = s.slots ∧
    (s.clearUnit v).wheelPos = s.wheelPos ∧ (s.clearUnit v).nextVisit = s.nextVisit ∧
    (s.clearUnit v).lanes = s.lanes ∧ (s.clearUnit v).faultList = s.faultList ∧
    (s.clearUnit v).reportQueue = s.reportQueue ∧ (s.clearUnit v).delivered = s.delivered ∧
    (s.clearUnit v).flushes = s.flushes ∧ (s.clearUnit v).flushOrder = s.flushOrder ∧
    (s.clearUnit v).entryState = s.entryState ∧ (s.clearUnit v).entryTime = s.entryTime ∧
    (s.clearUnit v).drainCount = s.drainCount ∧ (s.clearUnit v).events = s.events ∧
    (s.clearUnit v).links = s.links :=
  ⟨rfl, rfl, rfl, rfl, rfl, rfl, rfl, rfl, rfl, rfl, rfl, rfl, rfl, rfl, rfl, rfl, rfl, rfl, rfl,
    rfl, rfl, rfl, rfl, rfl, rfl, rfl, rfl, rfl, rfl, rfl, rfl, rfl, rfl, rfl, rfl, rfl, rfl, rfl,
    rfl, rfl, rfl, rfl, rfl⟩

@[simp] theorem setSlot_fields (i : Nat) (v : Slot) :
    (s.setSlot i v).pending = s.pending ∧ (s.setSlot i v).idles = s.idles ∧
    (s.setSlot i v).now = s.now ∧ (s.setSlot i v).resetAsserted = s.resetAsserted ∧
    (s.setSlot i v).pfailAsserted = s.pfailAsserted ∧ (s.setSlot i v).safe = s.safe ∧
    (s.setSlot i v).alert = s.alert ∧ (s.setSlot i v).part = s.part ∧
    (s.setSlot i v).scrubbing = s.scrubbing ∧ (s.setSlot i v).scrubbed = s.scrubbed ∧
    (s.setSlot i v).cfg = s.cfg ∧ (s.setSlot i v).drains = s.drains ∧
    (s.setSlot i v).rules = s.rules ∧ (s.setSlot i v).tenants = s.tenants ∧
    (s.setSlot i v).reclaimMap = s.reclaimMap ∧ (s.setSlot i v).captures = s.captures ∧
    (s.setSlot i v).refusals = s.refusals ∧ (s.setSlot i v).accounts = s.accounts ∧
    (s.setSlot i v).free = s.free ∧ (s.setSlot i v).grants = s.grants ∧
    (s.setSlot i v).waiting = s.waiting ∧ (s.setSlot i v).frames = s.frames ∧
    (s.setSlot i v).freed = s.freed ∧ (s.setSlot i v).nextSeq = s.nextSeq ∧
    (s.setSlot i v).corrected = s.corrected ∧ (s.setSlot i v).uncorrectable = s.uncorrectable ∧
    (s.setSlot i v).sets = s.sets ∧ (s.setSlot i v).streams = s.streams ∧
    (s.setSlot i v).units = s.units ∧ (s.setSlot i v).stagedCounter = s.stagedCounter ∧
    (s.setSlot i v).wheelPos = s.wheelPos ∧ (s.setSlot i v).nextVisit = s.nextVisit ∧
    (s.setSlot i v).lanes = s.lanes ∧ (s.setSlot i v).faultList = s.faultList ∧
    (s.setSlot i v).reportQueue = s.reportQueue ∧ (s.setSlot i v).delivered = s.delivered ∧
    (s.setSlot i v).flushes = s.flushes ∧ (s.setSlot i v).flushOrder = s.flushOrder ∧
    (s.setSlot i v).entryState = s.entryState ∧ (s.setSlot i v).entryTime = s.entryTime ∧
    (s.setSlot i v).drainCount = s.drainCount ∧ (s.setSlot i v).events = s.events ∧
    (s.setSlot i v).links = s.links :=
  ⟨rfl, rfl, rfl, rfl, rfl, rfl, rfl, rfl, rfl, rfl, rfl, rfl, rfl, rfl, rfl, rfl, rfl, rfl, rfl,
    rfl, rfl, rfl, rfl, rfl, rfl, rfl, rfl, rfl, rfl, rfl, rfl, rfl, rfl, rfl, rfl, rfl, rfl, rfl,
    rfl, rfl, rfl, rfl, rfl⟩

@[simp] theorem setLane_fields (l : Nat) (v : Lane) :
    (s.setLane l v).pending = s.pending ∧ (s.setLane l v).idles = s.idles ∧
    (s.setLane l v).now = s.now ∧ (s.setLane l v).resetAsserted = s.resetAsserted ∧
    (s.setLane l v).pfailAsserted = s.pfailAsserted ∧ (s.setLane l v).safe = s.safe ∧
    (s.setLane l v).alert = s.alert ∧ (s.setLane l v).part = s.part ∧
    (s.setLane l v).scrubbing = s.scrubbing ∧ (s.setLane l v).scrubbed = s.scrubbed ∧
    (s.setLane l v).cfg = s.cfg ∧ (s.setLane l v).drains = s.drains ∧
    (s.setLane l v).rules = s.rules ∧ (s.setLane l v).tenants = s.tenants ∧
    (s.setLane l v).reclaimMap = s.reclaimMap ∧ (s.setLane l v).captures = s.captures ∧
    (s.setLane l v).refusals = s.refusals ∧ (s.setLane l v).accounts = s.accounts ∧
    (s.setLane l v).free = s.free ∧ (s.setLane l v).grants = s.grants ∧
    (s.setLane l v).waiting = s.waiting ∧ (s.setLane l v).frames = s.frames ∧
    (s.setLane l v).freed = s.freed ∧ (s.setLane l v).nextSeq = s.nextSeq ∧
    (s.setLane l v).corrected = s.corrected ∧ (s.setLane l v).uncorrectable = s.uncorrectable ∧
    (s.setLane l v).sets = s.sets ∧ (s.setLane l v).streams = s.streams ∧
    (s.setLane l v).units = s.units ∧ (s.setLane l v).stagedCounter = s.stagedCounter ∧
    (s.setLane l v).slots = s.slots ∧ (s.setLane l v).wheelPos = s.wheelPos ∧
    (s.setLane l v).nextVisit = s.nextVisit ∧ (s.setLane l v).faultList = s.faultList ∧
    (s.setLane l v).reportQueue = s.reportQueue ∧ (s.setLane l v).delivered = s.delivered ∧
    (s.setLane l v).flushes = s.flushes ∧ (s.setLane l v).flushOrder = s.flushOrder ∧
    (s.setLane l v).entryState = s.entryState ∧ (s.setLane l v).entryTime = s.entryTime ∧
    (s.setLane l v).drainCount = s.drainCount ∧ (s.setLane l v).events = s.events ∧
    (s.setLane l v).links = s.links :=
  ⟨rfl, rfl, rfl, rfl, rfl, rfl, rfl, rfl, rfl, rfl, rfl, rfl, rfl, rfl, rfl, rfl, rfl, rfl, rfl,
    rfl, rfl, rfl, rfl, rfl, rfl, rfl, rfl, rfl, rfl, rfl, rfl, rfl, rfl, rfl, rfl, rfl, rfl, rfl,
    rfl, rfl, rfl, rfl, rfl⟩

@[simp] theorem setDrain_fields (d : Nat) (v : DrainConfig) :
    (s.setDrain d v).pending = s.pending ∧ (s.setDrain d v).idles = s.idles ∧
    (s.setDrain d v).now = s.now ∧ (s.setDrain d v).resetAsserted = s.resetAsserted ∧
    (s.setDrain d v).pfailAsserted = s.pfailAsserted ∧ (s.setDrain d v).safe = s.safe ∧
    (s.setDrain d v).alert = s.alert ∧ (s.setDrain d v).part = s.part ∧
    (s.setDrain d v).scrubbing = s.scrubbing ∧ (s.setDrain d v).scrubbed = s.scrubbed ∧
    (s.setDrain d v).cfg = s.cfg ∧ (s.setDrain d v).rules = s.rules ∧
    (s.setDrain d v).tenants = s.tenants ∧ (s.setDrain d v).reclaimMap = s.reclaimMap ∧
    (s.setDrain d v).captures = s.captures ∧ (s.setDrain d v).refusals = s.refusals ∧
    (s.setDrain d v).accounts = s.accounts ∧ (s.setDrain d v).free = s.free ∧
    (s.setDrain d v).grants = s.grants ∧ (s.setDrain d v).waiting = s.waiting ∧
    (s.setDrain d v).frames = s.frames ∧ (s.setDrain d v).freed = s.freed ∧
    (s.setDrain d v).nextSeq = s.nextSeq ∧ (s.setDrain d v).corrected = s.corrected ∧
    (s.setDrain d v).uncorrectable = s.uncorrectable ∧ (s.setDrain d v).sets = s.sets ∧
    (s.setDrain d v).streams = s.streams ∧ (s.setDrain d v).units = s.units ∧
    (s.setDrain d v).stagedCounter = s.stagedCounter ∧ (s.setDrain d v).slots = s.slots ∧
    (s.setDrain d v).wheelPos = s.wheelPos ∧ (s.setDrain d v).nextVisit = s.nextVisit ∧
    (s.setDrain d v).lanes = s.lanes ∧ (s.setDrain d v).faultList = s.faultList ∧
    (s.setDrain d v).reportQueue = s.reportQueue ∧ (s.setDrain d v).delivered = s.delivered ∧
    (s.setDrain d v).flushes = s.flushes ∧ (s.setDrain d v).flushOrder = s.flushOrder ∧
    (s.setDrain d v).entryState = s.entryState ∧ (s.setDrain d v).entryTime = s.entryTime ∧
    (s.setDrain d v).drainCount = s.drainCount ∧ (s.setDrain d v).events = s.events ∧
    (s.setDrain d v).links = s.links :=
  ⟨rfl, rfl, rfl, rfl, rfl, rfl, rfl, rfl, rfl, rfl, rfl, rfl, rfl, rfl, rfl, rfl, rfl, rfl, rfl,
    rfl, rfl, rfl, rfl, rfl, rfl, rfl, rfl, rfl, rfl, rfl, rfl, rfl, rfl, rfl, rfl, rfl, rfl, rfl,
    rfl, rfl, rfl, rfl, rfl⟩

@[simp] theorem setFlush_fields (e : Nat) (v : FlushEntry) :
    (s.setFlush e v).pending = s.pending ∧ (s.setFlush e v).idles = s.idles ∧
    (s.setFlush e v).now = s.now ∧ (s.setFlush e v).resetAsserted = s.resetAsserted ∧
    (s.setFlush e v).pfailAsserted = s.pfailAsserted ∧ (s.setFlush e v).safe = s.safe ∧
    (s.setFlush e v).alert = s.alert ∧ (s.setFlush e v).part = s.part ∧
    (s.setFlush e v).scrubbing = s.scrubbing ∧ (s.setFlush e v).scrubbed = s.scrubbed ∧
    (s.setFlush e v).cfg = s.cfg ∧ (s.setFlush e v).drains = s.drains ∧
    (s.setFlush e v).rules = s.rules ∧ (s.setFlush e v).tenants = s.tenants ∧
    (s.setFlush e v).reclaimMap = s.reclaimMap ∧ (s.setFlush e v).captures = s.captures ∧
    (s.setFlush e v).refusals = s.refusals ∧ (s.setFlush e v).accounts = s.accounts ∧
    (s.setFlush e v).free = s.free ∧ (s.setFlush e v).grants = s.grants ∧
    (s.setFlush e v).waiting = s.waiting ∧ (s.setFlush e v).frames = s.frames ∧
    (s.setFlush e v).freed = s.freed ∧ (s.setFlush e v).nextSeq = s.nextSeq ∧
    (s.setFlush e v).corrected = s.corrected ∧ (s.setFlush e v).uncorrectable = s.uncorrectable ∧
    (s.setFlush e v).sets = s.sets ∧ (s.setFlush e v).streams = s.streams ∧
    (s.setFlush e v).units = s.units ∧ (s.setFlush e v).stagedCounter = s.stagedCounter ∧
    (s.setFlush e v).slots = s.slots ∧ (s.setFlush e v).wheelPos = s.wheelPos ∧
    (s.setFlush e v).nextVisit = s.nextVisit ∧ (s.setFlush e v).lanes = s.lanes ∧
    (s.setFlush e v).faultList = s.faultList ∧ (s.setFlush e v).reportQueue = s.reportQueue ∧
    (s.setFlush e v).delivered = s.delivered ∧ (s.setFlush e v).flushOrder = s.flushOrder ∧
    (s.setFlush e v).entryState = s.entryState ∧ (s.setFlush e v).entryTime = s.entryTime ∧
    (s.setFlush e v).drainCount = s.drainCount ∧ (s.setFlush e v).events = s.events ∧
    (s.setFlush e v).links = s.links :=
  ⟨rfl, rfl, rfl, rfl, rfl, rfl, rfl, rfl, rfl, rfl, rfl, rfl, rfl, rfl, rfl, rfl, rfl, rfl, rfl,
    rfl, rfl, rfl, rfl, rfl, rfl, rfl, rfl, rfl, rfl, rfl, rfl, rfl, rfl, rfl, rfl, rfl, rfl, rfl,
    rfl, rfl, rfl, rfl, rfl⟩

@[simp] theorem setLink_fields (l : Nat) (v : Link) :
    (s.setLink l v).pending = s.pending ∧ (s.setLink l v).idles = s.idles ∧
    (s.setLink l v).now = s.now ∧ (s.setLink l v).resetAsserted = s.resetAsserted ∧
    (s.setLink l v).pfailAsserted = s.pfailAsserted ∧ (s.setLink l v).safe = s.safe ∧
    (s.setLink l v).alert = s.alert ∧ (s.setLink l v).part = s.part ∧
    (s.setLink l v).scrubbing = s.scrubbing ∧ (s.setLink l v).scrubbed = s.scrubbed ∧
    (s.setLink l v).cfg = s.cfg ∧ (s.setLink l v).drains = s.drains ∧
    (s.setLink l v).rules = s.rules ∧ (s.setLink l v).tenants = s.tenants ∧
    (s.setLink l v).reclaimMap = s.reclaimMap ∧ (s.setLink l v).captures = s.captures ∧
    (s.setLink l v).refusals = s.refusals ∧ (s.setLink l v).accounts = s.accounts ∧
    (s.setLink l v).free = s.free ∧ (s.setLink l v).grants = s.grants ∧
    (s.setLink l v).waiting = s.waiting ∧ (s.setLink l v).frames = s.frames ∧
    (s.setLink l v).freed = s.freed ∧ (s.setLink l v).nextSeq = s.nextSeq ∧
    (s.setLink l v).corrected = s.corrected ∧ (s.setLink l v).uncorrectable = s.uncorrectable ∧
    (s.setLink l v).sets = s.sets ∧ (s.setLink l v).streams = s.streams ∧
    (s.setLink l v).units = s.units ∧ (s.setLink l v).stagedCounter = s.stagedCounter ∧
    (s.setLink l v).slots = s.slots ∧ (s.setLink l v).wheelPos = s.wheelPos ∧
    (s.setLink l v).nextVisit = s.nextVisit ∧ (s.setLink l v).lanes = s.lanes ∧
    (s.setLink l v).faultList = s.faultList ∧ (s.setLink l v).reportQueue = s.reportQueue ∧
    (s.setLink l v).delivered = s.delivered ∧ (s.setLink l v).flushes = s.flushes ∧
    (s.setLink l v).flushOrder = s.flushOrder ∧ (s.setLink l v).entryState = s.entryState ∧
    (s.setLink l v).entryTime = s.entryTime ∧ (s.setLink l v).drainCount = s.drainCount ∧
    (s.setLink l v).events = s.events :=
  ⟨rfl, rfl, rfl, rfl, rfl, rfl, rfl, rfl, rfl, rfl, rfl, rfl, rfl, rfl, rfl, rfl, rfl, rfl, rfl,
    rfl, rfl, rfl, rfl, rfl, rfl, rfl, rfl, rfl, rfl, rfl, rfl, rfl, rfl, rfl, rfl, rfl, rfl, rfl,
    rfl, rfl, rfl, rfl, rfl⟩

@[simp] theorem setFree_fields (n : Nat) :
    (s.setFree n).pending = s.pending ∧ (s.setFree n).idles = s.idles ∧ (s.setFree n).now = s.now ∧
    (s.setFree n).resetAsserted = s.resetAsserted ∧ (s.setFree n).pfailAsserted = s.pfailAsserted ∧
    (s.setFree n).safe = s.safe ∧ (s.setFree n).alert = s.alert ∧ (s.setFree n).part = s.part ∧
    (s.setFree n).scrubbing = s.scrubbing ∧ (s.setFree n).scrubbed = s.scrubbed ∧
    (s.setFree n).cfg = s.cfg ∧ (s.setFree n).drains = s.drains ∧ (s.setFree n).rules = s.rules ∧
    (s.setFree n).tenants = s.tenants ∧ (s.setFree n).reclaimMap = s.reclaimMap ∧
    (s.setFree n).captures = s.captures ∧ (s.setFree n).refusals = s.refusals ∧
    (s.setFree n).accounts = s.accounts ∧ (s.setFree n).grants = s.grants ∧
    (s.setFree n).waiting = s.waiting ∧ (s.setFree n).frames = s.frames ∧
    (s.setFree n).freed = s.freed ∧ (s.setFree n).nextSeq = s.nextSeq ∧
    (s.setFree n).corrected = s.corrected ∧ (s.setFree n).uncorrectable = s.uncorrectable ∧
    (s.setFree n).sets = s.sets ∧ (s.setFree n).streams = s.streams ∧
    (s.setFree n).units = s.units ∧ (s.setFree n).stagedCounter = s.stagedCounter ∧
    (s.setFree n).slots = s.slots ∧ (s.setFree n).wheelPos = s.wheelPos ∧
    (s.setFree n).nextVisit = s.nextVisit ∧ (s.setFree n).lanes = s.lanes ∧
    (s.setFree n).faultList = s.faultList ∧ (s.setFree n).reportQueue = s.reportQueue ∧
    (s.setFree n).delivered = s.delivered ∧ (s.setFree n).flushes = s.flushes ∧
    (s.setFree n).flushOrder = s.flushOrder ∧ (s.setFree n).entryState = s.entryState ∧
    (s.setFree n).entryTime = s.entryTime ∧ (s.setFree n).drainCount = s.drainCount ∧
    (s.setFree n).events = s.events ∧ (s.setFree n).links = s.links :=
  ⟨rfl, rfl, rfl, rfl, rfl, rfl, rfl, rfl, rfl, rfl, rfl, rfl, rfl, rfl, rfl, rfl, rfl, rfl, rfl,
    rfl, rfl, rfl, rfl, rfl, rfl, rfl, rfl, rfl, rfl, rfl, rfl, rfl, rfl, rfl, rfl, rfl, rfl, rfl,
    rfl, rfl, rfl, rfl, rfl⟩

@[simp] theorem setWaiting_fields (w : List Entry) :
    (s.setWaiting w).pending = s.pending ∧ (s.setWaiting w).idles = s.idles ∧
    (s.setWaiting w).now = s.now ∧ (s.setWaiting w).resetAsserted = s.resetAsserted ∧
    (s.setWaiting w).pfailAsserted = s.pfailAsserted ∧ (s.setWaiting w).safe = s.safe ∧
    (s.setWaiting w).alert = s.alert ∧ (s.setWaiting w).part = s.part ∧
    (s.setWaiting w).scrubbing = s.scrubbing ∧ (s.setWaiting w).scrubbed = s.scrubbed ∧
    (s.setWaiting w).cfg = s.cfg ∧ (s.setWaiting w).drains = s.drains ∧
    (s.setWaiting w).rules = s.rules ∧ (s.setWaiting w).tenants = s.tenants ∧
    (s.setWaiting w).reclaimMap = s.reclaimMap ∧ (s.setWaiting w).captures = s.captures ∧
    (s.setWaiting w).refusals = s.refusals ∧ (s.setWaiting w).accounts = s.accounts ∧
    (s.setWaiting w).free = s.free ∧ (s.setWaiting w).grants = s.grants ∧
    (s.setWaiting w).frames = s.frames ∧ (s.setWaiting w).freed = s.freed ∧
    (s.setWaiting w).nextSeq = s.nextSeq ∧ (s.setWaiting w).corrected = s.corrected ∧
    (s.setWaiting w).uncorrectable = s.uncorrectable ∧ (s.setWaiting w).sets = s.sets ∧
    (s.setWaiting w).streams = s.streams ∧ (s.setWaiting w).units = s.units ∧
    (s.setWaiting w).stagedCounter = s.stagedCounter ∧ (s.setWaiting w).slots = s.slots ∧
    (s.setWaiting w).wheelPos = s.wheelPos ∧ (s.setWaiting w).nextVisit = s.nextVisit ∧
    (s.setWaiting w).lanes = s.lanes ∧ (s.setWaiting w).faultList = s.faultList ∧
    (s.setWaiting w).reportQueue = s.reportQueue ∧ (s.setWaiting w).delivered = s.delivered ∧
    (s.setWaiting w).flushes = s.flushes ∧ (s.setWaiting w).flushOrder = s.flushOrder ∧
    (s.setWaiting w).entryState = s.entryState ∧ (s.setWaiting w).entryTime = s.entryTime ∧
    (s.setWaiting w).drainCount = s.drainCount ∧ (s.setWaiting w).events = s.events ∧
    (s.setWaiting w).links = s.links :=
  ⟨rfl, rfl, rfl, rfl, rfl, rfl, rfl, rfl, rfl, rfl, rfl, rfl, rfl, rfl, rfl, rfl, rfl, rfl, rfl,
    rfl, rfl, rfl, rfl, rfl, rfl, rfl, rfl, rfl, rfl, rfl, rfl, rfl, rfl, rfl, rfl, rfl, rfl, rfl,
    rfl, rfl, rfl, rfl, rfl⟩

@[simp] theorem setNextSeq_fields (n : Nat) :
    (s.setNextSeq n).pending = s.pending ∧ (s.setNextSeq n).idles = s.idles ∧
    (s.setNextSeq n).now = s.now ∧ (s.setNextSeq n).resetAsserted = s.resetAsserted ∧
    (s.setNextSeq n).pfailAsserted = s.pfailAsserted ∧ (s.setNextSeq n).safe = s.safe ∧
    (s.setNextSeq n).alert = s.alert ∧ (s.setNextSeq n).part = s.part ∧
    (s.setNextSeq n).scrubbing = s.scrubbing ∧ (s.setNextSeq n).scrubbed = s.scrubbed ∧
    (s.setNextSeq n).cfg = s.cfg ∧ (s.setNextSeq n).drains = s.drains ∧
    (s.setNextSeq n).rules = s.rules ∧ (s.setNextSeq n).tenants = s.tenants ∧
    (s.setNextSeq n).reclaimMap = s.reclaimMap ∧ (s.setNextSeq n).captures = s.captures ∧
    (s.setNextSeq n).refusals = s.refusals ∧ (s.setNextSeq n).accounts = s.accounts ∧
    (s.setNextSeq n).free = s.free ∧ (s.setNextSeq n).grants = s.grants ∧
    (s.setNextSeq n).waiting = s.waiting ∧ (s.setNextSeq n).frames = s.frames ∧
    (s.setNextSeq n).freed = s.freed ∧ (s.setNextSeq n).corrected = s.corrected ∧
    (s.setNextSeq n).uncorrectable = s.uncorrectable ∧ (s.setNextSeq n).sets = s.sets ∧
    (s.setNextSeq n).streams = s.streams ∧ (s.setNextSeq n).units = s.units ∧
    (s.setNextSeq n).stagedCounter = s.stagedCounter ∧ (s.setNextSeq n).slots = s.slots ∧
    (s.setNextSeq n).wheelPos = s.wheelPos ∧ (s.setNextSeq n).nextVisit = s.nextVisit ∧
    (s.setNextSeq n).lanes = s.lanes ∧ (s.setNextSeq n).faultList = s.faultList ∧
    (s.setNextSeq n).reportQueue = s.reportQueue ∧ (s.setNextSeq n).delivered = s.delivered ∧
    (s.setNextSeq n).flushes = s.flushes ∧ (s.setNextSeq n).flushOrder = s.flushOrder ∧
    (s.setNextSeq n).entryState = s.entryState ∧ (s.setNextSeq n).entryTime = s.entryTime ∧
    (s.setNextSeq n).drainCount = s.drainCount ∧ (s.setNextSeq n).events = s.events ∧
    (s.setNextSeq n).links = s.links :=
  ⟨rfl, rfl, rfl, rfl, rfl, rfl, rfl, rfl, rfl, rfl, rfl, rfl, rfl, rfl, rfl, rfl, rfl, rfl, rfl,
    rfl, rfl, rfl, rfl, rfl, rfl, rfl, rfl, rfl, rfl, rfl, rfl, rfl, rfl, rfl, rfl, rfl, rfl, rfl,
    rfl, rfl, rfl, rfl, rfl⟩

@[simp] theorem setStagedCounter_fields (n : Nat) :
    (s.setStagedCounter n).pending = s.pending ∧ (s.setStagedCounter n).idles = s.idles ∧
    (s.setStagedCounter n).now = s.now ∧ (s.setStagedCounter n).resetAsserted = s.resetAsserted ∧
    (s.setStagedCounter n).pfailAsserted = s.pfailAsserted ∧ (s.setStagedCounter n).safe = s.safe ∧
    (s.setStagedCounter n).alert = s.alert ∧ (s.setStagedCounter n).part = s.part ∧
    (s.setStagedCounter n).scrubbing = s.scrubbing ∧ (s.setStagedCounter n).scrubbed = s.scrubbed ∧
    (s.setStagedCounter n).cfg = s.cfg ∧ (s.setStagedCounter n).drains = s.drains ∧
    (s.setStagedCounter n).rules = s.rules ∧ (s.setStagedCounter n).tenants = s.tenants ∧
    (s.setStagedCounter n).reclaimMap = s.reclaimMap ∧
    (s.setStagedCounter n).captures = s.captures ∧ (s.setStagedCounter n).refusals = s.refusals ∧
    (s.setStagedCounter n).accounts = s.accounts ∧ (s.setStagedCounter n).free = s.free ∧
    (s.setStagedCounter n).grants = s.grants ∧ (s.setStagedCounter n).waiting = s.waiting ∧
    (s.setStagedCounter n).frames = s.frames ∧ (s.setStagedCounter n).freed = s.freed ∧
    (s.setStagedCounter n).nextSeq = s.nextSeq ∧ (s.setStagedCounter n).corrected = s.corrected ∧
    (s.setStagedCounter n).uncorrectable = s.uncorrectable ∧ (s.setStagedCounter n).sets = s.sets ∧
    (s.setStagedCounter n).streams = s.streams ∧ (s.setStagedCounter n).units = s.units ∧
    (s.setStagedCounter n).slots = s.slots ∧ (s.setStagedCounter n).wheelPos = s.wheelPos ∧
    (s.setStagedCounter n).nextVisit = s.nextVisit ∧ (s.setStagedCounter n).lanes = s.lanes ∧
    (s.setStagedCounter n).faultList = s.faultList ∧
    (s.setStagedCounter n).reportQueue = s.reportQueue ∧
    (s.setStagedCounter n).delivered = s.delivered ∧ (s.setStagedCounter n).flushes = s.flushes ∧
    (s.setStagedCounter n).flushOrder = s.flushOrder ∧
    (s.setStagedCounter n).entryState = s.entryState ∧
    (s.setStagedCounter n).entryTime = s.entryTime ∧
    (s.setStagedCounter n).drainCount = s.drainCount ∧ (s.setStagedCounter n).events = s.events ∧
    (s.setStagedCounter n).links = s.links :=
  ⟨rfl, rfl, rfl, rfl, rfl, rfl, rfl, rfl, rfl, rfl, rfl, rfl, rfl, rfl, rfl, rfl, rfl, rfl, rfl,
    rfl, rfl, rfl, rfl, rfl, rfl, rfl, rfl, rfl, rfl, rfl, rfl, rfl, rfl, rfl, rfl, rfl, rfl, rfl,
    rfl, rfl, rfl, rfl, rfl⟩

@[simp] theorem setDrainCount_fields (n : Nat) :
    (s.setDrainCount n).pending = s.pending ∧ (s.setDrainCount n).idles = s.idles ∧
    (s.setDrainCount n).now = s.now ∧ (s.setDrainCount n).resetAsserted = s.resetAsserted ∧
    (s.setDrainCount n).pfailAsserted = s.pfailAsserted ∧ (s.setDrainCount n).safe = s.safe ∧
    (s.setDrainCount n).alert = s.alert ∧ (s.setDrainCount n).part = s.part ∧
    (s.setDrainCount n).scrubbing = s.scrubbing ∧ (s.setDrainCount n).scrubbed = s.scrubbed ∧
    (s.setDrainCount n).cfg = s.cfg ∧ (s.setDrainCount n).drains = s.drains ∧
    (s.setDrainCount n).rules = s.rules ∧ (s.setDrainCount n).tenants = s.tenants ∧
    (s.setDrainCount n).reclaimMap = s.reclaimMap ∧ (s.setDrainCount n).captures = s.captures ∧
    (s.setDrainCount n).refusals = s.refusals ∧ (s.setDrainCount n).accounts = s.accounts ∧
    (s.setDrainCount n).free = s.free ∧ (s.setDrainCount n).grants = s.grants ∧
    (s.setDrainCount n).waiting = s.waiting ∧ (s.setDrainCount n).frames = s.frames ∧
    (s.setDrainCount n).freed = s.freed ∧ (s.setDrainCount n).nextSeq = s.nextSeq ∧
    (s.setDrainCount n).corrected = s.corrected ∧
    (s.setDrainCount n).uncorrectable = s.uncorrectable ∧ (s.setDrainCount n).sets = s.sets ∧
    (s.setDrainCount n).streams = s.streams ∧ (s.setDrainCount n).units = s.units ∧
    (s.setDrainCount n).stagedCounter = s.stagedCounter ∧ (s.setDrainCount n).slots = s.slots ∧
    (s.setDrainCount n).wheelPos = s.wheelPos ∧ (s.setDrainCount n).nextVisit = s.nextVisit ∧
    (s.setDrainCount n).lanes = s.lanes ∧ (s.setDrainCount n).faultList = s.faultList ∧
    (s.setDrainCount n).reportQueue = s.reportQueue ∧ (s.setDrainCount n).delivered = s.delivered ∧
    (s.setDrainCount n).flushes = s.flushes ∧ (s.setDrainCount n).flushOrder = s.flushOrder ∧
    (s.setDrainCount n).entryState = s.entryState ∧ (s.setDrainCount n).entryTime = s.entryTime ∧
    (s.setDrainCount n).events = s.events ∧ (s.setDrainCount n).links = s.links :=
  ⟨rfl, rfl, rfl, rfl, rfl, rfl, rfl, rfl, rfl, rfl, rfl, rfl, rfl, rfl, rfl, rfl, rfl, rfl, rfl,
    rfl, rfl, rfl, rfl, rfl, rfl, rfl, rfl, rfl, rfl, rfl, rfl, rfl, rfl, rfl, rfl, rfl, rfl, rfl,
    rfl, rfl, rfl, rfl, rfl⟩

@[simp] theorem setFaultList_fields (l : List Nat) :
    (s.setFaultList l).pending = s.pending ∧ (s.setFaultList l).idles = s.idles ∧
    (s.setFaultList l).now = s.now ∧ (s.setFaultList l).resetAsserted = s.resetAsserted ∧
    (s.setFaultList l).pfailAsserted = s.pfailAsserted ∧ (s.setFaultList l).safe = s.safe ∧
    (s.setFaultList l).alert = s.alert ∧ (s.setFaultList l).part = s.part ∧
    (s.setFaultList l).scrubbing = s.scrubbing ∧ (s.setFaultList l).scrubbed = s.scrubbed ∧
    (s.setFaultList l).cfg = s.cfg ∧ (s.setFaultList l).drains = s.drains ∧
    (s.setFaultList l).rules = s.rules ∧ (s.setFaultList l).tenants = s.tenants ∧
    (s.setFaultList l).reclaimMap = s.reclaimMap ∧ (s.setFaultList l).captures = s.captures ∧
    (s.setFaultList l).refusals = s.refusals ∧ (s.setFaultList l).accounts = s.accounts ∧
    (s.setFaultList l).free = s.free ∧ (s.setFaultList l).grants = s.grants ∧
    (s.setFaultList l).waiting = s.waiting ∧ (s.setFaultList l).frames = s.frames ∧
    (s.setFaultList l).freed = s.freed ∧ (s.setFaultList l).nextSeq = s.nextSeq ∧
    (s.setFaultList l).corrected = s.corrected ∧
    (s.setFaultList l).uncorrectable = s.uncorrectable ∧ (s.setFaultList l).sets = s.sets ∧
    (s.setFaultList l).streams = s.streams ∧ (s.setFaultList l).units = s.units ∧
    (s.setFaultList l).stagedCounter = s.stagedCounter ∧ (s.setFaultList l).slots = s.slots ∧
    (s.setFaultList l).wheelPos = s.wheelPos ∧ (s.setFaultList l).nextVisit = s.nextVisit ∧
    (s.setFaultList l).lanes = s.lanes ∧ (s.setFaultList l).reportQueue = s.reportQueue ∧
    (s.setFaultList l).delivered = s.delivered ∧ (s.setFaultList l).flushes = s.flushes ∧
    (s.setFaultList l).flushOrder = s.flushOrder ∧ (s.setFaultList l).entryState = s.entryState ∧
    (s.setFaultList l).entryTime = s.entryTime ∧ (s.setFaultList l).drainCount = s.drainCount ∧
    (s.setFaultList l).events = s.events ∧ (s.setFaultList l).links = s.links :=
  ⟨rfl, rfl, rfl, rfl, rfl, rfl, rfl, rfl, rfl, rfl, rfl, rfl, rfl, rfl, rfl, rfl, rfl, rfl, rfl,
    rfl, rfl, rfl, rfl, rfl, rfl, rfl, rfl, rfl, rfl, rfl, rfl, rfl, rfl, rfl, rfl, rfl, rfl, rfl,
    rfl, rfl, rfl, rfl, rfl⟩

@[simp] theorem setReportQueue_fields (q : List ReportItem) :
    (s.setReportQueue q).pending = s.pending ∧ (s.setReportQueue q).idles = s.idles ∧
    (s.setReportQueue q).now = s.now ∧ (s.setReportQueue q).resetAsserted = s.resetAsserted ∧
    (s.setReportQueue q).pfailAsserted = s.pfailAsserted ∧ (s.setReportQueue q).safe = s.safe ∧
    (s.setReportQueue q).alert = s.alert ∧ (s.setReportQueue q).part = s.part ∧
    (s.setReportQueue q).scrubbing = s.scrubbing ∧ (s.setReportQueue q).scrubbed = s.scrubbed ∧
    (s.setReportQueue q).cfg = s.cfg ∧ (s.setReportQueue q).drains = s.drains ∧
    (s.setReportQueue q).rules = s.rules ∧ (s.setReportQueue q).tenants = s.tenants ∧
    (s.setReportQueue q).reclaimMap = s.reclaimMap ∧ (s.setReportQueue q).captures = s.captures ∧
    (s.setReportQueue q).refusals = s.refusals ∧ (s.setReportQueue q).accounts = s.accounts ∧
    (s.setReportQueue q).free = s.free ∧ (s.setReportQueue q).grants = s.grants ∧
    (s.setReportQueue q).waiting = s.waiting ∧ (s.setReportQueue q).frames = s.frames ∧
    (s.setReportQueue q).freed = s.freed ∧ (s.setReportQueue q).nextSeq = s.nextSeq ∧
    (s.setReportQueue q).corrected = s.corrected ∧
    (s.setReportQueue q).uncorrectable = s.uncorrectable ∧ (s.setReportQueue q).sets = s.sets ∧
    (s.setReportQueue q).streams = s.streams ∧ (s.setReportQueue q).units = s.units ∧
    (s.setReportQueue q).stagedCounter = s.stagedCounter ∧ (s.setReportQueue q).slots = s.slots ∧
    (s.setReportQueue q).wheelPos = s.wheelPos ∧ (s.setReportQueue q).nextVisit = s.nextVisit ∧
    (s.setReportQueue q).lanes = s.lanes ∧ (s.setReportQueue q).faultList = s.faultList ∧
    (s.setReportQueue q).delivered = s.delivered ∧ (s.setReportQueue q).flushes = s.flushes ∧
    (s.setReportQueue q).flushOrder = s.flushOrder ∧
    (s.setReportQueue q).entryState = s.entryState ∧ (s.setReportQueue q).entryTime = s.entryTime ∧
    (s.setReportQueue q).drainCount = s.drainCount ∧ (s.setReportQueue q).events = s.events ∧
    (s.setReportQueue q).links = s.links :=
  ⟨rfl, rfl, rfl, rfl, rfl, rfl, rfl, rfl, rfl, rfl, rfl, rfl, rfl, rfl, rfl, rfl, rfl, rfl, rfl,
    rfl, rfl, rfl, rfl, rfl, rfl, rfl, rfl, rfl, rfl, rfl, rfl, rfl, rfl, rfl, rfl, rfl, rfl, rfl,
    rfl, rfl, rfl, rfl, rfl⟩

@[simp] theorem setEvents_fields (t : Table EventRecord) :
    (s.setEvents t).pending = s.pending ∧ (s.setEvents t).idles = s.idles ∧
    (s.setEvents t).now = s.now ∧ (s.setEvents t).resetAsserted = s.resetAsserted ∧
    (s.setEvents t).pfailAsserted = s.pfailAsserted ∧ (s.setEvents t).safe = s.safe ∧
    (s.setEvents t).part = s.part ∧ (s.setEvents t).scrubbing = s.scrubbing ∧
    (s.setEvents t).scrubbed = s.scrubbed ∧ (s.setEvents t).cfg = s.cfg ∧
    (s.setEvents t).drains = s.drains ∧ (s.setEvents t).rules = s.rules ∧
    (s.setEvents t).tenants = s.tenants ∧ (s.setEvents t).reclaimMap = s.reclaimMap ∧
    (s.setEvents t).captures = s.captures ∧ (s.setEvents t).refusals = s.refusals ∧
    (s.setEvents t).accounts = s.accounts ∧ (s.setEvents t).free = s.free ∧
    (s.setEvents t).grants = s.grants ∧ (s.setEvents t).waiting = s.waiting ∧
    (s.setEvents t).frames = s.frames ∧ (s.setEvents t).freed = s.freed ∧
    (s.setEvents t).nextSeq = s.nextSeq ∧ (s.setEvents t).corrected = s.corrected ∧
    (s.setEvents t).uncorrectable = s.uncorrectable ∧ (s.setEvents t).sets = s.sets ∧
    (s.setEvents t).streams = s.streams ∧ (s.setEvents t).units = s.units ∧
    (s.setEvents t).stagedCounter = s.stagedCounter ∧ (s.setEvents t).slots = s.slots ∧
    (s.setEvents t).wheelPos = s.wheelPos ∧ (s.setEvents t).nextVisit = s.nextVisit ∧
    (s.setEvents t).lanes = s.lanes ∧ (s.setEvents t).faultList = s.faultList ∧
    (s.setEvents t).reportQueue = s.reportQueue ∧ (s.setEvents t).delivered = s.delivered ∧
    (s.setEvents t).flushes = s.flushes ∧ (s.setEvents t).flushOrder = s.flushOrder ∧
    (s.setEvents t).entryState = s.entryState ∧ (s.setEvents t).entryTime = s.entryTime ∧
    (s.setEvents t).drainCount = s.drainCount ∧ (s.setEvents t).links = s.links :=
  ⟨rfl, rfl, rfl, rfl, rfl, rfl, rfl, rfl, rfl, rfl, rfl, rfl, rfl, rfl, rfl, rfl, rfl, rfl, rfl,
    rfl, rfl, rfl, rfl, rfl, rfl, rfl, rfl, rfl, rfl, rfl, rfl, rfl, rfl, rfl, rfl, rfl, rfl, rfl,
    rfl, rfl, rfl, rfl⟩

@[simp] theorem setFreed_fields (f : Nat) (v : Stored) :
    (s.setFreed f v).pending = s.pending ∧ (s.setFreed f v).idles = s.idles ∧
    (s.setFreed f v).now = s.now ∧ (s.setFreed f v).resetAsserted = s.resetAsserted ∧
    (s.setFreed f v).pfailAsserted = s.pfailAsserted ∧ (s.setFreed f v).safe = s.safe ∧
    (s.setFreed f v).alert = s.alert ∧ (s.setFreed f v).part = s.part ∧
    (s.setFreed f v).scrubbing = s.scrubbing ∧ (s.setFreed f v).scrubbed = s.scrubbed ∧
    (s.setFreed f v).cfg = s.cfg ∧ (s.setFreed f v).drains = s.drains ∧
    (s.setFreed f v).rules = s.rules ∧ (s.setFreed f v).tenants = s.tenants ∧
    (s.setFreed f v).reclaimMap = s.reclaimMap ∧ (s.setFreed f v).captures = s.captures ∧
    (s.setFreed f v).refusals = s.refusals ∧ (s.setFreed f v).accounts = s.accounts ∧
    (s.setFreed f v).free = s.free ∧ (s.setFreed f v).grants = s.grants ∧
    (s.setFreed f v).waiting = s.waiting ∧ (s.setFreed f v).frames = s.frames ∧
    (s.setFreed f v).nextSeq = s.nextSeq ∧ (s.setFreed f v).corrected = s.corrected ∧
    (s.setFreed f v).uncorrectable = s.uncorrectable ∧ (s.setFreed f v).sets = s.sets ∧
    (s.setFreed f v).streams = s.streams ∧ (s.setFreed f v).units = s.units ∧
    (s.setFreed f v).stagedCounter = s.stagedCounter ∧ (s.setFreed f v).slots = s.slots ∧
    (s.setFreed f v).wheelPos = s.wheelPos ∧ (s.setFreed f v).nextVisit = s.nextVisit ∧
    (s.setFreed f v).lanes = s.lanes ∧ (s.setFreed f v).faultList = s.faultList ∧
    (s.setFreed f v).reportQueue = s.reportQueue ∧ (s.setFreed f v).delivered = s.delivered ∧
    (s.setFreed f v).flushes = s.flushes ∧ (s.setFreed f v).flushOrder = s.flushOrder ∧
    (s.setFreed f v).entryState = s.entryState ∧ (s.setFreed f v).entryTime = s.entryTime ∧
    (s.setFreed f v).drainCount = s.drainCount ∧ (s.setFreed f v).events = s.events ∧
    (s.setFreed f v).links = s.links :=
  ⟨rfl, rfl, rfl, rfl, rfl, rfl, rfl, rfl, rfl, rfl, rfl, rfl, rfl, rfl, rfl, rfl, rfl, rfl, rfl,
    rfl, rfl, rfl, rfl, rfl, rfl, rfl, rfl, rfl, rfl, rfl, rfl, rfl, rfl, rfl, rfl, rfl, rfl, rfl,
    rfl, rfl, rfl, rfl, rfl⟩

@[simp] theorem clearFreed_fields (f : Nat) :
    (s.clearFreed f).pending = s.pending ∧ (s.clearFreed f).idles = s.idles ∧
    (s.clearFreed f).now = s.now ∧ (s.clearFreed f).resetAsserted = s.resetAsserted ∧
    (s.clearFreed f).pfailAsserted = s.pfailAsserted ∧ (s.clearFreed f).safe = s.safe ∧
    (s.clearFreed f).alert = s.alert ∧ (s.clearFreed f).part = s.part ∧
    (s.clearFreed f).scrubbing = s.scrubbing ∧ (s.clearFreed f).scrubbed = s.scrubbed ∧
    (s.clearFreed f).cfg = s.cfg ∧ (s.clearFreed f).drains = s.drains ∧
    (s.clearFreed f).rules = s.rules ∧ (s.clearFreed f).tenants = s.tenants ∧
    (s.clearFreed f).reclaimMap = s.reclaimMap ∧ (s.clearFreed f).captures = s.captures ∧
    (s.clearFreed f).refusals = s.refusals ∧ (s.clearFreed f).accounts = s.accounts ∧
    (s.clearFreed f).free = s.free ∧ (s.clearFreed f).grants = s.grants ∧
    (s.clearFreed f).waiting = s.waiting ∧ (s.clearFreed f).frames = s.frames ∧
    (s.clearFreed f).nextSeq = s.nextSeq ∧ (s.clearFreed f).corrected = s.corrected ∧
    (s.clearFreed f).uncorrectable = s.uncorrectable ∧ (s.clearFreed f).sets = s.sets ∧
    (s.clearFreed f).streams = s.streams ∧ (s.clearFreed f).units = s.units ∧
    (s.clearFreed f).stagedCounter = s.stagedCounter ∧ (s.clearFreed f).slots = s.slots ∧
    (s.clearFreed f).wheelPos = s.wheelPos ∧ (s.clearFreed f).nextVisit = s.nextVisit ∧
    (s.clearFreed f).lanes = s.lanes ∧ (s.clearFreed f).faultList = s.faultList ∧
    (s.clearFreed f).reportQueue = s.reportQueue ∧ (s.clearFreed f).delivered = s.delivered ∧
    (s.clearFreed f).flushes = s.flushes ∧ (s.clearFreed f).flushOrder = s.flushOrder ∧
    (s.clearFreed f).entryState = s.entryState ∧ (s.clearFreed f).entryTime = s.entryTime ∧
    (s.clearFreed f).drainCount = s.drainCount ∧ (s.clearFreed f).events = s.events ∧
    (s.clearFreed f).links = s.links :=
  ⟨rfl, rfl, rfl, rfl, rfl, rfl, rfl, rfl, rfl, rfl, rfl, rfl, rfl, rfl, rfl, rfl, rfl, rfl, rfl,
    rfl, rfl, rfl, rfl, rfl, rfl, rfl, rfl, rfl, rfl, rfl, rfl, rfl, rfl, rfl, rfl, rfl, rfl, rfl,
    rfl, rfl, rfl, rfl, rfl⟩

/-! ### What an update leaves of the other records -/

@[simp] theorem setRule_records (r : Nat) (v : Rule) :
    (s.setRule r v).tenant = s.tenant ∧ (s.setRule r v).account = s.account ∧
    (s.setRule r v).grant? = s.grant? ∧ (s.setRule r v).frame? = s.frame? ∧
    (s.setRule r v).indexSet = s.indexSet ∧ (s.setRule r v).stream = s.stream ∧
    (s.setRule r v).unit? = s.unit? ∧ (s.setRule r v).slot = s.slot ∧
    (s.setRule r v).lane = s.lane ∧ (s.setRule r v).drain = s.drain ∧
    (s.setRule r v).flush? = s.flush? ∧ (s.setRule r v).link = s.link ∧
    (s.setRule r v).event = s.event ∧ (s.setRule r v).usedRecords = s.usedRecords ∧
    (s.setRule r v).heldFrames = s.heldFrames :=
  ⟨rfl, rfl, rfl, rfl, rfl, rfl, rfl, rfl, rfl, rfl, rfl, rfl, rfl, rfl, rfl⟩

@[simp] theorem setTenant_records (t : Nat) (v : Tenant) :
    (s.setTenant t v).rule = s.rule ∧ (s.setTenant t v).account = s.account ∧
    (s.setTenant t v).grant? = s.grant? ∧ (s.setTenant t v).frame? = s.frame? ∧
    (s.setTenant t v).indexSet = s.indexSet ∧ (s.setTenant t v).stream = s.stream ∧
    (s.setTenant t v).unit? = s.unit? ∧ (s.setTenant t v).slot = s.slot ∧
    (s.setTenant t v).lane = s.lane ∧ (s.setTenant t v).drain = s.drain ∧
    (s.setTenant t v).flush? = s.flush? ∧ (s.setTenant t v).link = s.link ∧
    (s.setTenant t v).event = s.event ∧ (s.setTenant t v).usedRecords = s.usedRecords ∧
    (s.setTenant t v).heldFrames = s.heldFrames :=
  ⟨rfl, rfl, rfl, rfl, rfl, rfl, rfl, rfl, rfl, rfl, rfl, rfl, rfl, rfl, rfl⟩

@[simp] theorem setAccount_records (a : Nat) (v : Account) :
    (s.setAccount a v).rule = s.rule ∧ (s.setAccount a v).tenant = s.tenant ∧
    (s.setAccount a v).grant? = s.grant? ∧ (s.setAccount a v).frame? = s.frame? ∧
    (s.setAccount a v).indexSet = s.indexSet ∧ (s.setAccount a v).stream = s.stream ∧
    (s.setAccount a v).unit? = s.unit? ∧ (s.setAccount a v).slot = s.slot ∧
    (s.setAccount a v).lane = s.lane ∧ (s.setAccount a v).drain = s.drain ∧
    (s.setAccount a v).flush? = s.flush? ∧ (s.setAccount a v).link = s.link ∧
    (s.setAccount a v).event = s.event ∧ (s.setAccount a v).usedRecords = s.usedRecords ∧
    (s.setAccount a v).heldFrames = s.heldFrames :=
  ⟨rfl, rfl, rfl, rfl, rfl, rfl, rfl, rfl, rfl, rfl, rfl, rfl, rfl, rfl, rfl⟩

@[simp] theorem setGrant_records (g : Nat) (v : Grant) :
    (s.setGrant g v).rule = s.rule ∧ (s.setGrant g v).tenant = s.tenant ∧
    (s.setGrant g v).account = s.account ∧ (s.setGrant g v).frame? = s.frame? ∧
    (s.setGrant g v).indexSet = s.indexSet ∧ (s.setGrant g v).stream = s.stream ∧
    (s.setGrant g v).unit? = s.unit? ∧ (s.setGrant g v).slot = s.slot ∧
    (s.setGrant g v).lane = s.lane ∧ (s.setGrant g v).drain = s.drain ∧
    (s.setGrant g v).flush? = s.flush? ∧ (s.setGrant g v).link = s.link ∧
    (s.setGrant g v).event = s.event ∧ (s.setGrant g v).usedRecords = s.usedRecords ∧
    (s.setGrant g v).heldFrames = s.heldFrames :=
  ⟨rfl, rfl, rfl, rfl, rfl, rfl, rfl, rfl, rfl, rfl, rfl, rfl, rfl, rfl, rfl⟩

@[simp] theorem clearGrant_records (g : Nat) :
    (s.clearGrant g).rule = s.rule ∧ (s.clearGrant g).tenant = s.tenant ∧
    (s.clearGrant g).account = s.account ∧ (s.clearGrant g).frame? = s.frame? ∧
    (s.clearGrant g).indexSet = s.indexSet ∧ (s.clearGrant g).stream = s.stream ∧
    (s.clearGrant g).unit? = s.unit? ∧ (s.clearGrant g).slot = s.slot ∧
    (s.clearGrant g).lane = s.lane ∧ (s.clearGrant g).drain = s.drain ∧
    (s.clearGrant g).flush? = s.flush? ∧ (s.clearGrant g).link = s.link ∧
    (s.clearGrant g).event = s.event ∧ (s.clearGrant g).usedRecords = s.usedRecords ∧
    (s.clearGrant g).heldFrames = s.heldFrames :=
  ⟨rfl, rfl, rfl, rfl, rfl, rfl, rfl, rfl, rfl, rfl, rfl, rfl, rfl, rfl, rfl⟩

@[simp] theorem setFrame_records (f : Nat) (v : Frame) :
    (s.setFrame f v).rule = s.rule ∧ (s.setFrame f v).tenant = s.tenant ∧
    (s.setFrame f v).account = s.account ∧ (s.setFrame f v).grant? = s.grant? ∧
    (s.setFrame f v).indexSet = s.indexSet ∧ (s.setFrame f v).stream = s.stream ∧
    (s.setFrame f v).unit? = s.unit? ∧ (s.setFrame f v).slot = s.slot ∧
    (s.setFrame f v).lane = s.lane ∧ (s.setFrame f v).drain = s.drain ∧
    (s.setFrame f v).flush? = s.flush? ∧ (s.setFrame f v).link = s.link ∧
    (s.setFrame f v).event = s.event ∧ (s.setFrame f v).usedRecords = s.usedRecords :=
  ⟨rfl, rfl, rfl, rfl, rfl, rfl, rfl, rfl, rfl, rfl, rfl, rfl, rfl, rfl⟩

@[simp] theorem clearFrame_records (f : Nat) :
    (s.clearFrame f).rule = s.rule ∧ (s.clearFrame f).tenant = s.tenant ∧
    (s.clearFrame f).account = s.account ∧ (s.clearFrame f).grant? = s.grant? ∧
    (s.clearFrame f).indexSet = s.indexSet ∧ (s.clearFrame f).stream = s.stream ∧
    (s.clearFrame f).unit? = s.unit? ∧ (s.clearFrame f).slot = s.slot ∧
    (s.clearFrame f).lane = s.lane ∧ (s.clearFrame f).drain = s.drain ∧
    (s.clearFrame f).flush? = s.flush? ∧ (s.clearFrame f).link = s.link ∧
    (s.clearFrame f).event = s.event ∧ (s.clearFrame f).usedRecords = s.usedRecords :=
  ⟨rfl, rfl, rfl, rfl, rfl, rfl, rfl, rfl, rfl, rfl, rfl, rfl, rfl, rfl⟩

@[simp] theorem setIndexSet_records (x : Nat) (v : IndexSet) :
    (s.setIndexSet x v).rule = s.rule ∧ (s.setIndexSet x v).tenant = s.tenant ∧
    (s.setIndexSet x v).account = s.account ∧ (s.setIndexSet x v).grant? = s.grant? ∧
    (s.setIndexSet x v).frame? = s.frame? ∧ (s.setIndexSet x v).stream = s.stream ∧
    (s.setIndexSet x v).unit? = s.unit? ∧ (s.setIndexSet x v).slot = s.slot ∧
    (s.setIndexSet x v).lane = s.lane ∧ (s.setIndexSet x v).drain = s.drain ∧
    (s.setIndexSet x v).flush? = s.flush? ∧ (s.setIndexSet x v).link = s.link ∧
    (s.setIndexSet x v).event = s.event ∧ (s.setIndexSet x v).usedRecords = s.usedRecords ∧
    (s.setIndexSet x v).heldFrames = s.heldFrames :=
  ⟨rfl, rfl, rfl, rfl, rfl, rfl, rfl, rfl, rfl, rfl, rfl, rfl, rfl, rfl, rfl⟩

@[simp] theorem setStream_records (k : Nat) (v : Stream) :
    (s.setStream k v).rule = s.rule ∧ (s.setStream k v).tenant = s.tenant ∧
    (s.setStream k v).account = s.account ∧ (s.setStream k v).grant? = s.grant? ∧
    (s.setStream k v).frame? = s.frame? ∧ (s.setStream k v).indexSet = s.indexSet ∧
    (s.setStream k v).unit? = s.unit? ∧ (s.setStream k v).slot = s.slot ∧
    (s.setStream k v).lane = s.lane ∧ (s.setStream k v).drain = s.drain ∧
    (s.setStream k v).flush? = s.flush? ∧ (s.setStream k v).link = s.link ∧
    (s.setStream k v).event = s.event ∧ (s.setStream k v).usedRecords = s.usedRecords ∧
    (s.setStream k v).heldFrames = s.heldFrames :=
  ⟨rfl, rfl, rfl, rfl, rfl, rfl, rfl, rfl, rfl, rfl, rfl, rfl, rfl, rfl, rfl⟩

@[simp] theorem setUnit_records (v : Nat) (u : UnitRecord) :
    (s.setUnit v u).rule = s.rule ∧ (s.setUnit v u).tenant = s.tenant ∧
    (s.setUnit v u).account = s.account ∧ (s.setUnit v u).grant? = s.grant? ∧
    (s.setUnit v u).frame? = s.frame? ∧ (s.setUnit v u).indexSet = s.indexSet ∧
    (s.setUnit v u).stream = s.stream ∧ (s.setUnit v u).slot = s.slot ∧
    (s.setUnit v u).lane = s.lane ∧ (s.setUnit v u).drain = s.drain ∧
    (s.setUnit v u).flush? = s.flush? ∧ (s.setUnit v u).link = s.link ∧
    (s.setUnit v u).event = s.event ∧ (s.setUnit v u).heldFrames = s.heldFrames :=
  ⟨rfl, rfl, rfl, rfl, rfl, rfl, rfl, rfl, rfl, rfl, rfl, rfl, rfl, rfl⟩

@[simp] theorem clearUnit_records (v : Nat) :
    (s.clearUnit v).rule = s.rule ∧ (s.clearUnit v).tenant = s.tenant ∧
    (s.clearUnit v).account = s.account ∧ (s.clearUnit v).grant? = s.grant? ∧
    (s.clearUnit v).frame? = s.frame? ∧ (s.clearUnit v).indexSet = s.indexSet ∧
    (s.clearUnit v).stream = s.stream ∧ (s.clearUnit v).slot = s.slot ∧
    (s.clearUnit v).lane = s.lane ∧ (s.clearUnit v).drain = s.drain ∧
    (s.clearUnit v).flush? = s.flush? ∧ (s.clearUnit v).link = s.link ∧
    (s.clearUnit v).event = s.event ∧ (s.clearUnit v).heldFrames = s.heldFrames :=
  ⟨rfl, rfl, rfl, rfl, rfl, rfl, rfl, rfl, rfl, rfl, rfl, rfl, rfl, rfl⟩

@[simp] theorem setSlot_records (i : Nat) (v : Slot) :
    (s.setSlot i v).rule = s.rule ∧ (s.setSlot i v).tenant = s.tenant ∧
    (s.setSlot i v).account = s.account ∧ (s.setSlot i v).grant? = s.grant? ∧
    (s.setSlot i v).frame? = s.frame? ∧ (s.setSlot i v).indexSet = s.indexSet ∧
    (s.setSlot i v).stream = s.stream ∧ (s.setSlot i v).unit? = s.unit? ∧
    (s.setSlot i v).lane = s.lane ∧ (s.setSlot i v).drain = s.drain ∧
    (s.setSlot i v).flush? = s.flush? ∧ (s.setSlot i v).link = s.link ∧
    (s.setSlot i v).event = s.event ∧ (s.setSlot i v).usedRecords = s.usedRecords ∧
    (s.setSlot i v).heldFrames = s.heldFrames :=
  ⟨rfl, rfl, rfl, rfl, rfl, rfl, rfl, rfl, rfl, rfl, rfl, rfl, rfl, rfl, rfl⟩

@[simp] theorem setLane_records (l : Nat) (v : Lane) :
    (s.setLane l v).rule = s.rule ∧ (s.setLane l v).tenant = s.tenant ∧
    (s.setLane l v).account = s.account ∧ (s.setLane l v).grant? = s.grant? ∧
    (s.setLane l v).frame? = s.frame? ∧ (s.setLane l v).indexSet = s.indexSet ∧
    (s.setLane l v).stream = s.stream ∧ (s.setLane l v).unit? = s.unit? ∧
    (s.setLane l v).slot = s.slot ∧ (s.setLane l v).drain = s.drain ∧
    (s.setLane l v).flush? = s.flush? ∧ (s.setLane l v).link = s.link ∧
    (s.setLane l v).event = s.event ∧ (s.setLane l v).usedRecords = s.usedRecords ∧
    (s.setLane l v).heldFrames = s.heldFrames :=
  ⟨rfl, rfl, rfl, rfl, rfl, rfl, rfl, rfl, rfl, rfl, rfl, rfl, rfl, rfl, rfl⟩

@[simp] theorem setDrain_records (d : Nat) (v : DrainConfig) :
    (s.setDrain d v).rule = s.rule ∧ (s.setDrain d v).tenant = s.tenant ∧
    (s.setDrain d v).account = s.account ∧ (s.setDrain d v).grant? = s.grant? ∧
    (s.setDrain d v).frame? = s.frame? ∧ (s.setDrain d v).indexSet = s.indexSet ∧
    (s.setDrain d v).stream = s.stream ∧ (s.setDrain d v).unit? = s.unit? ∧
    (s.setDrain d v).slot = s.slot ∧ (s.setDrain d v).lane = s.lane ∧
    (s.setDrain d v).flush? = s.flush? ∧ (s.setDrain d v).link = s.link ∧
    (s.setDrain d v).event = s.event ∧ (s.setDrain d v).usedRecords = s.usedRecords ∧
    (s.setDrain d v).heldFrames = s.heldFrames :=
  ⟨rfl, rfl, rfl, rfl, rfl, rfl, rfl, rfl, rfl, rfl, rfl, rfl, rfl, rfl, rfl⟩

@[simp] theorem setFlush_records (e : Nat) (v : FlushEntry) :
    (s.setFlush e v).rule = s.rule ∧ (s.setFlush e v).tenant = s.tenant ∧
    (s.setFlush e v).account = s.account ∧ (s.setFlush e v).grant? = s.grant? ∧
    (s.setFlush e v).frame? = s.frame? ∧ (s.setFlush e v).indexSet = s.indexSet ∧
    (s.setFlush e v).stream = s.stream ∧ (s.setFlush e v).unit? = s.unit? ∧
    (s.setFlush e v).slot = s.slot ∧ (s.setFlush e v).lane = s.lane ∧
    (s.setFlush e v).drain = s.drain ∧ (s.setFlush e v).link = s.link ∧
    (s.setFlush e v).event = s.event ∧ (s.setFlush e v).usedRecords = s.usedRecords ∧
    (s.setFlush e v).heldFrames = s.heldFrames :=
  ⟨rfl, rfl, rfl, rfl, rfl, rfl, rfl, rfl, rfl, rfl, rfl, rfl, rfl, rfl, rfl⟩

@[simp] theorem setLink_records (l : Nat) (v : Link) :
    (s.setLink l v).rule = s.rule ∧ (s.setLink l v).tenant = s.tenant ∧
    (s.setLink l v).account = s.account ∧ (s.setLink l v).grant? = s.grant? ∧
    (s.setLink l v).frame? = s.frame? ∧ (s.setLink l v).indexSet = s.indexSet ∧
    (s.setLink l v).stream = s.stream ∧ (s.setLink l v).unit? = s.unit? ∧
    (s.setLink l v).slot = s.slot ∧ (s.setLink l v).lane = s.lane ∧
    (s.setLink l v).drain = s.drain ∧ (s.setLink l v).flush? = s.flush? ∧
    (s.setLink l v).event = s.event ∧ (s.setLink l v).usedRecords = s.usedRecords ∧
    (s.setLink l v).heldFrames = s.heldFrames :=
  ⟨rfl, rfl, rfl, rfl, rfl, rfl, rfl, rfl, rfl, rfl, rfl, rfl, rfl, rfl, rfl⟩

@[simp] theorem setFree_records (n : Nat) :
    (s.setFree n).rule = s.rule ∧ (s.setFree n).tenant = s.tenant ∧
    (s.setFree n).account = s.account ∧ (s.setFree n).grant? = s.grant? ∧
    (s.setFree n).frame? = s.frame? ∧ (s.setFree n).indexSet = s.indexSet ∧
    (s.setFree n).stream = s.stream ∧ (s.setFree n).unit? = s.unit? ∧
    (s.setFree n).slot = s.slot ∧ (s.setFree n).lane = s.lane ∧ (s.setFree n).drain = s.drain ∧
    (s.setFree n).flush? = s.flush? ∧ (s.setFree n).link = s.link ∧
    (s.setFree n).event = s.event ∧ (s.setFree n).usedRecords = s.usedRecords ∧
    (s.setFree n).heldFrames = s.heldFrames :=
  ⟨rfl, rfl, rfl, rfl, rfl, rfl, rfl, rfl, rfl, rfl, rfl, rfl, rfl, rfl, rfl, rfl⟩

@[simp] theorem setWaiting_records (w : List Entry) :
    (s.setWaiting w).rule = s.rule ∧ (s.setWaiting w).tenant = s.tenant ∧
    (s.setWaiting w).account = s.account ∧ (s.setWaiting w).grant? = s.grant? ∧
    (s.setWaiting w).frame? = s.frame? ∧ (s.setWaiting w).indexSet = s.indexSet ∧
    (s.setWaiting w).stream = s.stream ∧ (s.setWaiting w).unit? = s.unit? ∧
    (s.setWaiting w).slot = s.slot ∧ (s.setWaiting w).lane = s.lane ∧
    (s.setWaiting w).drain = s.drain ∧ (s.setWaiting w).flush? = s.flush? ∧
    (s.setWaiting w).link = s.link ∧ (s.setWaiting w).event = s.event ∧
    (s.setWaiting w).usedRecords = s.usedRecords ∧ (s.setWaiting w).heldFrames = s.heldFrames :=
  ⟨rfl, rfl, rfl, rfl, rfl, rfl, rfl, rfl, rfl, rfl, rfl, rfl, rfl, rfl, rfl, rfl⟩

@[simp] theorem setNextSeq_records (n : Nat) :
    (s.setNextSeq n).rule = s.rule ∧ (s.setNextSeq n).tenant = s.tenant ∧
    (s.setNextSeq n).account = s.account ∧ (s.setNextSeq n).grant? = s.grant? ∧
    (s.setNextSeq n).frame? = s.frame? ∧ (s.setNextSeq n).indexSet = s.indexSet ∧
    (s.setNextSeq n).stream = s.stream ∧ (s.setNextSeq n).unit? = s.unit? ∧
    (s.setNextSeq n).slot = s.slot ∧ (s.setNextSeq n).lane = s.lane ∧
    (s.setNextSeq n).drain = s.drain ∧ (s.setNextSeq n).flush? = s.flush? ∧
    (s.setNextSeq n).link = s.link ∧ (s.setNextSeq n).event = s.event ∧
    (s.setNextSeq n).usedRecords = s.usedRecords ∧ (s.setNextSeq n).heldFrames = s.heldFrames :=
  ⟨rfl, rfl, rfl, rfl, rfl, rfl, rfl, rfl, rfl, rfl, rfl, rfl, rfl, rfl, rfl, rfl⟩

@[simp] theorem setStagedCounter_records (n : Nat) :
    (s.setStagedCounter n).rule = s.rule ∧ (s.setStagedCounter n).tenant = s.tenant ∧
    (s.setStagedCounter n).account = s.account ∧ (s.setStagedCounter n).grant? = s.grant? ∧
    (s.setStagedCounter n).frame? = s.frame? ∧ (s.setStagedCounter n).indexSet = s.indexSet ∧
    (s.setStagedCounter n).stream = s.stream ∧ (s.setStagedCounter n).unit? = s.unit? ∧
    (s.setStagedCounter n).slot = s.slot ∧ (s.setStagedCounter n).lane = s.lane ∧
    (s.setStagedCounter n).drain = s.drain ∧ (s.setStagedCounter n).flush? = s.flush? ∧
    (s.setStagedCounter n).link = s.link ∧ (s.setStagedCounter n).event = s.event ∧
    (s.setStagedCounter n).usedRecords = s.usedRecords ∧
    (s.setStagedCounter n).heldFrames = s.heldFrames :=
  ⟨rfl, rfl, rfl, rfl, rfl, rfl, rfl, rfl, rfl, rfl, rfl, rfl, rfl, rfl, rfl, rfl⟩

@[simp] theorem setDrainCount_records (n : Nat) :
    (s.setDrainCount n).rule = s.rule ∧ (s.setDrainCount n).tenant = s.tenant ∧
    (s.setDrainCount n).account = s.account ∧ (s.setDrainCount n).grant? = s.grant? ∧
    (s.setDrainCount n).frame? = s.frame? ∧ (s.setDrainCount n).indexSet = s.indexSet ∧
    (s.setDrainCount n).stream = s.stream ∧ (s.setDrainCount n).unit? = s.unit? ∧
    (s.setDrainCount n).slot = s.slot ∧ (s.setDrainCount n).lane = s.lane ∧
    (s.setDrainCount n).drain = s.drain ∧ (s.setDrainCount n).flush? = s.flush? ∧
    (s.setDrainCount n).link = s.link ∧ (s.setDrainCount n).event = s.event ∧
    (s.setDrainCount n).usedRecords = s.usedRecords ∧
    (s.setDrainCount n).heldFrames = s.heldFrames :=
  ⟨rfl, rfl, rfl, rfl, rfl, rfl, rfl, rfl, rfl, rfl, rfl, rfl, rfl, rfl, rfl, rfl⟩

@[simp] theorem setFaultList_records (l : List Nat) :
    (s.setFaultList l).rule = s.rule ∧ (s.setFaultList l).tenant = s.tenant ∧
    (s.setFaultList l).account = s.account ∧ (s.setFaultList l).grant? = s.grant? ∧
    (s.setFaultList l).frame? = s.frame? ∧ (s.setFaultList l).indexSet = s.indexSet ∧
    (s.setFaultList l).stream = s.stream ∧ (s.setFaultList l).unit? = s.unit? ∧
    (s.setFaultList l).slot = s.slot ∧ (s.setFaultList l).lane = s.lane ∧
    (s.setFaultList l).drain = s.drain ∧ (s.setFaultList l).flush? = s.flush? ∧
    (s.setFaultList l).link = s.link ∧ (s.setFaultList l).event = s.event ∧
    (s.setFaultList l).usedRecords = s.usedRecords ∧ (s.setFaultList l).heldFrames = s.heldFrames :=
  ⟨rfl, rfl, rfl, rfl, rfl, rfl, rfl, rfl, rfl, rfl, rfl, rfl, rfl, rfl, rfl, rfl⟩

@[simp] theorem setReportQueue_records (q : List ReportItem) :
    (s.setReportQueue q).rule = s.rule ∧ (s.setReportQueue q).tenant = s.tenant ∧
    (s.setReportQueue q).account = s.account ∧ (s.setReportQueue q).grant? = s.grant? ∧
    (s.setReportQueue q).frame? = s.frame? ∧ (s.setReportQueue q).indexSet = s.indexSet ∧
    (s.setReportQueue q).stream = s.stream ∧ (s.setReportQueue q).unit? = s.unit? ∧
    (s.setReportQueue q).slot = s.slot ∧ (s.setReportQueue q).lane = s.lane ∧
    (s.setReportQueue q).drain = s.drain ∧ (s.setReportQueue q).flush? = s.flush? ∧
    (s.setReportQueue q).link = s.link ∧ (s.setReportQueue q).event = s.event ∧
    (s.setReportQueue q).usedRecords = s.usedRecords ∧
    (s.setReportQueue q).heldFrames = s.heldFrames :=
  ⟨rfl, rfl, rfl, rfl, rfl, rfl, rfl, rfl, rfl, rfl, rfl, rfl, rfl, rfl, rfl, rfl⟩

@[simp] theorem setEvents_records (t : Table EventRecord) :
    (s.setEvents t).rule = s.rule ∧ (s.setEvents t).tenant = s.tenant ∧
    (s.setEvents t).account = s.account ∧ (s.setEvents t).grant? = s.grant? ∧
    (s.setEvents t).frame? = s.frame? ∧ (s.setEvents t).indexSet = s.indexSet ∧
    (s.setEvents t).stream = s.stream ∧ (s.setEvents t).unit? = s.unit? ∧
    (s.setEvents t).slot = s.slot ∧ (s.setEvents t).lane = s.lane ∧
    (s.setEvents t).drain = s.drain ∧ (s.setEvents t).flush? = s.flush? ∧
    (s.setEvents t).link = s.link ∧ (s.setEvents t).usedRecords = s.usedRecords ∧
    (s.setEvents t).heldFrames = s.heldFrames :=
  ⟨rfl, rfl, rfl, rfl, rfl, rfl, rfl, rfl, rfl, rfl, rfl, rfl, rfl, rfl, rfl⟩

@[simp] theorem setFreed_records (f : Nat) (v : Stored) :
    (s.setFreed f v).rule = s.rule ∧ (s.setFreed f v).tenant = s.tenant ∧
    (s.setFreed f v).account = s.account ∧ (s.setFreed f v).grant? = s.grant? ∧
    (s.setFreed f v).frame? = s.frame? ∧ (s.setFreed f v).indexSet = s.indexSet ∧
    (s.setFreed f v).stream = s.stream ∧ (s.setFreed f v).unit? = s.unit? ∧
    (s.setFreed f v).slot = s.slot ∧ (s.setFreed f v).lane = s.lane ∧
    (s.setFreed f v).drain = s.drain ∧ (s.setFreed f v).flush? = s.flush? ∧
    (s.setFreed f v).link = s.link ∧ (s.setFreed f v).event = s.event ∧
    (s.setFreed f v).usedRecords = s.usedRecords ∧ (s.setFreed f v).heldFrames = s.heldFrames :=
  ⟨rfl, rfl, rfl, rfl, rfl, rfl, rfl, rfl, rfl, rfl, rfl, rfl, rfl, rfl, rfl, rfl⟩

@[simp] theorem clearFreed_records (f : Nat) :
    (s.clearFreed f).rule = s.rule ∧ (s.clearFreed f).tenant = s.tenant ∧
    (s.clearFreed f).account = s.account ∧ (s.clearFreed f).grant? = s.grant? ∧
    (s.clearFreed f).frame? = s.frame? ∧ (s.clearFreed f).indexSet = s.indexSet ∧
    (s.clearFreed f).stream = s.stream ∧ (s.clearFreed f).unit? = s.unit? ∧
    (s.clearFreed f).slot = s.slot ∧ (s.clearFreed f).lane = s.lane ∧
    (s.clearFreed f).drain = s.drain ∧ (s.clearFreed f).flush? = s.flush? ∧
    (s.clearFreed f).link = s.link ∧ (s.clearFreed f).event = s.event ∧
    (s.clearFreed f).usedRecords = s.usedRecords ∧ (s.clearFreed f).heldFrames = s.heldFrames :=
  ⟨rfl, rfl, rfl, rfl, rfl, rfl, rfl, rfl, rfl, rfl, rfl, rfl, rfl, rfl, rfl, rfl⟩

/-! ### Reading a record back -/

theorem rule_setRule (k k' : Nat) (v : Rule) :
    (s.setRule k v).rule k' = if k = k' then v else s.rule k' :=
  Table.getD_put _ _ _ _ _

@[simp] theorem rule_setRule_same (k : Nat) (v : Rule) : (s.setRule k v).rule k = v := by
  rw [rule_setRule, if_pos rfl]

theorem tenant_setTenant (k k' : Nat) (v : Tenant) :
    (s.setTenant k v).tenant k' = if k = k' then v else s.tenant k' :=
  Table.getD_put _ _ _ _ _

@[simp] theorem tenant_setTenant_same (k : Nat) (v : Tenant) : (s.setTenant k v).tenant k = v := by
  rw [tenant_setTenant, if_pos rfl]

theorem account_setAccount (k k' : Nat) (v : Account) :
    (s.setAccount k v).account k' = if k = k' then v else s.account k' :=
  Table.getD_put _ _ _ _ _

@[simp] theorem account_setAccount_same (k : Nat) (v : Account) : (s.setAccount k v).account k = v := by
  rw [account_setAccount, if_pos rfl]

theorem indexSet_setIndexSet (k k' : Nat) (v : IndexSet) :
    (s.setIndexSet k v).indexSet k' = if k = k' then v else s.indexSet k' :=
  Table.getD_put _ _ _ _ _

@[simp] theorem indexSet_setIndexSet_same (k : Nat) (v : IndexSet) : (s.setIndexSet k v).indexSet k = v := by
  rw [indexSet_setIndexSet, if_pos rfl]

theorem stream_setStream (k k' : Nat) (v : Stream) :
    (s.setStream k v).stream k' = if k = k' then v else s.stream k' :=
  Table.getD_put _ _ _ _ _

@[simp] theorem stream_setStream_same (k : Nat) (v : Stream) : (s.setStream k v).stream k = v := by
  rw [stream_setStream, if_pos rfl]

theorem lane_setLane (k k' : Nat) (v : Lane) :
    (s.setLane k v).lane k' = if k = k' then v else s.lane k' :=
  Table.getD_put _ _ _ _ _

@[simp] theorem lane_setLane_same (k : Nat) (v : Lane) : (s.setLane k v).lane k = v := by
  rw [lane_setLane, if_pos rfl]

theorem drain_setDrain (k k' : Nat) (v : DrainConfig) :
    (s.setDrain k v).drain k' = if k = k' then v else s.drain k' :=
  Table.getD_put _ _ _ _ _

@[simp] theorem drain_setDrain_same (k : Nat) (v : DrainConfig) : (s.setDrain k v).drain k = v := by
  rw [drain_setDrain, if_pos rfl]

theorem link_setLink (k k' : Nat) (v : Link) :
    (s.setLink k v).link k' = if k = k' then v else s.link k' :=
  Table.getD_put _ _ _ _ _

@[simp] theorem link_setLink_same (k : Nat) (v : Link) : (s.setLink k v).link k = v := by
  rw [link_setLink, if_pos rfl]

theorem slot_setSlot (k k' : Nat) (v : Slot) :
    (s.setSlot k v).slot k' = if k = k' then v else s.slot k' := by
  by_cases h : k = k'
  · subst h; simp [slot, setSlot, Table.getD_put]
  · simp only [slot, setSlot, Table.getD, Table.put, if_neg h]
    split <;> simp [Table.find?_erase, Table.find?_insert, h]

theorem grant?_setGrant (k k' : Nat) (v : Grant) :
    (s.setGrant k v).grant? k' = if k = k' then some v else s.grant? k' :=
  Table.find?_insert _ _ _ _

@[simp] theorem grant?_setGrant_same (k : Nat) (v : Grant) : (s.setGrant k v).grant? k = some v := by
  rw [grant?_setGrant, if_pos rfl]

theorem grant?_clearGrant (k k' : Nat) :
    (s.clearGrant k).grant? k' = if k = k' then none else s.grant? k' :=
  Table.find?_erase _ _ _

theorem frame?_setFrame (k k' : Nat) (v : Frame) :
    (s.setFrame k v).frame? k' = if k = k' then some v else s.frame? k' :=
  Table.find?_insert _ _ _ _

@[simp] theorem frame?_setFrame_same (k : Nat) (v : Frame) : (s.setFrame k v).frame? k = some v := by
  rw [frame?_setFrame, if_pos rfl]

theorem frame?_clearFrame (k k' : Nat) :
    (s.clearFrame k).frame? k' = if k = k' then none else s.frame? k' :=
  Table.find?_erase _ _ _

theorem unit?_setUnit (k k' : Nat) (v : UnitRecord) :
    (s.setUnit k v).unit? k' = if k = k' then some v else s.unit? k' :=
  Table.find?_insert _ _ _ _

@[simp] theorem unit?_setUnit_same (k : Nat) (v : UnitRecord) : (s.setUnit k v).unit? k = some v := by
  rw [unit?_setUnit, if_pos rfl]

theorem unit?_clearUnit (k k' : Nat) :
    (s.clearUnit k).unit? k' = if k = k' then none else s.unit? k' :=
  Table.find?_erase _ _ _

theorem flush?_setFlush (k k' : Nat) (v : FlushEntry) :
    (s.setFlush k v).flush? k' = if k = k' then some v else s.flush? k' :=
  Table.find?_insert _ _ _ _

@[simp] theorem flush?_setFlush_same (k : Nat) (v : FlushEntry) : (s.setFlush k v).flush? k = some v := by
  rw [flush?_setFlush, if_pos rfl]

end Sys2Proof.Machine.State
end

