-- ==== Sys2Proof/Laws/Frames.lean ====
section
/-! SUPPORT. What the shared operations leave alone. An operation is a chain of single updates, so a property
that survives the updates it is made of survives it; the frame of an operation is that fact for the property
"all but these fields are as in s". -/

namespace Sys2Proof.Machine

/-- A property that survives a fold's operation survives the fold. -/
theorem fold_keeps {α : Type} {I : State → Prop} (f : State → α → State)
    (hf : ∀ s a, I s → I (f s a)) (l : List α) {s : State} (h : I s) : I (l.foldl f s) := by
  induction l generalizing s with
  | nil => exact h
  | cons a l ih => exact ih (hf _ _ h)

/-! ### Staging, grants and the re-test walk -/

/-- The states a re-test can leave. -/
def retestState : Retest → State
  | .keep _ s => s
  | .leave s => s

/-- A property that survives the single updates of staging and grants. -/
structure SurvivesGrants (I : State → Prop) : Prop where
  account : ∀ s a v, I s → I (s.setAccount a v)
  free : ∀ s n, I s → I (s.setFree n)
  grant : ∀ s g v, I s → I (s.setGrant g v)
  clearGrant : ∀ s g, I s → I (s.clearGrant g)
  set : ∀ s x v, I s → I (s.setIndexSet x v)
  stream : ∀ s k v, I s → I (s.setStream k v)
  unit : ∀ s v u, (s.unit? v).isSome = true → I s → I (s.setUnit v u)
  staged : ∀ s n, I s → I (s.setStagedCounter n)
  event : ∀ s e, I s → I (setEvent e s)
  captured : ∀ s c, I s → I (capture c s)
  place : ∀ s l m, I s → I (place l m s)
  retake : ∀ s l c k, I s → I (callRetake l c k s)

namespace SurvivesGrants

variable {I : State → Prop} (K : SurvivesGrants I) {s : State}

include K

theorem setEventIf (b : Bool) (e : Event) (h : I s) : I (setEventIf b e s) := by
  unfold Machine.setEventIf; split
  · exact K.event _ _ h
  · exact h

theorem stageUnit (c : CloseCause) (v : Nat) (h : I s) : I (stageUnit c v s) := by
  unfold Machine.stageUnit
  split
  · rename_i u hu
    split
    · exact K.staged _ _ (K.stream _ _ _ (K.unit _ _ _ (by rw [hu]; rfl) h))
    · exact h
  · exact h

theorem stageOpen (c : CloseCause) (k : Nat) (h : I s) : I (stageOpen c k s) := by
  unfold Machine.stageOpen; split
  · exact K.stageUnit _ _ h
  · exact h

theorem stageAll (c : CloseCause) (vs : List Nat) (h : I s) : I (stageAll c vs s) :=
  fold_keeps (fun s v => Machine.stageUnit c v s) (fun _ _ => K.stageUnit c _) vs h

theorem pressureCompare (h : I s) : I (pressureCompare s) := by
  unfold Machine.pressureCompare; split
  · unfold Machine.pressureStage; split
    · exact K.event _ _ (K.stageUnit _ _ h)
    · exact h
  · exact h

theorem reliefStage (x : Nat) (h : I s) : I (reliefStage x s) := by
  unfold Machine.reliefStage; split
  · exact h
  · split
    · exact K.event _ _ (K.stageUnit _ _ h)
    · exact h

theorem afterHold (r : Reasons) (x : Option Nat) (h : I s) : I (afterHold r x s) := by
  unfold Machine.afterHold
  have h1 : I (if r.frames = true then Machine.pressureCompare s else s) := by
    split
    · exact K.pressureCompare h
    · exact h
  revert h1
  generalize (if r.frames = true then Machine.pressureCompare s else s) = s1
  intro h1
  dsimp only
  split
  · exact K.reliefStage _ h1
  · exact h1

theorem checkUnbound (k : Nat) (h : I s) : I (checkUnbound k s) := by
  unfold Machine.checkUnbound; dsimp only; split
  · exact K.stream _ _ _ h
  · exact h

theorem chargeFrames (a n : Nat) (h : I s) : I (chargeFrames a n s) :=
  K.free _ _ (K.account _ _ _ h)

theorem returnFrames (a n : Nat) (h : I s) : I (returnFrames a n s) :=
  K.free _ _ (K.account _ _ _ h)

theorem reserveSets (l : List (Nat × Nat)) (h : I s) : I (reserveSets l s) :=
  fold_keeps (fun s (p : Nat × Nat) => reserveWays p.1 p.2 s)
    (fun t p h => K.set t p.1 { t.indexSet p.1 with reserved := (t.indexSet p.1).reserved + p.2 } h) l h

theorem releaseSets (l : List (Nat × Nat)) (h : I s) : I (releaseSets l s) :=
  fold_keeps (fun s (p : Nat × Nat) => releaseWays p.1 p.2 s)
    (fun t p h => K.set t p.1 { t.indexSet p.1 with reserved := (t.indexSet p.1).reserved - p.2 } h) l h

theorem makeGrant (g link tag a k : Nat) (key : Key) (n : Nat) (h : I s) :
    I (makeGrant g link tag a k key n s) :=
  K.pressureCompare (K.place _ _ _ (K.grant _ _ _ (K.stream _ _ _
    (K.reserveSets _ (K.chargeFrames _ _ h)))))

theorem releaseRecords (k c : Nat) (h : I s) : I (releaseRecords k c s) :=
  K.checkUnbound _ (K.stream _ _ _ h)

theorem returnGrant (g : Nat) (v : Grant) (h : I s) : I (returnGrant g v s) :=
  K.releaseRecords _ _ (K.clearGrant _ _ (K.releaseSets _ (K.returnFrames _ _ h)))

theorem lapseGrant (g : Nat) (v : Grant) (h : I s) : I (lapseGrant g v s) :=
  K.event _ _ (K.returnGrant _ _ h)

theorem lapseGrants (p : Grant → Bool) (h : I s) : I (lapseGrants p s) :=
  fold_keeps (fun s (q : Nat × Grant) => Machine.lapseGrant q.1 q.2 s) (fun _ _ => K.lapseGrant _ _) _ h

theorem settleGrant (g : Nat) (v : Grant) (h : I s) : I (settleGrant g v s) :=
  K.releaseRecords _ _ (K.clearGrant _ _ h)

theorem refuse (c : Capture) (h : I s) : I (refuse c s) := K.place _ _ _ (K.captured _ _ h)

theorem callIntentRetakes (h : I s) : I (callIntentRetakes s) := by
  simp only [Machine.callIntentRetakes, List.foldl]
  exact K.retake _ _ _ _ (K.retake _ _ _ _ (K.retake _ _ _ _ (K.retake _ _ _ _
    (K.retake _ _ _ _ h))))

theorem refuseEntry (e : Entry) (r : RefusalCode) (h : I s) : I (refuseEntry e r s) :=
  K.callIntentRetakes (K.refuse _ (K.account _ _ _ h))

theorem retestResources (e : Entry) (h : I s) : I (retestState (retestResources e s)) := by
  unfold Machine.retestResources
  dsimp only
  split
  · split
    · simp only [retestState]
      exact K.callIntentRetakes (K.makeGrant _ _ _ _ _ _ _ (K.account _ _ _ h))
    · simp only [retestState]
      exact K.afterHold _ _ h
  · simp only [retestState]
    exact K.afterHold _ _ h

theorem retest (e : Entry) (h : I s) : I (retestState (retest e s)) := by
  unfold Machine.retest
  dsimp only
  have h1 := K.setEventIf (judge s e.cls e.stream (fallbackStream s e)).fellBack .fallback h
  split
  · simp only [retestState]
    exact K.refuseEntry _ _ h1
  · split
    · simp only [retestState]
      exact K.refuseEntry _ _ h1
    · split
      · simp only [retestState]
        exact h1
      · exact K.retestResources _ h1

theorem endOfPlacement (k : Nat) (h : I s) : I (endOfPlacement k s) := by
  unfold Machine.endOfPlacement
  have h1 : I (if (s.stream k).state = .retiring then Machine.stageOpen .retire k s else s) := by
    split
    · exact K.stageOpen _ _ h
    · exact h
  revert h1
  generalize (if (s.stream k).state = .retiring then Machine.stageOpen .retire k s else s) = s1
  intro h1
  dsimp only
  split
  · exact K.stageOpen _ _ h1
  · exact h1

end SurvivesGrants

/-- A property that survives the single updates of staging, grants and the pending list. -/
structure SurvivesAdmission (I : State → Prop) : Prop extends SurvivesGrants I where
  waiting : ∀ s w, I s → I (s.setWaiting w)

namespace SurvivesAdmission

variable {I : State → Prop} (K : SurvivesAdmission I) {s : State}

include K

theorem removeEntry (e : Entry) (h : I s) : I (removeEntry e s) :=
  K.toSurvivesGrants.callIntentRetakes (K.account _ _ _ (K.waiting _ _ h))

theorem removeLinkEntries (l : Nat) (h : I s) : I (removeLinkEntries l s) := by
  unfold Machine.removeLinkEntries
  generalize s.waiting.filter (fun e => e.link == l) = es
  refine fold_keeps (fun s (e : Entry) => Machine.removeEntry e s) ?_ es h
  intro t e ht
  exact K.removeEntry e ht

theorem endLinkTraffic (l : Nat) (h : I s) : I (endLinkTraffic l s) :=
  K.removeLinkEntries _ (K.toSurvivesGrants.lapseGrants _ h)

theorem powerFailAdmission (h : I s) : I (powerFailAdmission s) := by
  unfold Machine.powerFailAdmission
  dsimp only
  refine K.waiting _ _ ?_
  have h1 := K.toSurvivesGrants.lapseGrants (fun _ => true) h
  revert h1
  generalize Machine.lapseGrants (fun _ => true) s = s1
  intro h1
  generalize s1.waiting = es
  refine fold_keeps (fun s (e : Entry) => Machine.refuseEntry e .powerFail s) ?_ es h1
  intro t e ht
  exact K.toSurvivesGrants.refuseEntry e _ ht

theorem walkFrom (l : List Entry) : ∀ (kept : List Entry) {s : State}, I s → I (walkFrom kept l s) := by
  induction l with
  | nil => intro kept s h; exact K.waiting _ _ h
  | cons e l ih =>
    intro kept s h
    unfold Machine.walkFrom
    split
    · exact ih _ h
    · have h1 := K.toSurvivesGrants.retest e h
      split
      · rename_i e' s' hr; rw [hr] at h1; exact ih _ h1
      · rename_i s' hr; rw [hr] at h1; exact ih _ h1

theorem retestWalk (h : I s) : I (retestWalk s) := K.walkFrom _ _ h

end SurvivesAdmission

/-- The fields that staging, grants and the pending list may write: all others of `t` are those of `s`. -/
def AdmissionFrame (s t : State) : Prop :=
  { t with
    accounts := s.accounts, free := s.free, grants := s.grants, sets := s.sets,
    streams := s.streams, units := s.units, stagedCounter := s.stagedCounter, events := s.events,
    alert := s.alert, captures := s.captures, refusals := s.refusals, waiting := s.waiting,
    links := s.links } = s

theorem AdmissionFrame.refl (s : State) : AdmissionFrame s s := rfl

theorem links_place (l : Nat) (m : OutMessage) (s : State) : { place l m s with links := s.links } = s := by
  unfold place; dsimp only; split
  · split <;> rfl
  · rfl

theorem links_callRetake (l : Nat) (c : Channel) (k : Nat) (s : State) :
    { callRetake l c k s with links := s.links } = s := by
  unfold callRetake; dsimp only; split <;> rfl

theorem AdmissionFrame.survives (s : State) : SurvivesAdmission (AdmissionFrame s) where
  account _ _ _ h := h
  free _ _ h := h
  grant _ _ _ h := h
  clearGrant _ _ h := h
  set _ _ _ h := h
  stream _ _ _ h := h
  unit _ _ _ _ h := h
  staged _ _ h := h
  event _ _ h := h
  captured _ _ h := h
  waiting _ _ h := h
  place t l m h := by
    unfold Machine.place; dsimp only; split
    · split <;> exact h
    · exact h
  retake t l c k h := by
    unfold callRetake; dsimp only; split <;> exact h

/-- The frame of the re-test walk. -/
theorem retestWalk_frame (s : State) : AdmissionFrame s (retestWalk s) :=
  (AdmissionFrame.survives s).retestWalk (.refl s)

/-- The frame of a grant. -/
theorem makeGrant_frame (g link tag a k : Nat) (key : Key) (n : Nat) (s : State) :
    AdmissionFrame s (makeGrant g link tag a k key n s) :=
  (AdmissionFrame.survives s).toSurvivesGrants.makeGrant _ _ _ _ _ _ _ (.refl s)

/-- The frame of a grant's lapse. -/
theorem lapseGrant_frame (g : Nat) (v : Grant) (s : State) : AdmissionFrame s (lapseGrant g v s) :=
  (AdmissionFrame.survives s).toSurvivesGrants.lapseGrant _ _ (.refl s)

/-- The frame of the staging of a unit. -/
theorem stageUnit_frame (c : CloseCause) (v : Nat) (s : State) :
    { stageUnit c v s with
      units := s.units, streams := s.streams, stagedCounter := s.stagedCounter } = s := by
  unfold stageUnit
  split
  · split <;> rfl
  · rfl

/-- What the admission frame says of the fields most often asked for. -/
theorem AdmissionFrame.fields {s t : State} (h : AdmissionFrame s t) :
    t.frames = s.frames ∧ t.nextSeq = s.nextSeq ∧ t.lanes = s.lanes ∧ t.flushes = s.flushes ∧
    t.flushOrder = s.flushOrder ∧ t.tenants = s.tenants ∧ t.rules = s.rules ∧
    t.drainCount = s.drainCount ∧ t.safe = s.safe ∧ t.part = s.part ∧ t.cfg = s.cfg ∧
    t.faultList = s.faultList ∧ t.reportQueue = s.reportQueue ∧ t.delivered = s.delivered ∧
    t.slots = s.slots ∧ t.wheelPos = s.wheelPos ∧ t.nextVisit = s.nextVisit ∧ t.now = s.now ∧
    t.pending = s.pending ∧ t.drains = s.drains := by
  unfold AdmissionFrame at h
  exact ⟨(congrArg State.frames h :), (congrArg State.nextSeq h :), (congrArg State.lanes h :), (congrArg State.flushes h :), (congrArg State.flushOrder h :), (congrArg State.tenants h :), (congrArg State.rules h :), (congrArg State.drainCount h :), (congrArg State.safe h :), (congrArg State.part h :), (congrArg State.cfg h :), (congrArg State.faultList h :), (congrArg State.reportQueue h :), (congrArg State.delivered h :), (congrArg State.slots h :), (congrArg State.wheelPos h :), (congrArg State.nextVisit h :), (congrArg State.now h :), (congrArg State.pending h :), (congrArg State.drains h :)⟩

/-! ### Lanes and the wheel -/

/-- A property that survives the single updates of lanes and slot visits. -/
structure SurvivesWheel (I : State → Prop) : Prop where
  unit : ∀ s v u, I s → I (s.setUnit v u)
  lane : ∀ s g v, I s → I (s.setLane g v)
  event : ∀ s e, I s → I (setEvent e s)
  place : ∀ s l m, I s → I (place l m s)

namespace SurvivesWheel

variable {I : State → Prop} (K : SurvivesWheel I) {s : State}

include K

theorem modifyUnit (v : Nat) (f : UnitRecord → UnitRecord) (h : I s) : I (s.modifyUnit v f) := by
  unfold State.modifyUnit; split
  · exact K.unit _ _ _ h
  · exact h

theorem withdrawOffer (v : Nat) (h : I s) : I (withdrawOffer v s) := by
  unfold Machine.withdrawOffer
  split
  · split
    · exact K.modifyUnit _ _ h
    · exact h
  · exact h

theorem leaveUp (g : Nat) (d : LaneState) (h : I s) : I (leaveUp g d s) := by
  unfold Machine.leaveUp
  dsimp only
  refine K.lane _ _ _ (fold_keeps (fun s v => restart v s) (fun _ _ => K.modifyUnit _ _) _ ?_)
  split
  · exact K.withdrawOffer _ h
  · exact h

theorem laneTo (g : Nat) (d : LaneState) (h : I s) : I (laneTo g d s) := by
  unfold Machine.laneTo; split
  · exact K.leaveUp _ _ h
  · exact K.lane _ _ _ h

theorem lapseOffer (g : Nat) (h : I s) : I (lapseOffer g s) := by
  unfold Machine.lapseOffer
  split
  · exact h
  · rename_i o _
    have h1 := K.event _ .offerLapse (K.lane _ g
      { (restage o.unit s).lane g with
        offer := none, lapses := ((restage o.unit s).lane g).lapses + 1,
        totalLapses := satSucc ((restage o.unit s).lane g).totalLapses }
      (K.modifyUnit o.unit (fun u => { u with state := .staged, lane := none }) h))
    revert h1
    dsimp only
    intro h1
    split
    · exact K.event _ _ (K.leaveUp _ _ h1)
    · exact h1

theorem offerStep (g pos : Nat) (h : I s) : I (offerStep g pos s) := by
  unfold Machine.offerStep
  split
  · split
    · exact h
    · split
      · exact K.place _ _ _ (K.lane _ _ _ (K.unit _ _ _ h))
      · exact h
  · exact h

theorem visitSlot (pos : Nat) (h : I s) : I (visitSlot pos s) := by
  unfold Machine.visitSlot
  have h1 := fold_keeps (fun s g => Machine.lapseOffer g s) (fun _ _ => K.lapseOffer _)
    (lapsingLanes s pos) h
  dsimp only
  split
  · exact K.offerStep _ _ h1
  · exact h1

end SurvivesWheel

/-- The fields that lanes and slot visits may write: all others of `t` are those of `s`. -/
def WheelFrame (s t : State) : Prop :=
  { t with
    units := s.units, lanes := s.lanes, events := s.events, alert := s.alert,
    links := s.links } = s

theorem WheelFrame.survives (s : State) : SurvivesWheel (WheelFrame s) where
  unit _ _ _ h := h
  lane _ _ _ h := h
  event _ _ h := h
  place t l m h := by
    unfold Machine.place; dsimp only; split
    · split <;> exact h
    · exact h

/-- The frame of a slot visit. -/
theorem visitSlot_frame (pos : Nat) (s : State) : WheelFrame s (visitSlot pos s) :=
  (WheelFrame.survives s).visitSlot pos rfl

/-- The frame of a lane's leaving UP. -/
theorem leaveUp_frame (g : Nat) (d : LaneState) (s : State) :
    { leaveUp g d s with units := s.units, lanes := s.lanes } = s := by
  unfold leaveUp
  dsimp only
  have h1 : ∀ (l : List Nat) (t : State), { t with units := s.units, lanes := s.lanes } = s →
      { l.foldl (fun s v => restart v s) t with units := s.units, lanes := s.lanes } = s := by
    intro l
    exact fun t h => fold_keeps (I := fun t => { t with units := s.units, lanes := s.lanes } = s)
      (fun s v => restart v s)
      (by
        intro t v h
        unfold restart State.modifyUnit
        split
        · exact h
        · exact h) l h
  refine h1 _ _ ?_
  split
  · unfold withdrawOffer restage State.modifyUnit; split <;> (try split) <;> (try split) <;> rfl
  · rfl

/-! ### Flush entries -/

/-- The fields that flush entries may write when they end or count: all others of `t` are those of `s`. -/
def FlushFrame (s t : State) : Prop :=
  { t with
    flushes := s.flushes, flushOrder := s.flushOrder, events := s.events, alert := s.alert,
    links := s.links } = s

theorem FlushFrame.place {s t : State} (l : Nat) (m : OutMessage) (h : FlushFrame s t) :
    FlushFrame s (place l m t) := by
  unfold Machine.place; dsimp only; split
  · split <;> exact h
  · exact h

theorem FlushFrame.endFlush {s t : State} (ok : Bool) (e : Nat) (v : FlushEntry) (h : FlushFrame s t) :
    FlushFrame s (endFlush ok e v t) := by
  have h1 := fold_keeps (I := FlushFrame s) (fun s t => Machine.place 0 (.flushDone t ok) s)
    (fun _ _ => FlushFrame.place _ _) v.tags h
  unfold Machine.endFlush callFlushRetake callRetake
  dsimp only
  split <;> exact h1

/-- The frame of the flush entries' acts at a Unit Done. -/
theorem flushesAtDone_frame (v : Nat) (s : State) : FlushFrame s (flushesAtDone v s) := by
  refine fold_keeps (I := FlushFrame s) (fun s e => lowerFlush v e s) ?_ _ rfl
  intro t e h
  unfold lowerFlush
  split
  · exact h
  · dsimp only
    split
    · exact h.endFlush _ _ _
    · exact h

/-- The frame of the flush entries' acts at a fault. -/
theorem flushesAtFault_frame (v : Nat) (s : State) : FlushFrame s (flushesAtFault v s) := by
  refine fold_keeps (I := FlushFrame s) (fun s e => faultFlush v e s) ?_ _ rfl
  intro t e h
  unfold faultFlush
  split
  · exact h
  · split
    · exact h.endFlush _ _ _
    · exact h

/-- The frame of the flush entries' acts at a restage. -/
theorem flushesAtRestage_frame (v : Nat) (s : State) : FlushFrame s (flushesAtRestage v s) := by
  refine fold_keeps (I := FlushFrame s) (fun s e => raiseFlush v e s) ?_ _ rfl
  intro t e h
  unfold raiseFlush
  split <;> exact h

/-! ### Faulted units -/

/-- The fields that Unit Restage and Unit Discard may write: all others of `t` are those of `s`. -/
def FaultedFrame (s t : State) : Prop :=
  { t with
    units := s.units, faultList := s.faultList, drainCount := s.drainCount, safe := s.safe,
    events := s.events, alert := s.alert, flushes := s.flushes, reportQueue := s.reportQueue } = s

/-- The frame of a Unit Restage (R131). -/
theorem restageFaulted_frame (v : Nat) (u : UnitRecord) (s : State) :
    FaultedFrame s (restageFaulted v u s) := by
  unfold restageFaulted
  dsimp only
  have h : ∀ q, FaultedFrame s q → FaultedFrame s (flushesAtRestage v q) := fun q hq =>
    fold_keeps (I := FaultedFrame s) (fun s e => raiseFlush v e s) (fun t e h => by
      unfold raiseFlush
      split <;> exact h) q.flushOrder hq
  have hq := h ((s.setFaultList (s.faultList.filter (· ≠ v))).setUnit v
    { u with state := .staged, attempts := 0 }) rfl
  revert hq
  generalize flushesAtRestage v _ = q
  intro hq
  unfold evalSafe setEventIf
  dsimp only
  split <;> exact hq

/-- The frame of a Unit Discard (R132). -/
theorem discardFaulted_frame (v : Nat) (u : UnitRecord) (s : State) :
    FaultedFrame s (discardFaulted v u s) := by
  unfold discardFaulted FaultedFrame
  rfl

end Sys2Proof.Machine
end

