-- ==== Sys2Proof/Laws/Operations.lean ====
section
/-! SUPPORT. For each shared operation over links, units, grants and output lines, what it does to the record
it writes, said once. -/

namespace Sys2Proof

/-- `firstFrom` finds the least number that satisfies its condition. -/
theorem firstFrom_some {p : Nat → Bool} {fuel n k : Nat} (h : firstFrom p fuel n = some k) :
    n ≤ k ∧ k < n + fuel ∧ p k = true ∧ ∀ j, n ≤ j → j < k → p j = false := by
  induction fuel generalizing n with
  | zero => simp [firstFrom] at h
  | succ fuel ih =>
    unfold firstFrom at h
    split at h
    · cases h; exact ⟨le_refl _, by omega, by assumption, fun j h1 h2 => by omega⟩
    · rename_i hp
      obtain ⟨a, b, c, d⟩ := ih h
      refine ⟨by omega, by omega, c, fun j h1 h2 => ?_⟩
      by_cases hj : j = n
      · subst hj; simpa using hp
      · exact d j (by omega) h2

/-- `firstFrom` finds nothing only where no number of its range satisfies its condition. -/
theorem firstFrom_none {p : Nat → Bool} {fuel n : Nat} (h : firstFrom p fuel n = none) :
    ∀ j, n ≤ j → j < n + fuel → p j = false := by
  induction fuel generalizing n with
  | zero => intro j h1 h2; omega
  | succ fuel ih =>
    unfold firstFrom at h
    split at h
    · cases h
    · rename_i hp
      intro j h1 h2
      by_cases hj : j = n
      · subst hj; simpa using hp
      · exact ih h j (by omega) (by omega)

namespace Machine

/-! ### Links -/

theorem Link.queue_setQueue (l : Link) (c c' : Channel) (q : ChannelQueue) :
    (l.setQueue c q).queue c' = if c = c' then q else l.queue c' := by
  cases c <;> cases c' <;> rfl

/-- A message placed for a DOWN link is discarded (R166). -/
theorem place_down {s : State} {l : Nat} (m : OutMessage) (h : (s.link l).up = false) :
    place l m s = s := by
  unfold place; simp [h]

/-- What placing a message does to the link (R164, R165). -/
theorem link_place (l : Nat) (m : OutMessage) (s : State) :
    (place l m s).link l =
      if (s.link l).up then
        if (s.link l).outbound.length < Config.outboundDepth then
          { s.link l with outbound := (s.link l).outbound ++ [m] }
        else { s.link l with overflow := (s.link l).overflow ++ [m] }
      else s.link l := by
  unfold place; dsimp only; split
  · split <;> simp
  · rfl

/-- Placing a message touches nothing but its link. -/
theorem place_frame (l : Nat) (m : OutMessage) (s : State) : LinkFrame s (place l m s) l where
  links i hi := by
    unfold place; dsimp only; split
    · split <;> simp [State.link_setLink, Ne.symm hi]
    · rfl
  rest := links_place l m s

/-- Taking the head of a channel touches nothing but its link. -/
theorem takeHead_frame (l : Nat) (c : Channel) (s : State) : LinkFrame s (takeHead l c s) l where
  links i hi := by unfold takeHead; simp [State.link_setLink, Ne.symm hi]
  rest := rfl

/-- A stall touches nothing but its link. -/
theorem stallHead_frame (l : Nat) (c : Channel) (s : State) : LinkFrame s (stallHead l c s) l where
  links i hi := by unfold stallHead; simp [State.link_setLink, Ne.symm hi]
  rest := rfl

/-- Calling for a new taking touches nothing but its link. -/
theorem callRetake_frame (l : Nat) (c : Channel) (k : Nat) (s : State) :
    LinkFrame s (callRetake l c k s) l where
  links i hi := by
    unfold callRetake; dsimp only; split
    · simp [State.link_setLink, Ne.symm hi]
    · rfl
  rest := links_callRetake l c k s

/-- The leaving of a message touches nothing but its link. -/
theorem emit_frame (l : Nat) (m : OutMessage) (s : State) : { emit l m s with links := s.links } = s := by
  unfold emit
  dsimp only
  split
  · unfold callLinkRetakes
    have h1 := fun (t : State) (k : Nat) => links_callRetake l (intentChannel l) k t
    exact (congrArg (fun t : State => { t with links := s.links }) (h1 _ kindWriteIntent) :).trans
      (congrArg (fun t : State => { t with links := s.links }) (h1 _ kindFlush) :)
  · rfl

/-- A link frame, field by field. -/
theorem LinkFrame.fields {s t : State} {l : Nat} (h : LinkFrame s t l) :
    t.frames = s.frames ∧ t.units = s.units ∧ t.accounts = s.accounts ∧ t.grants = s.grants ∧
    t.waiting = s.waiting ∧ t.lanes = s.lanes ∧ t.streams = s.streams ∧ t.events = s.events ∧
    t.flushes = s.flushes ∧ t.part = s.part ∧ t.cfg = s.cfg ∧ t.free = s.free ∧ t.sets = s.sets :=
  ⟨(congrArg State.frames h.rest :), (congrArg State.units h.rest :),
    (congrArg State.accounts h.rest :), (congrArg State.grants h.rest :),
    (congrArg State.waiting h.rest :), (congrArg State.lanes h.rest :),
    (congrArg State.streams h.rest :), (congrArg State.events h.rest :),
    (congrArg State.flushes h.rest :), (congrArg State.part h.rest :),
    (congrArg State.cfg h.rest :), (congrArg State.free h.rest :), (congrArg State.sets h.rest :)⟩

/-- The message that waits is the one LIF can take. -/
theorem Waits.takeable {s : State} {l : Nat} {c : Channel} {m : Message} (h : Waits s l c m) :
    takeable s l c = some m := by
  unfold Machine.takeable; simp [h.up, h.noOverflow, h.notStalled, h.head]

/-- The stalled message whose new taking is called for is the one LIF can take again. -/
theorem WaitsAgain.retakeable {s : State} {l : Nat} {c : Channel} {m : Message}
    (h : WaitsAgain s l c m) : retakeable s l c = some m := by
  unfold Machine.retakeable; simp [h.up, h.noOverflow, h.stalled, h.called, h.head]

/-- A request that waits is the one MGU takes. -/
theorem RequestWaits.takeRequest {s : State} {kind : Nat} {m : Message} {p : Nat → Bool}
    (h : RequestWaits s kind m) (hp : p kind = true) : takeRequest p s = some m := by
  unfold Machine.takeRequest
  simp [h.waits.takeable, h.isRequest, h.isKind, hp, Option.filter]

/-- A request that waits runs its owner's rule on the state with the request taken (R177). -/
theorem request_waits {s : State} {kind : Nat} {m : Message} (f : List Byte → State → Answer)
    (h : RequestWaits s kind m) (hp : s.part ≠ .starting) :
    request kind f s = .next (replyMgmt m.tag (f m.body (takeHead 5 .mgmt s))) := by
  unfold request
  rw [h.takeRequest (by simp)]
  dsimp only
  rw [if_neg]
  exact hp

/-- A request that waits in STARTING is refused NOT_READY (R177). -/
theorem request_starting {s : State} {kind : Nat} {m : Message} (f : List Byte → State → Answer)
    (h : RequestWaits s kind m) (hp : s.part = .starting) :
    request kind f s = .next (answeredWith m .notReady none (takeHead 5 .mgmt s)) := by
  unfold request
  rw [h.takeRequest (by simp)]
  dsimp only
  rw [if_pos]
  · rfl
  · exact hp

/-- A drain's control message that waits is applied on the state with the message taken. -/
theorem controlTaking_waits {s : State} {link kind : Nat} {m : Message}
    (f : Message → State → State) (h : ControlWaits s link kind m) :
    controlTaking link kind f s = f m (takeHead link .control s) := by
  unfold controlTaking taking
  simp [isDrain, h.drain.1, h.drain.2, h.waits.takeable, h.isKind]

/-! ### Units -/

theorem unit?_modifyUnit (s : State) (v w : Nat) (f : UnitRecord → UnitRecord) :
    (s.modifyUnit v f).unit? w = if v = w then (s.unit? w).map f else s.unit? w := by
  unfold State.modifyUnit
  split
  · rename_i u hu
    rw [State.unit?_setUnit]; split
    · rename_i h; subst h; rw [hu]; rfl
    · rfl
  · rename_i hu; split
    · rename_i h; subst h; rw [hu]; rfl
    · rfl

/-- What staging does to the records of units (R93). -/
theorem unit?_stageUnit (c : CloseCause) (v w : Nat) (s : State) :
    (stageUnit c v s).unit? w =
      if v = w then
        (s.unit? w).map fun u =>
          if u.state = .opened then
            { u with state := .staged, cause := some c, deadline := none,
                     stagedSeq := some s.stagedCounter }
          else u
      else s.unit? w := by
  unfold stageUnit
  split
  · rename_i u hu
    by_cases ho : u.state = .opened
    · rw [if_pos ho]; dsimp only
      simp only [State.setStagedCounter_records, State.setStream_records, State.unit?_setUnit]
      split
      · rename_i h; subst h; simp [hu, ho]
      · rfl
    · rw [if_neg ho]; split
      · rename_i h; subst h; simp [hu, ho]
      · rfl
  · rename_i hu; split
    · rename_i h; subst h; simp [hu]
    · rfl

/-- An OPEN unit is among the OPEN units. -/
theorem mem_openUnits {s : State} {v : Nat} {u : UnitRecord} (h : s.unit? v = some u)
    (ho : u.state = .opened) : v ∈ openUnits s :=
  List.mem_map.2 ⟨(v, u), List.mem_filter.2 ⟨Table.mem_of_find? h, by simp [ho]⟩, rfl⟩

/-- After a group of units is staged none of them is OPEN, and no unit has become OPEN (R99). -/
theorem stageAll_notOpened (c : CloseCause) (vs : List Nat) (s : State) (w : Nat)
    (h : w ∈ vs ∨ ∀ u, s.unit? w = some u → u.state ≠ .opened) :
    ∀ u, (stageAll c vs s).unit? w = some u → u.state ≠ .opened := by
  unfold stageAll
  induction vs generalizing s with
  | nil => simpa using h
  | cons v vs ih =>
    simp only [List.foldl_cons]
    apply ih
    by_cases hv : v = w
    · right
      intro u hu
      rw [unit?_stageUnit, if_pos hv] at hu
      simp only [Option.map_eq_some_iff] at hu
      obtain ⟨u', _, rfl⟩ := hu
      split
      · simp
      · assumption
    · rcases h with h | h
      · left; simpa [Ne.symm hv] using h
      · right; intro u hu; rw [unit?_stageUnit, if_neg hv] at hu; exact h u hu

/-! ### Grants -/

theorem checkUnbound_frame (k : Nat) (s : State) : { checkUnbound k s with streams := s.streams } = s := by
  unfold checkUnbound; dsimp only; split <;> rfl

theorem releaseSets_frame (l : List (Nat × Nat)) (s : State) :
    { releaseSets l s with sets := s.sets } = s :=
  fold_keeps (I := fun t => { t with sets := s.sets } = s)
    (fun s (p : Nat × Nat) => releaseWays p.1 p.2 s) (fun _ _ h => h) l rfl

theorem reserveSets_frame (l : List (Nat × Nat)) (s : State) :
    { reserveSets l s with sets := s.sets } = s :=
  fold_keeps (I := fun t => { t with sets := s.sets } = s)
    (fun s (p : Nat × Nat) => reserveWays p.1 p.2 s) (fun _ _ h => h) l rfl

/-- What reserving ways does to each set: its ways stay, and its reserved count rises by the c_x of its
pairs (R32, R58). -/
theorem indexSet_reserveSets (l : List (Nat × Nat)) (x : Nat) (s : State) :
    (reserveSets l s).indexSet x =
      { s.indexSet x with
        reserved :=
          (s.indexSet x).reserved + ((l.filter (fun p => p.1 == x)).map (·.2)).sum } := by
  unfold reserveSets
  induction l generalizing s with
  | nil => rfl
  | cons p l ih =>
    rw [List.foldl_cons, ih]
    unfold reserveWays
    dsimp only
    rw [State.indexSet_setIndexSet]
    by_cases h : p.1 = x
    · subst h; simp [Nat.add_assoc]
    · simp [h]

/-- What returning ways does to each set (R37, R58). -/
theorem indexSet_releaseSets (l : List (Nat × Nat)) (x : Nat) (s : State) :
    (releaseSets l s).indexSet x =
      { s.indexSet x with
        reserved :=
          (s.indexSet x).reserved - ((l.filter (fun p => p.1 == x)).map (·.2)).sum } := by
  unfold releaseSets
  induction l generalizing s with
  | nil => rfl
  | cons p l ih =>
    rw [List.foldl_cons, ih]
    unfold releaseWays
    dsimp only
    rw [State.indexSet_setIndexSet]
    by_cases h : p.1 = x
    · subst h; simp [Nat.sub_sub]
    · simp [h]

/-- A lapse makes its grant VACANT, and no other (R37). -/
theorem grants_lapseGrant (g : Nat) (v : Grant) (s : State) :
    (lapseGrant g v s).grants = Table.erase s.grants g := by
  unfold lapseGrant returnGrant releaseRecords
  show (checkUnbound _ _).grants = _
  rw [(congrArg State.grants (checkUnbound_frame _ _) :)]
  show Table.erase (releaseSets _ _).grants g = _
  rw [(congrArg State.grants (releaseSets_frame _ _) :)]
  rfl

/-! ### SAFE -/

/-- The evaluation of SAFE writes the line and the SAFE flag alone (R158). -/
theorem evalSafe_frame (s : State) :
    { evalSafe s with safe := s.safe, events := s.events, alert := s.alert } = s := by
  unfold evalSafe setEventIf; dsimp only; split <;> rfl

/-- After its evaluation SAFE has its level (R158). -/
theorem evalSafe_safe (s : State) : (evalSafe s).safe = safeLevel s := by
  unfold evalSafe setEventIf; dsimp only; split <;> rfl

/-! ### The staging store -/

/-- Every write of the staging store keeps its canonical form: the fill or overwriting of a frame, the
marking of a frame, and its release. -/
theorem framesWf_setFrame {s : State} (f : Nat) (v : Frame) (h : framesWf s = true) :
    framesWf (s.setFrame f v) = true := Table.sorted_insert f v h

theorem framesWf_clearFrame {s : State} (f : Nat) (h : framesWf s = true) :
    framesWf (s.clearFrame f) = true := Table.sorted_erase f h

/-- The staging store after the full reset is in canonical form. -/
theorem framesWf_reset : framesWf State.reset = true := rfl

/-- The placing of a new frame keeps the canonical form (R53, R62). -/
theorem framesWf_fillFrame {s : State} (w : SliceWrite) (f v : Nat) (h : framesWf s = true) :
    framesWf (fillFrame w f v s) = true := by
  unfold fillFrame appendFrame framesWf
  dsimp only
  have hm : ∀ (t : State) (u : Nat) (g : UnitRecord → UnitRecord), (t.modifyUnit u g).frames = t.frames := by
    intro t u g; unfold State.modifyUnit; split <;> rfl
  have hs : ∀ (c : CloseCause) (u : Nat) (t : State), (stageUnit c u t).frames = t.frames :=
    fun c u t => (congrArg State.frames (stageUnit_frame c u t) :)
  split
  · rw [hs]; unfold arrive; rw [hm]; simp only [State.setStream_fields, hm]
    exact Table.sorted_insert _ _ h
  · unfold arrive; rw [hm]; simp only [State.setStream_fields, hm]
    exact Table.sorted_insert _ _ h

/-- A read keeps the canonical form (R73, R75). -/
theorem framesWf_readFrame {s : State} (f : Nat) (v : Frame) (r : ReadResult) (h : framesWf s = true) :
    framesWf (readFrame f v r s).2 = true := by
  unfold readFrame
  split
  · exact h
  · exact Table.sorted_insert _ _ h
  · exact Table.sorted_insert _ _ h

/-- The release of a unit's frames keeps the canonical form (R55). -/
theorem framesWf_releaseFrames {s : State} (fs : List Nat) (h : framesWf s = true) :
    framesWf (releaseFrames fs s) = true := by
  refine fold_keeps (I := fun t => framesWf t = true) (fun s (f : Nat) => releaseFrame f s) ?_ fs h
  intro t f ht
  unfold releaseFrame
  split
  · exact ht
  · dsimp only
    unfold returnFrames framesWf
    split
    · exact Table.sorted_erase f ht
    · exact Table.sorted_erase f ht

end Machine

end Sys2Proof
end

