-- ==== Sys2Proof/Laws/Acts.lean ====
section
/-! SUPPORT. What every command can do to the state, said once: a property of states that survives each of
the acts named in `Acts` survives the operations commands are made of. -/

namespace Sys2Proof.Machine

/-- A lane record obeys the lane law (section 5.2.1). -/
def LaneOk (v : Lane) : Prop := v.state ≠ .up → v.offer = none ∧ v.inFlight = 0

/-- A property of states that survives each act of a command that changes neither the part state nor the
drain count nor the SAFE line. The premises of an act are what holds wherever a command makes it. -/
structure Acts (I : State → Prop) : Prop where
  rule : ∀ s r v, I s → I (s.setRule r v)
  tenant : ∀ s t v, I s → I (s.setTenant t v)
  trackers : ∀ s, I s → I (clearTrackers s)
  reclaimMap : ∀ s m, I s → I { s with reclaimMap := m }
  captured : ∀ s c, I s → I (capture c s)
  captures : ∀ s, I s → I { s with captures := [] }
  event : ∀ s e, I s → I (setEvent e s)
  clearEvents : ∀ s n, I s → I (clearEvents n s)
  maskEvents : ∀ s n, I s → I (maskEvents n s)
  place : ∀ s l m, I s → I (place l m s)
  takeHead : ∀ s l c, I s → I (takeHead l c s)
  stallHead : ∀ s l c, I s → I (stallHead l c s)
  callRetake : ∀ s l c k, I s → I (callRetake l c k s)
  emit : ∀ s l m, I s → I (emit l m s)
  cleared : ∀ s l, I s → I (s.setLink l
    { Link.reset with
      inSeq := (s.link l).inSeq, outSeq := (s.link l).outSeq, taken := (s.link l).taken,
      sent := (s.link l).sent, refused := (s.link l).refused,
      resets := satSucc (s.link l).resets, wire := (s.link l).wire })
  bringUp : ∀ s l, I s → I (bringUp l s)
  inSeq : ∀ s l n, I s → I (s.setLink l { s.link l with inSeq := n })
  refused : ∀ s l n, I s → I (s.setLink l { s.link l with refused := n })
  enqueue : ∀ s l c m, ((s.link l).queue c).messages.length < channelDepth l c → I s →
    I (enqueue l c m s)
  frozen : ∀ s t b, I s → I (setFrozen t b s)
  limits : ∀ s a r c, limitCheck a r c s = none → I s → I (setLimits a r c s)
  granted : ∀ s g link tag a k key n, a < 257 → vacantGrant s = some g →
    resourceReasons s a k key n = Reasons.none → I s → I (grantRecords g link tag a k key n s)
  returnGrant : ∀ s g v, (g, v) ∈ s.grants → I s → I (returnGrant g v s)
  lapseGrants : ∀ s p, I s → I (lapseGrants p s)
  join : ∀ s e, e.account < 257 → s.waiting.length < Config.pendingLimit → I s →
    I (raiseHeld e.account (s.setWaiting (s.waiting ++ [e])))
  walk : ∀ s, I s → I (retestWalk s)
  removeEntry : ∀ s e, e ∈ s.waiting → I s → I (removeEntry e s)
  removeLinkEntries : ∀ s l, I s → I (removeLinkEntries l s)
  powerFailAdmission : ∀ s, I s → I (powerFailAdmission s)
  read : ∀ s f v r, s.frame? f = some v → I s → I (readFrame f v r s).2
  release : ∀ s v u, s.unit? v = some u → (∃ i ∈ s.reportQueue, i.unit = v) → I s →
    I (vacateUnit v u (leaveQueue v s))
  stream : ∀ s k v, I s → I (s.setStream k v)
  stageUnit : ∀ s c v, I s → I (stageUnit c v s)
  times : ∀ s v f, (∀ u : UnitRecord, (f u).state = u.state ∧ (f u).lane = u.lane) → I s →
    I (s.modifyUnit v f)
  slot : ∀ s i v, I s → I (s.setSlot i v)
  wheel : ∀ s p v, I s → I { s with wheelPos := p, nextVisit := v }
  settings : ∀ s c, I s → I { s with cfg := c }
  drain : ∀ s d v, I s → I (s.setDrain d v)
  lane : ∀ s g v, v.offer = (s.lane g).offer → v.inFlight = (s.lane g).inFlight →
    (LaneOk (s.lane g) → LaneOk v) → I s → I (s.setLane g v)
  leaveUp : ∀ s g d, I s → I (leaveUp g d s)
  lapse : ∀ s g o, (s.lane g).offer = some o → I s → I (endLapsedOffer g o s)
  offer : ∀ s g v pos u, laneReadyForOffer s g = true → v ∈ stagedQueue s → s.unit? v = some u → I s →
    I (recordOffer g v pos u s)
  accept : ∀ s g v, holdsOffer s g v = true → I s → I (acceptOffer g v s)
  decline : ∀ s g v, holdsOffer s g v = true → I s → I (declineOffer g v s)
  discard : ∀ s v u, s.unit? v = some u → u.state = .faulted → I s → I (discardFaulted v u s)
  markIssued : ∀ s b v, I s → I (markIssued b v s)
  flush : ∀ s e v, I s → I (s.setFlush e v)
  flushOrder : ∀ s l, I s → I { s with flushOrder := l }
  dropFlush : ∀ s e l, I s → I { s with flushes := Table.erase s.flushes e, flushOrder := l }
  noFlushes : ∀ s, I s → I (vacateFlushes s)

namespace Acts

variable {I : State → Prop} (K : Acts I) {s : State}

include K

/-! ### Events and channels -/

theorem setEventIf (b : Bool) (e : Event) (h : I s) : I (setEventIf b e s) := by
  unfold Machine.setEventIf; split
  · exact K.event _ _ h
  · exact h

theorem callIntentRetakes (h : I s) : I (callIntentRetakes s) := by
  simp only [Machine.callIntentRetakes, List.foldl]
  exact K.callRetake _ _ _ _ (K.callRetake _ _ _ _ (K.callRetake _ _ _ _ (K.callRetake _ _ _ _
    (K.callRetake _ _ _ _ h))))

theorem callFlushRetake (h : I s) : I (callFlushRetake s) := K.callRetake _ _ _ _ h

theorem callLinkRetakes (l : Nat) (h : I s) : I (callLinkRetakes l s) :=
  K.callRetake _ _ _ _ (K.callRetake _ _ _ _ h)

theorem hitRule (r : Nat) (h : I s) : I (hitRule r s) := K.rule _ _ _ h

theorem refuse (c : Capture) (h : I s) : I (refuse c s) := K.place _ _ _ (K.captured _ _ h)

/-! ### Staging (chapter 4) -/

theorem stageOpen (c : CloseCause) (k : Nat) (h : I s) : I (stageOpen c k s) := by
  unfold Machine.stageOpen; split
  · exact K.stageUnit _ _ _ h
  · exact h

theorem stageAll (c : CloseCause) (vs : List Nat) (h : I s) : I (stageAll c vs s) :=
  fold_keeps (fun s v => Machine.stageUnit c v s) (fun _ _ => K.stageUnit _ c _) vs h

theorem pressureStage (h : I s) : I (pressureStage s) := by
  unfold Machine.pressureStage; split
  · exact K.event _ _ (K.stageUnit _ _ _ h)
  · exact h

theorem pressureCompare (h : I s) : I (pressureCompare s) := by
  unfold Machine.pressureCompare; split
  · exact K.pressureStage h
  · exact h

theorem reliefStage (x : Nat) (h : I s) : I (reliefStage x s) := by
  unfold Machine.reliefStage; split
  · exact h
  · split
    · exact K.event _ _ (K.stageUnit _ _ _ h)
    · exact h

theorem checkUnbound (k : Nat) (h : I s) : I (checkUnbound k s) := by
  unfold Machine.checkUnbound; dsimp only; split
  · exact K.stream _ _ _ h
  · exact h

theorem endOfPlacement (k : Nat) (h : I s) : I (endOfPlacement k s) := by
  unfold Machine.endOfPlacement
  have h1 : I (if (s.stream k).state = .retiring then Machine.stageOpen .retire k s else s) := by
    split
    · exact K.stageOpen _ _ h
    · exact h
  revert h1
  generalize (if (s.stream k).state = .retiring then Machine.stageOpen .retire k s else s) = s1
  intro h1
  dsimp only
  split
  · exact K.stageOpen _ _ h1
  · exact h1

theorem afterHold (r : Reasons) (x : Option Nat) (h : I s) : I (afterHold r x s) := by
  unfold Machine.afterHold
  have h1 : I (if r.frames = true then Machine.pressureCompare s else s) := by
    split
    · exact K.pressureCompare h
    · exact h
  dsimp only
  split
  · exact K.reliefStage _ h1
  · exact h1

/-! ### Reads of frame data (chapters 3 and 6) -/

theorem probeKeys (ks : List Key) : ∀ (rs : List ReadResult) (s : State), I s →
    I (probeKeys ks rs s).2.2 := by
  induction ks with
  | nil => intro rs s h; exact h
  | cons k ks ih =>
    intro rs s h
    simp only [Machine.probeKeys]
    split
    · exact ih rs s h
    · rename_i f v hv
      have hf : s.frame? f = some v := by
        cases hl : lookup s k with
        | none => simp [hl] at hv
        | some p =>
          simp only [hl, Option.bind_some, Option.map_eq_some_iff] at hv
          obtain ⟨v', h1, h2⟩ := hv
          injection h2 with h3 h4
          subst h3 h4
          exact h1
      split
      · exact ih rs s h
      · have h1 := ih rs.tail _ (K.read _ f v (nextRead rs) hf h)
        split <;> exact h1

theorem takeProbe (tag : Nat) (q : KeyRun) (rs : List ReadResult) (h : I s) :
    I (takeProbe tag q rs s) := by
  unfold Machine.takeProbe
  split
  · split
    · exact K.place _ _ _ h
    · exact K.place _ _ _ (K.probeKeys _ rs s h)
  · exact K.place _ _ _ h

theorem takeInquire (link tag : Nat) (q : KeyRun) (h : I s) : I (takeInquire link tag q s) := by
  unfold Machine.takeInquire
  split
  · split <;> exact K.place _ _ _ h
  · exact K.place _ _ _ h

theorem fetchEntries (u : UnitRecord) (ps : List Nat) : ∀ (rs : List ReadResult) (s : State), I s →
    I (fetchEntries u ps rs s).2 := by
  induction ps with
  | nil => intro rs s h; exact h
  | cons p ps ih =>
    intro rs s h
    simp only [Machine.fetchEntries]
    split
    · exact ih rs s h
    · rename_i f v hv
      have hf : s.frame? f = some v := by
        cases hl : u.frames[p]? with
        | none => simp [hl] at hv
        | some f' =>
          simp only [hl, Option.bind_some, Option.map_eq_some_iff] at hv
          obtain ⟨v', h1, h2⟩ := hv
          injection h2 with h3 h4
          subst h3 h4
          exact h1
      have h1 := ih rs.tail _ (K.read _ f v (nextRead rs) hf h)
      split <;> exact h1

theorem takeFetch (link tag v k m : Nat) (rs : List ReadResult) (h : I s) :
    I (takeFetch link tag v k m rs s) := by
  unfold Machine.takeFetch
  dsimp only
  split
  · exact K.place _ _ _ h
  · split
    · exact K.place _ _ _ h
    · exact K.place _ _ _ (K.fetchEntries _ _ rs s h)

/-! ### Reports and flushes (chapters 7 and 8) -/

theorem activateFlush (e tag : Nat) (c : Scope) (h : I s) : I (activateFlush e tag c s) :=
  K.stageAll _ _ (K.flushOrder _ _ (K.flush _ _ _ h))

theorem mergeFlush (e : Nat) (v : FlushEntry) (tag : Nat) (c : Scope) (h : I s) :
    I (mergeFlush e v tag c s) := K.stageAll _ _ (K.flush _ _ _ h)

theorem takeScope {tag : Nat} {c : Scope} {t : State} (h : I s) (ht : takeScope tag c s = some t) :
    I t := by
  unfold Machine.takeScope at ht
  split at ht
  · cases ht; exact K.place _ _ _ h
  · split at ht
    · cases ht; exact K.activateFlush _ _ _ h
    · split at ht
      · cases ht
      · split at ht
        · cases ht
        · split at ht
          · cases ht; exact K.mergeFlush _ _ _ _ h
          · cases ht

theorem takeFlush {tag : Nat} {c : Option Scope} {t : State} (h : I s)
    (ht : takeFlush tag c s = some t) : I t := by
  unfold Machine.takeFlush at ht
  split at ht
  · cases ht; exact K.place _ _ _ h
  · split at ht
    · exact K.takeScope h ht
    · cases ht; exact K.place _ _ _ h
  · exact K.takeScope h ht

theorem flushTaking (m : Message) (h : I s) : I (flushTaking m s) := by
  unfold Machine.flushTaking
  split
  · rename_i t ht; exact K.takeFlush (K.takeHead _ _ _ h) ht
  · exact K.stallHead _ _ _ h

theorem endFlush (ok : Bool) (e : Nat) (v : FlushEntry) (h : I s) : I (endFlush ok e v s) :=
  K.callFlushRetake (K.dropFlush _ e _ (fold_keeps _ (fun _ t => K.place _ 0 (.flushDone t ok)) v.tags h))

theorem lowerFlush (v e : Nat) (h : I s) : I (lowerFlush v e s) := by
  unfold Machine.lowerFlush
  split
  · exact h
  · dsimp only
    split
    · exact K.endFlush _ _ _ h
    · exact K.flush _ _ _ h

theorem faultFlush (v e : Nat) (h : I s) : I (faultFlush v e s) := by
  unfold Machine.faultFlush
  split
  · exact h
  · split
    · exact K.event _ _ (K.endFlush _ _ _ h)
    · exact h

theorem raiseFlush (v e : Nat) (h : I s) : I (raiseFlush v e s) := by
  unfold Machine.raiseFlush
  split
  · exact h
  · exact K.flush _ _ _ h

theorem flushesAtDone (v : Nat) (h : I s) : I (flushesAtDone v s) :=
  fold_keeps _ (fun _ e => K.lowerFlush v e) _ h

theorem flushesAtFault (v : Nat) (h : I s) : I (flushesAtFault v s) :=
  fold_keeps _ (fun _ e => K.faultFlush v e) _ h

theorem flushesAtRestage (v : Nat) (h : I s) : I (flushesAtRestage v s) :=
  fold_keeps _ (fun _ e => K.raiseFlush v e) _ h

theorem takeReportFetch (tag : Nat) (h : I s) : I (takeReportFetch tag s) := by
  unfold Machine.takeReportFetch
  split
  · exact K.place _ _ _ (K.markIssued _ _ _ h)
  · exact K.place _ _ _ h

/-! ### Lanes and the wheel (chapters 5 and 6) -/

theorem laneTo (g : Nat) (d : LaneState) (h : I s) : I (laneTo g d s) := by
  unfold Machine.laneTo
  split
  · exact K.leaveUp _ _ _ h
  · rename_i hup; exact K.lane _ _ _ rfl rfl (fun ok _ => ok hup) h

theorem lapseOffer (g : Nat) (h : I s) : I (lapseOffer g s) := by
  unfold Machine.lapseOffer
  split
  · exact h
  · rename_i o ho
    have h1 := K.event _ .offerLapse (K.lapse _ _ _ ho h)
    dsimp only
    split
    · exact K.event _ _ (K.leaveUp _ _ _ h1)
    · exact h1

theorem offerStep (g pos : Nat) (h : I s) : I (offerStep g pos s) := by
  unfold Machine.offerStep
  split
  · rename_i hr
    split
    · exact h
    · rename_i v hv
      split
      · rename_i u hu
        exact K.place _ _ _ (K.offer _ _ _ _ _ hr (List.mem_of_find?_eq_some hv) hu h)
      · exact h
  · exact h

theorem visitSlot (pos : Nat) (h : I s) : I (visitSlot pos s) := by
  unfold Machine.visitSlot
  have h1 := fold_keeps (fun s g => Machine.lapseOffer g s) (fun _ g => K.lapseOffer g)
    (lapsingLanes s pos) h
  dsimp only
  split
  · exact K.offerStep _ _ h1
  · exact h1

theorem refuseControl (link kind : Nat) (u : Option Nat) (l : Nat) (c : ControlCode) (h : I s) :
    I (refuseControl link kind u l c s) := K.place _ _ _ h

theorem takeAccept (link v l : Nat) (h : I s) : I (takeAccept link v l s) := by
  unfold Machine.takeAccept
  dsimp only
  split
  · exact K.refuseControl _ _ _ _ _ h
  · split
    · rename_i ho; exact K.accept _ _ _ ho h
    · exact K.refuseControl _ _ _ _ _ h

theorem takeDecline (link v l : Nat) (h : I s) : I (takeDecline link v l s) := by
  unfold Machine.takeDecline
  dsimp only
  split
  · exact K.refuseControl _ _ _ _ _ h
  · split
    · rename_i ho; exact K.decline _ _ _ ho h
    · exact K.refuseControl _ _ _ _ _ h

theorem takeLaneReady (link l : Nat) (h : I s) : I (takeLaneReady link l s) := by
  unfold Machine.takeLaneReady
  dsimp only
  split
  · split
    · exact K.lane _ _ _ rfl rfl (fun _ hn => absurd rfl hn) h
    · exact K.lane _ _ _ rfl rfl (fun _ hn => absurd rfl hn) h
    · exact h
    · exact h
  · exact K.refuseControl _ _ _ _ _ h

theorem takeLaneQuit (link l : Nat) (h : I s) : I (takeLaneQuit link l s) := by
  unfold Machine.takeLaneQuit
  dsimp only
  split
  · split
    · exact K.leaveUp _ _ _ h
    · rename_i hl
      exact K.lane _ _ _ rfl rfl (fun ok _ => ok (by rw [hl]; decide)) h
    · exact h
    · exact h
  · exact K.refuseControl _ _ _ _ _ h

theorem resetLane (g : Nat) (h : I s) :
    I ((Machine.laneTo g .absent s).setLane g
      { (Machine.laneTo g .absent s).lane g with lapses := 0 }) :=
  K.lane _ _ _ rfl rfl (fun ok hup => ok hup) (K.laneTo _ _ h)

theorem resetLanes (d : Nat) (h : I s) : I (resetLanes d s) :=
  fold_keeps _ (fun _ _ hs => K.resetLane _ hs) _ h

/-! ### Admission (chapter 2) -/

theorem makeGrant (g link tag a k : Nat) (key : Key) (n : Nat) (ha : a < 257)
    (hg : vacantGrant s = some g) (hr : resourceReasons s a k key n = Reasons.none) (h : I s) :
    I (makeGrant g link tag a k key n s) :=
  K.pressureCompare (K.place _ _ _ (K.granted _ _ _ _ _ _ _ _ ha hg hr h))

theorem holdIntent {e : Entry} {t : State} (ha : e.account < 257) (h : I s) (ht : holdIntent e s = some t) : I t := by
  unfold Machine.holdIntent at ht
  split at ht
  · rename_i hl
    cases ht
    exact K.afterHold _ _ (K.place _ _ _ (K.join _ _ ha hl h))
  · cases ht

theorem admission {link tag a k n : Nat} {cls : WriteClass} {key : Key} {t : State} (ha : a < 257)
    (h : I s) (ht : admission link tag a cls k key n s = some t) : I t := by
  unfold Machine.admission at ht
  dsimp only at ht
  split at ht
  · exact K.holdIntent (by exact ha) h ht
  · split at ht
    · rename_i g hg
      split at ht
      · rename_i hr
        cases ht; exact K.makeGrant _ _ _ _ _ _ _ ha hg hr h
      · exact K.holdIntent (by exact ha) h ht
    · exact K.holdIntent (by exact ha) h ht

theorem admitOrRefuse {link tag a k : Nat} {cls : WriteClass} {w : Intent} {s1 s2 t : State}
    (ha : a < 257) (h1 : I s1) (h2 : I s2) (ht : admitOrRefuse link tag a cls k w s1 s2 = some t) : I t := by
  unfold Machine.admitOrRefuse at ht
  split at ht
  · cases ht; exact K.refuse _ h1
  · exact K.admission ha h2 ht

theorem tellChoice (w : Intent) (h : I s) : I (tellChoice s w) := by
  refine K.setEventIf _ _ ?_
  split
  · exact K.hitRule _ h
  · exact h

theorem classified (w : Intent) (h : I s) : I (classified s w) := K.tenant _ _ _ (K.tellChoice w h)

theorem takeHost {tag : Nat} {w : Intent} {t : State} (ha : w.tenant < 257) (h : I s) (ht : takeHost tag w s = some t) :
    I t := by
  unfold Machine.takeHost at ht
  split at ht
  · cases ht; exact K.refuse _ (K.event _ _ (K.hitRule _ h))
  · split at ht
    · exact K.admitOrRefuse ha (K.tellChoice w h) (K.classified w h) ht
    · cases ht; exact K.refuse _ (K.classified w h)

theorem takeReclaim {link tag : Nat} {w : Intent} {t : State} (h : I s)
    (ht : takeReclaim link tag w s = some t) : I t := by
  unfold Machine.takeReclaim at ht
  dsimp only at ht
  have h1 := K.setEventIf (chooseReclaim s w.age).fellBack .fallback h
  split at ht
  · exact K.admitOrRefuse (by decide) h1 h1 ht
  · cases ht; exact K.refuse _ h1

theorem takeIntent {link tag : Nat} {w : Intent} {t : State} (h : I s)
    (ht : takeIntent link tag w s = some t) : I t := by
  unfold Machine.takeIntent at ht
  split at ht
  · cases ht; exact K.refuse _ h
  · cases ht; exact K.refuse _ h
  · cases ht; exact K.refuse _ h
  · split at ht
    · cases ht; exact K.refuse _ h
    · rename_i hok
      split at ht
      · cases ht; exact K.refuse _ h
      · split at ht
        · rename_i hl
          refine K.takeHost ?_ h ht
          have h1 : intentOk link w = true := by simpa using hok
          subst hl
          unfold intentOk at h1
          rw [Bool.and_eq_true] at h1
          have h2 : w.tenant < Config.tenantCount := by simpa using h1.2
          exact Nat.lt_of_lt_of_le h2 (by decide)
        · exact K.takeReclaim h ht

theorem intentTaking (link : Nat) (m : Message) (h : I s) : I (intentTaking link m s) := by
  unfold Machine.intentTaking
  split
  · rename_i t ht; exact K.takeIntent (K.takeHead _ _ _ h) ht
  · exact K.stallHead _ _ _ h

theorem withdrawTag (link tag : Nat) (h : I s) : I (withdrawTag link tag s) := by
  unfold Machine.withdrawTag
  split
  · rename_i e he
    exact K.walk _ (K.place _ _ _ (K.removeEntry _ _ (List.mem_of_find?_eq_some he) h))
  · split
    · rename_i g v hg
      exact K.walk _ (K.place _ _ _ (K.returnGrant _ _ _ (List.mem_of_find?_eq_some hg) h))
    · exact K.place _ _ _ h

theorem endLinkTraffic (link : Nat) (h : I s) : I (endLinkTraffic link s) :=
  K.removeLinkEntries _ _ (K.lapseGrants _ _ h)

/-! ### Reports (chapter 7) -/

theorem releaseUnit {v : Nat} {u : UnitRecord} (hu : s.unit? v = some u)
    (hq : ∃ i ∈ s.reportQueue, i.unit = v) (h : I s) : I (releaseUnit v u (leaveQueue v s)) :=
  K.walk _ (K.checkUnbound _ (K.release _ _ _ hu hq h))

theorem deliverReport {tag v : Nat} {t : State} (h : I s)
    (ht : deliverReport tag v s = .next t) : I t := by
  unfold Machine.deliverReport at ht
  split at ht
  · cases ht
  · rename_i u hu
    split at ht
    · rename_i hq
      injection ht with ht
      subst ht
      simp only [List.any_eq_true, Bool.and_eq_true, beq_iff_eq] at hq
      obtain ⟨i, hi, hv, _⟩ := hq
      have hf := emit_frame 0 (buildReport s tag v u) s
      refine K.releaseUnit ?_ ⟨i, ?_, hv⟩ (K.emit _ _ _ h)
      · unfold State.unit?; rw [(congrArg State.units hf :)]; exact hu
      · rw [(congrArg State.reportQueue hf :)]; exact hi
    · cases ht

theorem sendHead {link : Nat} {t : State} (h : I s) (ht : sendHead link s = .next t) : I t := by
  unfold Machine.sendHead at ht
  split at ht
  · split at ht
    · cases ht; exact h
    · split at ht
      · exact K.deliverReport h ht
      · cases ht; exact h
    · cases ht; exact K.emit _ _ _ h
  · cases ht; exact h

/-! ### Links (chapter 9) -/

theorem downLink (link : Nat) (h : I s) : I (downLink link s) :=
  fold_keeps (fun s v => Machine.markIssued false v s) (fun _ _ => K.markIssued _ _ _) _
    (K.cleared _ _ h)

theorem ownersReset (link : Nat) (h : I s) : I (ownersReset link s) := by
  unfold Machine.ownersReset
  split
  · exact K.noFlushes _ (K.endLinkTraffic _ (K.trackers _ h))
  · split
    · exact K.endLinkTraffic _ (K.resetLanes _ h)
    · exact h

theorem resetUpLink (link : Nat) (h : I s) : I (resetUpLink link s) := by
  unfold Machine.resetUpLink
  have h1 := K.ownersReset link (K.downLink link h)
  dsimp only
  split
  · exact K.walk _ h1
  · exact h1

theorem resetLink (link : Nat) (h : I s) : I (resetLink link s) := by
  unfold Machine.resetLink
  split
  · exact K.resetUpLink _ h
  · exact h

theorem refuseMessage (link : Nat) (m : Message) (c : LinkCode) (h : I s) :
    I (refuseMessage link m c s) := K.place _ _ _ (K.refused _ _ _ h)

theorem arrival (link : Nat) (m : Message) (h : I s) : I (arrival link m s) := by
  unfold Machine.arrival
  have h1 := K.inSeq _ link (((s.link link).inSeq + 1) % Config.linkSeqModulus) h
  dsimp only
  split
  · exact K.resetUpLink _ h
  · split
    · exact K.refuseMessage _ _ _ h1
    · split
      · exact K.refuseMessage _ _ _ h1
      · split
        · rename_i hl; exact K.enqueue _ _ _ _ hl h1
        · exact K.refuseMessage _ _ _ h1

/-! ### Wheel and takings -/

theorem turnWheel (t : Nat) (h : I s) : I (turnWheel t s) :=
  K.visitSlot _ (K.wheel _ _ _ h)

theorem taking (link : Nat) (c : Channel) (kind : Nat) (f : Message → State → State)
    (hf : ∀ m s, I s → I (f m s)) (h : I s) : I (taking link c kind f s) := by
  unfold Machine.taking
  split
  · split
    · exact hf _ _ (K.takeHead _ _ _ h)
    · exact h
  · exact h

theorem controlTaking (link kind : Nat) (f : Message → State → State)
    (hf : ∀ m s, I s → I (f m s)) (h : I s) : I (controlTaking link kind f s) := by
  unfold Machine.controlTaking
  split
  · exact K.taking _ _ _ _ hf h
  · exact h

/-! ### Management requests (chapter 10) -/

theorem request {kind : Nat} {f : List Byte → State → Answer} {t : State}
    (hf : ∀ b s, I s → I (f b s).state) (h : I s) (ht : request kind f s = .next t) : I t := by
  unfold Machine.request at ht
  split at ht
  · injection ht with ht
    subst ht
    refine K.place _ _ _ ?_
    split
    · exact K.takeHead _ _ _ h
    · exact hf _ _ (K.takeHead _ _ _ h)
  · cases ht; exact h

omit K in
theorem checked {b : Bool} {a : Answer} (ha : I a.state) (h : I s) : I (checked b a s).state := by
  unfold Machine.checked
  split
  · exact ha
  · exact h

theorem setReclaimMap (m : List Nat) (h : I s) : I (setReclaimMap m s).state :=
  checked (K.walk _ (K.reclaimMap _ _ h)) h

theorem setClassRule (n : Nat) (r : Option Rule) (h : I s) : I (setClassRule n r s).state := by
  unfold Machine.setClassRule
  split
  · exact checked (K.rule _ _ _ h) h
  · exact h

theorem setTenantRequest (t r c : Nat) (f : TenantFields) (h : I s) :
    I (setTenantRequest t r c f s).state := by
  unfold Machine.setTenantRequest
  split
  · split
    · exact h
    · rename_i hl; exact K.walk _ (K.tenant _ _ _ (K.limits _ _ _ _ hl h))
  · exact h

theorem setReclaimAccount (r c : Nat) (h : I s) : I (setReclaimAccount r c s).state := by
  unfold Machine.setReclaimAccount
  split
  · exact h
  · rename_i hl; exact K.walk _ (K.limits _ _ _ _ hl h)

theorem freezeTenant (t : Nat) (h : I s) : I (freezeTenant t s).state :=
  checked (K.frozen _ _ _ h) h

theorem thawTenant (t : Nat) (h : I s) : I (thawTenant t s).state :=
  checked (K.walk _ (K.frozen _ _ _ h)) h

theorem bindStream (k : Nat) (c : Option WriteClass) (f : Option StreamFields) (h : I s) :
    I (bindStream k c f s).state := by
  unfold Machine.bindStream
  split
  · split
    · split
      · exact K.walk _ (K.stream _ _ _ h)
      · exact h
    · exact h
  · exact h

theorem setStreamPolicy (k : Nat) (f : Option StreamFields) (h : I s) :
    I (setStreamPolicy k f s).state := by
  unfold Machine.setStreamPolicy
  split
  · split
    · split
      · exact h
      · exact h
      · exact K.stream _ _ _ h
    · exact h
  · exact h

theorem pauseActive (k : Nat) (h : I s) : I (pauseActive k s) := by
  unfold Machine.pauseActive
  refine K.stream _ _ _ ?_
  split
  · exact K.times _ _ _ (fun _ => ⟨rfl, rfl⟩) h
  · exact h

theorem pauseStream (k : Nat) (h : I s) : I (pauseStream k s).state := by
  unfold Machine.pauseStream
  split
  · split
    · exact K.walk _ (K.pauseActive _ h)
    all_goals exact h
  · exact h

theorem resumePaused (k : Nat) (h : I s) : I (resumePaused k s) := by
  unfold Machine.resumePaused
  have h1 := K.stream _ k { s.stream k with state := .active } h
  dsimp only
  split
  · exact K.times _ _ _ (fun _ => ⟨rfl, rfl⟩) h1
  · exact h1

theorem resumeStream (k : Nat) (h : I s) : I (resumeStream k s).state := by
  unfold Machine.resumeStream
  split
  · split
    · exact K.walk _ (K.resumePaused _ h)
    all_goals exact h
  · exact h

theorem retireBound (k : Nat) (h : I s) : I (retireBound k s) :=
  K.checkUnbound _ (K.stageOpen _ _ (K.stream _ _ _ h))

theorem retireStream (k : Nat) (h : I s) : I (retireStream k s).state := by
  unfold Machine.retireStream
  split
  · split
    · exact K.walk _ (K.retireBound _ h)
    · exact K.walk _ (K.retireBound _ h)
    all_goals exact h
  · exact h

theorem closeUnit (v : Nat) (h : I s) : I (closeUnit v s).state := by
  unfold Machine.closeUnit
  split
  · split
    · exact K.stageUnit _ _ _ h
    · exact h
  · exact h

theorem setSlotRecord (i : Nat) (b : Option Bool) (d l : Nat) (h : I s) :
    I (setSlotRecord i b d l s).state := by
  unfold Machine.setSlotRecord
  split
  · exact checked (K.slot _ _ _ h) h
  · exact h

theorem blockLane (g : Nat) (h : I s) : I (blockLane g s).state := by
  unfold Machine.blockLane
  refine checked ?_ h
  show I (if (s.lane g).state = .blocked then s else Machine.laneTo g .blocked s)
  split
  · exact h
  · exact K.laneTo _ _ h

theorem unblockLane (g : Nat) (h : I s) : I (unblockLane g s).state := by
  unfold Machine.unblockLane
  split
  · split
    · rename_i hb
      exact K.lane _ _ _ rfl rfl (fun ok _ => ok (by rw [hb]; decide)) h
    · exact h
  · exact h

omit K in
theorem faultedRequest (v : Nat) (f : UnitRecord → State → State)
    (hf : ∀ u s, s.unit? v = some u → u.state = .faulted → I s → I (f u s)) (h : I s) :
    I (faultedRequest v f s).state := by
  unfold Machine.faultedRequest
  split
  · split
    · rename_i u hu
      simp only [Option.filter_eq_some_iff, beq_iff_eq] at hu
      exact hf _ _ hu.1 hu.2 h
    · exact h
  · exact h

theorem inspectRequest (b : List Byte) (h : I s) : I (inspectRequest b s).state := by
  unfold Machine.inspectRequest
  split
  · show I (if _ then _ else _)
    split
    · exact K.captures _ h
    · exact h
  · exact h

theorem applySettings (q : Settings) (h : I s) : I (applySettings q s) :=
  fold_keeps (fun s (p : Nat × DrainConfig) => s.setDrain p.1 p.2) (fun _ _ => K.drain _ _ _) _
    (K.settings _ _ h)

theorem configurePart (q : Option Settings) (h : I s) : I (configurePart q s).state := by
  unfold Machine.configurePart
  split
  · split
    · exact checked (K.applySettings _ h) h
    · exact h
  · exact h

end Acts

end Sys2Proof.Machine
end

