-- ==== Sys2Proof/Laws/ActsCommands.lean ====
section
/-! SUPPORT. The traversal of all commands, made once: a property that survives the acts survives every
command, every idle step and every step. -/

namespace Sys2Proof.Machine

/-- The commands that change neither the part state, nor the drain count, nor the SAFE line. -/
def quiet : Instr → Bool
  | .fullReset | .resetNRelease _ | .scrubComplete | .pfailNAssertion => false
  | .writeData _ | .unitDone _ | .unitFail _ | .start | .stop | .unitRestage => false
  | _ => true

/-- A property that survives everything a command does but the full reset. -/
structure ActsAll (I : State → Prop) : Prop extends Acts I where
  safe : ∀ s b, I s → I { s with safe := b }
  power : ∀ s ra pf p sc nv es et, I s →
    I { s with
      resetAsserted := ra, pfailAsserted := pf, part := p, scrubbing := sc, nextVisit := nv,
      entryState := es, entryTime := et }
  scrub : ∀ s n, I s → I (scrubTo n s)
  settled : ∀ s r link g v m os, checkData s link g m.tag (byteAt m.body 1) = .proceeds v →
    placeSlices (sliceWrites link v m) s = .ok (os, r) → I s → I (settleGrant g v r)
  complete : ∀ s g v u p, inFlightAt s g v = some u → I s → I (completeUnit g v u p s)
  fail : ∀ s g v u r, inFlightAt s g v = some u → I s → I (failUnit g v u r s)
  restaged : ∀ s v u, s.unit? v = some u → u.state = .faulted → I s → I (restageFaulted v u s)

namespace Acts

variable {I : State → Prop} (K : Acts I) {s t : State}

include K

theorem execLinkUp {l : Nat} (h : I s) (ht : execLinkUp l s = .next t) : I t := by
  unfold Machine.execLinkUp at ht; split at ht
  · cases ht; exact K.bringUp _ _ (K.resetLink _ h)
  · cases ht; exact h

theorem execLinkReset {l : Nat} (h : I s) (ht : execLinkReset l s = .next t) : I t := by
  unfold Machine.execLinkReset at ht; split at ht
  · cases ht; exact K.resetLink _ h
  · cases ht; exact h

theorem execMessageArrival {l : Nat} {m : Message} (h : I s) (ht : execMessageArrival l m s = .next t) : I t := by
  unfold Machine.execMessageArrival at ht; split at ht
  · cases ht; exact K.arrival _ _ h
  · cases ht; exact h

theorem execMessageSent {l : Nat} (h : I s) (ht : execMessageSent l s = .next t) : I t := by
  unfold Machine.execMessageSent at ht; split at ht
  · exact K.sendHead h ht
  · cases ht; exact h

theorem execPlacementReportDelivery (h : I s) (ht : execPlacementReportDelivery s = .next t) : I t := by
  unfold Machine.execPlacementReportDelivery at ht
  split at ht
  · split at ht
    · exact K.deliverReport h ht
    · cases ht; exact h
  · cases ht; exact h

theorem execWriteIntent {l : Nat} (h : I s) (ht : execWriteIntent l s = .next t) : I t := by
  unfold Machine.execWriteIntent at ht
  split at ht
  · split at ht
    · cases ht; exact K.intentTaking _ _ h
    · cases ht; exact h
  · cases ht; exact h

theorem execStalledIntentRetake {l : Nat} (h : I s) (ht : execStalledIntentRetake l s = .next t) : I t := by
  unfold Machine.execStalledIntentRetake at ht
  split at ht
  · split at ht
    · cases ht; exact K.intentTaking _ _ h
    · cases ht; exact h
  · cases ht; exact h

theorem execWithdraw {l : Nat} (h : I s) (ht : execWithdraw l s = .next t) : I t := by
  unfold Machine.execWithdraw at ht; split at ht
  · cases ht; exact K.taking _ _ _ _ (fun _ _ => K.withdrawTag _ _) h
  · cases ht; exact h

theorem execGrantLapse {g : Nat} (h : I s) (ht : execGrantLapse g s = .next t) : I t := by
  unfold Machine.execGrantLapse at ht
  split at ht
  · rename_i v hg
    split at ht
    · cases ht; exact K.walk _ (K.event _ _ (K.returnGrant _ _ _ (Table.mem_of_find? hg) h))
    · cases ht; exact h
  · cases ht; exact h

theorem execReadProbe {rs : List ReadResult} (h : I s) (ht : execReadProbe rs s = .next t) : I t := by
  unfold Machine.execReadProbe at ht
  cases ht; exact K.taking _ _ _ _ (fun _ _ => K.takeProbe _ _ _) h

theorem execInquire {l : Nat} (h : I s) (ht : execInquire l s = .next t) : I t := by
  unfold Machine.execInquire at ht
  cases ht; exact K.controlTaking _ _ _ (fun _ _ => K.takeInquire _ _ _) h

theorem execReportFetch (h : I s) (ht : execReportFetch s = .next t) : I t := by
  unfold Machine.execReportFetch at ht
  cases ht; exact K.taking _ _ _ _ (fun _ _ => K.takeReportFetch _) h

theorem execFlush (h : I s) (ht : execFlush s = .next t) : I t := by
  unfold Machine.execFlush at ht
  split at ht
  · split at ht
    · cases ht; exact K.flushTaking _ h
    · cases ht; exact h
  · cases ht; exact h

theorem execStalledFlushRetake (h : I s) (ht : execStalledFlushRetake s = .next t) : I t := by
  unfold Machine.execStalledFlushRetake at ht
  split at ht
  · split at ht
    · cases ht; exact K.flushTaking _ h
    · cases ht; exact h
  · cases ht; exact h

theorem execDeadlineExpiry {v : Nat} (h : I s) (ht : execDeadlineExpiry v s = .next t) : I t := by
  unfold Machine.execDeadlineExpiry at ht
  split at ht
  · cases ht; exact K.stageUnit _ _ _ h
  · cases ht; exact h

theorem execSlotVisit (h : I s) (ht : execSlotVisit s = .next t) : I t := by
  unfold Machine.execSlotVisit at ht
  split at ht
  · cases ht; exact K.turnWheel _ h
  · cases ht; exact h

theorem execOfferLapse {l : Nat} (h : I s) (ht : execOfferLapse l s = .next t) : I t := by
  unfold Machine.execOfferLapse at ht
  split at ht
  · split at ht
    · cases ht; exact K.turnWheel _ h
    · cases ht; exact h
  · cases ht; exact h

theorem execAccept {l : Nat} (h : I s) (ht : execAccept l s = .next t) : I t := by
  unfold Machine.execAccept at ht
  cases ht; exact K.controlTaking _ _ _ (fun _ _ => K.takeAccept _ _ _) h

theorem execDecline {l : Nat} (h : I s) (ht : execDecline l s = .next t) : I t := by
  unfold Machine.execDecline at ht
  cases ht; exact K.controlTaking _ _ _ (fun _ _ => K.takeDecline _ _ _) h

theorem execLaneReady {l : Nat} (h : I s) (ht : execLaneReady l s = .next t) : I t := by
  unfold Machine.execLaneReady at ht
  cases ht; exact K.controlTaking _ _ _ (fun _ _ => K.takeLaneReady _ _) h

theorem execLaneQuit {l : Nat} (h : I s) (ht : execLaneQuit l s = .next t) : I t := by
  unfold Machine.execLaneQuit at ht
  cases ht; exact K.controlTaking _ _ _ (fun _ _ => K.takeLaneQuit _ _) h

theorem execFetch {l : Nat} {rs : List ReadResult} (h : I s) (ht : execFetch l rs s = .next t) : I t := by
  unfold Machine.execFetch at ht
  cases ht; exact K.controlTaking _ _ _ (fun _ _ => K.takeFetch _ _ _ _ _ _) h

theorem execConfigure (h : I s) (ht : execConfigure s = .next t) : I t := by
  unfold Machine.execConfigure at ht
  refine K.request ?_ h ht
  intro b s h; exact K.configurePart _ h

theorem execRuleSet (h : I s) (ht : execRuleSet s = .next t) : I t := by
  unfold Machine.execRuleSet at ht
  refine K.request ?_ h ht
  intro b s h; exact K.setClassRule _ _ h

theorem execReclaimMapSet (h : I s) (ht : execReclaimMapSet s = .next t) : I t := by
  unfold Machine.execReclaimMapSet at ht
  refine K.request ?_ h ht
  intro b s h; exact K.setReclaimMap _ h

theorem execTenantSet (h : I s) (ht : execTenantSet s = .next t) : I t := by
  unfold Machine.execTenantSet at ht
  refine K.request ?_ h ht
  intro b s h; exact K.setTenantRequest _ _ _ _ h

theorem execReclaimAccountSet (h : I s) (ht : execReclaimAccountSet s = .next t) : I t := by
  unfold Machine.execReclaimAccountSet at ht
  refine K.request ?_ h ht
  intro b s h; exact K.setReclaimAccount _ _ h

theorem execTenantFreeze (h : I s) (ht : execTenantFreeze s = .next t) : I t := by
  unfold Machine.execTenantFreeze at ht
  refine K.request ?_ h ht
  intro b s h; exact K.freezeTenant _ h

theorem execTenantThaw (h : I s) (ht : execTenantThaw s = .next t) : I t := by
  unfold Machine.execTenantThaw at ht
  refine K.request ?_ h ht
  intro b s h; exact K.thawTenant _ h

theorem execStreamBind (h : I s) (ht : execStreamBind s = .next t) : I t := by
  unfold Machine.execStreamBind at ht
  refine K.request ?_ h ht
  intro b s h; exact K.bindStream _ _ _ h

theorem execStreamSet (h : I s) (ht : execStreamSet s = .next t) : I t := by
  unfold Machine.execStreamSet at ht
  refine K.request ?_ h ht
  intro b s h; exact K.setStreamPolicy _ _ h

theorem execStreamPause (h : I s) (ht : execStreamPause s = .next t) : I t := by
  unfold Machine.execStreamPause at ht
  refine K.request ?_ h ht
  intro b s h; exact K.pauseStream _ h

theorem execStreamResume (h : I s) (ht : execStreamResume s = .next t) : I t := by
  unfold Machine.execStreamResume at ht
  refine K.request ?_ h ht
  intro b s h; exact K.resumeStream _ h

theorem execStreamRetire (h : I s) (ht : execStreamRetire s = .next t) : I t := by
  unfold Machine.execStreamRetire at ht
  refine K.request ?_ h ht
  intro b s h; exact K.retireStream _ h

theorem execUnitClose (h : I s) (ht : execUnitClose s = .next t) : I t := by
  unfold Machine.execUnitClose at ht
  refine K.request ?_ h ht
  intro b s h; exact K.closeUnit _ h

theorem execSlotSet (h : I s) (ht : execSlotSet s = .next t) : I t := by
  unfold Machine.execSlotSet at ht
  refine K.request ?_ h ht
  intro b s h; exact K.setSlotRecord _ _ _ _ h

theorem execLaneBlock (h : I s) (ht : execLaneBlock s = .next t) : I t := by
  unfold Machine.execLaneBlock at ht
  refine K.request ?_ h ht
  intro b s h; exact K.blockLane _ h

theorem execLaneUnblock (h : I s) (ht : execLaneUnblock s = .next t) : I t := by
  unfold Machine.execLaneUnblock at ht
  refine K.request ?_ h ht
  intro b s h; exact K.unblockLane _ h

theorem execUnitDiscard (h : I s) (ht : execUnitDiscard s = .next t) : I t := by
  unfold Machine.execUnitDiscard at ht
  refine K.request ?_ h ht
  intro b s h; exact faultedRequest _ _ (fun u s hu hf h => K.discard _ _ _ hu hf h) h

theorem execInspect (h : I s) (ht : execInspect s = .next t) : I t := by
  unfold Machine.execInspect at ht
  split at ht
  · cases ht; exact K.place _ _ _ (K.inspectRequest _ (K.takeHead _ _ _ h))
  · cases ht; exact h

theorem execEventFetch (h : I s) (ht : execEventFetch s = .next t) : I t := by
  unfold Machine.execEventFetch at ht
  refine K.request ?_ h ht
  intro _ _ h; exact h

theorem execEventClear (h : I s) (ht : execEventClear s = .next t) : I t := by
  unfold Machine.execEventClear at ht
  refine K.request ?_ h ht
  intro b s h; exact checked (K.clearEvents _ _ h) h

theorem execEventMask (h : I s) (ht : execEventMask s = .next t) : I t := by
  unfold Machine.execEventMask at ht
  refine K.request ?_ h ht
  intro b s h; exact checked (K.maskEvents _ _ h) h

theorem execUnknownRequestKind (h : I s) (ht : execUnknownRequestKind s = .next t) : I t := by
  unfold Machine.execUnknownRequestKind at ht
  split at ht
  · cases ht; exact K.place _ _ _ (K.takeHead _ _ _ h)
  · cases ht; exact h

/-- What a property survives, every quiet command keeps. -/
theorem exec_quiet {c : Instr} (hq : quiet c = true) (h : I s) (ht : exec c s = .next t) : I t := by
  cases c <;> simp only [quiet, Bool.false_eq_true] at hq <;> unfold exec at ht
  case linkUp => exact K.execLinkUp h ht
  case linkReset => exact K.execLinkReset h ht
  case messageArrival => exact K.execMessageArrival h ht
  case messageSent => exact K.execMessageSent h ht
  case placementReportDelivery => exact K.execPlacementReportDelivery h ht
  case writeIntent => exact K.execWriteIntent h ht
  case stalledIntentRetake => exact K.execStalledIntentRetake h ht
  case withdraw => exact K.execWithdraw h ht
  case grantLapse => exact K.execGrantLapse h ht
  case readProbe => exact K.execReadProbe h ht
  case inquire => exact K.execInquire h ht
  case reportFetch => exact K.execReportFetch h ht
  case flush => exact K.execFlush h ht
  case stalledFlushRetake => exact K.execStalledFlushRetake h ht
  case deadlineExpiry => exact K.execDeadlineExpiry h ht
  case slotVisit => exact K.execSlotVisit h ht
  case offerLapse => exact K.execOfferLapse h ht
  case accept => exact K.execAccept h ht
  case decline => exact K.execDecline h ht
  case laneReady => exact K.execLaneReady h ht
  case laneQuit => exact K.execLaneQuit h ht
  case fetch => exact K.execFetch h ht
  case configure => exact K.execConfigure h ht
  case ruleSet => exact K.execRuleSet h ht
  case reclaimMapSet => exact K.execReclaimMapSet h ht
  case tenantSet => exact K.execTenantSet h ht
  case reclaimAccountSet => exact K.execReclaimAccountSet h ht
  case tenantFreeze => exact K.execTenantFreeze h ht
  case tenantThaw => exact K.execTenantThaw h ht
  case streamBind => exact K.execStreamBind h ht
  case streamSet => exact K.execStreamSet h ht
  case streamPause => exact K.execStreamPause h ht
  case streamResume => exact K.execStreamResume h ht
  case streamRetire => exact K.execStreamRetire h ht
  case unitClose => exact K.execUnitClose h ht
  case slotSet => exact K.execSlotSet h ht
  case laneBlock => exact K.execLaneBlock h ht
  case laneUnblock => exact K.execLaneUnblock h ht
  case unitDiscard => exact K.execUnitDiscard h ht
  case inspect => exact K.execInspect h ht
  case eventFetch => exact K.execEventFetch h ht
  case eventClear => exact K.execEventClear h ht
  case eventMask => exact K.execEventMask h ht
  case unknownRequestKind => exact K.execUnknownRequestKind h ht

end Acts

namespace ActsAll

variable {I : State → Prop} (K : ActsAll I) {s t : State}

include K

theorem evalSafe (h : I s) : I (evalSafe s) := K.setEventIf _ _ (K.safe _ _ h)

/-! ### Placement and completion (chapters 3 and 6) -/

theorem takeData {link : Nat} {m : Message} (h : I s) (ht : takeData link m s = .next t) : I t := by
  unfold Machine.takeData at ht
  dsimp only at ht
  split at ht
  · cases ht; exact K.place _ _ _ h
  · rename_i v hc
    split at ht
    · cases ht
    · rename_i os r hp
      injection ht with ht
      rw [← ht]
      exact K.evalSafe (K.walk _ (K.endOfPlacement _ (K.place _ _ _ (K.settled _ _ _ _ _ _ _ hc hp h))))

theorem takeUnitDone (link v l : Nat) (p : Opaque40) (h : I s) : I (takeUnitDone link v l p s) := by
  unfold Machine.takeUnitDone
  dsimp only
  split
  · exact K.refuseControl _ _ _ _ _ h
  · split
    · exact K.refuseControl _ _ _ _ _ h
    · rename_i u hu; exact K.complete _ _ _ _ _ hu h

theorem takeUnitFail (link v l : Nat) (r : Option FailReason) (h : I s) :
    I (takeUnitFail link v l r s) := by
  unfold Machine.takeUnitFail
  dsimp only
  split
  · exact K.refuseControl _ _ _ _ _ h
  · split
    · exact K.refuseControl _ _ _ _ _ h
    · split
      · exact K.refuseControl _ _ _ _ _ h
      · rename_i u hu; exact K.fail _ _ _ _ _ hu h

/-! ### The part state (chapters 8 and 10) -/

theorem enterPowerFail (h : I s) : I (enterPowerFail s) :=
  K.evalSafe (K.stageAll _ _ (K.powerFailAdmission _ (K.event _ _
    (K.power _ s.resetAsserted s.pfailAsserted _ _ _ _ _ h))))

theorem startPart (h : I s) : I (startPart s).state := by
  unfold Machine.startPart
  split
  · exact K.power _ s.resetAsserted s.pfailAsserted _ s.scrubbing _ s.entryState s.entryTime h
  · exact h

theorem stopPart (h : I s) : I (stopPart s).state := by
  unfold Machine.stopPart
  split
  · split
    · exact K.power _ s.resetAsserted s.pfailAsserted _ s.scrubbing _ s.entryState s.entryTime h
    · exact h
  · exact h

/-- What a property survives, every command but the full reset keeps. -/
theorem exec {c : Instr} (hc : c ≠ .fullReset) (h : I s) (ht : exec c s = .next t) : I t := by
  have idle : Host.Outcome.next (φ := Fault) (ρ := Refusal) s = .next t → I t := by
    intro h'; cases h'; exact h
  by_cases hq : quiet c = true
  · exact K.toActs.exec_quiet hq h ht
  · cases c <;> simp only [quiet, not_true_eq_false] at hq <;> simp only [Machine.exec] at ht
    case fullReset => exact absurd rfl hc
    case resetNRelease p =>
      unfold execResetNRelease at ht
      split at ht
      · have h1 := K.power _ false p .starting true s.nextVisit s.entryState s.entryTime h
        cases ht
        split
        · exact K.enterPowerFail h1
        · exact h1
      · exact idle ht
    case scrubComplete =>
      unfold execScrubComplete at ht
      split at ht
      · cases ht
        exact K.power _ s.resetAsserted s.pfailAsserted .stopped false s.nextVisit s.entryState
          s.entryTime (K.scrub _ Config.frameCount h)
      · exact idle ht
    case pfailNAssertion =>
      unfold execPfailNAssertion at ht
      have h1 := K.power _ s.resetAsserted true s.part s.scrubbing s.nextVisit s.entryState
        s.entryTime h
      cases ht
      split
      · exact h1
      · exact K.enterPowerFail h1
    case writeData l =>
      unfold execWriteData at ht
      split at ht
      · split at ht
        · exact K.takeData (K.takeHead _ _ _ h) ht
        · exact idle ht
      · exact idle ht
    case unitDone l =>
      cases ht; exact K.controlTaking _ _ _ (fun _ _ => K.takeUnitDone _ _ _ _) h
    case unitFail l =>
      cases ht; exact K.controlTaking _ _ _ (fun _ _ => K.takeUnitFail _ _ _ _) h
    case start => exact K.request (fun _ _ => K.startPart) h ht
    case stop => exact K.request (fun _ _ => K.stopPart) h ht
    case unitRestage =>
      exact K.request
        (fun _ _ => Acts.faultedRequest _ _ (fun _ _ => K.restaged _ _ _)) h ht

/-- A property that survives every command, the passing of time and the model's own counters survives
every step. -/
theorem step (reset : ∀ s, I s → I { State.reset with
      pending := s.pending, idles := s.idles, pfailAsserted := s.pfailAsserted })
    (own : ∀ s q n, I s → I { s with pending := q, idles := n })
    (time : ∀ s n, I s → I { s with now := n }) (h : I s) (ht : step s = .next t) : I t := by
  have all : ∀ (c : Instr) (s t : State), I s → Machine.exec c s = .next t → I t := by
    intro c s t h ht
    by_cases hc : c = .fullReset
    · subst hc; cases ht; exact reset _ h
    · exact K.exec hc h ht
  unfold Machine.step at ht
  split at ht
  · exact all _ _ _ (own _ _ s.idles h) ht
  · unfold idle at ht
    dsimp only at ht
    have h1 : I { s with idles := s.idles + 1 } := own _ s.pending _ h
    split at ht
    · exact all _ _ _ h1 ht
    · cases ht
      unfold tick
      split
      · exact h1
      · have h2 : I { s with idles := s.idles + 1, now := s.now + 1 } := time _ _ h1
        unfold scrubOn
        split
        · exact K.scrub _ _ h2
        · exact h2

end ActsAll

end Sys2Proof.Machine
end

