-- ==== Sys2Proof/Laws/Lanes.lean ====
section
/-! SUPPORT. What a lane's leaving UP does to the units and to the lanes, and what the event flags keep,
said once. -/

namespace Sys2Proof.Machine

/-- Withdrawing an offer stages the unit that was OFFERED and touches no other (R116). -/
theorem unit?_withdrawOffer (v w : Nat) (s : State) :
    (withdrawOffer v s).unit? w =
      if v = w then
        (s.unit? w).map fun u =>
          if u.state = .offered then { u with state := .staged, lane := none } else u
      else s.unit? w := by
  unfold withdrawOffer
  split
  · rename_i u hu
    by_cases ho : u.state = .offered
    · rw [if_pos ho]; unfold restage; rw [unit?_modifyUnit]; split
      · rename_i h; subst h; simp [hu, ho]
      · rfl
    · rw [if_neg ho]; split
      · rename_i h; subst h; simp [hu, ho]
      · rfl
  · rename_i hu; split
    · rename_i h; subst h; simp [hu]
    · rfl

/-- Withdrawing an offer touches no lane record. -/
theorem lanes_withdrawOffer (v : Nat) (s : State) : (withdrawOffer v s).lanes = s.lanes := by
  unfold withdrawOffer restage State.modifyUnit; split <;> (try split) <;> (try split) <;> simp

/-- Re-staging a group of distinct units restarts each of them (R116). -/
theorem unit?_restarts (l : List Nat) (w : Nat) (s : State) (hn : l.Nodup) :
    (l.foldl (fun s v => restart v s) s).unit? w =
      if w ∈ l then
        (s.unit? w).map fun u => { u with state := .staged, lane := none, restarted := true }
      else s.unit? w := by
  induction l generalizing s with
  | nil => simp
  | cons a l ih =>
    rw [List.nodup_cons] at hn
    rw [List.foldl_cons, ih _ hn.2]
    unfold restart
    rw [unit?_modifyUnit]
    by_cases h : w = a
    · subst h; simp [hn.1]
    · simp [h, Ne.symm h]

/-- Re-staging units touches no lane record. -/
theorem lanes_restarts (l : List Nat) (s : State) :
    (l.foldl (fun s v => restart v s) s).lanes = s.lanes :=
  fold_keeps (I := fun t => t.lanes = s.lanes) (fun s v => restart v s) (by
    intro t v h; unfold restart State.modifyUnit; split <;> simpa using h) l rfl

/-- The units IN_FLIGHT on a lane are distinct. -/
theorem unitsInFlight_nodup (s : State) (g : Nat) (hs : Table.sorted s.units = true) :
    (unitsInFlight s g).Nodup := by
  unfold unitsInFlight
  rw [Table.sorted_iff] at hs
  have := (hs.filter (fun p => decide (p.2.state = .inFlight) && p.2.lane == some g))
  refine List.Pairwise.map _ ?_ this
  intro a b h; exact Nat.ne_of_lt h

/-- A unit is among those IN_FLIGHT on a lane when its record says so. -/
theorem mem_unitsInFlight (s : State) (g v : Nat) (hs : Table.sorted s.units = true) :
    v ∈ unitsInFlight s g ↔
      ∃ u, s.unit? v = some u ∧ u.state = .inFlight ∧ u.lane = some g := by
  unfold unitsInFlight
  simp only [List.mem_map, List.mem_filter, Bool.and_eq_true, decide_eq_true_eq, beq_iff_eq]
  constructor
  · rintro ⟨⟨a, u⟩, ⟨hm, h1, h2⟩, rfl⟩
    exact ⟨u, Table.find?_of_mem hs hm, h1, h2⟩
  · rintro ⟨u, hu, h1, h2⟩
    exact ⟨(v, u), ⟨Table.mem_of_find? hu, h1, h2⟩, rfl⟩

/-- What a lane's leaving UP does to the lane records (R116). -/
theorem lane_leaveUp (g : Nat) (d : LaneState) (s : State) (j : Nat) :
    (leaveUp g d s).lane j =
      if g = j then { s.lane g with state := d, offer := none, inFlight := 0 } else s.lane j := by
  have key : ∀ s1 : State, s1.lanes = s.lanes →
      ∀ i, ((unitsInFlight s g).foldl (fun s v => restart v s) s1).lane i = s.lane i := by
    intro s1 h i; unfold State.lane; rw [lanes_restarts, h]
  unfold leaveUp
  cases ho : (s.lane g).offer with
  | none => dsimp only; rw [State.lane_setLane, key s rfl, key s rfl]
  | some o =>
    dsimp only
    rw [State.lane_setLane, key _ (lanes_withdrawOffer _ _), key _ (lanes_withdrawOffer _ _)]

/-- What a lane's leaving UP does to the unit records (R116). -/
theorem unit?_leaveUp (g : Nat) (d : LaneState) (s : State) (hs : Table.sorted s.units = true)
    (v : Nat) :
    (leaveUp g d s).unit? v = (s.unit? v).map fun u =>
      if u.state = .inFlight ∧ u.lane = some g then
        { u with state := .staged, lane := none, restarted := true }
      else if u.state = .offered ∧ (∃ o, (s.lane g).offer = some o ∧ o.unit = v) then
        { u with state := .staged, lane := none }
      else u := by
  have key : ∃ s1 : State,
      (leaveUp g d s).unit? v =
        ((unitsInFlight s g).foldl (fun s v => restart v s) s1).unit? v ∧
      s1.unit? v = (s.unit? v).map fun u =>
        if u.state = .offered ∧ (∃ o, (s.lane g).offer = some o ∧ o.unit = v) then
          { u with state := .staged, lane := none }
        else u := by
    unfold leaveUp
    cases ho : (s.lane g).offer with
    | none => exact ⟨s, rfl, by simp⟩
    | some o =>
      refine ⟨withdrawOffer o.unit s, rfl, ?_⟩
      rw [unit?_withdrawOffer]
      by_cases h : o.unit = v
      · rw [if_pos h]; congr 1; funext u; simp [h]
      · rw [if_neg h]; simp [h]
  obtain ⟨s1, e1, e⟩ := key
  rw [e1, unit?_restarts _ _ _ (unitsInFlight_nodup s g hs)]
  rw [e]
  by_cases hm : v ∈ unitsInFlight s g
  · rw [if_pos hm]
    obtain ⟨u, hu, h1, h2⟩ := (mem_unitsInFlight s g v hs).1 hm
    simp [hu, h1, h2]
  · rw [if_neg hm]
    cases hu : s.unit? v with
    | none => rfl
    | some u =>
      have : ¬(u.state = .inFlight ∧ u.lane = some g) := fun h =>
        hm ((mem_unitsInFlight s g v hs).2 ⟨u, hu, h.1, h.2⟩)
      simp [this]

/-- What a lane's leaving UP does to the units, case by case: those IN_FLIGHT on it are re-staged as restarted,
the offered one is STAGED again, and no other changes (R116). -/
theorem leaveUp_units (g : Nat) (d : LaneState) (s : State) (hs : Table.sorted s.units = true) :
    (∀ v u, s.unit? v = some u → u.state = .inFlight → u.lane = some g →
      (leaveUp g d s).unit? v = some { u with state := .staged, lane := none, restarted := true }) ∧
    (∀ v u, s.unit? v = some u → (u.state ≠ .inFlight ∨ u.lane ≠ some g) →
      (u.state ≠ .offered ∨ ∀ o, (s.lane g).offer = some o → o.unit ≠ v) →
      (leaveUp g d s).unit? v = some u) ∧
    (∀ o u, (s.lane g).offer = some o → s.unit? o.unit = some u → u.state = .offered →
      (leaveUp g d s).unit? o.unit = some { u with state := .staged, lane := none }) := by
  refine ⟨fun v u hu h1 h2 => ?_, fun v u hu h1 h2 => ?_, fun o u ho hu h1 => ?_⟩
  · rw [unit?_leaveUp g d s hs, hu]; exact congrArg some (if_pos ⟨h1, h2⟩)
  · rw [unit?_leaveUp g d s hs, hu]
    refine congrArg some ((if_neg ?_).trans (if_neg ?_))
    · rintro ⟨a, b⟩; exact h1.elim (· a) (· b)
    · rintro ⟨a, o, b, c⟩; exact h2.elim (· a) (fun h => h o b c)
  · rw [unit?_leaveUp g d s hs, hu]
    refine congrArg some ((if_neg ?_).trans (if_pos ⟨h1, o, ho, rfl⟩))
    rintro ⟨a, _⟩; rw [h1] at a; cases a

/-! ### Event flags (R179) -/

/-- Setting a flag sets it and raises its count. -/
theorem event_setEvent_same (e : Event) (s : State) :
    (setEvent e s).event e.code =
      { s.event e.code with flag := true, count := satSucc (s.event e.code).count } := by
  unfold setEvent State.setEvents State.event
  dsimp only
  rw [Table.getD_put, if_pos rfl]

/-- A flag that is set stays set when a flag is set. -/
theorem flag_setEvent (e : Event) (i : Nat) (s : State) (h : (s.event i).flag = true) :
    ((setEvent e s).event i).flag = true := by
  unfold setEvent State.setEvents State.event at *
  dsimp only
  rw [Table.getD_put]
  split
  · rfl
  · exact h

theorem flag_setEventIf (b : Bool) (e : Event) (i : Nat) (s : State)
    (h : (s.event i).flag = true) : ((setEventIf b e s).event i).flag = true := by
  unfold setEventIf
  split
  · exact flag_setEvent _ _ _ h
  · exact h

theorem events_place (l : Nat) (m : OutMessage) (s : State) : (place l m s).events = s.events := by
  unfold place; dsimp only; split <;> [split; skip] <;> rfl

/-- The end of a flush sets no flag. -/
theorem event_endFlush (ok : Bool) (e : Nat) (q : FlushEntry) (i : Nat) (s : State) :
    (endFlush ok e q s).event i = s.event i := by
  have h : ∀ l : List Nat, (l.foldl (fun s t => place 0 (.flushDone t ok) s) s).events = s.events :=
    fun l => fold_keeps (I := fun t => t.events = s.events)
      (fun s t => place 0 (.flushDone t ok) s) (fun t a h => by rw [events_place, h]) l rfl
  have h2 : ∀ l c k t, (callRetake l c k t).events = t.events := by
    intro l c k t; unfold callRetake; dsimp only; split <;> rfl
  unfold endFlush callFlushRetake State.event
  rw [h2]
  show Table.getD _ (State.events (List.foldl _ _ _)) _ = _
  rw [h]

/-- A flag that is set stays set at a fault. -/
theorem flag_flushesAtFault (v i : Nat) (s : State) (h : (s.event i).flag = true) :
    ((flushesAtFault v s).event i).flag = true := by
  refine fold_keeps (I := fun t => (t.event i).flag = true) (fun s e => faultFlush v e s) ?_ _ h
  intro t e h
  unfold faultFlush
  split
  · exact h
  · split
    · refine flag_setEvent _ _ _ ?_
      rw [event_endFlush]
      exact h
    · exact h

/-- After SAFE is evaluated it has its level. -/
theorem evalSafe_level (s : State) : (evalSafe s).safe = safeLevel (evalSafe s) := by
  rw [evalSafe_safe]
  unfold safeLevel
  rw [(congrArg State.part (evalSafe_frame s) :), (congrArg State.drainCount (evalSafe_frame s) :)]

end Sys2Proof.Machine
end

