-- ==== Sys2Proof/Laws/Records.lean ====
section
/-! SUPPORT. A property of the records that the laws of units, accounts, sets and index speak of: it survives
every command when it survives the few acts that write those records. -/

namespace Sys2Proof.Machine

/-- Two states agree in the records the laws of units, accounts, sets and index speak of. -/
structure SameRecords (s t : State) : Prop where
  free : t.free = s.free
  grants : t.grants = s.grants
  waiting : t.waiting = s.waiting
  frames : t.frames = s.frames
  sets : t.sets = s.sets
  units : t.units = s.units
  lanes : t.lanes = s.lanes
  drainCount : t.drainCount = s.drainCount
  faultList : t.faultList = s.faultList
  reportQueue : t.reportQueue = s.reportQueue
  accounts : ∀ a, (t.account a).used = (s.account a).used ∧ (t.account a).reserve = (s.account a).reserve

theorem SameRecords.of_links {s t : State} (h : { t with links := s.links } = s) : SameRecords s t where
  free := (congrArg State.free h :)
  grants := (congrArg State.grants h :)
  waiting := (congrArg State.waiting h :)
  frames := (congrArg State.frames h :)
  sets := (congrArg State.sets h :)
  units := (congrArg State.units h :)
  lanes := (congrArg State.lanes h :)
  drainCount := (congrArg State.drainCount h :)
  faultList := (congrArg State.faultList h :)
  reportQueue := (congrArg State.reportQueue h :)
  accounts a := by
    have h1 : t.accounts = s.accounts := (congrArg State.accounts h :)
    unfold State.account; rw [h1]; exact ⟨rfl, rfl⟩

theorem SameRecords.trans {s t u : State} (h : SameRecords s t) (k : SameRecords t u) :
    SameRecords s u where
  free := k.free.trans h.free
  grants := k.grants.trans h.grants
  waiting := k.waiting.trans h.waiting
  frames := k.frames.trans h.frames
  sets := k.sets.trans h.sets
  units := k.units.trans h.units
  lanes := k.lanes.trans h.lanes
  drainCount := k.drainCount.trans h.drainCount
  faultList := k.faultList.trans h.faultList
  reportQueue := k.reportQueue.trans h.reportQueue
  accounts a := ⟨(k.accounts a).1.trans (h.accounts a).1, (k.accounts a).2.trans (h.accounts a).2⟩

/-- A property of those records that survives the acts that write them. -/
structure RecordActs (I : State → Prop) : Prop where
  quiet : ∀ s t, SameRecords s t → I s → I t
  waiting : ∀ s w, (∀ e ∈ w, e.account < 257 ∨ ∃ o ∈ s.waiting, o.account = e.account) → I s →
    I (s.setWaiting w)
  limits : ∀ s a r c, limitCheck a r c s = none → I s → I (setLimits a r c s)
  granted : ∀ s g link tag a k key n, (a < 257 ∨ ∃ o ∈ s.waiting, o.account = a) →
    vacantGrant s = some g → resourceReasons s a k key n = Reasons.none → I s →
    I (grantRecords g link tag a k key n s)
  returnGrant : ∀ s g v, (g, v) ∈ s.grants → I s → I (returnGrant g v s)
  lapseGrants : ∀ s p, I s → I (lapseGrants p s)
  settled : ∀ s r link g v m os, checkData s link g m.tag (byteAt m.body 1) = .proceeds v →
    placeSlices (sliceWrites link v m) s = .ok (os, r) → I s → I (settleGrant g v r)
  read : ∀ s f v r, s.frame? f = some v → I s → I (readFrame f v r s).2
  release : ∀ s v u, s.unit? v = some u → (∃ i ∈ s.reportQueue, i.unit = v) → I s →
    I (vacateUnit v u (leaveQueue v s))
  stageUnit : ∀ s c v, I s → I (stageUnit c v s)
  times : ∀ s v f, (∀ u : UnitRecord, (f u).state = u.state ∧ (f u).lane = u.lane) → I s →
    I (s.modifyUnit v f)
  lane : ∀ s g v, v.offer = (s.lane g).offer → v.inFlight = (s.lane g).inFlight → I s →
    I (s.setLane g v)
  leaveUp : ∀ s g d, I s → I (leaveUp g d s)
  lapse : ∀ s g o, (s.lane g).offer = some o → I s → I (endLapsedOffer g o s)
  offer : ∀ s g v pos u, laneReadyForOffer s g = true → v ∈ stagedQueue s → s.unit? v = some u → I s →
    I (recordOffer g v pos u s)
  accept : ∀ s g v, holdsOffer s g v = true → I s → I (acceptOffer g v s)
  decline : ∀ s g v, holdsOffer s g v = true → I s → I (declineOffer g v s)
  discard : ∀ s v u, s.unit? v = some u → u.state = .faulted → I s → I (discardFaulted v u s)
  marks : ∀ s q, q.map (·.unit) = s.reportQueue.map (·.unit) → I s → I (s.setReportQueue q)
  complete : ∀ s g v u p, inFlightAt s g v = some u → I s → I (completeUnit g v u p s)
  fail : ∀ s g v u r, inFlightAt s g v = some u → I s → I (failUnit g v u r s)
  restaged : ∀ s v u, s.unit? v = some u → u.state = .faulted → I s → I (restageFaulted v u s)

/-! ### What leaves the records as they were -/

theorem same_place (l : Nat) (m : OutMessage) (s : State) : SameRecords s (place l m s) :=
  .of_links (links_place l m s)

theorem same_callRetake (l : Nat) (c : Channel) (k : Nat) (s : State) :
    SameRecords s (callRetake l c k s) := .of_links (links_callRetake l c k s)

theorem same_emit (l : Nat) (m : OutMessage) (s : State) : SameRecords s (emit l m s) :=
  .of_links (emit_frame l m s)

theorem same_setEvent (e : Event) (s : State) : SameRecords s (setEvent e s) :=
  ⟨rfl, rfl, rfl, rfl, rfl, rfl, rfl, rfl, rfl, rfl, fun _ => ⟨rfl, rfl⟩⟩

theorem same_setEvents (t : Table EventRecord) (s : State) : SameRecords s (s.setEvents t) :=
  ⟨rfl, rfl, rfl, rfl, rfl, rfl, rfl, rfl, rfl, rfl, fun _ => ⟨rfl, rfl⟩⟩

theorem same_capture (c : Capture) (s : State) : SameRecords s (capture c s) :=
  ⟨rfl, rfl, rfl, rfl, rfl, rfl, rfl, rfl, rfl, rfl, fun _ => ⟨rfl, rfl⟩⟩

theorem same_setAccount {s : State} {a : Nat} {v : Account} (h1 : v.used = (s.account a).used)
    (h2 : v.reserve = (s.account a).reserve) : SameRecords s (s.setAccount a v) where
  free := rfl
  grants := rfl
  waiting := rfl
  frames := rfl
  sets := rfl
  units := rfl
  lanes := rfl
  drainCount := rfl
  faultList := rfl
  reportQueue := rfl
  accounts b := by
    rw [State.account_setAccount]
    split
    · rename_i h; subst h; exact ⟨h1, h2⟩
    · exact ⟨rfl, rfl⟩

theorem same_setFrozen (t : Nat) (b : Bool) (s : State) : SameRecords s (setFrozen t b s) :=
  same_setAccount (v := { s.account t with frozen := b }) rfl rfl

theorem same_raiseHeld (a : Nat) (s : State) : SameRecords s (raiseHeld a s) :=
  same_setAccount (v := { s.account a with heldCount := (s.account a).heldCount + 1 }) rfl rfl

theorem same_lowerHeld (a : Nat) (s : State) : SameRecords s (lowerHeld a s) :=
  same_setAccount (v := { s.account a with heldCount := (s.account a).heldCount - 1 }) rfl rfl

theorem same_flushFrame {s t : State} (h : FlushFrame s t) : SameRecords s t where
  free := (congrArg State.free h :)
  grants := (congrArg State.grants h :)
  waiting := (congrArg State.waiting h :)
  frames := (congrArg State.frames h :)
  sets := (congrArg State.sets h :)
  units := (congrArg State.units h :)
  lanes := (congrArg State.lanes h :)
  drainCount := (congrArg State.drainCount h :)
  faultList := (congrArg State.faultList h :)
  reportQueue := (congrArg State.reportQueue h :)
  accounts a := by
    have h1 : t.accounts = s.accounts := (congrArg State.accounts h :)
    unfold State.account; rw [h1]; exact ⟨rfl, rfl⟩

theorem same_evalSafe (s : State) : SameRecords s (evalSafe s) := by
  unfold evalSafe setEventIf
  dsimp only
  split
  · exact ⟨rfl, rfl, rfl, rfl, rfl, rfl, rfl, rfl, rfl, rfl, fun _ => ⟨rfl, rfl⟩⟩
  · exact ⟨rfl, rfl, rfl, rfl, rfl, rfl, rfl, rfl, rfl, rfl, fun _ => ⟨rfl, rfl⟩⟩

/-- The stages of admission read nothing of an account but its reserve, its cap and its u (R29 to R31). -/
theorem resourceReasons_congr {s t : State} (a k : Nat) (key : Key) (n : Nat)
    (hc : (t.account a).cap = (s.account a).cap)
    (ha : ∀ b, (t.account b).used = (s.account b).used ∧ (t.account b).reserve = (s.account b).reserve)
    (hr : { t with accounts := s.accounts } = s) :
    resourceReasons t a k key n = resourceReasons s a k key n := by
  have e1 : ∀ b, unusedReserve (t.account b) = unusedReserve (s.account b) := by
    intro b; unfold unusedReserve; rw [(ha b).1, (ha b).2]
  have e2 : sharedFree t = sharedFree s := by
    unfold sharedFree sumAccounts
    have e0 : t.free = s.free := (congrArg State.free hr :)
    rw [e0]
    simp only [e1]
  have e3 : t.sets = s.sets := (congrArg State.sets hr :)
  have e4 : t.units = s.units := (congrArg State.units hr :)
  have e5 : t.streams = s.streams := (congrArg State.streams hr :)
  have e6 : t.grants = s.grants := (congrArg State.grants hr :)
  have e7 : t.cfg = s.cfg := (congrArg State.cfg hr :)
  unfold resourceReasons poolOk failingSet waysFit recordsNeeded vacantGrant State.usedRecords
    State.indexSet State.stream State.unit? State.grant?
  rw [hc, (ha a).1, e1, e2, e3, e4, e5, e6, e7]

/-- An entry that a re-test keeps on the list keeps its account. -/
theorem retest_account {e e' : Entry} {s s' : State} (h : retest e s = .keep e' s') :
    e'.account = e.account := by
  unfold Machine.retest at h
  dsimp only at h
  split at h
  · cases h
  · split at h
    · cases h
    · split at h
      · cases h; rfl
      · unfold retestResources at h
        dsimp only at h
        split at h
        · split at h
          · cases h
          · cases h; rfl
        · cases h; rfl

/-- A re-test leaves the pending list to the walk. -/
theorem retest_waiting (e : Entry) (s : State) : (retestState (retest e s)).waiting = s.waiting :=
  SurvivesGrants.retest (I := fun t => t.waiting = s.waiting)
    { account := fun _ _ _ h => h, free := fun _ _ h => h, grant := fun _ _ _ h => h
      clearGrant := fun _ _ h => h, set := fun _ _ _ h => h, stream := fun _ _ _ h => h
      unit := fun _ _ _ _ h => h, staged := fun _ _ h => h, event := fun _ _ h => h
      captured := fun _ _ h => h
      place := fun t l m h => by rw [← h]; exact (same_place l m t).waiting
      retake := fun t l c k h => by rw [← h]; exact (same_callRetake l c k t).waiting } e rfl

namespace RecordActs

variable {I : State → Prop} (K : RecordActs I) {s : State}

include K

/-! ### The pending list -/

theorem pressureCompare (h : I s) : I (pressureCompare s) := by
  unfold Machine.pressureCompare pressureStage
  split
  · split
    · exact K.quiet _ _ (same_setEvent _ _) (K.stageUnit _ _ _ h)
    · exact h
  · exact h

theorem reliefStage (x : Nat) (h : I s) : I (reliefStage x s) := by
  unfold Machine.reliefStage
  split
  · exact h
  · split
    · exact K.quiet _ _ (same_setEvent _ _) (K.stageUnit _ _ _ h)
    · exact h

theorem afterHold (r : Reasons) (x : Option Nat) (h : I s) : I (afterHold r x s) := by
  unfold Machine.afterHold
  have h1 : I (if r.frames = true then Machine.pressureCompare s else s) := by
    split
    · exact K.pressureCompare h
    · exact h
  dsimp only
  split
  · exact K.reliefStage _ h1
  · exact h1

theorem callRetake (l : Nat) (c : Channel) (k : Nat) (h : I s) : I (callRetake l c k s) :=
  K.quiet _ _ (same_callRetake _ _ _ _) h

theorem callIntentRetakes (h : I s) : I (callIntentRetakes s) := by
  simp only [Machine.callIntentRetakes, List.foldl]
  exact K.callRetake _ _ _ (K.callRetake _ _ _ (K.callRetake _ _ _ (K.callRetake _ _ _
    (K.callRetake _ _ _ h))))

theorem lowerHeld (a : Nat) (h : I s) : I (lowerHeld a s) := K.quiet _ _ (same_lowerHeld _ _) h

theorem refuse (c : Capture) (h : I s) : I (refuse c s) := by
  unfold Machine.refuse
  exact K.quiet _ _ (same_place _ _ _) (K.quiet _ _ (same_capture _ _) h)

theorem refuseEntry (e : Entry) (r : RefusalCode) (h : I s) : I (refuseEntry e r s) := by
  unfold Machine.refuseEntry
  exact K.callIntentRetakes (K.refuse _ (K.lowerHeld _ h))

theorem setEventIf (b : Bool) (e : Event) (h : I s) : I (setEventIf b e s) := by
  unfold Machine.setEventIf; split
  · exact K.quiet _ _ (same_setEvent _ _) h
  · exact h

theorem retest (e : Entry) (he : ∃ o ∈ s.waiting, o.account = e.account) (h : I s) :
    I (retestState (retest e s)) := by
  unfold Machine.retest
  dsimp only
  have h1 := K.setEventIf (judge s e.cls e.stream (fallbackStream s e)).fellBack .fallback h
  have hw : (Machine.setEventIf (judge s e.cls e.stream (fallbackStream s e)).fellBack .fallback s).waiting
      = s.waiting := by unfold Machine.setEventIf; split <;> rfl
  revert h1 hw
  generalize Machine.setEventIf (judge s e.cls e.stream (fallbackStream s e)).fellBack .fallback s = s1
  intro h1 hw
  split
  · simp only [retestState]; exact K.refuseEntry _ _ h1
  · split
    · simp only [retestState]; exact K.refuseEntry _ _ h1
    · split
      · simp only [retestState]; exact h1
      · unfold retestResources
        dsimp only
        split
        · rename_i g hg
          split
          · rename_i hr
            simp only [retestState]
            refine K.callIntentRetakes (K.pressureCompare (K.quiet _ _ (same_place _ _ _)
              (K.granted _ _ _ _ _ _ _ _ (.inr ?_) hg ?_ (K.lowerHeld _ h1))))
            · obtain ⟨o, ho, ha⟩ := he; exact ⟨o, by show o ∈ s1.waiting; rw [hw]; exact ho, ha⟩
            · rw [← hr]
              refine resourceReasons_congr _ _ _ _ ?_
                (same_lowerHeld e.account s1).accounts rfl
              unfold Machine.lowerHeld
              dsimp only
              rw [State.account_setAccount_same]
          · simp only [retestState]; exact K.afterHold _ _ h1
        · simp only [retestState]; exact K.afterHold _ _ h1

theorem walkFrom (l : List Entry) : ∀ (kept : List Entry) {s : State}, I s →
    (∀ e ∈ kept ++ l, ∃ o ∈ s.waiting, o.account = e.account) → I (walkFrom kept l s) := by
  induction l with
  | nil =>
    intro kept s h hk
    exact K.waiting _ _ (fun e he => .inr (hk e (by simpa using he))) h
  | cons e l ih =>
    intro kept s h hk
    unfold Machine.walkFrom
    have he := hk e (by simp)
    split
    · refine ih _ h ?_
      intro x hx
      simp only [List.append_assoc, List.cons_append, List.nil_append, List.mem_append,
        List.mem_cons] at hx
      rcases hx with hx | hx | hx
      · exact hk x (by simp [hx])
      · subst hx; exact he
      · exact hk x (by simp [hx])
    · have h1 := K.retest e he h
      have h2 := retest_waiting e s
      split
      · rename_i e' s' hr
        rw [hr] at h1 h2
        refine ih _ h1 ?_
        intro x hx
        rw [show s'.waiting = s.waiting from h2]
        simp only [List.append_assoc, List.cons_append, List.nil_append, List.mem_append,
          List.mem_cons] at hx
        rcases hx with hx | hx | hx
        · exact hk x (by simp [hx])
        · subst hx; rw [retest_account hr]; exact he
        · exact hk x (by simp [hx])
      · rename_i s' hr
        rw [hr] at h1 h2
        refine ih _ h1 ?_
        intro x hx
        rw [show s'.waiting = s.waiting from h2]
        rcases List.mem_append.1 hx with hx | hx
        · exact hk x (by simp [hx])
        · exact hk x (by simp [hx])

theorem retestWalk (h : I s) : I (retestWalk s) :=
  K.walkFrom _ _ h (fun e he => ⟨e, by simpa using he, rfl⟩)

theorem removeEntry (e : Entry) (h : I s) : I (removeEntry e s) := by
  unfold Machine.removeEntry
  exact K.callIntentRetakes (K.lowerHeld _ (K.waiting _ _
    (fun x hx => .inr ⟨x, List.mem_of_mem_erase hx, rfl⟩) h))

theorem removeLinkEntries (l : Nat) (h : I s) : I (removeLinkEntries l s) := by
  unfold Machine.removeLinkEntries
  generalize s.waiting.filter (fun e => e.link == l) = es
  refine fold_keeps (fun s (e : Entry) => Machine.removeEntry e s) ?_ es h
  intro t e ht
  exact K.removeEntry e ht

theorem powerFailAdmission (h : I s) : I (powerFailAdmission s) := by
  unfold Machine.powerFailAdmission
  dsimp only
  have h1 := K.lapseGrants _ (fun _ => true) h
  revert h1
  generalize Machine.lapseGrants (fun _ => true) s = s1
  intro h1
  generalize s1.waiting = es
  refine K.waiting _ _ (fun e he => absurd he (by simp)) ?_
  refine fold_keeps (fun s (e : Entry) => Machine.refuseEntry e .powerFail s) ?_ es h1
  intro t e ht
  exact K.refuseEntry e _ ht

theorem join (e : Entry) (he : e.account < 257) (h : I s) :
    I (raiseHeld e.account (s.setWaiting (s.waiting ++ [e]))) := by
  refine K.quiet _ _ (same_raiseHeld _ _) (K.waiting _ _ (fun x hx => ?_) h)
  rcases List.mem_append.1 hx with hx | hx
  · exact .inr ⟨x, hx, rfl⟩
  · rw [List.mem_singleton.1 hx]; exact .inl he

theorem markIssued (b : Bool) (v : Nat) (h : I s) : I (markIssued b v s) := by
  refine K.marks _ _ ?_ h
  rw [List.map_map]
  refine List.map_congr_left fun i _ => ?_
  show (if i.unit = v then { i with issued := b } else i).unit = i.unit
  split <;> rfl

/-! ### Every command -/

set_option maxHeartbeats 400000 in
theorem acts : ActsAll I where
  rule _ _ _ := K.quiet _ _ ⟨rfl, rfl, rfl, rfl, rfl, rfl, rfl, rfl, rfl, rfl, fun _ => ⟨rfl, rfl⟩⟩
  tenant _ _ _ := K.quiet _ _ ⟨rfl, rfl, rfl, rfl, rfl, rfl, rfl, rfl, rfl, rfl, fun _ => ⟨rfl, rfl⟩⟩
  trackers _ := K.quiet _ _ ⟨rfl, rfl, rfl, rfl, rfl, rfl, rfl, rfl, rfl, rfl, fun _ => ⟨rfl, rfl⟩⟩
  reclaimMap _ _ := K.quiet _ _ ⟨rfl, rfl, rfl, rfl, rfl, rfl, rfl, rfl, rfl, rfl, fun _ => ⟨rfl, rfl⟩⟩
  captured _ _ := K.quiet _ _ (same_capture _ _)
  captures _ := K.quiet _ _ ⟨rfl, rfl, rfl, rfl, rfl, rfl, rfl, rfl, rfl, rfl, fun _ => ⟨rfl, rfl⟩⟩
  event _ _ := K.quiet _ _ (same_setEvent _ _)
  clearEvents _ _ := K.quiet _ _ (same_setEvents _ _)
  maskEvents _ _ := K.quiet _ _ (same_setEvents _ _)
  place _ _ _ := K.quiet _ _ (same_place _ _ _)
  takeHead _ _ _ := K.quiet _ _ ⟨rfl, rfl, rfl, rfl, rfl, rfl, rfl, rfl, rfl, rfl, fun _ => ⟨rfl, rfl⟩⟩
  stallHead _ _ _ := K.quiet _ _ ⟨rfl, rfl, rfl, rfl, rfl, rfl, rfl, rfl, rfl, rfl, fun _ => ⟨rfl, rfl⟩⟩
  callRetake _ _ _ _ := K.quiet _ _ (same_callRetake _ _ _ _)
  emit _ _ _ := K.quiet _ _ (same_emit _ _ _)
  cleared _ _ := K.quiet _ _ ⟨rfl, rfl, rfl, rfl, rfl, rfl, rfl, rfl, rfl, rfl, fun _ => ⟨rfl, rfl⟩⟩
  bringUp _ _ := K.quiet _ _ ⟨rfl, rfl, rfl, rfl, rfl, rfl, rfl, rfl, rfl, rfl, fun _ => ⟨rfl, rfl⟩⟩
  inSeq _ _ _ := K.quiet _ _ ⟨rfl, rfl, rfl, rfl, rfl, rfl, rfl, rfl, rfl, rfl, fun _ => ⟨rfl, rfl⟩⟩
  refused _ _ _ := K.quiet _ _ ⟨rfl, rfl, rfl, rfl, rfl, rfl, rfl, rfl, rfl, rfl, fun _ => ⟨rfl, rfl⟩⟩
  enqueue _ _ _ _ _ := K.quiet _ _ ⟨rfl, rfl, rfl, rfl, rfl, rfl, rfl, rfl, rfl, rfl, fun _ => ⟨rfl, rfl⟩⟩
  frozen _ _ _ := K.quiet _ _ (same_setFrozen _ _ _)
  limits := K.limits
  granted _ _ _ _ _ _ _ _ ha := K.granted _ _ _ _ _ _ _ _ (.inl ha)
  returnGrant := K.returnGrant
  lapseGrants := K.lapseGrants
  join _ e he _ h := K.join e he h
  walk _ := K.retestWalk
  removeEntry _ _ _ := K.removeEntry _
  removeLinkEntries _ _ := K.removeLinkEntries _
  powerFailAdmission _ := K.powerFailAdmission
  read := K.read
  release := K.release
  stream _ _ _ := K.quiet _ _ ⟨rfl, rfl, rfl, rfl, rfl, rfl, rfl, rfl, rfl, rfl, fun _ => ⟨rfl, rfl⟩⟩
  stageUnit := K.stageUnit
  times := K.times
  slot _ _ _ := K.quiet _ _ ⟨rfl, rfl, rfl, rfl, rfl, rfl, rfl, rfl, rfl, rfl, fun _ => ⟨rfl, rfl⟩⟩
  wheel _ _ _ := K.quiet _ _ ⟨rfl, rfl, rfl, rfl, rfl, rfl, rfl, rfl, rfl, rfl, fun _ => ⟨rfl, rfl⟩⟩
  settings _ _ := K.quiet _ _ ⟨rfl, rfl, rfl, rfl, rfl, rfl, rfl, rfl, rfl, rfl, fun _ => ⟨rfl, rfl⟩⟩
  drain _ _ _ := K.quiet _ _ ⟨rfl, rfl, rfl, rfl, rfl, rfl, rfl, rfl, rfl, rfl, fun _ => ⟨rfl, rfl⟩⟩
  lane _ _ _ h1 h2 _ := K.lane _ _ _ h1 h2
  leaveUp := K.leaveUp
  lapse := K.lapse
  offer := K.offer
  accept := K.accept
  decline := K.decline
  discard := K.discard
  markIssued _ _ _ := K.markIssued _ _
  flush _ _ _ := K.quiet _ _ ⟨rfl, rfl, rfl, rfl, rfl, rfl, rfl, rfl, rfl, rfl, fun _ => ⟨rfl, rfl⟩⟩
  flushOrder _ _ := K.quiet _ _ ⟨rfl, rfl, rfl, rfl, rfl, rfl, rfl, rfl, rfl, rfl, fun _ => ⟨rfl, rfl⟩⟩
  dropFlush _ _ _ := K.quiet _ _ ⟨rfl, rfl, rfl, rfl, rfl, rfl, rfl, rfl, rfl, rfl, fun _ => ⟨rfl, rfl⟩⟩
  noFlushes _ := K.quiet _ _ ⟨rfl, rfl, rfl, rfl, rfl, rfl, rfl, rfl, rfl, rfl, fun _ => ⟨rfl, rfl⟩⟩
  safe _ _ := K.quiet _ _ ⟨rfl, rfl, rfl, rfl, rfl, rfl, rfl, rfl, rfl, rfl, fun _ => ⟨rfl, rfl⟩⟩
  power _ _ _ _ _ _ _ _ :=
    K.quiet _ _ ⟨rfl, rfl, rfl, rfl, rfl, rfl, rfl, rfl, rfl, rfl, fun _ => ⟨rfl, rfl⟩⟩
  scrub _ _ := K.quiet _ _ ⟨rfl, rfl, rfl, rfl, rfl, rfl, rfl, rfl, rfl, rfl, fun _ => ⟨rfl, rfl⟩⟩
  settled := K.settled
  complete := K.complete
  fail := K.fail
  restaged := K.restaged

/-- A property of those records that survives the acts that write them, and that holds of the records after
the full reset, is kept by every step. -/
theorem step {s t : State} (reset : I State.reset) (h : I s) (ht : step s = .next t) : I t :=
  K.acts.step
    (fun _ _ => K.quiet State.reset _
      ⟨rfl, rfl, rfl, rfl, rfl, rfl, rfl, rfl, rfl, rfl, fun _ => ⟨rfl, rfl⟩⟩ reset)
    (fun _ _ _ => K.quiet _ _
      ⟨rfl, rfl, rfl, rfl, rfl, rfl, rfl, rfl, rfl, rfl, fun _ => ⟨rfl, rfl⟩⟩)
    (fun _ _ => K.quiet _ _
      ⟨rfl, rfl, rfl, rfl, rfl, rfl, rfl, rfl, rfl, rfl, fun _ => ⟨rfl, rfl⟩⟩) h ht

end RecordActs

end Sys2Proof.Machine
end

