-- ==== Sys2Proof/Laws/Placing.lean ====
section
/-! SUPPORT. What the placing of a slice does to the frames, the index and the accounts, said once (R60 to
R65), and what the release of frames leaves alone (R55). -/

namespace Sys2Proof.Machine

/-- A property that survives the placing of each slice survives the placing of all. -/
theorem placeSlices_keeps {I : State → Prop}
    (hI : ∀ s w o t, placeSlice w s = .ok (o, t) → I s → I t) (ws : List SliceWrite) :
    ∀ {s t : State} {os : List Placed}, placeSlices ws s = .ok (os, t) → I s → I t := by
  induction ws with
  | nil =>
    intro s t os ht h
    simp only [placeSlices, Except.ok.injEq, Prod.mk.injEq] at ht
    rw [← ht.2]; exact h
  | cons w ws ih =>
    intro s t os ht h
    unfold placeSlices at ht
    split at ht
    · cases ht
    · rename_i hw
      split at ht
      · cases ht
      · rename_i hws
        simp only [Except.ok.injEq, Prod.mk.injEq] at ht
        rw [← ht.2]
        exact ih hws (hI _ _ _ _ hw h)

/-! ### The release of frames -/

/-- The fields that the release of frames may write: all others of `t` are those of `s` (R55). -/
def ReleaseFrame (s t : State) : Prop :=
  { t with
    frames := s.frames, freed := s.freed, sets := s.sets, accounts := s.accounts, free := s.free } = s

theorem ReleaseFrame.removeWay {s t : State} (h : ReleaseFrame s t) (x f : Nat) :
    ReleaseFrame s (removeWay x f t) := h

theorem ReleaseFrame.clearFrame {s t : State} (h : ReleaseFrame s t) (f : Nat) :
    ReleaseFrame s (t.clearFrame f) := h

theorem ReleaseFrame.setFreed {s t : State} (h : ReleaseFrame s t) (f : Nat) (v : Stored) :
    ReleaseFrame s (t.setFreed f v) := h

theorem ReleaseFrame.returnFrames {s t : State} (h : ReleaseFrame s t) (a n : Nat) :
    ReleaseFrame s (returnFrames a n t) := h

/-- What the release of frames leaves alone (R55). -/
theorem releaseFrames_frame (fs : List Nat) (s : State) : ReleaseFrame s (releaseFrames fs s) := by
  refine fold_keeps (I := ReleaseFrame s) (fun s (f : Nat) => releaseFrame f s) ?_ fs rfl
  intro t f ht
  unfold releaseFrame
  split
  · exact ht
  · dsimp only
    refine ReleaseFrame.returnFrames (ReleaseFrame.setFreed (ReleaseFrame.clearFrame ?_ _) _ _) _ _
    split
    · exact ht
    · exact ht.removeWay _ _

/-! ### The appending of a frame to a unit -/

/-- The fields that the appending of a frame to a unit may write (R62, R88, R89, R93). -/
def AppendFrame (s t : State) : Prop :=
  { t with
    units := s.units, streams := s.streams, stagedCounter := s.stagedCounter,
    drainCount := s.drainCount } = s

theorem AppendFrame.modifyUnit {s t : State} (h : AppendFrame s t) (v : Nat) (f : UnitRecord → UnitRecord) :
    AppendFrame s (t.modifyUnit v f) := by
  unfold State.modifyUnit; split <;> exact h

theorem AppendFrame.setStream {s t : State} (h : AppendFrame s t) (k : Nat) (v : Stream) :
    AppendFrame s (t.setStream k v) := h

theorem AppendFrame.stageUnit {s t : State} (h : AppendFrame s t) (c : CloseCause) (v : Nat) :
    AppendFrame s (stageUnit c v t) :=
  (congrArg (fun q : State => { q with
    units := s.units, streams := s.streams, stagedCounter := s.stagedCounter,
    drainCount := s.drainCount }) (stageUnit_frame c v t) :).trans h

theorem AppendFrame.refl (s : State) : AppendFrame s s := rfl

theorem appendFrame_frame (k v f : Nat) (s : State) : AppendFrame s (appendFrame k v f s) := by
  unfold appendFrame arrive
  dsimp only
  have h1 := (((AppendFrame.refl s).modifyUnit v
    (fun u => { u with frames := u.frames ++ [f] })).setStream k
      { (s.modifyUnit v (fun u => { u with frames := u.frames ++ [f] })).stream k with
        slicesPlaced := ((s.modifyUnit v (fun u => { u with frames := u.frames ++ [f] })).stream k).slicesPlaced + 1 })
  split
  · exact (h1.modifyUnit _ _).stageUnit _ _
  · exact h1.modifyUnit _ _

theorem openUnit_frame {k v : Nat} {s t : State} (ht : withOpenUnit k s = some (v, t)) : AppendFrame s t := by
  unfold withOpenUnit at ht
  split at ht
  · cases ht; rfl
  · cases hr : nextRecord s k with
    | none => rw [hr] at ht; cases ht
    | some r =>
      rw [hr] at ht
      simp only [Option.map_some, Option.some.injEq, Prod.mk.injEq] at ht
      rw [← ht.2]
      rfl

/-- What the records of frames, ways and accounts are after an act: the fields the laws of index, sets and
accounts speak of. -/
structure Ledger (s t : State) (frames : Table Frame) : Prop where
  frames : t.frames = frames
  sets : t.sets = s.sets
  accounts : t.accounts = s.accounts
  free : t.free = s.free
  grants : t.grants = s.grants
  waiting : t.waiting = s.waiting

theorem AppendFrame.ledger {s t : State} (h : AppendFrame s t) : Ledger s t s.frames where
  frames := (congrArg State.frames h :)
  sets := (congrArg State.sets h :)
  accounts := (congrArg State.accounts h :)
  free := (congrArg State.free h :)
  grants := (congrArg State.grants h :)
  waiting := (congrArg State.waiting h :)

/-- What a new frame's record holds (R53). -/
structure NewFrame (w : SliceWrite) (v : Frame) : Prop where
  key : v.record.key = w.key
  account : v.record.account = w.account
  current : v.record.void = false

/-- Filling a frame lists it, and touches no other frame, no way and no account (R53, R62). -/
theorem fillFrame_ledger (w : SliceWrite) (f v : Nat) (s : State) :
    ∃ r, NewFrame w r ∧ Ledger s (fillFrame w f v s) (Table.insert s.frames f r) := by
  unfold fillFrame
  dsimp only
  refine ⟨{ record := newRecord w (s.clearFreed f).nextSeq v (((s.unit? v).map UnitRecord.fill).getD 0),
            data := w.data, latent := false }, ⟨rfl, rfl, rfl⟩, ?_⟩
  have h := (appendFrame_frame w.stream v f
    (((s.clearFreed f).setFrame f
      { record := newRecord w (s.clearFreed f).nextSeq v (((s.unit? v).map UnitRecord.fill).getD 0),
        data := w.data, latent := false }).setNextSeq ((s.clearFreed f).nextSeq + 1))).ledger
  exact ⟨h.frames, h.sets, h.accounts, h.free, h.grants, h.waiting⟩

/-- A slice put into a new frame: a FREE frame is HELD for it (R53, R62). -/
theorem placeNew_ledger {w : SliceWrite} {s t : State} {f : Nat} (h : placeNew w s = .ok (f, t)) :
    s.frame? f = none ∧ ∃ r, NewFrame w r ∧ Ledger s t (Table.insert s.frames f r) := by
  unfold placeNew at h
  split at h
  · rename_i f' u s' hf ho
    simp only [Except.ok.injEq, Prod.mk.injEq] at h
    obtain ⟨rfl, rfl⟩ := h
    have hfree := (firstFrom_some hf).2.2.1
    refine ⟨by simpa using hfree, ?_⟩
    have h1 := (openUnit_frame ho).ledger
    obtain ⟨r, hr, h2⟩ := fillFrame_ledger w f' u s'
    exact ⟨r, hr, by rw [h2.frames, h1.frames], h2.sets.trans h1.sets, h2.accounts.trans h1.accounts,
      h2.free.trans h1.free, h2.grants.trans h1.grants, h2.waiting.trans h1.waiting⟩
  · cases h
  · cases h

/-! ### The placing of one slice -/

/-- The frames, the set of the key, and the account after a slice has been placed. -/
structure Placing (s t : State) (w : SliceWrite) (frames : Table Frame) (q : IndexSet) (back : Nat) :
    Prop where
  frames : t.frames = frames
  set : ∀ x, t.indexSet x = if indexHash w.key = x then q else s.indexSet x
  accounts : ∀ a, t.account a =
    if w.account = a then { s.account a with used := (s.account a).used - back } else s.account a
  free : t.free = s.free + back
  grants : t.grants = s.grants
  waiting : t.waiting = s.waiting

/-- The outcomes of Table 3-3, in what they do to frames, ways and accounts (R60 to R65). -/
inductive PlaceEffect (s t : State) (w : SliceWrite) : Prop where
  | miss (f i : Nat) (r : Frame)
      (found : ∀ j y, lookup s w.key = some (j, y) → s.frame? y.frame = none)
      (free : s.frame? f = none) (new : NewFrame w r)
      (vacant : vacantWay (s.indexSet (indexHash w.key)) = some i)
      (after : Placing s t w (Table.insert s.frames f r)
        { ways := Table.insert (s.indexSet (indexHash w.key)).ways i { key := w.key, frame := f },
          reserved := (s.indexSet (indexHash w.key)).reserved - 1 } 0)
  | inPlace (i : Nat) (y : Way) (v v' : Frame) (found : lookup s w.key = some (i, y))
      (held : s.frame? y.frame = some v) (key : v'.record.key = v.record.key)
      (account : v'.record.account = v.record.account) (void : v'.record.void = v.record.void)
      (after : Placing s t w (Table.insert s.frames y.frame v')
        { s.indexSet (indexHash w.key) with
          reserved := (s.indexSet (indexHash w.key)).reserved - 1 } 1)
  | dropped (after : Placing s t w s.frames
        { s.indexSet (indexHash w.key) with
          reserved := (s.indexSet (indexHash w.key)).reserved - 1 } 1)
  | supersede (i f : Nat) (y : Way) (v r : Frame) (found : lookup s w.key = some (i, y))
      (held : s.frame? y.frame = some v) (free : s.frame? f = none) (other : f ≠ y.frame)
      (new : NewFrame w r)
      (after : Placing s t w
        (Table.insert (Table.insert s.frames y.frame
          { v with record := { v.record with void := true } }) f r)
        { ways := Table.insert (s.indexSet (indexHash w.key)).ways i { key := w.key, frame := f },
          reserved := (s.indexSet (indexHash w.key)).reserved - 1 } 0)

theorem account_same {s t : State} (h : t.accounts = s.accounts) (a : Nat) : t.account a = s.account a := by
  unfold State.account; rw [h]

theorem indexSet_same {s t : State} (h : t.sets = s.sets) (x : Nat) : t.indexSet x = s.indexSet x := by
  unfold State.indexSet; rw [h]

/-- A write of a way, after an act that left the index and the accounts. -/
theorem Placing.ofWay {s t : State} {w : SliceWrite} {fr : Table Frame} (h : Ledger s t fr) (i f : Nat) :
    Placing s (writeWay (indexHash w.key) i { key := w.key, frame := f } t) w fr
      { ways := Table.insert (s.indexSet (indexHash w.key)).ways i { key := w.key, frame := f },
        reserved := (s.indexSet (indexHash w.key)).reserved - 1 } 0 where
  frames := h.frames
  set x := by
    unfold writeWay
    dsimp only
    rw [State.indexSet_setIndexSet, indexSet_same h.sets, indexSet_same h.sets]
  accounts a := by
    have e : (writeWay (indexHash w.key) i { key := w.key, frame := f } t).account a = s.account a :=
      account_same (s := s) h.accounts a
    rw [e]
    split <;> rfl
  free := h.free
  grants := h.grants
  waiting := h.waiting

/-- A slice that takes no new frame gives its frame and its way back (R63, R65). -/
theorem Placing.ofReturn {s t : State} {w : SliceWrite} {fr : Table Frame} (h : Ledger s t fr) :
    Placing s (returnFrames w.account 1 (releaseWays (indexHash w.key) 1 t)) w fr
      { s.indexSet (indexHash w.key) with
        reserved := (s.indexSet (indexHash w.key)).reserved - 1 } 1 where
  frames := h.frames
  set x := by
    unfold returnFrames releaseWays
    dsimp only
    rw [show ∀ (q : State) a v n, ((q.setAccount a v).setFree n).indexSet x = q.indexSet x from
      fun _ _ _ _ => rfl, State.indexSet_setIndexSet, indexSet_same h.sets, indexSet_same h.sets]
  accounts a := by
    unfold returnFrames
    dsimp only
    rw [show ∀ (q : State) n, (q.setFree n).account a = q.account a from fun _ _ => rfl,
      State.account_setAccount]
    have e : ∀ b, (releaseWays (indexHash w.key) 1 t).account b = s.account b :=
      fun b => account_same (s := s) h.accounts b
    split
    · rename_i ha; subst ha; rw [e]
    · rw [e]
  free := congrArg (· + 1) h.free
  grants := h.grants
  waiting := h.waiting

theorem Placing.congr {s t t' : State} {w : SliceWrite} {fr : Table Frame} {q : IndexSet} {b : Nat}
    (h : Placing s t w fr q b) (k : Ledger t t' t.frames) : Placing s t' w fr q b where
  frames := k.frames.trans h.frames
  set x := (indexSet_same k.sets x).trans (h.set x)
  accounts a := (account_same k.accounts a).trans (h.accounts a)
  free := k.free.trans h.free
  grants := k.grants.trans h.grants
  waiting := k.waiting.trans h.waiting

theorem placeMiss_effect {w : SliceWrite} {s t : State} {o : Placed} (h : placeMiss w s = .ok (o, t))
    (found : ∀ j y, lookup s w.key = some (j, y) → s.frame? y.frame = none) : PlaceEffect s t w := by
  unfold placeMiss at h
  dsimp only at h
  split at h
  · cases h
  · rename_i i hv
    split at h
    · cases h
    · rename_i f s' hp
      simp only [Except.ok.injEq, Prod.mk.injEq] at h
      obtain ⟨_, rfl⟩ := h
      obtain ⟨hf, r, hr, hl⟩ := placeNew_ledger hp
      exact .miss f i r found hf hr hv (.ofWay hl i f)

/-- What the placing of a slice does, by its outcome (R60). -/
theorem placeSlice_effect {w : SliceWrite} {s t : State} {o : Placed} (h : placeSlice w s = .ok (o, t)) :
    PlaceEffect s t w := by
  unfold placeSlice at h
  split at h
  · rename_i hl
    exact placeMiss_effect h fun j y hj => by rw [hl] at hj; cases hj
  · rename_i i y hl
    split at h
    · rename_i hf
      exact placeMiss_effect h fun j z hj => by rw [hl] at hj; cases hj; exact hf
    · rename_i v hv
      split at h
      · simp only [Except.ok.injEq] at h
        have h1 := congrArg Prod.snd h
        simp only at h1
        rw [← h1]
        refine .inPlace i y v
          { record := { v.record with latestSeq := s.nextSeq, damaged := false,
                                      source := if w.cls = .reclaim then w.source else v.record.source },
            data := w.data, latent := false } hl hv rfl rfl rfl ?_
        have hL : Ledger s ((s.setFrame y.frame
            { record := { v.record with latestSeq := s.nextSeq, damaged := false,
                                        source := if w.cls = .reclaim then w.source else v.record.source },
              data := w.data, latent := false }).setNextSeq (s.nextSeq + 1)) (Table.insert s.frames y.frame
            { record := { v.record with latestSeq := s.nextSeq, damaged := false,
                                        source := if w.cls = .reclaim then w.source else v.record.source },
              data := w.data, latent := false }) := ⟨rfl, rfl, rfl, rfl, rfl, rfl⟩
        unfold placeInPlace arrive
        dsimp only
        exact (Placing.ofReturn hL).congr
          (AppendFrame.ledger (((AppendFrame.refl _).setStream _ _).modifyUnit _ _))
      · split at h
        · simp only [Except.ok.injEq] at h
          have h1 := congrArg Prod.snd h
          simp only at h1
          rw [← h1]
          exact .dropped (.ofReturn ⟨rfl, rfl, rfl, rfl, rfl, rfl⟩)
        · unfold placeSupersede at h
          dsimp only at h
          split at h
          · cases h
          · rename_i f s' hp
            simp only [Except.ok.injEq, Prod.mk.injEq] at h
            obtain ⟨_, rfl⟩ := h
            obtain ⟨hf, r, hr, hL⟩ := placeNew_ledger hp
            rw [State.frame?_setFrame] at hf
            split at hf
            · cases hf
            · rename_i hne
              exact .supersede i f y v r hl hv hf (Ne.symm hne) hr
                (.ofWay (s := s) ⟨hL.frames, hL.sets, hL.accounts, hL.free, hL.grants, hL.waiting⟩ i f)

end Sys2Proof.Machine
end

