-- ==== Sys2Proof/Laws/Ledger.lean ====
section
/-! SUPPORT. A property of the frames, the index, the accounts, the grants and the pending list: it survives
every command when it survives the few acts that write those records. -/

namespace Sys2Proof.Machine

/-- Two states agree in the records the laws of accounts, sets and index speak of. -/
structure SameLedger (s t : State) : Prop where
  free : t.free = s.free
  grants : t.grants = s.grants
  waiting : t.waiting = s.waiting
  frames : t.frames = s.frames
  sets : t.sets = s.sets
  accounts : ∀ a, (t.account a).used = (s.account a).used ∧ (t.account a).reserve = (s.account a).reserve

theorem SameLedger.refl (s : State) : SameLedger s s := ⟨rfl, rfl, rfl, rfl, rfl, fun _ => ⟨rfl, rfl⟩⟩

theorem SameRecords.ledger {s t : State} (h : SameRecords s t) : SameLedger s t :=
  ⟨h.free, h.grants, h.waiting, h.frames, h.sets, h.accounts⟩

theorem SameLedger.trans {s t u : State} (h : SameLedger s t) (k : SameLedger t u) : SameLedger s u where
  free := k.free.trans h.free
  grants := k.grants.trans h.grants
  waiting := k.waiting.trans h.waiting
  frames := k.frames.trans h.frames
  sets := k.sets.trans h.sets
  accounts a := ⟨(k.accounts a).1.trans (h.accounts a).1, (k.accounts a).2.trans (h.accounts a).2⟩

/-- The same records of accounts, and all else the laws speak of. -/
theorem SameLedger.of {s t : State} (h1 : t.free = s.free) (h2 : t.grants = s.grants)
    (h3 : t.waiting = s.waiting) (h4 : t.frames = s.frames) (h5 : t.sets = s.sets)
    (h6 : t.accounts = s.accounts) : SameLedger s t :=
  ⟨h1, h2, h3, h4, h5, fun a => by rw [account_same h6]; exact ⟨rfl, rfl⟩⟩

namespace SameLedger

variable {s t : State} (h : SameLedger s t)

include h

theorem setUnit (v : Nat) (u : UnitRecord) : SameLedger s (t.setUnit v u) := h.trans (.of rfl rfl rfl rfl rfl rfl)

theorem clearUnit (v : Nat) : SameLedger s (t.clearUnit v) := h.trans (.of rfl rfl rfl rfl rfl rfl)

theorem modifyUnit (v : Nat) (f : UnitRecord → UnitRecord) : SameLedger s (t.modifyUnit v f) := by
  unfold State.modifyUnit; split
  · exact h.setUnit _ _
  · exact h

theorem setLane (g : Nat) (v : Lane) : SameLedger s (t.setLane g v) := h.trans (.of rfl rfl rfl rfl rfl rfl)

theorem setStream (k : Nat) (v : Stream) : SameLedger s (t.setStream k v) := h.trans (.of rfl rfl rfl rfl rfl rfl)

theorem setReportQueue (q : List ReportItem) : SameLedger s (t.setReportQueue q) :=
  h.trans (.of rfl rfl rfl rfl rfl rfl)

theorem setFaultList (l : List Nat) : SameLedger s (t.setFaultList l) := h.trans (.of rfl rfl rfl rfl rfl rfl)

theorem setDrainCount (n : Nat) : SameLedger s (t.setDrainCount n) := h.trans (.of rfl rfl rfl rfl rfl rfl)

theorem stageUnit (c : CloseCause) (v : Nat) : SameLedger s (stageUnit c v t) := by
  have k := ((AppendFrame.refl t).stageUnit c v).ledger
  exact h.trans (.of k.free k.grants k.waiting k.frames k.sets k.accounts)

theorem leaveUp (g : Nat) (d : LaneState) : SameLedger s (leaveUp g d t) := by
  have k := leaveUp_frame g d t
  exact h.trans (.of (congrArg State.free k :) (congrArg State.grants k :) (congrArg State.waiting k :)
    (congrArg State.frames k :) (congrArg State.sets k :) (congrArg State.accounts k :))

theorem restage (v : Nat) : SameLedger s (restage v t) := h.modifyUnit _ _

theorem faultUnit (v : Nat) : SameLedger s (faultUnit v t) := by
  unfold Machine.faultUnit
  dsimp only
  exact SameLedger.setDrainCount (SameLedger.trans (SameLedger.trans ((h.modifyUnit _ _).setFaultList _)
    (same_setEvent _ _).ledger) (same_flushFrame (flushesAtFault_frame v _)).ledger) _

end SameLedger

/-- The lapse of every grant that meets a condition, in a state whose grants stand in rising number: each is
LIVE when it lapses (R49 to R51). -/
theorem lapseGrants_of {I : State → Prop} (quiet : ∀ s t, SameLedger s t → I s → I t)
    (sorted : ∀ s, I s → Table.sorted s.grants = true)
    (back : ∀ s g v, (g, v) ∈ s.grants → I s → I (returnGrant g v s)) (s : State) (p : Grant → Bool)
    (h : I s) : I (lapseGrants p s) := by
  unfold lapseGrants
  have key : ∀ (l : List (Nat × Grant)) (s : State), I s → (∀ q ∈ l, q ∈ s.grants) →
      l.Pairwise (fun p q => p.1 < q.1) → I (l.foldl (fun s q => lapseGrant q.1 q.2 s) s) := by
    intro l
    induction l with
    | nil => intro s h _ _; exact h
    | cons q l ih =>
      intro s h hm hp
      rw [List.pairwise_cons] at hp
      refine ih _ (quiet _ _ (same_setEvent _ _).ledger (back _ _ _ (hm q (by simp)) h)) ?_ hp.2
      intro r hr
      rw [grants_lapseGrant]
      exact List.mem_filter.2 ⟨hm r (by simp [hr]), by simpa using Nat.ne_of_gt (hp.1 r hr)⟩
  refine key _ s h (fun q hq => (List.mem_filter.1 hq).1) ?_
  exact ((Table.sorted_iff _).1 (sorted s h)).filter _

/-- What a Write Data finds that is placed: its grant, LIVE (R35). -/
theorem checkData_proceeds {s : State} {link g tag n : Nat} {v : Grant}
    (h : checkData s link g tag n = .proceeds v) : s.grant? g = some v := by
  unfold checkData at h
  split at h
  · rename_i w hw
    split at h
    · split at h
      · cases h; exact hw
      · cases h
    · cases h
  · cases h

/-- The keys of the slices of a Write Data are those of its run (R35). -/
theorem keys_sliceWrites (link : Nat) (v : Grant) (m : Message) :
    (sliceWrites link v m).map (·.key) = runKeys v.key v.n := by
  unfold sliceWrites runKeys
  rw [List.map_map]
  rfl

/-- A property of those records that survives the acts that write them. -/
structure LedgerActs (I : State → Prop) : Prop where
  quiet : ∀ s t, SameLedger s t → I s → I t
  waiting : ∀ s w, (∀ e ∈ w, e.account < 257 ∨ ∃ o ∈ s.waiting, o.account = e.account) → I s →
    I (s.setWaiting w)
  limits : ∀ s a r c, limitCheck a r c s = none → I s → I (setLimits a r c s)
  granted : ∀ s g link tag a k key n, (a < 257 ∨ ∃ o ∈ s.waiting, o.account = a) →
    vacantGrant s = some g → resourceReasons s a k key n = Reasons.none → I s →
    I (grantRecords g link tag a k key n s)
  returnGrant : ∀ s g v, (g, v) ∈ s.grants → I s → I (returnGrant g v s)
  lapseGrants : ∀ s p, I s → I (lapseGrants p s)
  settled : ∀ s r link g v m os, checkData s link g m.tag (byteAt m.body 1) = .proceeds v →
    placeSlices (sliceWrites link v m) s = .ok (os, r) → I s → I (settleGrant g v r)
  frame : ∀ s f v v', s.frame? f = some v → v'.record.key = v.record.key →
    v'.record.account = v.record.account → v'.record.void = v.record.void → I s → I (s.setFrame f v')
  releaseFrame : ∀ s f, I s → I (releaseFrame f s)

namespace LedgerActs

variable {I : State → Prop} (K : LedgerActs I)

include K

theorem read {s : State} {f : Nat} {v : Frame} (r : ReadResult) (hf : s.frame? f = some v) (h : I s) :
    I (readFrame f v r s).2 := by
  unfold readFrame
  split
  · exact h
  · exact K.quiet (s.setFrame f { v with latent := true }) _ (.of rfl rfl rfl rfl rfl rfl)
      (K.frame _ f v _ hf rfl rfl rfl h)
  · dsimp only
    refine K.quiet _ _ (same_setEvent _ _).ledger ?_
    exact K.quiet (s.setFrame f { v with record := { v.record with damaged := true } }) _
      (.of rfl rfl rfl rfl rfl rfl) (K.frame _ f v _ hf rfl rfl rfl h)

theorem release {s : State} (v : Nat) (u : UnitRecord) (h : I s) :
    I (vacateUnit v u (leaveQueue v s)) := by
  unfold vacateUnit
  refine K.quiet _ _ ((SameLedger.refl _).clearUnit _) ?_
  exact fold_keeps (fun s (f : Nat) => Machine.releaseFrame f s) (fun _ _ => K.releaseFrame _ _) u.frames
    (K.quiet s _ (.of rfl rfl rfl rfl rfl rfl) h)

theorem acts : RecordActs I where
  quiet _ _ k := K.quiet _ _ k.ledger
  waiting := K.waiting
  limits := K.limits
  granted := K.granted
  returnGrant := K.returnGrant
  lapseGrants := K.lapseGrants
  settled := K.settled
  read _ _ _ _ hf h := K.read _ hf h
  release _ _ _ _ _ h := K.release _ _ h
  stageUnit _ _ _ := K.quiet _ _ ((SameLedger.refl _).stageUnit _ _)
  times _ _ _ _ := K.quiet _ _ ((SameLedger.refl _).modifyUnit _ _)
  lane _ _ _ _ _ := K.quiet _ _ ((SameLedger.refl _).setLane _ _)
  leaveUp _ _ _ := K.quiet _ _ ((SameLedger.refl _).leaveUp _ _)
  lapse _ _ _ _ := K.quiet _ _ (((SameLedger.refl _).restage _).setLane _ _)
  offer _ _ _ _ _ _ _ _ := K.quiet _ _ (((SameLedger.refl _).setUnit _ _).setLane _ _)
  accept _ _ _ _ := K.quiet _ _ (((SameLedger.refl _).modifyUnit _ _).setLane _ _)
  decline _ _ _ _ := K.quiet _ _ (((SameLedger.refl _).restage _).setLane _ _)
  discard _ _ _ _ _ :=
    K.quiet _ _ ((((SameLedger.refl _).setFaultList _).setUnit _ _).setReportQueue _)
  marks _ _ _ := K.quiet _ _ ((SameLedger.refl _).setReportQueue _)
  complete s g v u p _ := by
    refine K.quiet _ _ ?_
    unfold completeUnit
    dsimp only
    exact SameLedger.trans (SameLedger.setDrainCount (SameLedger.trans
      (((((SameLedger.refl _).setUnit _ _).setLane _ _).setReportQueue _).setStream _ _)
      (same_flushFrame (flushesAtDone_frame v _)).ledger) _) (same_evalSafe _).ledger
  fail s g v u r _ := by
    refine K.quiet _ _ ?_
    unfold failUnit
    dsimp only
    refine SameLedger.trans ?_ (same_evalSafe _).ledger
    have h1 : SameLedger s ((lowerInFlight g s).setUnit v
      { u with state := .staged, lane := none, attempts := u.attempts + 1 }) :=
      ((SameLedger.refl _).setLane _ _).setUnit _ _
    revert h1
    generalize ((lowerInFlight g s).setUnit v
      { u with state := .staged, lane := none, attempts := u.attempts + 1 }) = s1
    intro h1
    have h2 : SameLedger s (if u.attempts + 1 < Config.attemptLimit then s1 else faultUnit v s1) := by
      split
      · exact h1
      · exact h1.faultUnit v
    revert h2
    generalize (if u.attempts + 1 < Config.attemptLimit then s1 else faultUnit v s1) = s2
    intro h2
    split
    · exact (h2.leaveUp _ _).trans (same_setEvent _ _).ledger
    · exact h2
  restaged s v u _ _ := by
    refine K.quiet _ _ ?_
    unfold restageFaulted
    dsimp only
    exact SameLedger.trans (SameLedger.setDrainCount (SameLedger.trans
      (((SameLedger.refl _).setFaultList _).setUnit _ _)
      (same_flushFrame (flushesAtRestage_frame v _)).ledger) _) (same_evalSafe _).ledger

end LedgerActs

end Sys2Proof.Machine
end

