-- ==== Sys2Proof/Laws/Index.lean ====
section
/-! SUPPORT. The laws of the index (R56) survive every act. -/

namespace Sys2Proof.Machine

/-- The laws of the index speak of the ways of the sets, and of the key and the void flag of the frames. -/
theorem IndexLaw.congr {s t : State} (h : IndexLaw s)
    (ways : ∀ x, (t.indexSet x).ways = (s.indexSet x).ways)
    (frames : ∀ f, (t.frame? f).map (fun v => (v.record.key, v.record.void)) =
      (s.frame? f).map (fun v => (v.record.key, v.record.void))) : IndexLaw t where
  sorted x := by rw [ways]; exact h.sorted x
  named x p hp := by
    rw [ways] at hp
    obtain ⟨h1, v, hv, h2, h3⟩ := h.named x p hp
    have := frames p.2.frame
    rw [hv] at this
    obtain ⟨w, hw, hk⟩ := Option.map_eq_some_iff.1 this
    simp only [Prod.mk.injEq] at hk
    exact ⟨h1, w, hw, hk.1.trans h2, hk.2.trans h3⟩
  once x p hp q hq := by rw [ways] at hp hq; exact h.once x p hp q hq
  current f v hv hn := by
    have := (frames f).symm
    rw [hv] at this
    obtain ⟨w, hw, hk⟩ := Option.map_eq_some_iff.1 this
    simp only [Prod.mk.injEq] at hk
    rw [← hk.1]
    obtain ⟨p, hp, he⟩ := h.current f w hw (hk.2.trans hn)
    exact ⟨p, by rw [ways]; exact hp, he⟩

theorem IndexLaw.same {s t : State} (h : IndexLaw s) (k : SameLedger s t) : IndexLaw t :=
  h.congr (fun x => by rw [indexSet_same k.sets]) (fun f => by unfold State.frame?; rw [k.frames])

/-- A lookup finds the way of its set that holds the key. -/
theorem lookup_some {s : State} {k : Key} {i : Nat} {y : Way} (h : lookup s k = some (i, y)) :
    (i, y) ∈ (s.indexSet (indexHash k)).ways ∧ y.key = k := by
  unfold lookup at h
  exact ⟨List.mem_of_find?_eq_some h, by simpa using List.find?_some h⟩

theorem lookup_none {s : State} {k : Key} (h : lookup s k = none) (p : Nat × Way)
    (hp : p ∈ (s.indexSet (indexHash k)).ways) : p.2.key ≠ k := by
  unfold lookup at h
  rw [List.find?_eq_none] at h
  simpa using h p hp

/-- The way that names a frame is the only one that does. -/
theorem IndexLaw.way_unique {s : State} (h : IndexLaw s) {x y : Nat} {p q : Nat × Way}
    (hp : p ∈ (s.indexSet x).ways) (hq : q ∈ (s.indexSet y).ways) (he : p.2.frame = q.2.frame) :
    x = y ∧ p = q := by
  obtain ⟨h1, v, hv, h2, _⟩ := h.named x p hp
  obtain ⟨k1, w, hw, k2, _⟩ := h.named y q hq
  rw [he, hw] at hv; cases hv
  have hk : p.2.key = q.2.key := h2.symm.trans k2
  have hx : x = y := by rw [← h1, ← k1, hk]
  subst hx
  exact ⟨rfl, h.once x p hp q hq hk⟩

/-- A vacant way is not listed. -/
theorem vacantWay_some {x : IndexSet} {i : Nat} (h : vacantWay x = some i) :
    Table.find? x.ways i = none ∧ i < 16 := by
  have := firstFrom_some h
  exact ⟨by simpa using this.2.2.1, by simpa [Config.wayCount] using this.2.1⟩

theorem mem_insert_self {α : Type} (t : Table α) (k : Nat) (v : α) : (k, v) ∈ Table.insert t k v :=
  Table.mem_of_find? (by rw [Table.find?_insert, if_pos rfl])

theorem mem_insert_of_ne {α : Type} {t : Table α} {k : Nat} {v : α} {p : Nat × α} (hs : Table.sorted t = true)
    (hp : p ∈ t) (hn : p.1 ≠ k) : p ∈ Table.insert t k v := by
  refine Table.mem_of_find? (k := p.1) (v := p.2) ?_
  rw [Table.find?_insert, if_neg (Ne.symm hn)]
  exact Table.find?_of_mem hs hp

theorem of_mem_insert {α : Type} {t : Table α} {k : Nat} {v : α} {p : Nat × α} (hs : Table.sorted t = true)
    (hp : p ∈ Table.insert t k v) : p = (k, v) ∨ p ∈ t ∧ p.1 ≠ k := by
  by_cases hk : p.1 = k
  · left
    have h1 := Table.find?_of_mem (k := p.1) (v := p.2) (Table.sorted_insert k v hs) hp
    rw [Table.find?_insert, if_pos hk.symm] at h1
    cases h1
    rw [← hk]
  · right
    rcases Table.mem_insert hp with h | h
    · rw [h] at hk; exact absurd rfl hk
    · exact ⟨h, hk⟩

/-- A way of the key's set is written for a frame newly HELD, in place of the way that held the key or of a
VACANT one (R61, R64). -/
theorem IndexLaw.write {s t : State} (h : IndexLaw s) {k : Key} {i f : Nat} {r : Frame}
    (hfree : s.frame? f = none) (hkey : r.record.key = k) (hvoid : r.record.void = false)
    (hways : ∀ x, (t.indexSet x).ways = if indexHash k = x then
      Table.insert (s.indexSet (indexHash k)).ways i { key := k, frame := f } else (s.indexSet x).ways)
    (hold : ∀ p ∈ (s.indexSet (indexHash k)).ways, p.2.key = k ↔ p.1 = i)
    (hframes : ∀ j, t.frame? j = if f = j then some r else
      if (∃ p ∈ (s.indexSet (indexHash k)).ways, p.1 = i ∧ p.2.frame = j) then
        (s.frame? j).map (fun v => { v with record := { v.record with void := true } })
      else s.frame? j) : IndexLaw t := by
  have hmem : ∀ x p, p ∈ (t.indexSet x).ways →
      (x = indexHash k ∧ p = (i, { key := k, frame := f })) ∨
      (p ∈ (s.indexSet x).ways ∧ ¬(x = indexHash k ∧ p.1 = i)) := by
    intro x p hp
    rw [hways] at hp
    split at hp
    · rename_i hx; subst hx
      rcases of_mem_insert (h.sorted _) hp with h1 | ⟨h1, h2⟩
      · exact .inl ⟨rfl, h1⟩
      · exact .inr ⟨h1, fun hc => h2 hc.2⟩
    · rename_i hx
      exact .inr ⟨hp, fun hc => hx hc.1.symm⟩
  have hkeep : ∀ x p, p ∈ (s.indexSet x).ways → ¬(x = indexHash k ∧ p.1 = i) → p ∈ (t.indexSet x).ways := by
    intro x p hp hn
    rw [hways]
    split
    · rename_i hx; subst hx
      exact mem_insert_of_ne (h.sorted _) hp fun hc => hn ⟨rfl, hc⟩
    · exact hp
  have hnew : ((i, { key := k, frame := f }) : Nat × Way) ∈ (t.indexSet (indexHash k)).ways := by
    rw [hways, if_pos rfl]; exact mem_insert_self _ _ _
  -- a way of `s` that stays names a frame that stays as it was
  have hframe : ∀ x p, p ∈ (s.indexSet x).ways → ¬(x = indexHash k ∧ p.1 = i) →
      t.frame? p.2.frame = s.frame? p.2.frame := by
    intro x p hp hn
    obtain ⟨_, v, hv, _⟩ := h.named x p hp
    rw [hframes, if_neg, if_neg]
    · rintro ⟨q, hq, hqi, hqf⟩
      obtain ⟨hx, hpq⟩ := h.way_unique hq hp hqf
      exact hn ⟨hx.symm, by rw [← hpq]; exact hqi⟩
    · rintro rfl; rw [hfree] at hv; cases hv
  refine ⟨?_, ?_, ?_, ?_⟩
  · intro x
    rw [hways]
    split
    · exact Table.sorted_insert _ _ (h.sorted _)
    · exact h.sorted x
  · intro x p hp
    rcases hmem x p hp with ⟨rfl, rfl⟩ | ⟨h1, h2⟩
    · exact ⟨rfl, r, by rw [hframes, if_pos rfl], hkey, hvoid⟩
    · rw [hframe x p h1 h2]
      exact h.named x p h1
  · intro x p hp q hq he
    rcases hmem x p hp with ⟨rfl, rfl⟩ | ⟨h1, h2⟩
    · rcases hmem _ q hq with ⟨_, rfl⟩ | ⟨k1, k2⟩
      · rfl
      · exact absurd ⟨rfl, (hold q k1).1 he.symm⟩ k2
    · rcases hmem x q hq with ⟨rfl, rfl⟩ | ⟨k1, k2⟩
      · exact absurd ⟨rfl, (hold p h1).1 he⟩ h2
      · exact h.once x p h1 q k1 he
  · intro j v hv hn
    rw [hframes] at hv
    split at hv
    · rename_i hj; subst hj
      cases hv
      rw [hkey]
      exact ⟨_, hnew, rfl⟩
    · split at hv
      · obtain ⟨w, _, rfl⟩ := Option.map_eq_some_iff.1 hv
        cases hn
      · rename_i hno
        obtain ⟨p, hp, he⟩ := h.current j v hv hn
        refine ⟨p, hkeep _ p hp ?_, he⟩
        rintro ⟨hx, hpi⟩
        rw [hx] at hp
        exact hno ⟨p, hp, hpi, he⟩

theorem frame?_of {t : State} {fr : Table Frame} (h : t.frames = fr) (j : Nat) :
    t.frame? j = Table.find? fr j := by unfold State.frame?; rw [h]

theorem IndexLaw.placeSlice {s t : State} {w : SliceWrite} {o : Placed} (h : IndexLaw s)
    (ht : placeSlice w s = .ok (o, t)) : IndexLaw t := by
  cases placeSlice_effect ht with
  | miss f i r found free new vacant after =>
    have hno : lookup s w.key = none := by
      cases hl : lookup s w.key with
      | none => rfl
      | some p =>
        obtain ⟨h1, _⟩ := lookup_some (i := p.1) (y := p.2) hl
        obtain ⟨_, v, hv, _⟩ := h.named _ _ h1
        rw [found p.1 p.2 hl] at hv; cases hv
    have hvac := (vacantWay_some vacant).1
    have hi : ∀ p ∈ (s.indexSet (indexHash w.key)).ways, p.1 ≠ i := by
      rintro p hp rfl
      have := Table.find?_of_mem (k := p.1) (v := p.2) (h.sorted _) hp
      rw [hvac] at this; cases this
    refine h.write free new.key new.current (i := i) ?_ ?_ ?_
    · intro x; rw [after.set]; split <;> rfl
    · intro p hp
      exact ⟨fun hc => absurd hc (lookup_none hno p hp), fun hc => absurd hc (hi p hp)⟩
    · intro j
      rw [frame?_of after.frames, Table.find?_insert, if_neg (c := ∃ p ∈ _, _ ∧ _)]
      · rfl
      · rintro ⟨p, hp, hpi, _⟩; exact hi p hp hpi
  | inPlace i y v v' found held key account void after =>
    refine h.congr ?_ ?_
    · intro x; rw [after.set]; split
      · rename_i hx; subst hx; rfl
      · rfl
    · intro f
      rw [frame?_of after.frames, Table.find?_insert]
      split
      · rename_i hf; subst hf
        rw [held, Option.map_some, Option.map_some, key, void]
      · rfl
  | dropped after =>
    refine h.congr ?_ ?_
    · intro x; rw [after.set]; split
      · rename_i hx; subst hx; rfl
      · rfl
    · intro f; rw [frame?_of after.frames]; rfl
  | supersede i f y v r found held free other new after =>
    obtain ⟨hy, hk⟩ := lookup_some found
    have hold : ∀ p ∈ (s.indexSet (indexHash w.key)).ways, p.1 = i → p = (i, y) := by
      intro p hp hpi
      have h1 := Table.find?_of_mem (k := p.1) (v := p.2) (h.sorted _) hp
      have h2 := Table.find?_of_mem (h.sorted _) hy
      rw [hpi, h2] at h1
      cases h1
      rw [← hpi]
    refine h.write free new.key new.current (i := i) ?_ ?_ ?_
    · intro x; rw [after.set]; split <;> rfl
    · intro p hp
      constructor
      · intro hc
        rw [h.once _ p hp (i, y) hy (by rw [hc, hk])]
      · intro hc; rw [hold p hp hc, hk]
    · intro j
      rw [frame?_of after.frames, Table.find?_insert]
      split
      · rfl
      · rw [Table.find?_insert]
        by_cases hj : y.frame = j
        · subst hj
          rw [if_pos rfl, if_pos ⟨_, hy, rfl, rfl⟩, held]
          rfl
        · rw [if_neg hj, if_neg]
          · rfl
          · rintro ⟨p, hp, hpi, hpf⟩
            rw [hold p hp hpi] at hpf
            exact hj hpf

/-- The release of a frame takes the way that names it out of the index (R55). -/
theorem IndexLaw.releaseFrame {s : State} (h : IndexLaw s) (f : Nat) : IndexLaw (releaseFrame f s) := by
  unfold Machine.releaseFrame
  split
  · exact h
  · rename_i v hv
    dsimp only
    -- the ways that stay are those that name another frame
    have key : ∀ q : State, q.frames = s.frames →
        (∀ x, (q.indexSet x).ways = (s.indexSet x).ways.filter (fun p => p.2.frame ≠ f)) →
        IndexLaw (returnFrames v.record.account 1
          ((q.clearFrame f).setFreed f { data := v.data, latent := v.latent })) := by
      intro q hqf hqs
      have hset : ∀ x, ((returnFrames v.record.account 1
          ((q.clearFrame f).setFreed f { data := v.data, latent := v.latent })).indexSet x).ways =
          (s.indexSet x).ways.filter (fun p => p.2.frame ≠ f) := hqs
      have hfr : ∀ j, (returnFrames v.record.account 1
          ((q.clearFrame f).setFreed f { data := v.data, latent := v.latent })).frame? j =
          if f = j then none else s.frame? j := by
        intro j
        show (q.clearFrame f).frame? j = _
        rw [State.frame?_clearFrame]
        unfold State.frame?; rw [hqf]
      have hm : ∀ x p, p ∈ (s.indexSet x).ways.filter (fun p => p.2.frame ≠ f) ↔
          p ∈ (s.indexSet x).ways ∧ p.2.frame ≠ f := by intro x p; simp
      refine ⟨?_, ?_, ?_, ?_⟩
      · intro x; rw [hset]; exact Table.sorted_filter _ (h.sorted x)
      · intro x p hp
        rw [hset, hm] at hp
        rw [hfr, if_neg (Ne.symm hp.2)]
        exact h.named x p hp.1
      · intro x p hp q' hq'
        rw [hset, hm] at hp hq'
        exact h.once x p hp.1 q' hq'.1
      · intro j w hw hn
        rw [hfr] at hw
        split at hw
        · cases hw
        · rename_i hj
          obtain ⟨p, hp, he⟩ := h.current j w hw hn
          exact ⟨p, by rw [hset, hm]; exact ⟨hp, by rw [he]; exact Ne.symm hj⟩, he⟩
    split
    · rename_i hvoid
      refine key s rfl fun x => (List.filter_eq_self.2 ?_).symm
      intro p hp
      obtain ⟨_, w, hw, _, h3⟩ := h.named x p hp
      simp only [ne_eq, decide_not, Bool.not_eq_eq_eq_not, Bool.not_true, decide_eq_false_iff_not]
      intro hc
      rw [hc, hv] at hw; cases hw
      rw [hvoid] at h3; cases h3
    · rename_i hvoid
      refine key _ rfl fun x => ?_
      unfold removeWay
      dsimp only
      rw [State.indexSet_setIndexSet]
      split
      · rename_i hx; subst hx; rfl
      · rename_i hx
        refine (List.filter_eq_self.2 ?_).symm
        intro p hp
        obtain ⟨h1, w, hw, h2, _⟩ := h.named x p hp
        simp only [ne_eq, decide_not, Bool.not_eq_eq_eq_not, Bool.not_true, decide_eq_false_iff_not]
        intro hc
        rw [hc, hv] at hw; cases hw
        exact hx (by rw [h2]; exact h1)

theorem IndexLaw.setAccount {s : State} (h : IndexLaw s) (a : Nat) (v : Account) : IndexLaw (s.setAccount a v) :=
  h.congr (fun _ => rfl) (fun _ => rfl)

theorem IndexLaw.releaseSets {s : State} (h : IndexLaw s) (l : List (Nat × Nat)) : IndexLaw (releaseSets l s) :=
  h.congr (fun x => by rw [indexSet_releaseSets]) (fun f => by
    unfold State.frame?; rw [(congrArg State.frames (releaseSets_frame l s) :)])

theorem IndexLaw.reserveSets {s : State} (h : IndexLaw s) (l : List (Nat × Nat)) : IndexLaw (reserveSets l s) :=
  h.congr (fun x => by rw [indexSet_reserveSets]) (fun f => by
    unfold State.frame?; rw [(congrArg State.frames (reserveSets_frame l s) :)])

theorem same_releaseRecords (k c : Nat) (s : State) : SameLedger s (releaseRecords k c s) := by
  unfold releaseRecords
  have h := checkUnbound_frame k (s.setStream k { s.stream k with reserved := (s.stream k).reserved - c })
  exact ((SameLedger.refl s).setStream _ _).trans
    (.of (congrArg State.free h :) (congrArg State.grants h :) (congrArg State.waiting h :)
      (congrArg State.frames h :) (congrArg State.sets h :) (congrArg State.accounts h :))

theorem IndexLaw.returned {s : State} (h : IndexLaw s) (g : Nat) (v : Grant) : IndexLaw (returnGrant g v s) := by
  unfold returnGrant
  dsimp only
  have h1 : IndexLaw (returnFrames v.account v.n s) := h.congr (fun _ => rfl) (fun _ => rfl)
  exact (IndexLaw.congr (t := State.clearGrant _ g) (h1.releaseSets v.sets) (fun _ => rfl) (fun _ => rfl)).same
    (same_releaseRecords _ _ _)

theorem IndexLaw.acts : LedgerActs IndexLaw where
  quiet _ _ k h := h.same k
  waiting _ _ _ h := h.congr (fun _ => rfl) (fun _ => rfl)
  limits _ _ _ _ _ h := h.setAccount _ _
  granted s g link tag a k key n _ _ _ h := by
    unfold grantRecords
    dsimp only
    have h1 : IndexLaw (chargeFrames a n s) := h.congr (fun _ => rfl) (fun _ => rfl)
    have h2 : IndexLaw (reserveRecords k (newGrant s link tag a k key n).k
        (Machine.reserveSets (newGrant s link tag a k key n).sets (chargeFrames a n s))) :=
      (h1.reserveSets _).same ((SameLedger.refl _).setStream _ _)
    exact h2.congr (fun _ => rfl) (fun _ => rfl)
  returnGrant _ _ _ _ h := h.returned _ _
  lapseGrants _ _ h :=
    fold_keeps (fun s (q : Nat × Grant) => lapseGrant q.1 q.2 s)
      (fun _ _ h => (h.returned _ _).same (same_setEvent _ _).ledger) _ h
  settled _ _ _ g _ _ _ _ hp h :=
    (IndexLaw.congr (t := State.clearGrant _ g)
      (placeSlices_keeps (I := IndexLaw) (fun _ _ _ _ ht h => h.placeSlice ht) _ hp h)
      (fun _ => rfl) (fun _ => rfl)).same (same_releaseRecords _ _ _)
  frame s f v v' hf hk _ hv h := h.congr (fun _ => rfl) fun j => by
    rw [State.frame?_setFrame]
    split
    · rename_i hj; subst hj; rw [hf, Option.map_some, Option.map_some, hk, hv]
    · rfl
  releaseFrame _ _ h := h.releaseFrame _

theorem IndexLaw.reset : IndexLaw State.reset where
  sorted _ := rfl
  named _ p hp := by cases hp
  once _ p hp := by cases hp
  current _ _ hv := by cases hv

end Sys2Proof.Machine
end

