-- ==== Sys2Proof/Laws/Sets.lean ====
section
/-! SUPPORT. The law of the sets (R32, R58) survives every act. -/

namespace Sys2Proof.Machine

/-- The keys of a run that lie in set `x`: c_x of R30. -/
def runWays (key : Key) (n x : Nat) : Nat := (runKeys key n).countP (fun q => indexHash q == x)

/-- What a list of (x, c_x) pairs says of set `x`. -/
def pairSum (l : List (Nat × Nat)) (x : Nat) : Nat := ((l.filter (fun p => p.1 == x)).map (·.2)).sum

theorem pairSum_bump (y : Nat) (l : List (Nat × Nat)) (x : Nat) :
    pairSum (bumpSet y l) x = pairSum l x + (if y = x then 1 else 0) := by
  induction l with
  | nil =>
    unfold bumpSet pairSum
    by_cases h : y = x <;> simp [h]
  | cons p l ih =>
    obtain ⟨z, c⟩ := p
    unfold bumpSet
    split
    · rename_i hz; subst hz
      unfold pairSum
      by_cases h : z = x
      · simp [h]; omega
      · simp [h]
    · have e : ∀ m : List (Nat × Nat), pairSum ((z, c) :: m) x = (if z = x then c else 0) + pairSum m x := by
        intro m; unfold pairSum; by_cases h : z = x <;> simp [h]
      rw [e, e, ih]; omega

theorem bump_keys (y : Nat) (l : List (Nat × Nat)) (x : Nat) :
    x ∈ (bumpSet y l).map (·.1) ↔ x = y ∨ x ∈ l.map (·.1) := by
  induction l with
  | nil => simp [bumpSet]
  | cons p l ih =>
    obtain ⟨z, c⟩ := p
    unfold bumpSet
    split
    · rename_i hz; subst hz; simp
    · rw [List.map_cons, List.mem_cons, ih]
      simp only [List.map_cons, List.mem_cons]
      tauto

theorem bump_nodup (y : Nat) (l : List (Nat × Nat)) (h : (l.map (·.1)).Nodup) :
    ((bumpSet y l).map (·.1)).Nodup := by
  induction l with
  | nil => simp [bumpSet]
  | cons p l ih =>
    obtain ⟨z, c⟩ := p
    rw [List.map_cons, List.nodup_cons] at h
    unfold bumpSet
    split
    · rename_i hz; subst hz; rw [List.map_cons, List.nodup_cons]; exact h
    · rename_i hz
      rw [List.map_cons, List.nodup_cons]
      refine ⟨?_, ih h.2⟩
      rw [bump_keys]
      rintro (h1 | h1)
      · exact hz h1
      · exact h.1 h1

/-- The pairs of a run count its keys, set by set (R30). -/
theorem setCounts_spec (key : Key) (n : Nat) :
    (∀ x, pairSum (setCounts key n) x = runWays key n x) ∧ ((setCounts key n).map (·.1)).Nodup := by
  unfold setCounts runWays
  have go : ∀ (ks : List Key) (l : List (Nat × Nat)), (l.map (·.1)).Nodup →
      (∀ x, pairSum (ks.foldl (fun acc k => bumpSet (indexHash k) acc) l) x =
        pairSum l x + ks.countP (fun q => indexHash q == x)) ∧
      ((ks.foldl (fun acc k => bumpSet (indexHash k) acc) l).map (·.1)).Nodup := by
    intro ks
    induction ks with
    | nil => intro l hl; exact ⟨fun x => rfl, hl⟩
    | cons k ks ih =>
      intro l hl
      obtain ⟨h1, h2⟩ := ih (bumpSet (indexHash k) l) (bump_nodup _ _ hl)
      refine ⟨fun x => ?_, h2⟩
      rw [List.foldl_cons, h1, pairSum_bump, List.countP_cons]
      by_cases hx : indexHash k = x
      · simp [hx]; omega
      · simp [hx]
  obtain ⟨h1, h2⟩ := go (runKeys key n) [] (by simp)
  exact ⟨fun x => by rw [h1]; simp [pairSum], h2⟩

theorem pairSum_of_mem {l : List (Nat × Nat)} (h : (l.map (·.1)).Nodup) {p : Nat × Nat} (hp : p ∈ l) :
    pairSum l p.1 = p.2 := by
  induction l with
  | nil => cases hp
  | cons q l ih =>
    rw [List.map_cons, List.nodup_cons] at h
    have e : ∀ x, x ∉ l.map (·.1) → pairSum l x = 0 := by
      intro x hx
      unfold pairSum
      rw [List.filter_eq_nil_iff.2]
      · rfl
      · intro a ha hc
        exact hx (List.mem_map.2 ⟨a, ha, by simpa using hc⟩)
    have e2 : ∀ x, pairSum (q :: l) x = (if q.1 = x then q.2 else 0) + pairSum l x := by
      intro x; unfold pairSum; by_cases h : q.1 = x <;> simp [h]
    rw [e2]
    rcases List.mem_cons.1 hp with h1 | h1
    · subst h1; rw [if_pos rfl, e _ h.1]; rfl
    · rw [if_neg, ih h.2 h1, Nat.zero_add]
      intro hc
      exact h.1 (hc ▸ List.mem_map.2 ⟨p, h1, rfl⟩)

/-- Where no set of a run fails stage 4, every set has room for the keys of the run that lie in it (R30). -/
theorem room_of_failingSet {s : State} {key : Key} {n : Nat} (h : failingSet s key n = none) (x : Nat)
    (hr : (s.indexSet x).occupied + (s.indexSet x).reserved ≤ 16) :
    (s.indexSet x).occupied + (s.indexSet x).reserved + runWays key n x ≤ 16 := by
  obtain ⟨h1, h2⟩ := setCounts_spec key n
  by_cases hx : x ∈ (setCounts key n).map (·.1)
  · obtain ⟨p, hp, rfl⟩ := List.mem_map.1 hx
    unfold failingSet at h
    rw [Option.map_eq_none_iff, List.find?_eq_none] at h
    have := h p hp
    simp only [waysFit, Bool.not_eq_true', Bool.not_eq_false, Config.wayCount] at this
    have := of_decide_eq_true this
    rw [← h1, pairSum_of_mem h2 hp]
    exact this
  · have : runWays key n x = 0 := by
      rw [← h1]
      unfold pairSum
      rw [List.filter_eq_nil_iff.2]
      · rfl
      · intro a ha hc
        exact hx (List.mem_map.2 ⟨a, ha, by simpa using hc⟩)
    omega

/-! ### The law with part of a run placed -/

/-- The law of the sets while a Write Data is being placed: `d x` of the ways promised in set `x` have been
used or given back. -/
structure SetDebt (s : State) (d : Nat → Nat) : Prop where
  grantsSorted : Table.sorted s.grants = true
  pairs : ∀ p ∈ s.grants, p.2.sets = setCounts p.2.key p.2.n
  reserved : ∀ x, (s.indexSet x).reserved + d x = promisedWays s x
  room : ∀ x, (s.indexSet x).occupied + (s.indexSet x).reserved ≤ 16
  waysSorted : ∀ x, Table.sorted (s.indexSet x).ways = true
  ways : ∀ x, ∀ p ∈ (s.indexSet x).ways, p.1 < 16

theorem SetLaw.debt {s : State} (h : SetLaw s) : SetDebt s (fun _ => 0) :=
  ⟨h.grantsSorted, h.pairs, h.reserved, h.room, h.waysSorted, h.ways⟩

theorem length_insert_new {α : Type} {t : Table α} {k : Nat} (v : α) (hs : Table.sorted t = true)
    (h : Table.find? t k = none) : (Table.insert t k v).length = t.length + 1 := by
  rw [(Table.insert_perm k v hs).length_eq, Table.erase_of_find?_none h, List.length_cons]

theorem length_insert_old {α : Type} {t : Table α} {k : Nat} {old : α} (v : α) (hs : Table.sorted t = true)
    (h : Table.find? t k = some old) : (Table.insert t k v).length = t.length := by
  rw [(Table.insert_perm k v hs).length_eq, (Table.find?_perm hs h).length_eq]
  rfl

/-- One slice placed: a promised way of its set is used or given back (R61, R63 to R65). -/
theorem SetDebt.placeSlice {s t : State} {d : Nat → Nat} {w : SliceWrite} {o : Placed} (h : SetDebt s d)
    (hd : d (indexHash w.key) + 1 ≤ promisedWays s (indexHash w.key)) (ht : placeSlice w s = .ok (o, t)) :
    SetDebt t (fun x => d x + if indexHash w.key = x then 1 else 0) ∧ t.grants = s.grants := by
  have hres := h.reserved (indexHash w.key)
  have hroom := h.room (indexHash w.key)
  -- what stays the same whatever the outcome
  have key : ∀ q : IndexSet, q.reserved = (s.indexSet (indexHash w.key)).reserved - 1 →
      q.occupied + q.reserved ≤ 16 → Table.sorted q.ways = true → (∀ p ∈ q.ways, p.1 < 16) →
      t.grants = s.grants → (∀ x, t.indexSet x = if indexHash w.key = x then q else s.indexSet x) →
      SetDebt t (fun x => d x + if indexHash w.key = x then 1 else 0) ∧ t.grants = s.grants := by
    intro q h1 h2 h3 h4 hg hs
    refine ⟨⟨by rw [hg]; exact h.grantsSorted, by rw [hg]; exact h.pairs, ?_, ?_, ?_, ?_⟩, hg⟩
    · intro x
      have e : promisedWays t x = promisedWays s x := by unfold promisedWays; rw [hg]
      rw [e, hs]
      have hx := h.reserved x
      split
      · rename_i he; subst he; rw [h1]; omega
      · rw [← hx]; omega
    · intro x; rw [hs]; split
      · exact h2
      · exact h.room x
    · intro x; rw [hs]; split
      · exact h3
      · exact h.waysSorted x
    · intro x; rw [hs]; split
      · exact h4
      · exact h.ways x
  have hlow : ((s.indexSet (indexHash w.key)).occupied +
      ((s.indexSet (indexHash w.key)).reserved - 1)) ≤ 16 := by omega
  cases placeSlice_effect ht with
  | miss f i r found free new vacant after =>
    obtain ⟨hv1, hv2⟩ := vacantWay_some vacant
    refine key _ rfl ?_ (Table.sorted_insert _ _ (h.waysSorted _)) ?_ after.grants after.set
    · unfold IndexSet.occupied at hroom ⊢
      rw [length_insert_new _ (h.waysSorted _) hv1]
      dsimp only
      omega
    · intro p hp
      rcases Table.mem_insert hp with h1 | h1
      · rw [h1]; exact hv2
      · exact h.ways _ p h1
  | inPlace i y v v' found held key' account void after =>
    exact key { s.indexSet (indexHash w.key) with
        reserved := (s.indexSet (indexHash w.key)).reserved - 1 } rfl hlow (h.waysSorted (indexHash w.key)) (h.ways (indexHash w.key)) after.grants
        after.set
  | dropped after =>
    exact key { s.indexSet (indexHash w.key) with
        reserved := (s.indexSet (indexHash w.key)).reserved - 1 } rfl hlow (h.waysSorted (indexHash w.key)) (h.ways (indexHash w.key)) after.grants
        after.set
  | supersede i f y v r found held free other new after =>
    obtain ⟨hy, _⟩ := lookup_some found
    refine key _ rfl ?_ (Table.sorted_insert _ _ (h.waysSorted _)) ?_ after.grants after.set
    · unfold IndexSet.occupied at hlow ⊢
      rw [length_insert_old _ (h.waysSorted _) (Table.find?_of_mem (h.waysSorted _) hy)]
      exact hlow
    · intro p hp
      rcases Table.mem_insert hp with h1 | h1
      · rw [h1]; exact h.ways _ (i, y) hy
      · exact h.ways _ p h1

theorem SetDebt.placeSlices (ws : List SliceWrite) : ∀ {s t : State} {d : Nat → Nat} {os : List Placed},
    SetDebt s d →
    (∀ x, d x + (ws.map (·.key)).countP (fun q => indexHash q == x) ≤ promisedWays s x) →
    placeSlices ws s = .ok (os, t) →
    SetDebt t (fun x => d x + (ws.map (·.key)).countP (fun q => indexHash q == x)) ∧
      t.grants = s.grants := by
  induction ws with
  | nil =>
    intro s t d os h _ ht
    simp only [Machine.placeSlices, Except.ok.injEq, Prod.mk.injEq] at ht
    rw [← ht.2]
    exact ⟨h, rfl⟩
  | cons w ws ih =>
    intro s t d os h hd ht
    unfold Machine.placeSlices at ht
    split at ht
    · cases ht
    · rename_i o s1 hw
      split at ht
      · cases ht
      · rename_i os' s2 hws
        simp only [Except.ok.injEq, Prod.mk.injEq] at ht
        rw [← ht.2]
        have hd1 := hd (indexHash w.key)
        rw [List.map_cons, List.countP_cons] at hd1
        simp only [beq_self_eq_true, if_true] at hd1
        obtain ⟨h1, hg⟩ := h.placeSlice (by omega) hw
        have e : ∀ x, promisedWays s1 x = promisedWays s x := by
          intro x; unfold promisedWays; rw [hg]
        obtain ⟨h2, hg2⟩ := ih h1 (by
          intro x
          have := hd x
          rw [List.map_cons, List.countP_cons] at this
          rw [e]
          by_cases hx : indexHash w.key = x
          · simp only [hx, if_true, beq_self_eq_true] at this ⊢; omega
          · simp only [hx, if_false, beq_iff_eq] at this ⊢; omega) hws
        refine ⟨?_, hg2.trans hg⟩
        have e2 : ∀ x, (d x + if indexHash w.key = x then 1 else 0) +
            (ws.map (·.key)).countP (fun q => indexHash q == x) =
            d x + ((w :: ws).map (·.key)).countP (fun q => indexHash q == x) := by
          intro x
          rw [List.map_cons, List.countP_cons]
          by_cases hx : indexHash w.key = x
          · simp only [hx, if_true, beq_self_eq_true]; omega
          · simp only [hx, if_false, beq_iff_eq]; omega
        exact ⟨h2.grantsSorted, h2.pairs, fun x => by rw [← e2]; exact h2.reserved x, h2.room,
          h2.waysSorted, h2.ways⟩

/-! ### Every act -/

theorem SetLaw.congr {s t : State} (h : SetLaw s) (grants : t.grants = s.grants) (sets : t.sets = s.sets) :
    SetLaw t where
  grantsSorted := by rw [grants]; exact h.grantsSorted
  pairs := by rw [grants]; exact h.pairs
  reserved x := by
    rw [indexSet_same sets]; unfold promisedWays; rw [grants]; exact h.reserved x
  room x := by rw [indexSet_same sets]; exact h.room x
  waysSorted x := by rw [indexSet_same sets]; exact h.waysSorted x
  ways x := by rw [indexSet_same sets]; exact h.ways x

theorem SetLaw.same {s t : State} (h : SetLaw s) (k : SameLedger s t) : SetLaw t := h.congr k.grants k.sets

theorem promisedWays_insert {s : State} {g : Nat} (v : Grant) (hs : Table.sorted s.grants = true)
    (hg : s.grant? g = none) (x : Nat) :
    promisedWays (s.setGrant g v) x = promisedWays s x + runWays v.key v.n x := by
  unfold promisedWays
  rw [show (s.setGrant g v).grants = Table.insert s.grants g v from rfl,
    Table.sum_insert_new v _ hs hg]
  exact Nat.add_comm _ _

theorem promisedWays_erase {s : State} {g : Nat} {v : Grant} (hs : Table.sorted s.grants = true)
    (hg : s.grant? g = some v) (x : Nat) :
    promisedWays (s.clearGrant g) x + runWays v.key v.n x = promisedWays s x := by
  unfold promisedWays
  rw [show (s.clearGrant g).grants = Table.erase s.grants g from rfl, Nat.add_comm]
  exact Table.sum_erase
    (fun p : Nat × Grant => (runKeys p.2.key p.2.n).countP (fun q => indexHash q == x)) hs hg

/-- A grant's record is cleared when the ways it had promised have been used or given back. -/
theorem SetDebt.clear {s : State} {g : Nat} {v : Grant} (h : SetDebt s (runWays v.key v.n))
    (hg : s.grant? g = some v) : SetLaw (s.clearGrant g) where
  grantsSorted := Table.sorted_erase _ h.grantsSorted
  pairs p hp := h.pairs p (List.mem_of_mem_filter hp)
  reserved x := by
    have h1 := h.reserved x
    have h2 := promisedWays_erase h.grantsSorted hg x
    show (s.indexSet x).reserved = _
    omega
  room := h.room
  waysSorted := h.waysSorted
  ways := h.ways

theorem SetLaw.returned {s : State} (h : SetLaw s) (g : Nat) (v : Grant) (hg : (g, v) ∈ s.grants) :
    SetLaw (returnGrant g v s) := by
  have hv : s.grant? g = some v := Table.find?_of_mem h.grantsSorted hg
  unfold returnGrant
  dsimp only
  refine SetLaw.same ?_ (same_releaseRecords _ _ _)
  have hgr : (releaseSets v.sets (returnFrames v.account v.n s)).grants = s.grants :=
    (congrArg State.grants (releaseSets_frame v.sets (returnFrames v.account v.n s)) :)
  refine SetDebt.clear (v := v) ?_ (by unfold State.grant?; rw [hgr]; exact hv)
  have hpr := h.pairs _ hg
  have hset : ∀ x, (releaseSets v.sets (returnFrames v.account v.n s)).indexSet x =
      { s.indexSet x with reserved := (s.indexSet x).reserved - runWays v.key v.n x } := by
    intro x
    rw [indexSet_releaseSets, ← (setCounts_spec v.key v.n).1, ← hpr]
    rfl
  have hprom : ∀ x, promisedWays (releaseSets v.sets (returnFrames v.account v.n s)) x = promisedWays s x := by
    intro x; unfold promisedWays; rw [hgr]
  refine ⟨by rw [hgr]; exact h.grantsSorted, by rw [hgr]; exact h.pairs, ?_, ?_, ?_, ?_⟩
  · intro x
    rw [hset, hprom]
    have h1 := h.reserved x
    have h2 := promisedWays_erase h.grantsSorted hv x
    dsimp only
    omega
  · intro x
    have h1 := h.room x
    rw [hset]
    unfold IndexSet.occupied at h1 ⊢
    dsimp only
    omega
  · intro x; rw [hset]; exact h.waysSorted x
  · intro x; rw [hset]; exact h.ways x

theorem SetLaw.releaseFrame {s : State} (h : SetLaw s) (f : Nat) : SetLaw (releaseFrame f s) := by
  unfold Machine.releaseFrame
  split
  · exact h
  · rename_i v hv
    dsimp only
    have h1 : SetLaw (if v.record.void = true then s else removeWay (indexHash v.record.key) f s) := by
      split
      · exact h
      · have hq : ∀ x, (removeWay (indexHash v.record.key) f s).indexSet x =
            if indexHash v.record.key = x then
              { s.indexSet (indexHash v.record.key) with
                ways := (s.indexSet (indexHash v.record.key)).ways.filter (fun p => p.2.frame ≠ f) }
            else s.indexSet x := by
          intro x; unfold removeWay; dsimp only; rw [State.indexSet_setIndexSet]
        refine ⟨h.grantsSorted, h.pairs, ?_, ?_, ?_, ?_⟩
        · intro x
          show _ = promisedWays s x
          rw [hq]; split
          · rename_i hx; subst hx; exact h.reserved _
          · exact h.reserved x
        · intro x; rw [hq]; split
          · have h2 := h.room (indexHash v.record.key)
            unfold IndexSet.occupied at h2 ⊢
            have := List.length_filter_le (fun p : Nat × Way => decide (p.2.frame ≠ f))
              (s.indexSet (indexHash v.record.key)).ways
            dsimp only
            omega
          · exact h.room x
        · intro x; rw [hq]; split
          · exact Table.sorted_filter _ (h.waysSorted _)
          · exact h.waysSorted x
        · intro x; rw [hq]; split
          · exact fun p hp => h.ways _ p (List.mem_of_mem_filter hp)
          · exact h.ways x
    revert h1
    generalize (if v.record.void = true then s else removeWay (indexHash v.record.key) f s) = q
    intro h1
    exact h1.congr rfl rfl

theorem vacantGrant_some {s : State} {g : Nat} (h : vacantGrant s = some g) : s.grant? g = none := by
  have := (firstFrom_some h).2.2.1
  simpa using this

theorem SetLaw.acts : LedgerActs SetLaw where
  quiet _ _ k h := h.same k
  waiting _ _ _ h := h.congr rfl rfl
  limits _ _ _ _ _ h := h.congr rfl rfl
  granted s g link tag a k key n _ hg hr h := by
    have hg := vacantGrant_some hg
    have hfail : failingSet s key n = none := by
      have := congrArg Reasons.ways hr
      simpa [resourceReasons, Reasons.none] using this
    unfold grantRecords
    dsimp only
    have hfr := congrArg State.grants (reserveSets_frame (setCounts key n) (chargeFrames a n s))
    have hgr : (reserveRecords k (newGrant s link tag a k key n).k
        (Machine.reserveSets (setCounts key n) (chargeFrames a n s))).grants = s.grants := hfr
    have hset : ∀ x, (reserveRecords k (newGrant s link tag a k key n).k
        (Machine.reserveSets (setCounts key n) (chargeFrames a n s))).indexSet x =
        { s.indexSet x with reserved := (s.indexSet x).reserved + runWays key n x } := by
      intro x
      show (Machine.reserveSets (setCounts key n) (chargeFrames a n s)).indexSet x = _
      rw [indexSet_reserveSets, ← (setCounts_spec key n).1]
      rfl
    show SetLaw (State.setGrant (reserveRecords k (newGrant s link tag a k key n).k
        (Machine.reserveSets (setCounts key n) (chargeFrames a n s))) g (newGrant s link tag a k key n))
    revert hgr hset
    generalize (reserveRecords k (newGrant s link tag a k key n).k
        (Machine.reserveSets (setCounts key n) (chargeFrames a n s))) = q
    intro hgr hset
    have hsorted : Table.sorted q.grants = true := by rw [hgr]; exact h.grantsSorted
    refine ⟨Table.sorted_insert _ _ hsorted, ?_, ?_, ?_, ?_, ?_⟩
    · intro p hp
      rcases Table.mem_insert hp with h1 | h1
      · rw [h1]; rfl
      · exact h.pairs p (by rw [← hgr]; exact h1)
    · intro x
      rw [promisedWays_insert _ hsorted (by unfold State.grant?; rw [hgr]; exact hg)]
      show (q.indexSet x).reserved = promisedWays q x + runWays key n x
      rw [hset]
      have h1 := h.reserved x
      unfold promisedWays at h1 ⊢
      rw [hgr]
      dsimp only
      omega
    · intro x
      show (q.indexSet x).occupied + (q.indexSet x).reserved ≤ 16
      have h1 := room_of_failingSet hfail x (h.room x)
      rw [hset]
      unfold IndexSet.occupied at h1 ⊢
      dsimp only
      omega
    · intro x
      show Table.sorted (q.indexSet x).ways = true
      rw [hset]; exact h.waysSorted x
    · intro x
      show ∀ p ∈ (q.indexSet x).ways, p.1 < 16
      rw [hset]; exact h.ways x
  returnGrant _ _ _ hg h := h.returned _ _ hg
  lapseGrants s p h := lapseGrants_of (fun _ _ k h => h.same k) (fun _ h => h.grantsSorted)
    (fun _ _ _ hg h => h.returned _ _ hg) s p h
  settled s r link g v m os hc hp h := by
    have hv := checkData_proceeds hc
    have hk : ∀ x, ((sliceWrites link v m).map (·.key)).countP (fun q => indexHash q == x) =
        runWays v.key v.n x := by
      intro x; rw [keys_sliceWrites]; rfl
    obtain ⟨h1, h2⟩ := h.debt.placeSlices (sliceWrites link v m) (by
      intro x
      rw [hk, ← promisedWays_erase h.grantsSorted hv x]
      omega) hp
    unfold settleGrant
    refine SetLaw.same ?_ (same_releaseRecords _ _ _)
    refine SetDebt.clear (v := v) ?_ (by unfold State.grant?; rw [h2]; exact hv)
    have e : (fun x => (fun _ => 0) x +
        ((sliceWrites link v m).map (·.key)).countP (fun q => indexHash q == x)) = runWays v.key v.n := by
      funext x; rw [hk]; exact Nat.zero_add _
    rw [← e]
    exact h1
  frame _ _ _ _ _ _ _ _ h := h.congr rfl rfl
  releaseFrame _ _ h := h.releaseFrame _

theorem SetLaw.reset : SetLaw State.reset where
  grantsSorted := rfl
  pairs _ hp := by cases hp
  reserved _ := rfl
  room _ := Nat.zero_le _
  waysSorted _ := rfl
  ways _ _ hp := by cases hp

end Sys2Proof.Machine
end

