-- ==== Sys2Proof/Laws/Balance.lean ====
section
/-! SUPPORT. The laws of R24, and what they rest on, survive every act. -/

namespace Sys2Proof.Machine

/-! ### Sums over the accounts -/

theorem sum_range_update (n : Nat) (f g : Nat → Nat) (a : Nat) (hg : ∀ b, b ≠ a → g b = f b) :
    ((List.range n).map g).sum + (if a < n then f a else 0) =
      ((List.range n).map f).sum + (if a < n then g a else 0) := by
  induction n with
  | zero => simp
  | succ n ih =>
    simp only [List.range_succ, List.map_append, List.sum_append, List.map_cons, List.map_nil,
      List.sum_cons, List.sum_nil]
    by_cases h : a = n
    · subst h
      simp only [lt_irrefl, if_false] at ih
      simp only [Nat.lt_succ_self, if_true]
      omega
    · have h1 := hg n (Ne.symm h)
      by_cases h2 : a < n
      · have h3 : a < n + 1 := by omega
        rw [if_pos h2, if_pos h2] at ih
        rw [if_pos h3, if_pos h3]; omega
      · have h3 : ¬ a < n + 1 := by omega
        rw [if_neg h2, if_neg h2] at ih
        rw [if_neg h3, if_neg h3]; omega

/-- A sum over the accounts when one account's record has changed. -/
theorem sumAccounts_update {s t : State} (f : Account → Nat) {a : Nat} (ha : a < 257)
    (h : ∀ b, b ≠ a → f (t.account b) = f (s.account b)) :
    sumAccounts f t + f (s.account a) = sumAccounts f s + f (t.account a) := by
  have := sum_range_update 257 (fun b => f (s.account b)) (fun b => f (t.account b)) a h
  rw [if_pos ha, if_pos ha] at this
  exact this

theorem sumAccounts_congr {s t : State} (f : Account → Nat)
    (h : ∀ b, b < 257 → f (t.account b) = f (s.account b)) : sumAccounts f t = sumAccounts f s := by
  unfold sumAccounts
  congr 1
  exact List.map_congr_left fun b hb => h b (List.mem_range.1 hb)

theorem sumAccounts_ge {s : State} (f : Account → Nat) {a : Nat} (ha : a < 257) :
    f (s.account a) ≤ sumAccounts f s := by
  have key : ∀ l : List Nat, a ∈ l → f (s.account a) ≤ (l.map (fun b => f (s.account b))).sum := by
    intro l
    induction l with
    | nil => intro h; cases h
    | cons b l ih =>
      intro h
      rw [List.map_cons, List.sum_cons]
      rcases List.mem_cons.1 h with rfl | h
      · omega
      · have := ih h; omega
  exact key _ (List.mem_range.2 ha)

/-! ### The law with part of a run placed -/

/-- The frames promised to account `a` by one grant. -/
def promisedBy (a : Nat) (p : Nat × Grant) : Nat := if p.2.account = a then p.2.n else 0

theorem promisedTo_eq (s : State) (a : Nat) : promisedTo s a = (s.grants.map (promisedBy a)).sum := by
  unfold promisedTo
  induction s.grants with
  | nil => rfl
  | cons p l ih =>
    rw [List.map_cons, List.sum_cons, ← ih, List.filter_cons]
    unfold promisedBy
    by_cases h : p.2.account = a <;> simp [h]

/-- The laws of R24 while a Write Data of account `acc` is being placed: `j` of the frames promised to it
have been used or given back. -/
structure BalanceDebt (s : State) (acc j : Nat) : Prop where
  grantsSorted : Table.sorted s.grants = true
  framesSorted : Table.sorted s.frames = true
  balance : s.free + sumAccounts (·.used) s = 65536
  reserves : sumAccounts unusedReserve s ≤ s.free
  used : ∀ a, (s.account a).used + (if acc = a then j else 0) = heldFor s a + promisedTo s a
  grants : ∀ p ∈ s.grants, p.2.account < 257
  waiting : ∀ e ∈ s.waiting, e.account < 257
  frames : ∀ p ∈ s.frames, p.2.record.account < 257

theorem BalanceDebt.law {s : State} {acc : Nat} (h : BalanceDebt s acc 0) : BalanceLaw s :=
  ⟨h.grantsSorted, h.framesSorted, h.balance, h.reserves,
    fun a => by have := h.used a; simpa using this, h.grants, h.waiting, h.frames⟩

theorem BalanceLaw.debt {s : State} (h : BalanceLaw s) (acc : Nat) : BalanceDebt s acc 0 :=
  ⟨h.grantsSorted, h.framesSorted, h.balance, h.reserves, fun a => by simpa using h.used a, h.grants,
    h.waiting, h.frames⟩

theorem unused_le (v w : Account) (n : Nat) (hr : w.reserve = v.reserve) (hu : w.used = v.used - n) :
    unusedReserve w ≤ unusedReserve v + n := by unfold unusedReserve; rw [hr, hu]; omega

/-- Account `a` gives `n` of its frames back to F (Table 2-2). -/
theorem balance_return {s t : State} {a n : Nat} (ha : a < 257) (hn : n ≤ (s.account a).used)
    (hother : ∀ b, b ≠ a → t.account b = s.account b)
    (hsame : t.account a = { s.account a with used := (s.account a).used - n })
    (hfree : t.free = s.free + n) (hb : s.free + sumAccounts (·.used) s = 65536)
    (hr : sumAccounts unusedReserve s ≤ s.free) :
    t.free + sumAccounts (·.used) t = 65536 ∧ sumAccounts unusedReserve t ≤ t.free := by
  have h1 := sumAccounts_update (s := s) (t := t) (·.used) ha (fun b hb => by rw [hother b hb])
  have h2 := sumAccounts_update (s := s) (t := t) unusedReserve ha (fun b hb => by rw [hother b hb])
  have h3 := unused_le (s.account a) (t.account a) n (by rw [hsame]) (by rw [hsame])
  rw [hsame] at h1
  simp only at h1
  rw [hfree]
  constructor <;> omega

theorem account_returnFrames (a n : Nat) (s : State) (b : Nat) :
    (returnFrames a n s).account b =
      if a = b then { s.account a with used := (s.account a).used - n } else s.account b := by
  unfold returnFrames
  dsimp only
  rw [show ∀ (q : State) n, (q.setFree n).account b = q.account b from fun _ _ => rfl,
    State.account_setAccount]

theorem account_chargeFrames (a n : Nat) (s : State) (b : Nat) :
    (chargeFrames a n s).account b =
      if a = b then { s.account a with used := (s.account a).used + n } else s.account b := by
  unfold chargeFrames
  dsimp only
  rw [show ∀ (q : State) n, (q.setFree n).account b = q.account b from fun _ _ => rfl,
    State.account_setAccount]

theorem heldFor_of {t : State} {fr : Table Frame} (h : t.frames = fr) (a : Nat) :
    heldFor t a = fr.countP (fun p => p.2.record.account == a) := by unfold heldFor; rw [h]

theorem promisedTo_of {s t : State} (h : t.grants = s.grants) (a : Nat) : promisedTo t a = promisedTo s a := by
  unfold promisedTo; rw [h]

/-- One slice placed: a promised frame of its account is used or given back (R62, R63, R65). -/
theorem BalanceDebt.placeSlice {s t : State} {j : Nat} {w : SliceWrite} {o : Placed}
    (h : BalanceDebt s w.account j) (ha : w.account < 257) (hj : j + 1 ≤ promisedTo s w.account)
    (ht : placeSlice w s = .ok (o, t)) :
    BalanceDebt t w.account (j + 1) ∧ t.grants = s.grants := by
  have hused := h.used w.account
  rw [if_pos rfl] at hused
  -- an outcome that takes one new frame for the account
  have new : ∀ fr : Table Frame, Table.sorted fr = true →
      (∀ a, fr.countP (fun p => p.2.record.account == a) =
        heldFor s a + if w.account = a then 1 else 0) →
      (∀ p ∈ fr, p.2.record.account < 257) → ∀ q, Placing s t w fr q 0 →
      BalanceDebt t w.account (j + 1) ∧ t.grants = s.grants := by
    intro fr h1 h2 h3 q after
    have hacc : ∀ b, t.account b = s.account b := by
      intro b; rw [after.accounts]; split <;> rfl
    refine ⟨⟨by rw [after.grants]; exact h.grantsSorted, by rw [after.frames]; exact h1, ?_, ?_, ?_,
      by rw [after.grants]; exact h.grants, by rw [after.waiting]; exact h.waiting,
      by rw [after.frames]; exact h3⟩, after.grants⟩
    · rw [sumAccounts_congr (s := s) (·.used) (fun b _ => by rw [hacc]), after.free]; exact h.balance
    · rw [sumAccounts_congr (s := s) unusedReserve (fun b _ => by rw [hacc]), after.free]; exact h.reserves
    · intro a
      rw [hacc, heldFor_of after.frames, promisedTo_of after.grants, h2]
      have := h.used a
      split at this
      · rename_i hc; rw [if_pos hc, if_pos hc]; omega
      · rename_i hc; rw [if_neg hc, if_neg hc]; omega
  -- an outcome that takes none
  have back : ∀ fr : Table Frame, Table.sorted fr = true →
      (∀ a, fr.countP (fun p => p.2.record.account == a) = heldFor s a) →
      (∀ p ∈ fr, p.2.record.account < 257) → ∀ q, Placing s t w fr q 1 →
      BalanceDebt t w.account (j + 1) ∧ t.grants = s.grants := by
    intro fr h1 h2 h3 q after
    obtain ⟨k1, k2⟩ := balance_return (s := s) (t := t) (n := 1) ha (by omega)
      (fun b hb => by rw [after.accounts, if_neg (Ne.symm hb)])
      (by rw [after.accounts, if_pos rfl]) after.free h.balance h.reserves
    refine ⟨⟨by rw [after.grants]; exact h.grantsSorted, by rw [after.frames]; exact h1, k1, k2, ?_,
      by rw [after.grants]; exact h.grants, by rw [after.waiting]; exact h.waiting,
      by rw [after.frames]; exact h3⟩, after.grants⟩
    intro a
    rw [after.accounts, heldFor_of after.frames, promisedTo_of after.grants, h2]
    have := h.used a
    split at this
    · rename_i hc
      subst hc
      rw [if_pos rfl, if_pos rfl]
      dsimp only
      omega
    · rename_i hc; rw [if_neg hc, if_neg hc]; omega
  have insertNew : ∀ (fr : Table Frame) f r, Table.sorted fr = true → Table.find? fr f = none →
      NewFrame w r → ∀ a, (Table.insert fr f r).countP (fun p => p.2.record.account == a) =
        fr.countP (fun p => p.2.record.account == a) + if w.account = a then 1 else 0 := by
    intro fr f r hs hf hr a
    rw [Table.countP_insert_new r _ hs hf]
    simp [hr.account]
  have insertOld : ∀ (fr : Table Frame) f (v v' : Frame), Table.sorted fr = true →
      Table.find? fr f = some v → v'.record.account = v.record.account → ∀ a,
      (Table.insert fr f v').countP (fun p => p.2.record.account == a) =
        fr.countP (fun p => p.2.record.account == a) := by
    intro fr f v v' hs hf hv a
    have := Table.countP_insert v' (fun p : Nat × Frame => p.2.record.account == a) hs hf
    simp only [hv] at this
    omega
  have accNew : ∀ (fr : Table Frame) f (r : Frame), (∀ p ∈ fr, p.2.record.account < 257) →
      r.record.account < 257 → ∀ p ∈ Table.insert fr f r, p.2.record.account < 257 := by
    intro fr f r h1 h2 p hp
    rcases Table.mem_insert hp with rfl | hp
    · exact h2
    · exact h1 p hp
  cases placeSlice_effect ht with
  | miss f i r found free nf vacant after =>
    exact new _ (Table.sorted_insert _ _ h.framesSorted) (insertNew _ f r h.framesSorted free nf)
      (accNew _ f r h.frames (by rw [nf.account]; exact ha)) _ after
  | inPlace i y v v' found held key account void after =>
    exact back _ (Table.sorted_insert _ _ h.framesSorted)
      (insertOld _ y.frame v v' h.framesSorted held account)
      (accNew _ y.frame v' h.frames (by
        rw [account]; exact h.frames _ (Table.mem_of_find? held))) _ after
  | dropped after => exact back _ h.framesSorted (fun _ => rfl) h.frames _ after
  | supersede i f y v r found held free other nf after =>
    have hs : Table.sorted (Table.insert s.frames y.frame
        { v with record := { v.record with void := true } }) = true := Table.sorted_insert _ _ h.framesSorted
    refine new _ (Table.sorted_insert _ _ hs) ?_ (accNew _ f r (accNew _ y.frame _ h.frames
      (h.frames _ (Table.mem_of_find? held))) (by rw [nf.account]; exact ha)) _ after
    intro a
    rw [insertNew _ f r hs (by rw [Table.find?_insert, if_neg (Ne.symm other)]; exact free) nf,
      insertOld _ y.frame v { v with record := { v.record with void := true } } h.framesSorted held rfl]
    rfl

theorem BalanceDebt.placeSlices (acc : Nat) (ha : acc < 257) (ws : List SliceWrite) :
    ∀ {s t : State} {j : Nat} {os : List Placed}, (∀ w ∈ ws, w.account = acc) → BalanceDebt s acc j →
      j + ws.length ≤ promisedTo s acc → placeSlices ws s = .ok (os, t) →
      BalanceDebt t acc (j + ws.length) ∧ t.grants = s.grants := by
  induction ws with
  | nil =>
    intro s t j os _ h _ ht
    simp only [Machine.placeSlices, Except.ok.injEq, Prod.mk.injEq] at ht
    rw [← ht.2]
    exact ⟨h, rfl⟩
  | cons w ws ih =>
    intro s t j os hw h hj ht
    unfold Machine.placeSlices at ht
    split at ht
    · cases ht
    · rename_i o s1 hp
      split at ht
      · cases ht
      · rename_i os' s2 hps
        simp only [Except.ok.injEq, Prod.mk.injEq] at ht
        rw [← ht.2]
        have hwa := hw w (by simp)
        subst hwa
        rw [List.length_cons] at hj ⊢
        obtain ⟨h1, hg⟩ := h.placeSlice ha (by omega) hp
        obtain ⟨h2, hg2⟩ := ih (fun x hx => hw x (by simp [hx])) h1
          (by rw [promisedTo_of hg]; omega) hps
        refine ⟨?_, hg2.trans hg⟩
        rw [show j + (ws.length + 1) = j + 1 + ws.length by omega]
        exact h2

/-! ### Every act -/

theorem BalanceLaw.same {s t : State} (h : BalanceLaw s) (k : SameLedger s t) : BalanceLaw t where
  grantsSorted := by rw [k.grants]; exact h.grantsSorted
  framesSorted := by rw [k.frames]; exact h.framesSorted
  balance := by
    rw [k.free, sumAccounts_congr (s := s) (·.used) (fun b _ => (k.accounts b).1)]; exact h.balance
  reserves := by
    rw [k.free, sumAccounts_congr (s := s) unusedReserve (fun b _ => by
      unfold unusedReserve; rw [(k.accounts b).1, (k.accounts b).2])]
    exact h.reserves
  used a := by
    rw [(k.accounts a).1, heldFor_of k.frames, promisedTo_of k.grants]; exact h.used a
  grants := by rw [k.grants]; exact h.grants
  waiting := by rw [k.waiting]; exact h.waiting
  frames := by rw [k.frames]; exact h.frames

theorem promisedTo_insert {s : State} {g : Nat} (v : Grant) (hs : Table.sorted s.grants = true)
    (hg : s.grant? g = none) (a : Nat) :
    promisedTo (s.setGrant g v) a = promisedTo s a + promisedBy a (g, v) := by
  rw [promisedTo_eq, promisedTo_eq, show (s.setGrant g v).grants = Table.insert s.grants g v from rfl,
    Table.sum_insert_new v _ hs hg]
  exact Nat.add_comm _ _

theorem promisedTo_erase {s : State} {g : Nat} {v : Grant} (hs : Table.sorted s.grants = true)
    (hg : s.grant? g = some v) (a : Nat) :
    promisedTo (s.clearGrant g) a + promisedBy a (g, v) = promisedTo s a := by
  rw [promisedTo_eq, promisedTo_eq, show (s.clearGrant g).grants = Table.erase s.grants g from rfl,
    Nat.add_comm]
  exact Table.sum_erase (promisedBy a) hs hg

/-- A grant's record is cleared when the frames it had promised have been used or given back. -/
theorem BalanceDebt.clear {s : State} {g : Nat} {v : Grant} (h : BalanceDebt s v.account v.n)
    (hg : s.grant? g = some v) : BalanceLaw (s.clearGrant g) where
  grantsSorted := Table.sorted_erase _ h.grantsSorted
  framesSorted := h.framesSorted
  balance := h.balance
  reserves := h.reserves
  used a := by
    have h1 := h.used a
    have h2 := promisedTo_erase h.grantsSorted hg a
    unfold promisedBy at h2
    show (s.account a).used = heldFor s a + _
    dsimp only at h2
    split at h1
    · rename_i hc; rw [if_pos hc] at h2; omega
    · rename_i hc; rw [if_neg hc] at h2; omega
  grants p hp := h.grants p (List.mem_of_mem_filter hp)
  waiting := h.waiting
  frames := h.frames

theorem BalanceLaw.returned {s : State} (h : BalanceLaw s) (g : Nat) (v : Grant) (hg : (g, v) ∈ s.grants) :
    BalanceLaw (returnGrant g v s) := by
  have hv : s.grant? g = some v := Table.find?_of_mem h.grantsSorted hg
  have ha := h.grants _ hg
  have hpr := promisedTo_erase h.grantsSorted hv v.account
  have hu := h.used v.account
  unfold promisedBy at hpr
  rw [if_pos rfl] at hpr
  dsimp only at hpr ha
  obtain ⟨k1, k2⟩ := balance_return (s := s) (t := returnFrames v.account v.n s) (n := v.n) ha (by omega)
    (fun b hb => by rw [account_returnFrames, if_neg (Ne.symm hb)])
    (by rw [account_returnFrames, if_pos rfl]) rfl h.balance h.reserves
  unfold returnGrant
  dsimp only
  refine BalanceLaw.same ?_ (same_releaseRecords _ _ _)
  have hfr := releaseSets_frame v.sets (returnFrames v.account v.n s)
  have hd : BalanceDebt (returnFrames v.account v.n s) v.account v.n := by
    refine ⟨h.grantsSorted, h.framesSorted, k1, k2, ?_, h.grants, h.waiting, h.frames⟩
    intro a
    show _ = heldFor s a + promisedTo s a
    rw [account_returnFrames]
    split
    · rename_i hc; subst hc
      dsimp only
      omega
    · exact h.used a
  have hd2 : BalanceDebt (releaseSets v.sets (returnFrames v.account v.n s)) v.account v.n := by
    obtain ⟨q, hq⟩ : ∃ q, releaseSets v.sets (returnFrames v.account v.n s) = q := ⟨_, rfl⟩
    obtain ⟨r, hr⟩ : ∃ r, returnFrames v.account v.n s = r := ⟨_, rfl⟩
    rw [hq]
    rw [hr] at hd
    rw [hq, hr] at hfr
    have e1 : q.grants = r.grants := (congrArg State.grants hfr :)
    have e2 : q.frames = r.frames := (congrArg State.frames hfr :)
    have e4 : q.free = r.free := (congrArg State.free hfr :)
    have e5 : q.waiting = r.waiting := (congrArg State.waiting hfr :)
    have e6 : ∀ a, q.account a = r.account a := account_same (congrArg State.accounts hfr :)
    refine ⟨by rw [e1]; exact hd.grantsSorted, by rw [e2]; exact hd.framesSorted, ?_, ?_, ?_,
      by rw [e1]; exact hd.grants, by rw [e5]; exact hd.waiting, by rw [e2]; exact hd.frames⟩
    · rw [sumAccounts_congr (·.used) (fun b _ => congrArg _ (e6 b)), e4]; exact hd.balance
    · rw [sumAccounts_congr unusedReserve (fun b _ => congrArg _ (e6 b)), e4]; exact hd.reserves
    · intro a
      rw [e6, heldFor_of e2, promisedTo_of e1]; exact hd.used a
  refine hd2.clear ?_
  unfold State.grant?
  rw [(congrArg State.grants hfr :)]
  exact hv

/-- The release of a frame gives it back to F (R55). -/
theorem BalanceLaw.releaseFrame {s : State} (h : BalanceLaw s) (f : Nat) : BalanceLaw (releaseFrame f s) := by
  unfold Machine.releaseFrame
  split
  · exact h
  · rename_i v hv
    dsimp only
    have key : ∀ q : State, q.frames = s.frames → q.grants = s.grants → q.accounts = s.accounts →
        q.free = s.free → q.waiting = s.waiting →
        BalanceLaw (returnFrames v.record.account 1
          ((q.clearFrame f).setFreed f { data := v.data, latent := v.latent })) := by
      intro q e1 e2 e3 e4 e5
      have e6 : ∀ b, ((q.clearFrame f).setFreed f { data := v.data, latent := v.latent }).account b =
        s.account b := account_same (s := s) e3
      have hmem := Table.mem_of_find? hv
      have ha := h.frames _ hmem
      have hheld : ∀ a, (Table.erase s.frames f).countP (fun p => p.2.record.account == a) +
          (if v.record.account = a then 1 else 0) = heldFor s a := by
        intro a
        have := Table.countP_erase (fun p : Nat × Frame => p.2.record.account == a) h.framesSorted hv
        unfold heldFor
        simpa using this
      dsimp only at ha
      have hu := h.used v.record.account
      have hh := hheld v.record.account
      rw [if_pos rfl] at hh
      obtain ⟨k1, k2⟩ := balance_return (s := s) (n := 1)
        (t := returnFrames v.record.account 1
          ((q.clearFrame f).setFreed f { data := v.data, latent := v.latent })) ha (by omega)
        (fun b hb => by rw [account_returnFrames, if_neg (Ne.symm hb), e6])
        (by rw [account_returnFrames, if_pos rfl, e6]) (congrArg (· + 1) e4) h.balance h.reserves
      have ef : (returnFrames v.record.account 1
          ((q.clearFrame f).setFreed f { data := v.data, latent := v.latent })).frames =
          Table.erase s.frames f := congrArg (Table.erase · f) e1
      have eg : (returnFrames v.record.account 1
          ((q.clearFrame f).setFreed f { data := v.data, latent := v.latent })).grants = s.grants := e2
      have ew : (returnFrames v.record.account 1
          ((q.clearFrame f).setFreed f { data := v.data, latent := v.latent })).waiting = s.waiting := e5
      refine ⟨by rw [eg]; exact h.grantsSorted, by rw [ef]; exact Table.sorted_erase _ h.framesSorted,
        k1, k2, ?_, by rw [eg]; exact h.grants, by rw [ew]; exact h.waiting, ?_⟩
      · intro a
        have h1 := hheld a
        have h2 := h.used a
        rw [account_returnFrames, e6, e6, heldFor_of ef, promisedTo_of eg]
        split at h1
        · rename_i hc; subst hc; rw [if_pos rfl]; dsimp only; omega
        · rename_i hc; rw [if_neg hc]; omega
      · rw [ef]; exact fun p hp => h.frames p (List.mem_of_mem_filter hp)
    split
    · exact key s rfl rfl rfl rfl rfl
    · exact key _ rfl rfl rfl rfl rfl

theorem BalanceLaw.acts : LedgerActs BalanceLaw where
  quiet _ _ k h := h.same k
  waiting s w hw h := by
    refine ⟨h.grantsSorted, h.framesSorted, h.balance, h.reserves, h.used, h.grants, ?_, h.frames⟩
    intro e he
    rcases hw e he with h1 | ⟨o, ho, h1⟩
    · exact h1
    · rw [← h1]; exact h.waiting o ho
  limits s a r c hc h := by
    have hu : ∀ b, ((setLimits a r c s).account b).used = (s.account b).used := by
      intro b; unfold setLimits; rw [State.account_setAccount]; split
      · rename_i hb; subst hb; rfl
      · rfl
    refine ⟨h.grantsSorted, h.framesSorted, ?_, ?_, ?_, h.grants, h.waiting, h.frames⟩
    · rw [sumAccounts_congr (s := s) (·.used) (fun b _ => hu b)]; exact h.balance
    · have h1 : sumAccounts unusedReserve (s.setAccount a { s.account a with reserve := r }) ≤ s.free := by
        unfold limitCheck at hc
        dsimp only at hc
        split at hc
        · cases hc
        · split at hc
          · cases hc
          · split at hc
            · cases hc
            · rename_i h3; exact Nat.le_of_not_lt h3
      rw [sumAccounts_congr (s := s.setAccount a { s.account a with reserve := r }) unusedReserve]
      · exact h1
      · intro b _
        unfold setLimits unusedReserve
        rw [State.account_setAccount, State.account_setAccount]
        split <;> rfl
    · intro b; rw [hu]; exact h.used b
  granted s g link tag a k key n ha hg hr h := by
    have hg := vacantGrant_some hg
    have ha : a < 257 := by
      rcases ha with ha | ⟨o, ho, he⟩
      · exact ha
      · rw [← he]; exact h.waiting o ho
    have hpool : n - unusedReserve (s.account a) ≤ sharedFree s := by
      have := congrArg Reasons.frames hr
      simp only [resourceReasons, Reasons.none, Bool.not_eq_eq_eq_not, Bool.not_false, poolOk] at this
      exact of_decide_eq_true this
    unfold sharedFree at hpool
    have hres := h.reserves
    have hge := sumAccounts_ge (s := s) unusedReserve ha
    have hbal := h.balance
    unfold grantRecords
    dsimp only
    have hfr := reserveSets_frame (setCounts key n) (chargeFrames a n s)
    have e1 : (reserveRecords k (newGrant s link tag a k key n).k
        (reserveSets (setCounts key n) (chargeFrames a n s))).grants = s.grants := (congrArg State.grants hfr :)
    have e2 : (reserveRecords k (newGrant s link tag a k key n).k
        (reserveSets (setCounts key n) (chargeFrames a n s))).frames = s.frames := (congrArg State.frames hfr :)
    have e3 : (reserveRecords k (newGrant s link tag a k key n).k
        (reserveSets (setCounts key n) (chargeFrames a n s))).accounts = (chargeFrames a n s).accounts :=
      (congrArg State.accounts hfr :)
    have e4 : (reserveRecords k (newGrant s link tag a k key n).k
        (reserveSets (setCounts key n) (chargeFrames a n s))).free = s.free - n := (congrArg State.free hfr :)
    have e5 : (reserveRecords k (newGrant s link tag a k key n).k
        (reserveSets (setCounts key n) (chargeFrames a n s))).waiting = s.waiting := (congrArg State.waiting hfr :)
    show BalanceLaw (State.setGrant (reserveRecords k (newGrant s link tag a k key n).k
        (reserveSets (setCounts key n) (chargeFrames a n s))) g (newGrant s link tag a k key n))
    revert e1 e2 e3 e4 e5
    generalize (reserveRecords k (newGrant s link tag a k key n).k
        (reserveSets (setCounts key n) (chargeFrames a n s))) = q
    intro e1 e2 e3 e4 e5
    have e6 : ∀ b, (q.setGrant g (newGrant s link tag a k key n)).account b =
        if a = b then { s.account a with used := (s.account a).used + n } else s.account b := by
      intro b
      rw [← account_chargeFrames]
      exact account_same (t := q.setGrant g (newGrant s link tag a k key n)) e3 b
    have hsorted : Table.sorted q.grants = true := by rw [e1]; exact h.grantsSorted
    have hq : q.grant? g = none := by unfold State.grant?; rw [e1]; exact hg
    have u1 := sumAccounts_update (s := s) (t := q.setGrant g (newGrant s link tag a k key n)) (·.used) ha
      (fun b hb => by rw [e6, if_neg (Ne.symm hb)])
    have u2 := sumAccounts_update (s := s) (t := q.setGrant g (newGrant s link tag a k key n)) unusedReserve ha
      (fun b hb => by rw [e6, if_neg (Ne.symm hb)])
    have u3 : unusedReserve ((q.setGrant g (newGrant s link tag a k key n)).account a) =
        unusedReserve (s.account a) - n := by
      rw [e6, if_pos rfl]; unfold unusedReserve; dsimp only; omega
    have u4 : ((q.setGrant g (newGrant s link tag a k key n)).account a).used = (s.account a).used + n := by
      rw [e6, if_pos rfl]
    have efree : (q.setGrant g (newGrant s link tag a k key n)).free = s.free - n := e4
    refine ⟨Table.sorted_insert _ _ hsorted, ?_, ?_, ?_, ?_, ?_, ?_, ?_⟩
    · show Table.sorted q.frames = true
      rw [e2]; exact h.framesSorted
    · rw [efree]
      omega
    · rw [efree]
      omega
    · intro b
      rw [promisedTo_insert _ hsorted hq]
      show _ = heldFor q b + (promisedTo q b + _)
      rw [heldFor_of e2, promisedTo_of e1, e6]
      have h1 := h.used b
      unfold promisedBy
      show _ = heldFor s b + (promisedTo s b + (if a = b then n else 0))
      split
      · rename_i hc; subst hc; dsimp only; omega
      · omega
    · intro p hp
      rcases Table.mem_insert hp with h1 | h1
      · rw [h1]; exact ha
      · exact h.grants p (by rw [← e1]; exact h1)
    · show ∀ e ∈ q.waiting, e.account < 257
      rw [e5]; exact h.waiting
    · show ∀ p ∈ q.frames, p.2.record.account < 257
      rw [e2]; exact h.frames
  returnGrant _ _ _ hg h := h.returned _ _ hg
  lapseGrants s p h := lapseGrants_of (fun _ _ k h => h.same k) (fun _ h => h.grantsSorted)
    (fun _ _ _ hg h => h.returned _ _ hg) s p h
  settled s r link g v m os hc hp h := by
    have hv := checkData_proceeds hc
    have hmem := Table.mem_of_find? hv
    have hpr := promisedTo_erase h.grantsSorted hv v.account
    unfold promisedBy at hpr
    rw [if_pos rfl] at hpr
    dsimp only at hpr
    have hlen : (sliceWrites link v m).length = v.n := by
      have := congrArg List.length (keys_sliceWrites link v m)
      simpa [runKeys] using this
    obtain ⟨h1, h2⟩ := (h.debt v.account).placeSlices v.account (h.grants _ hmem) (sliceWrites link v m)
      (by
        intro w hw
        unfold sliceWrites at hw
        obtain ⟨i, _, rfl⟩ := List.mem_map.1 hw
        rfl) (by rw [hlen]; omega) hp
    rw [hlen, Nat.zero_add] at h1
    unfold settleGrant
    refine BalanceLaw.same ?_ (same_releaseRecords _ _ _)
    exact h1.clear (by unfold State.grant?; rw [h2]; exact hv)
  frame s f v v' hf _ ha _ h := by
    have hheld : ∀ a, heldFor (s.setFrame f v') a = heldFor s a := by
      intro a
      have := Table.countP_insert v' (fun p : Nat × Frame => p.2.record.account == a) h.framesSorted hf
      simp only [ha] at this
      exact Nat.add_right_cancel this
    refine ⟨h.grantsSorted, Table.sorted_insert _ _ h.framesSorted, h.balance, h.reserves, ?_, h.grants,
      h.waiting, ?_⟩
    · intro a; rw [hheld]; exact h.used a
    · intro p hp
      rcases Table.mem_insert hp with h1 | h1
      · rw [h1]
        show v'.record.account < 257
        rw [ha]; exact h.frames _ (Table.mem_of_find? hf)
      · exact h.frames p h1
  releaseFrame _ _ h := h.releaseFrame _

theorem BalanceLaw.reset : BalanceLaw State.reset where
  grantsSorted := rfl
  framesSorted := rfl
  balance := by
    have : sumAccounts (·.used) State.reset = 0 := by
      unfold sumAccounts
      exact List.sum_eq_zero (by
        intro x hx; obtain ⟨a, _, rfl⟩ := List.mem_map.1 hx; rfl)
    rw [this]; rfl
  reserves := by
    have : sumAccounts unusedReserve State.reset = 0 := by
      unfold sumAccounts
      exact List.sum_eq_zero (by
        intro x hx; obtain ⟨a, _, rfl⟩ := List.mem_map.1 hx; rfl)
    rw [this]; exact Nat.zero_le _
  used _ := rfl
  grants _ hp := by cases hp
  waiting _ he := by cases he
  frames _ hp := by cases hp

end Sys2Proof.Machine
end

