-- ==== Sys2Proof/Laws/Lapses.lean ====
section
/-! SUPPORT. What the lapse of a group of grants returns, what the refusal of a group of entries leaves, and
what the staging of a group of units writes (R37, R49 to R51, R99). -/

namespace Sys2Proof.Machine

/-! ### The lapse of grants -/

/-- The frames promised to a group of grants on account `a`. -/
def framesOn (a : Nat) (l : List (Nat × Grant)) : Nat := ((l.filter fun q => q.2.account == a).map (·.2.n)).sum

/-- The c_x a group of grants records for set `x`. -/
def waysIn (x : Nat) (l : List (Nat × Grant)) : Nat :=
  (l.map fun q => ((q.2.sets.filter fun c => c.1 == x).map (·.2)).sum).sum

/-- The records of stream `k` a group of grants reserves. -/
def recordsOf (k : Nat) (l : List (Nat × Grant)) : Nat := ((l.filter fun q => q.2.stream == k).map (·.2.k)).sum

/-- What the lapse of a group of grants does, the re-test walk apart (R37). -/
structure GrantsLapse (s t : State) (l : List (Nat × Grant)) : Prop where
  free : t.free = s.free + (l.map (·.2.n)).sum
  account : ∀ a, t.account a = { s.account a with used := (s.account a).used - framesOn a l }
  set : ∀ x, t.indexSet x = { s.indexSet x with reserved := (s.indexSet x).reserved - waysIn x l }
  stream : ∀ k, (t.stream k).reserved = (s.stream k).reserved - recordsOf k l
  grants : t.grants = s.grants.filter fun p => l.all fun q => p.1 ≠ q.1
  set_flag : l ≠ [] → (t.event Event.grantLapse.code).flag = true
  flags : ∀ i, (s.event i).flag = true → (t.event i).flag = true
  rest : { t with
    free := s.free, accounts := s.accounts, sets := s.sets, streams := s.streams, grants := s.grants,
    events := s.events, alert := s.alert } = s

/-- The records the return of a grant may write: all others of `t` are those of `s`. -/
def GrantFrame (s t : State) : Prop :=
  { t with
    free := s.free, accounts := s.accounts, sets := s.sets, streams := s.streams, grants := s.grants } = s

/-- The records one grant returns, and the UNBOUND check (R37). -/
theorem returnGrant_frame (g : Nat) (v : Grant) (s : State) : GrantFrame s (returnGrant g v s) := by
  have h1 : GrantFrame s (releaseSets v.sets (returnFrames v.account v.n s)) :=
    fold_keeps (I := GrantFrame s) (fun s (p : Nat × Nat) => releaseWays p.1 p.2 s)
      (fun _ _ h => h) v.sets (rfl : GrantFrame s (returnFrames v.account v.n s))
  have h2 : ∀ t k w, GrantFrame s t → GrantFrame s (t.setStream k w) := fun _ _ _ h => h
  unfold returnGrant releaseRecords checkUnbound
  dsimp only
  split
  · exact h2 _ _ _ (h2 _ _ _ h1)
  · exact h2 _ _ _ h1

theorem reserved_checkUnbound (k j : Nat) (s : State) :
    ((checkUnbound k s).stream j).reserved = (s.stream j).reserved := by
  unfold checkUnbound; dsimp only
  split
  · rw [State.stream_setStream]; split
    · rename_i h; subst h; rfl
    · rfl
  · rfl

/-- What a grant returns, record by record (R37). -/
theorem returnGrant_records (g : Nat) (v : Grant) (s : State) :
    (returnGrant g v s).free = s.free + v.n ∧
    (returnGrant g v s).accounts = (returnFrames v.account v.n s).accounts ∧
    (returnGrant g v s).sets = (releaseSets v.sets (returnFrames v.account v.n s)).sets ∧
    (returnGrant g v s).grants = Table.erase s.grants g := by
  have hdef : returnGrant g v s = checkUnbound v.stream
      (((releaseSets v.sets (returnFrames v.account v.n s)).clearGrant g).setStream v.stream
        { ((releaseSets v.sets (returnFrames v.account v.n s)).clearGrant g).stream v.stream with
          reserved := (((releaseSets v.sets (returnFrames v.account v.n s)).clearGrant g).stream
            v.stream).reserved - v.k }) := rfl
  have hgr : (returnGrant g v s).grants = Table.erase s.grants g := grants_lapseGrant g v s
  refine ⟨?_, ?_, ?_, hgr⟩ <;> rw [hdef]
  · exact (congrArg State.free (checkUnbound_frame _ _) :).trans
      (congrArg State.free (releaseSets_frame v.sets (returnFrames v.account v.n s)) :)
  · exact (congrArg State.accounts (checkUnbound_frame _ _) :).trans
      (congrArg State.accounts (releaseSets_frame v.sets (returnFrames v.account v.n s)) :)
  · exact (congrArg State.sets (checkUnbound_frame _ _) :)

theorem reserved_returnGrant (g : Nat) (v : Grant) (s : State) (k : Nat) :
    ((returnGrant g v s).stream k).reserved =
      (s.stream k).reserved - if v.stream = k then v.k else 0 := by
  unfold returnGrant releaseRecords
  dsimp only
  rw [reserved_checkUnbound, State.stream_setStream]
  have hq : ∀ j, ((releaseSets v.sets (returnFrames v.account v.n s)).clearGrant g).stream j = s.stream j := by
    intro j
    unfold State.stream
    exact congrArg (Table.getD _ · j)
      ((congrArg State.streams (releaseSets_frame v.sets (returnFrames v.account v.n s)) :))
  split
  · rename_i h; subst h; rw [hq]
  · rw [hq]; rfl

/-- The lapse of one grant (R37). -/
theorem lapseGrant_effect (g : Nat) (v : Grant) (s : State) : GrantsLapse s (lapseGrant g v s) [(g, v)] := by
  have hf := returnGrant_frame g v s
  obtain ⟨hfree, hacc, hset, hgr⟩ := returnGrant_records g v s
  have hstr := reserved_returnGrant g v s
  unfold lapseGrant
  generalize returnGrant g v s = q at hf hfree hacc hset hgr hstr
  refine ⟨?_, fun a => ?_, fun x => ?_, fun k => ?_, ?_, fun _ => ?_, fun i h => ?_, ?_⟩
  · show q.free = _
    rw [hfree]; simp
  · show Table.getD Account.reset q.accounts a = _
    rw [hacc]
    show (returnFrames v.account v.n s).account a = _
    unfold returnFrames framesOn
    dsimp only
    show ((s.setAccount _ _)).account a = _
    rw [State.account_setAccount]
    by_cases h : v.account = a
    · subst h; simp
    · simp [h]
  · show Table.getD IndexSet.reset q.sets x = _
    rw [hset]
    show (releaseSets v.sets (returnFrames v.account v.n s)).indexSet x = _
    rw [indexSet_releaseSets]
    have : (returnFrames v.account v.n s).indexSet x = s.indexSet x := rfl
    rw [this]
    simp only [waysIn, List.map_cons, List.map_nil, List.sum_cons, List.sum_nil, Nat.add_zero]
  · show (q.stream k).reserved = _
    rw [hstr]
    unfold recordsOf
    by_cases h : v.stream = k <;> simp [h]
  · show q.grants = _
    rw [hgr]; unfold Table.erase
    simp
  · rw [event_setEvent_same]
  · refine flag_setEvent _ _ _ ?_
    have : q.events = s.events := (congrArg State.events hf :)
    show (Table.getD EventRecord.reset q.events i).flag = true
    rw [this]; exact h
  · exact congrArg (fun x : State => ({ x with events := s.events, alert := s.alert } : State)) hf

theorem framesOn_append (a : Nat) (l m : List (Nat × Grant)) : framesOn a (l ++ m) = framesOn a l + framesOn a m := by
  simp [framesOn]

theorem recordsOf_append (k : Nat) (l m : List (Nat × Grant)) :
    recordsOf k (l ++ m) = recordsOf k l + recordsOf k m := by
  simp [recordsOf]

theorem waysIn_append (x : Nat) (l m : List (Nat × Grant)) : waysIn x (l ++ m) = waysIn x l + waysIn x m := by
  simp [waysIn]

/-- One group of grants lapses after another. -/
theorem GrantsLapse.trans {s t r : State} {l m : List (Nat × Grant)} (h : GrantsLapse s t l)
    (k : GrantsLapse t r m) : GrantsLapse s r (l ++ m) where
  free := by rw [k.free, h.free, List.map_append, List.sum_append, Nat.add_assoc]
  account a := by rw [k.account, h.account, framesOn_append, Nat.sub_sub]
  set x := by rw [k.set, h.set, waysIn_append, Nat.sub_sub]
  stream j := by rw [k.stream, h.stream, recordsOf_append, Nat.sub_sub]
  grants := by
    rw [k.grants, h.grants, List.filter_filter]
    congr 1; funext p
    rw [List.all_append, Bool.and_comm]
  set_flag hn := by
    by_cases hm : m = []
    · subst hm
      exact k.flags _ (h.set_flag (by simpa using hn))
    · exact k.set_flag hm
  flags i hi := k.flags i (h.flags i hi)
  rest := by
    have h2 := congrArg (fun x : State => ({ x with
      free := s.free, accounts := s.accounts, sets := s.sets, streams := s.streams, grants := s.grants,
      events := s.events, alert := s.alert } : State)) k.rest
    exact h2.trans h.rest

/-- The lapse of a group of grants, one after the other (R37). -/
theorem lapses_effect (l : List (Nat × Grant)) (s : State) :
    GrantsLapse s (l.foldl (fun s q => lapseGrant q.1 q.2 s) s) l := by
  induction l generalizing s with
  | nil =>
    refine ⟨rfl, fun _ => rfl, fun _ => rfl, fun _ => rfl, ?_, fun h => absurd rfl h, fun _ h => h, rfl⟩
    simp
  | cons q l ih => exact (lapseGrant_effect q.1 q.2 s).trans (ih _)

/-- Every LIVE grant that meets a condition lapses (R49 to R51). -/
theorem lapseGrants_effect (p : Grant → Bool) (s : State) :
    GrantsLapse s (lapseGrants p s) (s.grants.filter fun q => p q.2) := lapses_effect _ s

/-- The grants that are left are those that do not meet the condition (R49 to R51). -/
theorem grants_lapseGrants (p : Grant → Bool) {s : State} (hs : Table.sorted s.grants = true) :
    (lapseGrants p s).grants = s.grants.filter fun q => !p q.2 := by
  rw [(lapseGrants_effect p s).grants]
  refine List.filter_congr fun q hq => ?_
  cases hp : p q.2 with
  | true =>
    simp only [Bool.not_true, List.all_eq_false]
    exact ⟨q, List.mem_filter.2 ⟨hq, hp⟩, by simp⟩
  | false =>
    simp only [Bool.not_false, List.all_eq_true]
    intro r hr
    obtain ⟨hr, hpr⟩ := List.mem_filter.1 hr
    refine decide_eq_true fun e => ?_
    have h1 := Table.find?_of_mem (v := q.2) hs hq
    have h2 := Table.find?_of_mem (v := r.2) hs hr
    rw [e, h2] at h1
    injection h1 with h1
    rw [h1, hp] at hpr
    cases hpr

/-- After the lapse of every grant none is LIVE (R51). -/
theorem grants_lapseAll (s : State) : (lapseGrants (fun _ => true) s).grants = [] := by
  rw [(lapseGrants_effect _ s).grants, List.filter_eq_nil_iff]
  intro p hp h
  rw [List.all_eq_true] at h
  have := h p (List.mem_filter.2 ⟨hp, rfl⟩)
  simp at this

/-- What the grants that meet a condition were promised, by their list. -/
theorem lapsedFrames_eq (s : State) (p : Grant → Bool) :
    lapsedFrames s p = ((s.grants.filter fun q => p q.2).map (·.2.n)).sum := rfl

theorem lapsedFrom_eq (s : State) (p : Grant → Bool) (a : Nat) :
    lapsedFrom s p a = framesOn a (s.grants.filter fun q => p q.2) := by
  unfold lapsedFrom framesOn
  rw [List.filter_filter]
  congr 2
  exact List.filter_congr fun q _ => Bool.and_comm _ _

theorem lapsedWays_eq (s : State) (p : Grant → Bool) (x : Nat) :
    lapsedWays s p x = waysIn x (s.grants.filter fun q => p q.2) := rfl

theorem lapsedRecords_eq (s : State) (p : Grant → Bool) (k : Nat) :
    lapsedRecords s p k = recordsOf k (s.grants.filter fun q => p q.2) := by
  unfold lapsedRecords recordsOf
  rw [List.filter_filter]
  congr 2
  exact List.filter_congr fun q _ => Bool.and_comm _ _

/-- The same for every grant. -/
theorem lapsedAll (s : State) :
    lapsedFrames s (fun _ => true) = (s.grants.map (·.2.n)).sum ∧
      (∀ a, lapsedFrom s (fun _ => true) a = framesOn a s.grants) ∧
      (∀ x, lapsedWays s (fun _ => true) x = waysIn x s.grants) ∧
      ∀ k, lapsedRecords s (fun _ => true) k = recordsOf k s.grants := by
  have h : (s.grants.filter fun _ => true) = s.grants := List.filter_true s.grants
  refine ⟨?_, fun a => ?_, fun x => ?_, fun k => ?_⟩
  · rw [lapsedFrames_eq, h]
  · rw [lapsedFrom_eq, h]
  · rw [lapsedWays_eq, h]
  · rw [lapsedRecords_eq, h]

/-! ### Messages on a link, in their order -/

/-- What waits to leave a link, in its order (R164, R165). -/
def Link.leaving (l : Link) : List OutMessage := l.outbound ++ l.overflow

/-- A message placed on an UP link is the last to leave it, and it keeps the bounds of the link (R164, R165). -/
theorem leaving_place {s : State} {l : Nat} (m : OutMessage) (hu : (s.link l).up = true)
    (hb : LinkBounds l (s.link l)) :
    ((place l m s).link l).leaving = (s.link l).leaving ++ [m] ∧ ((place l m s).link l).up = true ∧
      LinkBounds l ((place l m s).link l) := by
  rw [link_place, if_pos hu]
  have hq : ∀ (k : Link) c, (k.queue c) = match c with
      | .intent => k.intent | .data => k.data | .read => k.read | .control => k.control
      | .reclaim => k.reclaim | .mgmt => k.mgmt := fun k c => by cases c <;> rfl
  split
  · rename_i h
    have ho : (s.link l).overflow = [] := by
      by_contra hn
      have := hb.overflow hn
      omega
    refine ⟨?_, hu, ?_, fun hn => absurd ho hn, fun c => ?_⟩
    · simp [Link.leaving, ho]
    · simp only [List.length_append, List.length_singleton]; omega
    · have := hb.inbound c; cases c <;> exact this
  · rename_i h
    refine ⟨?_, hu, hb.outbound, fun _ => ?_, fun c => ?_⟩
    · simp [Link.leaving]
    · have := hb.outbound
      show (s.link l).outbound.length = _
      omega
    · have := hb.inbound c; cases c <;> exact this

/-- Nothing but its inbound queues has changed in a link. -/
structure SameSide (a b : Link) : Prop where
  up : b.up = a.up
  outbound : b.outbound = a.outbound
  overflow : b.overflow = a.overflow
  lengths : ∀ c, ((b.queue c).messages).length = ((a.queue c).messages).length

theorem SameSide.bounds {a b : Link} {l : Nat} (h : SameSide a b) (hb : LinkBounds l a) : LinkBounds l b where
  outbound := by rw [h.outbound]; exact hb.outbound
  overflow := by rw [h.outbound, h.overflow]; exact hb.overflow
  inbound c := by rw [h.lengths]; exact hb.inbound c

theorem SameSide.leaving {a b : Link} (h : SameSide a b) : b.leaving = a.leaving := by
  unfold Link.leaving; rw [h.outbound, h.overflow]

theorem SameSide.trans {a b c : Link} (h : SameSide a b) (k : SameSide b c) : SameSide a c where
  up := k.up.trans h.up
  outbound := k.outbound.trans h.outbound
  overflow := k.overflow.trans h.overflow
  lengths x := (k.lengths x).trans (h.lengths x)

theorem sameSide_callRetake (l j : Nat) (c : Channel) (k : Nat) (s : State) :
    SameSide (s.link j) ((callRetake l c k s).link j) := by
  unfold callRetake
  dsimp only
  split
  · rw [State.link_setLink]
    split
    · rename_i h; subst h
      refine ⟨?_, ?_, ?_, fun x => ?_⟩
      · cases c <;> rfl
      · cases c <;> rfl
      · cases c <;> rfl
      · rw [Link.queue_setQueue]; split
        · rename_i h; subst h; rfl
        · rfl
    · exact ⟨rfl, rfl, rfl, fun _ => rfl⟩
  · exact ⟨rfl, rfl, rfl, fun _ => rfl⟩

theorem sameSide_callIntentRetakes (j : Nat) (s : State) :
    SameSide (s.link j) ((callIntentRetakes s).link j) := by
  simp only [callIntentRetakes, List.foldl]
  exact ((((sameSide_callRetake _ _ _ _ _).trans (sameSide_callRetake _ _ _ _ _)).trans
    (sameSide_callRetake _ _ _ _ _)).trans (sameSide_callRetake _ _ _ _ _)).trans (sameSide_callRetake _ _ _ _ _)

/-- The fields the refusal and the removal of entries may write: all others of `t` are those of `s`. -/
def EntryFrame (s t : State) : Prop :=
  { t with
    accounts := s.accounts, captures := s.captures, refusals := s.refusals, waiting := s.waiting,
    links := s.links } = s

theorem EntryFrame.callRetake {s t : State} (h : EntryFrame s t) (l : Nat) (c : Channel) (k : Nat) :
    EntryFrame s (callRetake l c k t) := by
  unfold Machine.callRetake; dsimp only; split <;> exact h

theorem EntryFrame.place {s t : State} (h : EntryFrame s t) (l : Nat) (m : OutMessage) :
    EntryFrame s (place l m t) := by
  unfold Machine.place; dsimp only
  split
  · split <;> exact h
  · exact h

theorem EntryFrame.callIntentRetakes {s t : State} (h : EntryFrame s t) : EntryFrame s (callIntentRetakes t) := by
  simp only [Machine.callIntentRetakes, List.foldl]
  exact ((((h.callRetake _ _ _).callRetake _ _ _).callRetake _ _ _).callRetake _ _ _).callRetake _ _ _

theorem EntryFrame.refuseEntry {s t : State} (h : EntryFrame s t) (e : Entry) (c : RefusalCode) :
    EntryFrame s (refuseEntry e c t) := by
  have h1 : EntryFrame s (capture (e.captureOf c) (lowerHeld e.account t)) := h
  exact (h1.place _ _).callIntentRetakes

theorem EntryFrame.removeEntry {s t : State} (h : EntryFrame s t) (e : Entry) :
    EntryFrame s (removeEntry e t) := by
  have h1 : EntryFrame s (lowerHeld e.account (t.setWaiting (t.waiting.erase e))) := h
  exact h1.callIntentRetakes

/-- Calling for new takings writes the links alone. -/
theorem callIntentRetakes_frame (s : State) :
    (callIntentRetakes s).accounts = s.accounts ∧ (callIntentRetakes s).captures = s.captures ∧
      (callIntentRetakes s).refusals = s.refusals ∧ (callIntentRetakes s).waiting = s.waiting := by
  have h : ∀ {t : State} l c k, t.accounts = s.accounts ∧ t.captures = s.captures ∧
      t.refusals = s.refusals ∧ t.waiting = s.waiting →
      (callRetake l c k t).accounts = s.accounts ∧ (callRetake l c k t).captures = s.captures ∧
      (callRetake l c k t).refusals = s.refusals ∧ (callRetake l c k t).waiting = s.waiting := by
    intro t l c k ht
    unfold callRetake; dsimp only; split <;> exact ht
  simp only [callIntentRetakes, List.foldl]
  exact h _ _ _ (h _ _ _ (h _ _ _ (h _ _ _ (h _ _ _ ⟨rfl, rfl, rfl, rfl⟩))))

/-! ### The refusal of entries -/

/-- What the refusal of a group of pending entries leaves: the captures, the total, the held-counts and one
Intent Refused on each entry's link (R20, R39, R51). -/
structure EntriesRefused (s t : State) (code : RefusalCode) (es : List Entry) : Prop where
  account : ∀ a, t.account a =
    { s.account a with heldCount := (s.account a).heldCount - es.countP fun e => e.account == a }
  captures : s.captures.length ≤ 8 →
    t.captures = (s.captures ++ es.map fun e => e.captureOf code).drop (s.captures.length + es.length - 8)
  refusals : s.refusals ≤ Config.maxCount32 → t.refusals = min (s.refusals + es.length) Config.maxCount32
  links : ∀ l, (s.link l).up = true → LinkBounds l (s.link l) →
    (t.link l).leaving = (s.link l).leaving ++
      (es.filter fun e => e.link == l).map (fun e => .intentRefused e.tag code) ∧
    (t.link l).up = true ∧ LinkBounds l (t.link l)
  waiting : t.waiting = s.waiting
  rest : EntryFrame s t

theorem refuseEntry_effect (e : Entry) (code : RefusalCode) (s : State) :
    EntriesRefused s (refuseEntry e code s) code [e] := by
  obtain ⟨h1, h2, h3, h4⟩ := callIntentRetakes_frame (refuse (e.captureOf code) (lowerHeld e.account s))
  have hp := links_place e.link (.intentRefused e.tag code) (capture (e.captureOf code) (lowerHeld e.account s))
  have hacc : (refuseEntry e code s).accounts = (lowerHeld e.account s).accounts :=
    h1.trans (congrArg State.accounts hp :)
  have hcap : (refuseEntry e code s).captures =
      (if s.captures.length < 8 then s.captures else s.captures.tail) ++ [e.captureOf code] :=
    h2.trans (congrArg State.captures hp :)
  have href : (refuseEntry e code s).refusals = satSucc s.refusals :=
    h3.trans (congrArg State.refusals hp :)
  have hwait : (refuseEntry e code s).waiting = s.waiting := h4.trans (congrArg State.waiting hp :)
  refine ⟨fun a => ?_, fun h => ?_, fun h => ?_, fun l hu hl => ?_, hwait, EntryFrame.refuseEntry (rfl : EntryFrame s s) e code⟩
  · show Table.getD Account.reset (refuseEntry e code s).accounts a = _
    rw [hacc]
    show (lowerHeld e.account s).account a = _
    unfold lowerHeld
    dsimp only
    rw [State.account_setAccount]
    by_cases h : e.account = a
    · subst h; simp
    · simp [h]
  · rw [hcap]
    simp only [List.map_cons, List.map_nil, List.length_singleton]
    by_cases h8 : s.captures.length < 8
    · rw [if_pos h8, show s.captures.length + 1 - 8 = 0 by omega, List.drop_zero]
    · rw [if_neg h8, show s.captures.length + 1 - 8 = 1 by omega]
      cases hs : s.captures with
      | nil => rw [hs] at h8; simp at h8
      | cons a b => rfl
  · rw [href]; rfl
  · have hside := sameSide_callIntentRetakes l (refuse (e.captureOf code) (lowerHeld e.account s))
    have hs : ∀ t : State, t = capture (e.captureOf code) (lowerHeld e.account s) → t.link l = s.link l := by
      rintro _ rfl; rfl
    by_cases h : e.link = l
    · subst h
      have := leaving_place (s := capture (e.captureOf code) (lowerHeld e.account s))
        (.intentRefused e.tag code) (by rw [hs _ rfl]; exact hu) (by rw [hs _ rfl]; exact hl)
      refine ⟨?_, hside.up.trans this.2.1, hside.bounds this.2.2⟩
      refine hside.leaving.trans (this.1.trans ?_)
      rw [hs _ rfl]; simp
    · have hpl : (refuse (e.captureOf code) (lowerHeld e.account s)).link l = s.link l :=
        (place_frame e.link _ (capture (e.captureOf code) (lowerHeld e.account s))).links l (Ne.symm h)
      rw [hpl] at hside
      refine ⟨?_, hside.up.trans hu, hside.bounds hl⟩
      refine hside.leaving.trans ?_
      simp [h]

theorem EntriesRefused.trans {s t r : State} {code : RefusalCode} {l m : List Entry}
    (h : EntriesRefused s t code l) (k : EntriesRefused t r code m) : EntriesRefused s r code (l ++ m) where
  account a := by rw [k.account, h.account, List.countP_append, Nat.sub_sub]
  captures hb := by
    have h1 := h.captures hb
    have hl : t.captures.length = min (s.captures.length + l.length) 8 := by
      rw [h1]; simp only [List.length_drop, List.length_append, List.length_map]; omega
    rw [k.captures (by omega), hl, h1]
    by_cases hc : s.captures.length + l.length ≤ 8
    · rw [show s.captures.length + l.length - 8 = 0 by omega, List.drop_zero, Nat.min_eq_left hc,
        List.map_append, List.append_assoc, List.length_append]
      congr 1; omega
    · rw [← List.drop_append_of_le_length (by simp), List.drop_drop, List.map_append, List.append_assoc,
        List.length_append, Nat.min_eq_right (by omega)]
      congr 1; omega
  refusals hb := by
    have h1 := h.refusals hb
    rw [k.refusals (by omega), h1, List.length_append]; omega
  links j hu hb := by
    obtain ⟨h1, h2, h3⟩ := h.links j hu hb
    obtain ⟨k1, k2, k3⟩ := k.links j h2 h3
    refine ⟨?_, k2, k3⟩
    rw [k1, h1, List.filter_append, List.map_append, List.append_assoc]
  waiting := k.waiting.trans h.waiting
  rest := by
    have h2 := congrArg (fun x : State => ({ x with
      accounts := s.accounts, captures := s.captures, refusals := s.refusals, waiting := s.waiting,
      links := s.links } : State)) k.rest
    exact h2.trans h.rest

/-- The refusal of a group of entries, one after the other (R51). -/
theorem refusals_effect (code : RefusalCode) (es : List Entry) (s : State) :
    EntriesRefused s (es.foldl (fun s e => refuseEntry e code s) s) code es := by
  induction es generalizing s with
  | nil =>
    refine ⟨fun _ => rfl, fun h => ?_, fun h => ?_, fun l hu hb => ⟨by simp, hu, hb⟩, rfl, rfl⟩
    · rw [show s.captures.length + ([] : List Entry).length - 8 = 0 by simp; omega]; simp
    · simp [Nat.min_eq_left h]
  | cons e es ih => exact (refuseEntry_effect e code s).trans (ih _)

/-! ### The removal of a link's entries (R49, R50) -/

/-- What the removal of entries leaves (R38, R39, R49, R50). -/
structure EntriesRemoved (s t : State) (es : List Entry) : Prop where
  account : ∀ a, t.account a =
    { s.account a with heldCount := (s.account a).heldCount - es.countP fun e => e.account == a }
  waiting : t.waiting = es.foldl List.erase s.waiting
  side : ∀ l, SameSide (s.link l) (t.link l)
  rest : EntryFrame s t

theorem removeEntry_effect (e : Entry) (s : State) : EntriesRemoved s (removeEntry e s) [e] := by
  obtain ⟨h1, -, -, h4⟩ := callIntentRetakes_frame (lowerHeld e.account (s.setWaiting (s.waiting.erase e)))
  have hacc : (removeEntry e s).accounts = (lowerHeld e.account s).accounts := h1
  have hside : ∀ l, SameSide (s.link l) ((removeEntry e s).link l) := fun l =>
    sameSide_callIntentRetakes l (lowerHeld e.account (s.setWaiting (s.waiting.erase e)))
  refine ⟨fun a => ?_, h4, hside, EntryFrame.removeEntry (rfl : EntryFrame s s) e⟩
  show Table.getD Account.reset (removeEntry e s).accounts a = _
  rw [hacc]
  show (lowerHeld e.account s).account a = _
  unfold lowerHeld
  dsimp only
  rw [State.account_setAccount]
  by_cases h : e.account = a
  · subst h; simp
  · simp [h]

theorem EntriesRemoved.trans {s t r : State} {l m : List Entry} (h : EntriesRemoved s t l)
    (k : EntriesRemoved t r m) : EntriesRemoved s r (l ++ m) where
  account a := by rw [k.account, h.account, List.countP_append, Nat.sub_sub]
  waiting := by rw [k.waiting, h.waiting, List.foldl_append]
  side j := (h.side j).trans (k.side j)
  rest := by
    have h2 := congrArg (fun x : State => ({ x with
      accounts := s.accounts, captures := s.captures, refusals := s.refusals, waiting := s.waiting,
      links := s.links } : State)) k.rest
    exact h2.trans h.rest

theorem removals_effect (es : List Entry) (s : State) :
    EntriesRemoved s (es.foldl (fun s e => removeEntry e s) s) es := by
  induction es generalizing s with
  | nil => exact ⟨fun _ => rfl, rfl, fun _ => ⟨rfl, rfl, rfl, fun _ => rfl⟩, rfl⟩
  | cons e es ih => exact (removeEntry_effect e s).trans (ih _)

theorem foldl_erase_cons {α : Type} [DecidableEq α] (a : α) (l : List α) (w : List α) (h : a ∉ l) :
    l.foldl List.erase (a :: w) = a :: l.foldl List.erase w := by
  induction l generalizing w with
  | nil => rfl
  | cons b l ih =>
    rw [List.mem_cons, not_or] at h
    rw [List.foldl_cons, List.foldl_cons, List.erase_cons_tail (by simpa using h.1), ih _ h.2]

theorem foldl_erase_filter {α : Type} [DecidableEq α] (p : α → Bool) (w : List α) :
    (w.filter p).foldl List.erase w = w.filter fun a => !p a := by
  induction w with
  | nil => rfl
  | cons a w ih =>
    cases hp : p a with
    | true => simp [hp, ih]
    | false =>
      rw [List.filter_cons_of_neg (by simp [hp]), List.filter_cons_of_pos (by simp [hp]),
        foldl_erase_cons _ _ _ (by simp [hp]), ih]

/-- The removal of the entries of a link (R49, R50). -/
theorem waiting_removeLinkEntries (l : Nat) (s : State) :
    (removeLinkEntries l s).waiting = s.waiting.filter fun e => !(e.link == l) :=
  (removals_effect _ s).waiting.trans (foldl_erase_filter _ _)

/-! ### The staging of a group of units (R99) -/

/-- What the staging of a group of OPEN units, each named once, writes (R93, R99). -/
structure GroupStaged (s t : State) (c : CloseCause) (vs : List Nat) : Prop where
  staged : ∀ earlier v later, vs = earlier ++ v :: later → ∀ u, s.unit? v = some u →
    t.unit? v = some
      { u with state := .staged, cause := some c, deadline := none,
               stagedSeq := some ((s.stagedCounter + earlier.length) % Config.stagedModulus) }
  others : ∀ v, v ∉ vs → t.unit? v = s.unit? v
  closed : ∀ v ∈ vs, (t.stream (unitStream v)).openUnit = none
  reserved : ∀ k, (t.stream k).reserved = (s.stream k).reserved
  idle : ∀ k, (s.stream k).openUnit = none → (t.stream k).openUnit = none
  rest : { t with units := s.units, streams := s.streams, stagedCounter := s.stagedCounter } = s

theorem stageUnit_open {c : CloseCause} {v : Nat} {u : UnitRecord} {s : State} (hu : s.unit? v = some u)
    (ho : u.state = .opened) : Staged s (stageUnit c v s) c v u := by
  have hc : (stageUnit c v s).stagedCounter = (s.stagedCounter + 1) % Config.stagedModulus := by
    unfold stageUnit; rw [hu]; dsimp only; rw [if_pos ho]; rfl
  have hs : ∀ k, (stageUnit c v s).stream k =
      if v / 64 = k then
        { s.stream (v / 64) with
          openUnit := none,
          padSlices := (s.stream (v / 64)).padSlices + (s.cfg.unitSize - u.frames.length) }
      else s.stream k := by
    intro k
    unfold stageUnit; rw [hu]; dsimp only; rw [if_pos ho]
    show ((s.setUnit v _).setStream _ _).stream k = _
    rw [State.stream_setStream]
    rfl
  refine ⟨?_, fun i hi => ?_, ?_, fun k hk => ?_, hc, stageUnit_frame c v s⟩
  · rw [unit?_stageUnit, if_pos rfl, hu]; simp [ho]
  · rw [unit?_stageUnit, if_neg (Ne.symm hi)]
  · rw [hs, if_pos rfl]
  · rw [hs, if_neg (Ne.symm hk)]

theorem stageAll_effect (c : CloseCause) (vs : List Nat) (s : State) (hn : vs.Nodup)
    (ho : ∀ v ∈ vs, ∃ u, s.unit? v = some u ∧ u.state = .opened) (hc : s.stagedCounter < Config.stagedModulus) :
    GroupStaged s (stageAll c vs s) c vs := by
  unfold stageAll
  induction vs generalizing s with
  | nil =>
    refine ⟨fun a v l e => ?_, fun _ _ => rfl, fun _ h => ?_, fun _ => rfl, fun _ h => h, rfl⟩
    · cases a <;> cases e
    · cases h
  | cons v vs ih =>
    rw [List.nodup_cons] at hn
    obtain ⟨u, hu, hs⟩ := ho v (by simp)
    have h1 : Staged s (stageUnit c v s) c v u := stageUnit_open hu hs
    revert h1
    rw [List.foldl_cons]
    generalize stageUnit c v s = q
    intro h1
    have hq := ih q hn.2 (fun w hw => by
      obtain ⟨x, hx, hs⟩ := ho w (List.mem_cons_of_mem _ hw)
      exact ⟨x, by rw [h1.others w (fun e => hn.1 (e ▸ hw))]; exact hx, hs⟩) (by
      rw [h1.counter]; exact Nat.mod_lt _ (by decide))
    refine ⟨fun a w l e x hx => ?_, fun w hw => ?_, fun w hw => ?_, fun k => ?_, fun k hk => ?_, ?_⟩
    · cases a with
      | nil =>
        injection e with e1 e2
        subst e1
        rw [hq.others v hn.1, h1.unit, hu.symm.trans hx |> Option.some.inj]
        simp [Nat.mod_eq_of_lt hc]
      | cons b a =>
        injection e with e1 e2
        have hw : w ∈ vs := by rw [e2]; simp
        have hne : w ≠ v := fun e => hn.1 (e ▸ hw)
        rw [hq.staged a w l e2 x (by rw [h1.others w hne]; exact hx), h1.counter]
        show some _ = some _
        congr 3
        rw [List.length_cons]
        show (((s.stagedCounter + 1) % 4294967296) + a.length) % 4294967296 = _
        rw [Nat.mod_add_mod]; congr 1; omega
    · rw [List.mem_cons, not_or] at hw
      rw [hq.others w hw.2, h1.others w hw.1]
    · rcases List.mem_cons.1 hw with rfl | hw
      · exact hq.idle _ (by rw [show unitStream w = w / 64 from rfl, h1.stream])
      · exact hq.closed w hw
    · rw [hq.reserved]
      by_cases e : k = v / 64
      · rw [e, h1.stream]
      · rw [h1.streams k e]
    · refine hq.idle k ?_
      by_cases e : k = v / 64
      · rw [e, h1.stream]
      · rw [h1.streams k e]; exact hk
    · have h2 := congrArg (fun x : State => ({ x with
        units := s.units, streams := s.streams, stagedCounter := s.stagedCounter } : State)) hq.rest
      exact h2.trans h1.rest

/-- The OPEN units are those of the records whose state is OPEN. -/
theorem mem_openUnits_iff {s : State} (hs : Table.sorted s.units = true) (v : Nat) :
    v ∈ openUnits s ↔ ∃ u, s.unit? v = some u ∧ u.state = .opened := by
  unfold openUnits
  simp only [List.mem_map, List.mem_filter, decide_eq_true_eq]
  constructor
  · rintro ⟨⟨a, u⟩, ⟨hm, ho⟩, rfl⟩
    exact ⟨u, Table.find?_of_mem hs hm, ho⟩
  · rintro ⟨u, hu, ho⟩
    exact ⟨(v, u), ⟨Table.mem_of_find? hu, ho⟩, rfl⟩

theorem openUnits_nodup {s : State} (hs : Table.sorted s.units = true) : (openUnits s).Nodup := by
  unfold openUnits
  rw [Table.sorted_iff] at hs
  exact (hs.filter _).map _ fun a b h => Nat.ne_of_lt h

end Sys2Proof.Machine
end

