-- ==== Sys2Proof/Laws/Choices.lean ====
section
/-! SUPPORT. The unit that pressure, relief and the end of a placement stage (R47, R48, R95, R97, R98). -/

namespace Sys2Proof.Machine

/-- One step of a choice made along a list. -/
def chooseStep {α : Type} (pick : α → α → α) (best : Option α) (p : α) : Option α :=
  some (match best with | none => p | some q => pick p q)

/-- A choice made along a list keeps the element that wins against every other. -/
theorem fold_choice {α : Type} (pick : α → α → α) (a : α) (l : List α) (hm : a ∈ l)
    (same : pick a a = a) (win : ∀ p ∈ l, p ≠ a → pick p a = a ∧ pick a p = a)
    (two : ∀ p q, pick p q = p ∨ pick p q = q) :
    l.foldl (chooseStep pick) none = some a := by
  have keep : ∀ r : List α, (∀ p ∈ r, p ∈ l) →
      r.foldl (chooseStep pick) (some a) = some a := by
    intro r
    induction r with
    | nil => intro _; rfl
    | cons p r ih =>
      intro h
      have : pick p a = a := by
        by_cases hp : p = a
        · rw [hp, same]
        · exact (win p (h p (by simp)) hp).1
      rw [List.foldl_cons]
      show List.foldl _ (some (pick p a)) r = _
      rw [this]
      exact ih fun q hq => h q (by simp [hq])
  have reach : ∀ (r : List α), (∀ p ∈ r, p ∈ l) → a ∈ r → ∀ b : Option α, (∀ q, b = some q → q ∈ l) →
      r.foldl (chooseStep pick) b = some a := by
    intro r
    induction r with
    | nil => intro _ h; cases h
    | cons p r ih =>
      intro h ha b hb
      rw [List.foldl_cons]
      by_cases hp : p = a
      · have : chooseStep pick b p = some a := by
          cases b with
          | none => exact congrArg some hp
          | some q =>
            refine congrArg some (show pick p q = a from ?_)
            subst hp
            by_cases hq : q = p
            · rw [hq, same]
            · exact (win q (hb q rfl) hq).2
        rw [this]
        exact keep r fun q hq => h q (by simp [hq])
      · refine ih (fun q hq => h q (by simp [hq])) (by simpa [Ne.symm hp] using ha) _ fun q hq => ?_
        injection hq with hq
        subst hq
        cases b with
        | none => exact h p (by simp)
        | some q =>
          show pick p q ∈ l
          rcases two p q with e | e <;> rw [e]
          · exact h p (by simp)
          · exact hb q rfl
  exact reach l (fun _ h => h) hm none fun q hq => by cases hq

/-! ### Pressure -/

theorem pressureCompare_idle {s : State}
    (h : s.cfg.pressureThreshold = 0 ∨ s.part = .powerFail ∨ s.cfg.pressureThreshold ≤ sharedFree s) :
    pressureCompare s = s := by
  unfold pressureCompare
  rw [if_neg]
  rintro ⟨h1, h2, h3⟩
  rcases h with h | h | h
  · exact h1 h
  · exact h2 h
  · omega

theorem pressureCompare_none {s : State}
    (h : ∀ p ∈ s.units, p.2.state = .opened → (s.stream (p.1 / 64)).state = .paused) :
    pressureCompare s = s := by
  unfold pressureCompare
  split
  · have : pressureUnit s = none := by
      unfold pressureUnit
      rw [List.filter_eq_nil_iff.2]
      · rfl
      · intro p hp hc
        simp only [Bool.and_eq_true, decide_eq_true_eq, bne_iff_ne] at hc
        exact hc.2 (h p hp hc.1)
    unfold pressureStage
    rw [this]
  · rfl

theorem pressureCompare_some {s : State} {v : Nat} {u : UnitRecord} (h1 : s.cfg.pressureThreshold ≠ 0)
    (h2 : s.part ≠ .powerFail) (h3 : sharedFree s < s.cfg.pressureThreshold) (hm : (v, u) ∈ s.units)
    (ho : u.state = .opened) (hp : (s.stream (v / 64)).state ≠ .paused)
    (first : ∀ p ∈ s.units, p.2.state = .opened → (s.stream (p.1 / 64)).state ≠ .paused →
      p = (v, u) ∨ u.firstArrival < p.2.firstArrival ∨
        (u.firstArrival = p.2.firstArrival ∧ v < p.1)) :
    pressureCompare s = setEvent .pressureClose (stageUnit .pressure v s) := by
  have hu : pressureUnit s = some v := by
    unfold pressureUnit
    rw [List.foldl_ext _ (chooseStep earlierUnit) none (fun b p _ => by cases b <;> rfl)]
    refine congrArg (Option.map (·.1)) (fold_choice earlierUnit (v, u) _ ?_ ?_ ?_ ?_)
    · rw [List.mem_filter]
      refine ⟨hm, ?_⟩
      simp only [Bool.and_eq_true, decide_eq_true_eq, bne_iff_ne]
      exact ⟨ho, hp⟩
    · unfold earlierUnit; split <;> rfl
    · intro p hp hne
      rw [List.mem_filter] at hp
      simp only [Bool.and_eq_true, decide_eq_true_eq, bne_iff_ne] at hp
      rcases first p hp.1 hp.2.1 hp.2.2 with h | h
      · exact absurd h hne
      · unfold earlierUnit
        dsimp only
        rw [if_neg (by omega), if_pos (by omega)]
        exact ⟨rfl, rfl⟩
    · intro p q
      unfold earlierUnit
      split
      · exact .inl rfl
      · exact .inr rfl
  unfold pressureCompare pressureStage
  rw [if_pos ⟨h1, h2, h3⟩, hu]

/-! ### Relief -/

theorem reliefStage_none {s : State} {x : Nat}
    (h : ∀ p ∈ (s.indexSet x).ways, reliefCandidate s p.2 = none) : reliefStage x s = s := by
  have : reliefUnit s x = none := by
    unfold reliefUnit
    rw [List.filterMap_eq_nil_iff.2 h]
    rfl
  unfold reliefStage
  split
  · rfl
  · rw [this]

theorem reliefStage_some {s : State} {x : Nat} {p : Nat × Way} {q v : Nat} (hp : p ∈ (s.indexSet x).ways)
    (hr : s.part ≠ .powerFail) (hc : reliefCandidate s p.2 = some (q, v))
    (least : ∀ o ∈ (s.indexSet x).ways, ∀ q' v', reliefCandidate s o.2 = some (q', v') →
      (q', v') = (q, v) ∨ q < q') :
    reliefStage x s = setEvent .setRelief (stageUnit .relief v s) := by
  have hu : reliefUnit s x = some v := by
    unfold reliefUnit
    rw [List.foldl_ext _ (chooseStep fun c b : Nat × Nat => if c.1 < b.1 then c else b) none
      (fun b p _ => by cases b <;> rfl)]
    refine congrArg (Option.map (·.2))
      (fold_choice (fun c b : Nat × Nat => if c.1 < b.1 then c else b) (q, v) _ ?_ ?_ ?_ ?_)
    · exact List.mem_filterMap.2 ⟨p, hp, hc⟩
    · exact if_neg (Nat.lt_irrefl _)
    · intro o ho hne
      obtain ⟨w, hw, hwo⟩ := List.mem_filterMap.1 ho
      obtain ⟨a, b⟩ := o
      rcases least w hw a b hwo with h | h
      · exact absurd h hne
      · dsimp only
        exact ⟨if_neg (by omega), if_pos h⟩
    · intro c b
      split
      · exact .inl rfl
      · exact .inr rfl
  unfold reliefStage
  rw [if_neg hr, hu]

theorem reliefCandidate_iff (s : State) (w : Way) (q v : Nat) :
    reliefCandidate s w = some (q, v) ↔
      ∃ f u, s.frame? w.frame = some f ∧ f.record.latestSeq = q ∧ f.record.unit = v ∧
        s.unit? v = some u ∧ u.state = .opened ∧ (s.stream (v / 64)).state ≠ .paused := by
  unfold reliefCandidate
  constructor
  · intro h
    split at h
    · rename_i f hf
      split at h
      · rename_i u hu
        split at h
        · rename_i hc
          injection h with h
          injection h with h1 h2
          subst h1 h2
          exact ⟨f, u, hf, rfl, rfl, hu, hc.1, hc.2⟩
        · cases h
      · cases h
    · cases h
  · rintro ⟨f, u, hf, h1, h2, hu, ho, hp⟩
    subst h1 h2
    rw [hf]
    dsimp only
    rw [hu]
    exact if_pos ⟨ho, hp⟩

/-! ### A grant -/

/-- The records a grant may write: all others stay (R32). -/
theorem grantRecords_frame (g link tag a k : Nat) (key : Key) (n : Nat) (s : State) :
    { grantRecords g link tag a k key n s with
      accounts := s.accounts, free := s.free, sets := s.sets, streams := s.streams,
      grants := s.grants } = s := by
  let reset : State → State := fun y =>
    { y with
      accounts := s.accounts, free := s.free, sets := s.sets, streams := s.streams,
      grants := s.grants }
  have h : ∀ (l : List (Nat × Nat)) (x : State), reset x = s → reset (reserveSets l x) = s := fun l x hx =>
    fold_keeps (I := fun y => reset y = s) (fun s (p : Nat × Nat) => reserveWays p.1 p.2 s) (fun _ _ h => h) l hx
  unfold grantRecords
  dsimp only
  have hr := h (newGrant s link tag a k key n).sets (chargeFrames a n s) rfl
  generalize reserveSets (newGrant s link tag a k key n).sets (chargeFrames a n s) = x at hr
  exact hr

/-! ### The end of a placement -/

theorem stageUnit_streamState (c : CloseCause) (v k : Nat) (s : State) :
    ((stageUnit c v s).stream k).state = (s.stream k).state := by
  unfold stageUnit
  split
  · split
    · show ((State.setStream _ _ _).stream k).state = _
      rw [State.stream_setStream]
      split
      · rename_i h; subst h; rfl
      · rfl
    · rfl
  · rfl

theorem unitMoving_iff (s : State) (k : Nat) :
    unitMoving s k = true ↔ ∃ i u, i < 64 ∧ s.unit? (64 * k + i) = some u ∧
      (u.state = .staged ∨ u.state = .offered ∨ u.state = .inFlight) := by
  unfold unitMoving
  rw [List.any_eq_true]
  have hid : ∀ r, unitId k r = 64 * k + r := fun r => by
    unfold unitId; show 64 * k + r = _; omega
  constructor
  · rintro ⟨i, hi, h⟩
    rw [Option.any_eq_true] at h
    obtain ⟨u, hu, h⟩ := h
    rw [hid] at hu
    refine ⟨i, u, List.mem_range.1 hi, hu, ?_⟩
    simpa [or_assoc] using h
  · rintro ⟨i, u, hi, hu, h⟩
    refine ⟨i, List.mem_range.2 hi, ?_⟩
    rw [hid, hu]
    simpa [or_assoc] using h

theorem idleLane_iff (s : State) (k : Stream) :
    idleLane s k = true ↔ ∃ g, g < 32 ∧ k.lanes.getLsbD g = true ∧ (s.lane g).state = .up ∧
      (s.lane g).offer = none ∧ (s.lane g).inFlight < (s.drain (laneLink g)).depth := by
  unfold idleLane
  rw [List.any_eq_true]
  refine exists_congr fun g => ?_
  rw [List.mem_range]
  simp only [Bool.and_eq_true, decide_eq_true_eq, beq_iff_eq, Option.isNone_iff_eq_none, and_assoc]
  exact Iff.rfl

theorem endOfPlacement_none {s : State} {k : Nat} (h : (s.stream k).openUnit = none) :
    endOfPlacement k s = s := by
  have hs : ∀ c, stageOpen c k s = s := fun c => by unfold stageOpen; rw [h]
  unfold endOfPlacement
  dsimp only
  rw [hs, ite_self, if_neg]
  rintro ⟨-, -, c, -⟩
  rw [h] at c
  cases c

theorem endOfPlacement_retire {s : State} {k v : Nat} (h : (s.stream k).openUnit = some v)
    (hr : (s.stream k).state = .retiring) : endOfPlacement k s = stageUnit .retire v s := by
  have hs : stageOpen .retire k s = stageUnit .retire v s := by unfold stageOpen; rw [h]
  unfold endOfPlacement
  dsimp only
  rw [if_pos hr, hs, if_neg]
  rintro ⟨-, c, -⟩
  rw [stageUnit_streamState, hr] at c
  cases c

theorem endOfPlacement_adaptive {s : State} {k v : Nat} (h : (s.stream k).openUnit = some v)
    (hp : (s.stream k).policy = .adaptive) (ha : (s.stream k).state = .active)
    (hm : ¬unitMoving s k = true) (hi : idleLane s (s.stream k) = true) :
    endOfPlacement k s = stageUnit .adaptive v s := by
  have hs : stageOpen .adaptive k s = stageUnit .adaptive v s := by unfold stageOpen; rw [h]
  unfold endOfPlacement
  dsimp only
  rw [if_neg (fun c : (s.stream k).state = .retiring => by rw [ha] at c; cases c),
    if_pos ⟨hp, ha, by rw [h]; rfl, by simpa using hm, hi⟩, hs]

theorem endOfPlacement_else {s : State} {k : Nat} (hr : (s.stream k).state ≠ .retiring)
    (h : ¬((s.stream k).policy = .adaptive ∧ (s.stream k).state = .active ∧
      (s.stream k).openUnit.isSome ∧ unitMoving s k = false ∧ idleLane s (s.stream k) = true)) :
    endOfPlacement k s = s := by
  unfold endOfPlacement
  dsimp only
  rw [if_neg hr, if_neg h]

end Sys2Proof.Machine
end

