-- ==== Sys2Proof/Laws/Failing.lean ====
section
/-! SUPPORT. What a Unit Fail does to the records before its lane is looked at, said once: the unit is STAGED
or, at its fourth failed attempt, FAULTED, and no other unit and no other lane changes. -/

namespace Sys2Proof.Machine

/-- The fields that a fault writes: all others of `t` are those of `s`. -/
def FaultFrame (s t : State) : Prop :=
  { t with
    units := s.units, faultList := s.faultList, drainCount := s.drainCount, events := s.events,
    alert := s.alert, flushes := s.flushes, flushOrder := s.flushOrder, links := s.links } = s

/-- What the fault of unit `v`, whose record is `u`, does to the records (R129). -/
structure Faulted (s t : State) (v : Nat) (u : UnitRecord) : Prop where
  units : t.units = Table.insert s.units v { u with state := .faulted }
  faultList : t.faultList = s.faultList ++ [v]
  drainCount : t.drainCount = s.drainCount - 1
  flag : (t.event Event.unitFault.code).flag = true
  quiet : s.flushOrder = [] → t.flushes = s.flushes ∧ t.links = s.links
  frame : FaultFrame s t

theorem faultUnit_spec {s : State} {v : Nat} {u : UnitRecord} (hu : s.unit? v = some u) :
    Faulted s (faultUnit v s) v u := by
  obtain ⟨a, hA⟩ : ∃ a, a = (s.setUnit v { u with state := .faulted }).setFaultList
      (s.faultList ++ [v]) := ⟨_, rfl⟩
  have hframe : FaultFrame s a := by rw [hA]; rfl
  have hun : a.units = Table.insert s.units v { u with state := .faulted } := by rw [hA]; rfl
  have hfl : a.faultList = s.faultList ++ [v] := by rw [hA]; rfl
  have hkeep : a.drainCount = s.drainCount ∧ a.flushes = s.flushes ∧ a.flushOrder = s.flushOrder ∧
      a.links = s.links := by rw [hA]; exact ⟨rfl, rfl, rfl, rfl⟩
  have e : faultUnit v s = (flushesAtFault v (setEvent .unitFault a)).setDrainCount
      ((flushesAtFault v (setEvent .unitFault a)).drainCount - 1) := by
    rw [hA]; unfold faultUnit State.modifyUnit; rw [hu]; rfl
  clear hA
  obtain ⟨b, hb, hb1, hb2, hb3, hb4, hb5⟩ : ∃ b, b = setEvent .unitFault a ∧
      (b.event Event.unitFault.code).flag = true ∧ FaultFrame s b ∧ b.units = a.units ∧
      b.faultList = a.faultList ∧ (b.drainCount = a.drainCount ∧ b.flushes = a.flushes ∧
        b.flushOrder = a.flushOrder ∧ b.links = a.links) :=
    ⟨_, rfl, by rw [event_setEvent_same], hframe, rfl, rfl, rfl, rfl, rfl, rfl⟩
  rw [← hb] at e
  have hF := flushesAtFault_frame v b
  have hflag := flag_flushesAtFault v _ b hb1
  have hq : b.flushOrder = [] → flushesAtFault v b = b := by
    intro h; unfold flushesAtFault; rw [h]; rfl
  rw [e]
  clear e
  revert hF hflag hq
  generalize flushesAtFault v b = c
  intro hF hflag hq
  refine ⟨(congrArg State.units hF :).trans (hb3.trans hun),
    (congrArg State.faultList hF :).trans (hb4.trans hfl),
    congrArg (· - 1) ((congrArg State.drainCount hF :).trans (hb5.1.trans hkeep.1)), hflag,
    fun h => ?_, ?_⟩
  · have := hq (hb5.2.2.1.trans (hkeep.2.2.1.trans h))
    rw [this]
    exact ⟨hb5.2.1.trans hkeep.2.1, hb5.2.2.2.trans hkeep.2.2.2⟩
  · have h1 := congrArg (fun t : State => { t with
      units := s.units, faultList := s.faultList, drainCount := s.drainCount, events := s.events,
      alert := s.alert, flushes := s.flushes, flushOrder := s.flushOrder, links := s.links }) hF
    exact (h1 :).trans hb2

/-- Unit `v`, whose record is `u`, has failed once more between `s` and `t`: it is on no lane, STAGED or at its
fourth attempt FAULTED, and lane `g` holds one unit less (R127, R129). -/
structure Failed (s t : State) (g v : Nat) (u : UnitRecord) : Prop where
  self : t.unit? v = some
    { u with
      state := if u.attempts + 1 < 4 then .staged else .faulted, lane := none,
      attempts := u.attempts + 1 }
  others : ∀ j, j ≠ v → t.unit? j = s.unit? j
  lane : ∀ j, t.lane j =
    if g = j then { s.lane g with inFlight := (s.lane g).inFlight - 1 } else s.lane j
  faultList : t.faultList = if u.attempts + 1 < 4 then s.faultList else s.faultList ++ [v]
  drainCount : t.drainCount = if u.attempts + 1 < 4 then s.drainCount else s.drainCount - 1
  flag : 4 ≤ u.attempts + 1 → (t.event Event.unitFault.code).flag = true
  quiet : s.flushOrder = [] ∨ u.attempts + 1 < 4 → t.flushes = s.flushes ∧ t.links = s.links
  sorted : Table.sorted s.units = true → Table.sorted t.units = true
  frame : FaultFrame { s with lanes := t.lanes } t

/-- A Unit Fail is the failure of the unit, then what its reason does to the lane, then the evaluation of SAFE
(R127, R128). -/
theorem failUnit_spec (g v : Nat) (u : UnitRecord) (s : State) : ∃ q, Failed s q g v u ∧
    failUnit g v u .retry s = evalSafe q ∧
    failUnit g v u .laneFault s = evalSafe (setEvent .laneDown (leaveUp g .down q)) := by
  obtain ⟨a, ha, h1, h2, h3, h4⟩ : ∃ a, a = (lowerInFlight g s).setUnit v
      { u with state := .staged, lane := none, attempts := u.attempts + 1 } ∧
      (∀ j, a.unit? j = if v = j then some
        { u with state := .staged, lane := none, attempts := u.attempts + 1 } else s.unit? j) ∧
      (∀ j, a.lane j =
        if g = j then { s.lane g with inFlight := (s.lane g).inFlight - 1 } else s.lane j) ∧
      (a.units = Table.insert s.units v
        { u with state := .staged, lane := none, attempts := u.attempts + 1 } ∧
      a.faultList = s.faultList ∧ a.drainCount = s.drainCount ∧ a.flushes = s.flushes ∧
        a.flushOrder = s.flushOrder ∧ a.links = s.links) ∧
      FaultFrame { s with lanes := a.lanes } a :=
    ⟨_, rfl, fun j => State.unit?_setUnit _ _ _ _, fun j => State.lane_setLane _ _ _ _,
      ⟨rfl, rfl, rfl, rfl, rfl, rfl⟩, rfl⟩
  obtain ⟨h5, h6, h7, h8, h9, h10⟩ := h3
  have hs : Table.sorted s.units = true → Table.sorted a.units = true := by
    intro h; rw [h5]; exact Table.sorted_insert _ _ h
  by_cases h : u.attempts + 1 < 4
  · refine ⟨a, ⟨?_, fun j hj => (h1 j).trans (if_neg (Ne.symm hj)), h2, h6.trans (if_pos h).symm,
      h7.trans (if_pos h).symm, fun hc => absurd h (Nat.not_lt.2 hc), fun _ => ⟨h8, h10⟩, hs, h4⟩, ?_, ?_⟩
    · rw [h1, if_pos rfl, if_pos h]
    all_goals
      rw [ha]
      unfold failUnit
      dsimp only
      rw [if_pos (show u.attempts + 1 < Config.attemptLimit from h)]
  · have F := faultUnit_spec ((h1 v).trans (if_pos rfl))
    have hf : ∀ j, (faultUnit v a).unit? j = if v = j then some
        { u with state := .faulted, lane := none, attempts := u.attempts + 1 } else a.unit? j := by
      intro j; unfold State.unit?; rw [F.units, Table.find?_insert]
    have hfr := F.frame
    refine ⟨faultUnit v a, ⟨?_, fun j hj => ?_, fun j => ?_, ?_, ?_, fun _ => F.flag, fun hc => ?_, fun h0 => ?_, ?_⟩, ?_, ?_⟩
    · rw [hf, if_pos rfl, if_neg h]
    · rw [hf, if_neg (Ne.symm hj), h1, if_neg (Ne.symm hj)]
    · rw [← h2]; exact congrArg (Table.getD Lane.reset · j) (congrArg State.lanes hfr :)
    · rw [F.faultList, h6, if_neg h]
    · rw [F.drainCount, h7, if_neg h]
    · obtain ⟨q1, q2⟩ := F.quiet (h9.trans (hc.resolve_right h))
      exact ⟨q1.trans h8, q2.trans h10⟩
    · rw [F.units]; exact Table.sorted_insert _ _ (hs h0)
    · have e1 : (faultUnit v a).lanes = a.lanes := (congrArg State.lanes hfr :)
      rw [e1]
      have e2 := congrArg (fun t : State => { t with
        units := s.units, faultList := s.faultList, drainCount := s.drainCount, events := s.events,
        alert := s.alert, flushes := s.flushes, flushOrder := s.flushOrder, links := s.links }) hfr
      exact (e2 :).trans h4
    all_goals
      rw [ha]
      unfold failUnit
      dsimp only
      rw [if_neg (show ¬ u.attempts + 1 < Config.attemptLimit from h)]

end Sys2Proof.Machine
end

