-- ==== Sys2Proof/Laws/PowerFail.lean ====
section
/-! SUPPORT. The entry to POWER_FAIL, taken apart into its acts (R156). -/

namespace Sys2Proof.Machine

/-- The part state, the record of the entry and the flag: the first acts of the entry to POWER_FAIL (R156). -/
def powerFailStart (s : State) : State :=
  setEvent .powerFail
    { s with
      part := .powerFail, scrubbing := false,
      nextVisit := if s.part = .running then s.nextVisit else firstVisit s,
      entryState := some s.part, entryTime := some s.now }

/-- The states the entry to POWER_FAIL goes through: grants have lapsed, entries have been refused, OPEN units
have been staged (R156). -/
structure PowerFailActs (s t : State) : Prop where
  acts : ∃ s1 s2 s3, GrantsLapse (powerFailStart s) s1 s.grants ∧ s1.grants = [] ∧
    EntriesRefused s1 s2 .powerFail s.waiting ∧
    s3 = stageAll .powerFail (openUnits s) (s2.setWaiting []) ∧ t = evalSafe s3

theorem powerFailStart_same (s : State) :
    (powerFailStart s).grants = s.grants ∧ (powerFailStart s).waiting = s.waiting ∧
      (powerFailStart s).units = s.units ∧ (powerFailStart s).accounts = s.accounts ∧
      (powerFailStart s).sets = s.sets ∧ (powerFailStart s).streams = s.streams ∧
      (powerFailStart s).free = s.free ∧ (powerFailStart s).links = s.links ∧
      (powerFailStart s).captures = s.captures ∧ (powerFailStart s).refusals = s.refusals ∧
      (powerFailStart s).stagedCounter = s.stagedCounter := ⟨rfl, rfl, rfl, rfl, rfl, rfl, rfl, rfl, rfl, rfl, rfl⟩

theorem enterPowerFail_acts (s : State) : PowerFailActs s (enterPowerFail s) := by
  have h0 : enterPowerFail s =
      evalSafe (stageAll .powerFail (openUnits (powerFailAdmission (powerFailStart s)))
        (powerFailAdmission (powerFailStart s))) := rfl
  rw [h0]
  obtain ⟨hg, hw, hu, -⟩ := powerFailStart_same s
  obtain ⟨q, hq⟩ : ∃ q, q = powerFailStart s := ⟨_, rfl⟩
  rw [← hq] at hg hw hu ⊢
  have L := lapseGrants_effect (fun _ => true) q
  have ha := grants_lapseAll q
  have hdef : powerFailAdmission q =
      ((lapseGrants (fun _ => true) q).waiting.foldl (fun s e => refuseEntry e .powerFail s)
        (lapseGrants (fun _ => true) q)).setWaiting [] := rfl
  rw [hdef]
  generalize lapseGrants (fun _ => true) q = s1 at L ha ⊢
  have hw1 : s1.waiting = s.waiting := (congrArg State.waiting L.rest :).trans hw
  have hu1 : s1.units = s.units := (congrArg State.units L.rest :).trans hu
  rw [hw1]
  have R := refusals_effect .powerFail s.waiting s1
  generalize s.waiting.foldl (fun s e => refuseEntry e .powerFail s) s1 = s2 at R ⊢
  have hu2 : s2.units = s.units := (congrArg State.units R.rest :).trans hu1
  have ho : openUnits (s2.setWaiting []) = openUnits s := by
    unfold openUnits
    show List.map _ (List.filter _ s2.units) = _
    rw [hu2]
  rw [ho]
  refine ⟨s1, s2, _, ?_, ha, R, rfl, rfl⟩
  have hl : (q.grants.filter fun _ => true) = s.grants := by rw [List.filter_true, hg]
  rw [hl, hq] at L
  exact L

/-- The staging of a group of units writes the unit and stream records and the staged counter (R93). -/
theorem stageAll_frame (c : CloseCause) (vs : List Nat) (s : State) :
    { stageAll c vs s with
      units := s.units, streams := s.streams, stagedCounter := s.stagedCounter } = s :=
  fold_keeps
    (I := fun t => { t with
      units := s.units, streams := s.streams, stagedCounter := s.stagedCounter } = s)
    (fun s v => stageUnit c v s)
    (fun t v h => (congrArg (fun y : State => ({ y with
      units := s.units, streams := s.streams, stagedCounter := s.stagedCounter } : State))
      (stageUnit_frame c v t)).trans h) vs rfl

/-- The records the entry to POWER_FAIL may write: all others stay (R156). -/
theorem enterPowerFail_frame (s : State) :
    { enterPowerFail s with
      part := s.part, scrubbing := s.scrubbing, nextVisit := s.nextVisit, entryState := s.entryState,
      entryTime := s.entryTime, safe := s.safe, events := s.events, alert := s.alert, units := s.units,
      streams := s.streams, stagedCounter := s.stagedCounter, waiting := s.waiting,
      accounts := s.accounts, captures := s.captures, refusals := s.refusals, links := s.links,
      free := s.free, sets := s.sets, grants := s.grants } = s := by
  obtain ⟨⟨s1, s2, s3, L, -, R, h3, ht⟩⟩ := enterPowerFail_acts s
  let reset : State → State := fun y =>
    { y with
      part := s.part, scrubbing := s.scrubbing, nextVisit := s.nextVisit, entryState := s.entryState,
      entryTime := s.entryTime, safe := s.safe, events := s.events, alert := s.alert, units := s.units,
      streams := s.streams, stagedCounter := s.stagedCounter, waiting := s.waiting,
      accounts := s.accounts, captures := s.captures, refusals := s.refusals, links := s.links,
      free := s.free, sets := s.sets, grants := s.grants }
  show reset (enterPowerFail s) = s
  have e1 : reset (enterPowerFail s) = reset s3 := by
    rw [ht]; exact (congrArg reset (evalSafe_frame s3) :)
  have e2 : reset s3 = reset s2 := by
    rw [h3]
    exact (congrArg reset (stageAll_frame .powerFail (openUnits s) (s2.setWaiting [])) :)
  have e3 : reset s2 = reset s1 := (congrArg reset R.rest :)
  have e4 : reset s1 = reset (powerFailStart s) := (congrArg reset L.rest :)
  rw [e1, e2, e3, e4]
  rfl

/-- What the entry to POWER_FAIL sets outright, and what it does with the wheel (R156, R104). -/
theorem enterPowerFail_sets (s : State) :
    (enterPowerFail s).part = .powerFail ∧ (enterPowerFail s).scrubbing = false ∧
      (enterPowerFail s).entryState = some s.part ∧ (enterPowerFail s).entryTime = some s.now ∧
      (enterPowerFail s).nextVisit = (if s.part = .running then s.nextVisit else firstVisit s) ∧
      (enterPowerFail s).safe = (s.drainCount == 0) ∧ (enterPowerFail s).waiting = [] ∧
      (enterPowerFail s).grants = [] ∧ ((enterPowerFail s).event Event.powerFail.code).flag = true := by
  obtain ⟨⟨s1, s2, s3, L, hg, R, h3, ht⟩⟩ := enterPowerFail_acts s
  have E := evalSafe_frame s3
  have G := stageAll_frame .powerFail (openUnits s) (s2.setWaiting [])
  rw [← h3] at G
  rw [ht]
  have hf0 : ((powerFailStart s).event Event.powerFail.code).flag = true := by
    unfold powerFailStart; rw [event_setEvent_same]
  have hpart : s3.part = .powerFail :=
    (congrArg State.part G :).trans ((congrArg State.part R.rest :).trans (congrArg State.part L.rest :))
  have hdrain : s3.drainCount = s.drainCount :=
    (congrArg State.drainCount G :).trans
      ((congrArg State.drainCount R.rest :).trans (congrArg State.drainCount L.rest :))
  have hevents : s3.events = s1.events :=
    (congrArg State.events G :).trans (congrArg State.events R.rest :)
  refine ⟨?_, ?_, ?_, ?_, ?_, ?_, ?_, ?_, ?_⟩
  · exact (congrArg State.part E :).trans hpart
  · exact (congrArg State.scrubbing E :).trans ((congrArg State.scrubbing G :).trans
      ((congrArg State.scrubbing R.rest :).trans (congrArg State.scrubbing L.rest :)))
  · exact (congrArg State.entryState E :).trans ((congrArg State.entryState G :).trans
      ((congrArg State.entryState R.rest :).trans (congrArg State.entryState L.rest :)))
  · exact (congrArg State.entryTime E :).trans ((congrArg State.entryTime G :).trans
      ((congrArg State.entryTime R.rest :).trans (congrArg State.entryTime L.rest :)))
  · exact (congrArg State.nextVisit E :).trans ((congrArg State.nextVisit G :).trans
      ((congrArg State.nextVisit R.rest :).trans (congrArg State.nextVisit L.rest :)))
  · rw [evalSafe_safe]
    unfold safeLevel
    rw [hpart, hdrain]
    rfl
  · exact (congrArg State.waiting E :).trans (congrArg State.waiting G :)
  · exact (congrArg State.grants E :).trans ((congrArg State.grants G :).trans
      ((congrArg State.grants R.rest :).trans hg))
  · refine flag_setEventIf _ _ _ _ ?_
    show (Table.getD EventRecord.reset s3.events Event.powerFail.code).flag = true
    rw [hevents]
    exact L.flags _ hf0

/-- What the entry to POWER_FAIL returns and refuses (R51, R37). -/
structure PowerFailReturns (s t : State) : Prop where
  free : t.free = s.free + (s.grants.map (·.2.n)).sum
  account : ∀ a, t.account a =
    { s.account a with
      used := (s.account a).used - framesOn a s.grants,
      heldCount := (s.account a).heldCount - s.waiting.countP fun e => e.account == a }
  set : ∀ x, t.indexSet x = { s.indexSet x with reserved := (s.indexSet x).reserved - waysIn x s.grants }
  records : ∀ k, (t.stream k).reserved = (s.stream k).reserved - recordsOf k s.grants
  lapsed : s.grants ≠ [] → (t.event Event.grantLapse.code).flag = true
  captures : s.captures.length ≤ 8 →
    t.captures = (s.captures ++ s.waiting.map fun e => e.captureOf .powerFail).drop
      (s.captures.length + s.waiting.length - 8)
  refusals : s.refusals ≤ Config.maxCount32 →
    t.refusals = min (s.refusals + s.waiting.length) Config.maxCount32
  links : ∀ l, (s.link l).up = true → LinkBounds l (s.link l) →
    (t.link l).leaving = (s.link l).leaving ++
      (s.waiting.filter fun e => e.link == l).map fun e => .intentRefused e.tag .powerFail
  staged : Table.sorted s.units = true → s.stagedCounter < Config.stagedModulus →
    ∃ r, r.units = s.units ∧ r.stagedCounter = s.stagedCounter ∧
      ∃ r', GroupStaged r r' .powerFail (openUnits s) ∧ t.units = r'.units ∧ t.streams = r'.streams
  vacant : ∀ v, s.unit? v = none → t.unit? v = none

theorem enterPowerFail_returns (s : State) : PowerFailReturns s (enterPowerFail s) := by
  obtain ⟨⟨s1, s2, s3, L, hg, R, h3, ht⟩⟩ := enterPowerFail_acts s
  have E := evalSafe_frame s3
  have G := stageAll_frame .powerFail (openUnits s) (s2.setWaiting [])
  rw [← h3] at G
  rw [ht]
  have l1 : ∀ l, s1.link l = s.link l := fun l =>
    congrArg (Table.getD Link.reset · l) (congrArg State.links L.rest :)
  have l3 : ∀ l, (evalSafe s3).link l = s2.link l := fun l =>
    congrArg (Table.getD Link.reset · l) ((congrArg State.links E :).trans (congrArg State.links G :))
  have hu2 : s2.units = s.units := (congrArg State.units R.rest :).trans (congrArg State.units L.rest :)
  have hc2 : s2.stagedCounter = s.stagedCounter :=
    (congrArg State.stagedCounter R.rest :).trans (congrArg State.stagedCounter L.rest :)
  refine ⟨?_, fun a => ?_, fun x => ?_, fun k => ?_, fun h => ?_, fun h => ?_, fun h => ?_, fun l hu hb => ?_,
    fun hs hc => ?_, fun v h => ?_⟩
  · exact (congrArg State.free E :).trans ((congrArg State.free G :).trans
      ((congrArg State.free R.rest :).trans L.free))
  · refine (congrArg (Table.getD Account.reset · a)
      ((congrArg State.accounts E :).trans (congrArg State.accounts G :))).trans ?_
    refine (R.account a).trans ?_
    rw [L.account a]
    rfl
  · refine (congrArg (Table.getD IndexSet.reset · x) ((congrArg State.sets E :).trans
      ((congrArg State.sets G :).trans (congrArg State.sets R.rest :)))).trans ?_
    exact (L.set x).trans rfl
  · have e1 : ((evalSafe s3).stream k).reserved = (s3.stream k).reserved :=
      congrArg (fun q => (Table.getD Stream.reset q k).reserved) (congrArg State.streams E :)
    have e2 : (s3.stream k).reserved = (s2.stream k).reserved := by
      rw [h3]
      exact fold_keeps (I := fun t => (t.stream k).reserved = (s2.stream k).reserved)
        (fun s v => stageUnit .powerFail v s)
        (fun t v h => by
          refine Eq.trans ?_ h
          unfold stageUnit
          split
          · split
            · show ((State.setStream _ _ _).stream k).reserved = _
              rw [State.stream_setStream]
              split
              · rename_i hk; rw [hk]
              · rfl
            · rfl
          · rfl) _ rfl
    have e3 : s2.stream k = s1.stream k :=
      congrArg (Table.getD Stream.reset · k) (congrArg State.streams R.rest :)
    rw [e1, e2, e3, L.stream k]
    rfl
  · refine flag_setEventIf _ _ _ _ ?_
    have hev : s3.events = s1.events := (congrArg State.events G :).trans (congrArg State.events R.rest :)
    show (Table.getD EventRecord.reset s3.events _).flag = true
    rw [hev]
    exact L.set_flag h
  · have hc1 : s1.captures = s.captures := (congrArg State.captures L.rest :)
    have := R.captures (by rw [hc1]; exact h)
    rw [hc1] at this
    exact (congrArg State.captures E :).trans ((congrArg State.captures G :).trans this)
  · have hc1 : s1.refusals = s.refusals := (congrArg State.refusals L.rest :)
    have := R.refusals (by rw [hc1]; exact h)
    rw [hc1] at this
    exact (congrArg State.refusals E :).trans ((congrArg State.refusals G :).trans this)
  · rw [l3]
    have := (R.links l (by rw [l1]; exact hu) (by rw [l1]; exact hb)).1
    rw [l1] at this
    exact this
  · have hu : (s2.setWaiting []).units = s.units := hu2
    refine ⟨s2.setWaiting [], hu, hc2, s3, ?_, (congrArg State.units E :), (congrArg State.streams E :)⟩
    rw [h3]
    refine stageAll_effect .powerFail (openUnits s) (s2.setWaiting []) (openUnits_nodup hs) ?_ ?_
    · intro v hv
      obtain ⟨u, h1, h2⟩ := (mem_openUnits_iff hs v).1 hv
      exact ⟨u, (congrArg (Table.find? · v) hu).trans h1, h2⟩
    · exact lt_of_eq_of_lt hc2 hc
  · show Table.find? (evalSafe s3).units v = none
    rw [(congrArg State.units E :), h3]
    refine fold_keeps (I := fun t => t.unit? v = none) (fun s v => stageUnit .powerFail v s)
      (fun t w h => ?_) _ ((congrArg (Table.find? · v) hu2).trans h)
    rw [unit?_stageUnit, h]
    split <;> rfl

end Sys2Proof.Machine
end

