-- ==== Sys2Proof/Laws/Flushes.lean ====
section
/-! SUPPORT. Flushes: what is counted, what the end of a flush entry does, and which units a group that is
staged leaves as they were (R147 to R153). -/

namespace Sys2Proof.Machine

/-! ### What a flush counts -/

theorem flushCounts_eq (s : State) (c : Scope) (h : Nat) :
    flushCounts s c h = s.frames.countP (fun p =>
      p.2.record.cls == .host && inScope c p.2.record.account && decide (p.2.record.firstSeq ≤ h) &&
        (s.unit? p.2.record.unit).any (fun u => u.state == .opened || u.state == .staged ||
          u.state == .offered || u.state == .inFlight)) := by
  unfold flushCounts
  rw [← List.countP_eq_length_filter]
  refine List.countP_congr fun p _ => ?_
  have hu : ∀ o : Option UnitRecord, o.any (fun u => u.state.counted) =
      o.any (fun u => u.state == .opened || u.state == .staged || u.state == .offered ||
        u.state == .inFlight) := by
    intro o
    cases o with
    | none => rfl
    | some u => cases h : u.state <;> simp [h, UnitState.counted]
  rw [hu]
  cases c <;> exact Iff.rfl

theorem flushCountsIn_eq (s : State) (c : Scope) (h v : Nat) :
    flushCountsIn s c h v = s.frames.countP (fun p =>
      p.2.record.cls == .host && inScope c p.2.record.account && decide (p.2.record.firstSeq ≤ h) &&
        p.2.record.unit == v) := by
  unfold flushCountsIn
  rw [← List.countP_eq_length_filter]
  refine List.countP_congr fun p _ => ?_
  cases c <;> exact Iff.rfl

theorem mem_flushUnits_iff {s : State} (hs : Table.sorted s.units = true) (c : Scope) (h v : Nat) :
    v ∈ flushUnits s c h ↔
      (∃ u, s.unit? v = some u ∧ u.state = .opened) ∧ 0 < flushCountsIn s c h v := by
  unfold flushUnits
  rw [List.mem_filter, mem_openUnits_iff hs, decide_eq_true_eq]

/-! ### The end of an entry -/

/-- What placing a row of messages for link 0 does. -/
structure RowPlaced (s t : State) (ms : List OutMessage) : Prop where
  leaving : (s.link 0).up = true → LinkBounds 0 (s.link 0) →
    (t.link 0).leaving = (s.link 0).leaving ++ ms
  queue : ∀ c, (t.link 0).queue c = (s.link 0).queue c
  links : ∀ l, l ≠ 0 → t.link l = s.link l
  rest : { t with links := s.links } = s

theorem queue_place (m : OutMessage) (s : State) (c : Channel) :
    ((place 0 m s).link 0).queue c = (s.link 0).queue c := by
  rw [link_place]
  split
  · split <;> cases c <;> rfl
  · rfl

theorem placeRow_effect {α : Type} (f : α → OutMessage) (ts : List α) (s : State) :
    RowPlaced s (ts.foldl (fun s t => place 0 (f t) s) s) (ts.map f) := by
  induction ts generalizing s with
  | nil => exact ⟨fun _ _ => (List.append_nil _).symm, fun _ => rfl, fun _ _ => rfl, rfl⟩
  | cons a ts ih =>
    rw [List.foldl_cons]
    have P := place_frame 0 (f a) s
    have hq := queue_place (f a) s
    have hl := fun h1 h2 => leaving_place (s := s) (l := 0) (f a) h1 h2
    generalize place 0 (f a) s = q at P hq hl
    obtain ⟨a1, a2, a3, a4⟩ := ih q
    refine ⟨fun h1 h2 => ?_, fun c => (a2 c).trans (hq c), fun l hl => (a3 l hl).trans (P.links l hl), ?_⟩
    · obtain ⟨b1, b2, b3⟩ := hl h1 h2
      rw [a1 b2 b3, b1, List.map_cons, List.append_assoc]
      rfl
    · exact (congrArg (fun y : State => ({ y with links := s.links } : State)) a4 :).trans P.rest

/-- What the end of an ACTIVE entry does (R152, R153). -/
theorem endFlush_effect {s : State} {e : Nat} {q : FlushEntry} (ok : Bool) :
    FlushEnds s (endFlush ok e q s) e q ok ∧ (endFlush ok e q s).events = s.events := by
  obtain ⟨h1, h2, h3, h4⟩ := placeRow_effect (fun t => OutMessage.flushDone t ok) q.tags s
  have hdef : endFlush ok e q s = callRetake 0 .intent 3
      { q.tags.foldl (fun s t => place 0 (.flushDone t ok) s) s with
        flushes := Table.erase s.flushes e, flushOrder := s.flushOrder.filter (· ≠ e) } := by
    have hf := (congrArg State.flushes h4 :)
    have ho := (congrArg State.flushOrder h4 :)
    unfold endFlush callFlushRetake
    dsimp only at hf ho ⊢
    rw [hf, ho]
  rw [hdef]
  clear hdef
  generalize q.tags.foldl (fun s t => place 0 (.flushDone t ok) s) s = r at h1 h2 h3 h4
  obtain ⟨x, hx⟩ : ∃ x : State, x = { r with
      flushes := Table.erase s.flushes e, flushOrder := s.flushOrder.filter (· ≠ e) } := ⟨_, rfl⟩
  have hxl : ∀ l, x.link l = r.link l := by subst hx; exact fun _ => rfl
  have hxf : x.flushes = Table.erase s.flushes e := by subst hx; rfl
  have hxo : x.flushOrder = s.flushOrder.filter (· ≠ e) := by subst hx; rfl
  have hxe : x.events = s.events := by subst hx; exact (congrArg State.events h4 :)
  have hxr : { x with
      flushes := s.flushes, flushOrder := s.flushOrder, links := s.links, events := s.events,
      alert := s.alert } = s := by
    subst hx
    exact (congrArg (fun y : State => ({ y with
      flushes := s.flushes, flushOrder := s.flushOrder, events := s.events, alert := s.alert } : State)) h4 :)
  rw [← hx]
  have R := callRetake_frame 0 .intent 3 x
  have hs := sameSide_callRetake 0 0 .intent 3 x
  have hagain : ∀ m, ((x.link 0).queue .intent).stalled = true →
      ((x.link 0).queue .intent).messages.head? = some m → m.kind = 3 →
      (((callRetake 0 .intent 3 x).link 0).queue .intent).retake = true := by
    intro m a b c
    unfold callRetake
    dsimp only
    rw [if_pos (by rw [a, b]; simp [c]), State.link_setLink_same, Link.queue_setQueue, if_pos rfl]
  generalize callRetake 0 .intent 3 x = t at R hs hagain
  have hfl : t.flushes = x.flushes := (congrArg State.flushes R.rest :)
  have hfi : ∀ i, t.flush? i = Table.find? (Table.erase s.flushes e) i := fun i => by
    rw [← hxf, ← hfl]; rfl
  refine ⟨⟨?_, fun i hi => ?_, ?_, fun hu hb => ?_, fun m a b c => ?_, fun l hl => ?_, ?_⟩, ?_⟩
  · rw [hfi, Table.find?_erase, if_pos rfl]
  · rw [hfi, Table.find?_erase, if_neg (Ne.symm hi)]; rfl
  · exact ((congrArg State.flushOrder R.rest :) : t.flushOrder = x.flushOrder).trans hxo
  · have := h1 hu hb
    rw [← hxl, ← hs.leaving] at this
    exact this
  · refine hagain m ?_ ?_ c
    · rw [hxl, h2]; exact a
    · rw [hxl, h2]; exact b
  · rw [R.links l hl, hxl, h3 l hl]
  · exact (congrArg (fun y : State => ({ y with
      flushes := s.flushes, flushOrder := s.flushOrder, links := s.links, events := s.events,
      alert := s.alert } : State)) R.rest :).trans hxr
  · exact ((congrArg State.events R.rest :) : t.events = x.events).trans hxe

/-! ### The acts in which entries end and are raised -/

/-- What a Unit Done writes before the flush entries act (R125). -/
def doneStart (g v : Nat) (u : UnitRecord) (p : Opaque40) (s : State) : State :=
  let s := s.setUnit v { u with state := .releasing, handle := some p }
  let s := lowerInFlight g s
  let s := s.setReportQueue (s.reportQueue ++ [{ unit := v, issued := false }])
  s.setStream (unitStream v)
    { s.stream (unitStream v) with unitsCompleted := (s.stream (unitStream v)).unitsCompleted + 1 }

/-- A Unit Done ends entries on a state with the frames, the entries and the links of the one it is taken in
(R125, R151). -/
theorem completeUnit_flush (g v : Nat) (u : UnitRecord) (p : Opaque40) (s : State) :
    ∃ r, completeUnit g v u p s =
      evalSafe ((flushesAtDone v r).setDrainCount ((flushesAtDone v r).drainCount - 1)) ∧
    r.frames = s.frames ∧ r.flushes = s.flushes ∧ r.flushOrder = s.flushOrder ∧ r.links = s.links :=
  ⟨doneStart g v u p s, by unfold completeUnit; dsimp only; unfold doneStart; dsimp only,
    by unfold doneStart lowerInFlight; simp, by unfold doneStart lowerInFlight; simp,
    by unfold doneStart lowerInFlight; simp, by unfold doneStart lowerInFlight; simp⟩

/-- So does a unit's fault (R129, R153). -/
theorem faultUnit_flush (v : Nat) (s : State) :
    ∃ r, faultUnit v s =
      (flushesAtFault v r).setDrainCount ((flushesAtFault v r).drainCount - 1) ∧
    r.frames = s.frames ∧ r.flushes = s.flushes ∧ r.flushOrder = s.flushOrder ∧ r.links = s.links := by
  have h : ∀ f, (s.modifyUnit v f).frames = s.frames ∧ (s.modifyUnit v f).flushes = s.flushes ∧
      (s.modifyUnit v f).flushOrder = s.flushOrder ∧ (s.modifyUnit v f).links = s.links := by
    intro f
    unfold State.modifyUnit
    split <;> exact ⟨rfl, rfl, rfl, rfl⟩
  exact ⟨_, rfl, h _⟩

/-- A Unit Restage raises entries in the same way (R131, R151). -/
theorem restageFaulted_flush (v : Nat) (u : UnitRecord) (s : State) :
    ∃ r, restageFaulted v u s =
      evalSafe ((flushesAtRestage v r).setDrainCount ((flushesAtRestage v r).drainCount + 1)) ∧
    r.frames = s.frames ∧ r.flushes = s.flushes ∧ r.flushOrder = s.flushOrder :=
  ⟨(s.setFaultList (s.faultList.filter (· ≠ v))).setUnit v { u with state := .staged, attempts := 0 },
    rfl, rfl, rfl, rfl⟩

/-! ### A group that is staged, in any state -/

/-- Staging a group stages its OPEN units and leaves every other unit as it was (R93, R99). -/
theorem stageAll_units (c : CloseCause) (vs : List Nat) (s : State) :
    (∀ v u, s.unit? v = some u → v ∈ vs → u.state = .opened → ∃ q, (stageAll c vs s).unit? v =
      some { u with state := .staged, cause := some c, deadline := none, stagedSeq := some q }) ∧
    (∀ v, v ∉ vs → (stageAll c vs s).unit? v = s.unit? v) ∧
    (∀ v u, s.unit? v = some u → u.state ≠ .opened → (stageAll c vs s).unit? v = some u) := by
  unfold stageAll
  induction vs generalizing s with
  | nil => exact ⟨fun _ _ _ h => (by cases h), fun _ _ => rfl, fun _ _ h _ => h⟩
  | cons w vs ih =>
    obtain ⟨i1, i2, i3⟩ := ih (stageUnit c w s)
    have hw := fun v => unit?_stageUnit c w v s
    rw [List.foldl_cons]
    refine ⟨fun v u hu hv ho => ?_, fun v hv => ?_, fun v u hu ho => ?_⟩
    · by_cases hvw : w = v
      · subst hvw
        exact ⟨s.stagedCounter, i3 w _ (by rw [hw, if_pos rfl, hu]; simp [ho]) (fun c => by cases c)⟩
      · exact i1 v u (by rw [hw, if_neg hvw]; exact hu)
          (by rcases List.mem_cons.1 hv with h | h; exact absurd h.symm hvw; exact h) ho
    · rw [List.mem_cons, not_or] at hv
      rw [i2 v hv.2, hw, if_neg (Ne.symm hv.1)]
    · refine i3 v u ?_ ho
      rw [hw]
      split
      · rw [hu]; simp [ho]
      · exact hu

end Sys2Proof.Machine
end

