-- ==== Sys2Proof/Laws/Keeps.lean ====
section
/-! SUPPORT. A property that survives each single update of a record survives the acts of `Acts`, and so every
command: the short way to a step lemma for a property that speaks of few records. -/

namespace Sys2Proof.Machine

/-- A property of states that survives each single update the operations make. -/
structure Keeps (I : State → Prop) : Prop where
  rule : ∀ s r v, I s → I (s.setRule r v)
  tenant : ∀ s t v, I s → I (s.setTenant t v)
  trackers : ∀ s, I s → I (clearTrackers s)
  reclaimMap : ∀ s m, I s → I { s with reclaimMap := m }
  captured : ∀ s c, I s → I (capture c s)
  captures : ∀ s, I s → I { s with captures := [] }
  account : ∀ s a v, v.heldCount = (s.account a).heldCount → I s → I (s.setAccount a v)
  free : ∀ s n, I s → I (s.setFree n)
  grant : ∀ s g v, I s → I (s.setGrant g v)
  clearGrant : ∀ s g, I s → I (s.clearGrant g)
  fill : ∀ s f v, v.record.firstSeq = s.nextSeq → v.record.latestSeq = s.nextSeq → I s →
    I ((s.setFrame f v).setNextSeq (s.nextSeq + 1))
  overwrite : ∀ s f old v, s.frame? f = some old → v.record.firstSeq = old.record.firstSeq →
    v.record.latestSeq = s.nextSeq → I s → I ((s.setFrame f v).setNextSeq (s.nextSeq + 1))
  mark : ∀ s f old v, s.frame? f = some old → v.record.firstSeq = old.record.firstSeq →
    v.record.latestSeq = old.record.latestSeq → I s → I (s.setFrame f v)
  clearFrame : ∀ s f, I s → I (s.clearFrame f)
  setFreed : ∀ s f v, I s → I (s.setFreed f v)
  clearFreed : ∀ s f, I s → I (s.clearFreed f)
  errors : ∀ s c u, I s → I { s with corrected := c, uncorrectable := u }
  reserved : ∀ s x n, I s → I (s.setIndexSet x { s.indexSet x with reserved := n })
  wayInsert : ∀ s x w v n, I s →
    I (s.setIndexSet x { ways := Table.insert (s.indexSet x).ways w v, reserved := n })
  wayRemove : ∀ s x p, I s →
    I (s.setIndexSet x { s.indexSet x with ways := (s.indexSet x).ways.filter p })
  stream : ∀ s k v, I s → I (s.setStream k v)
  unit : ∀ s v u, I s → I (s.setUnit v u)
  clearUnit : ∀ s v, I s → I (s.clearUnit v)
  stagedCounter : ∀ s n, I s → I (s.setStagedCounter n)
  slot : ∀ s i v, I s → I (s.setSlot i v)
  lane : ∀ s g v, (LaneOk (s.lane g) → LaneOk v) → I s → I (s.setLane g v)
  faultList : ∀ s l, I s → I (s.setFaultList l)
  reports : ∀ s q n, I s → I { s with reportQueue := q, delivered := n }
  flush : ∀ s e v, I s → I (s.setFlush e v)
  flushOrder : ∀ s l, I s → I { s with flushOrder := l }
  dropFlush : ∀ s e l, I s → I { s with flushes := Table.erase s.flushes e, flushOrder := l }
  noFlushes : ∀ s, I s → I (vacateFlushes s)
  event : ∀ s e, I s → I (setEvent e s)
  place : ∀ s l m, I s → I (place l m s)
  takeHead : ∀ s l c, I s → I (takeHead l c s)
  stallHead : ∀ s l c, I s → I (stallHead l c s)
  callRetake : ∀ s l c k, I s → I (callRetake l c k s)

namespace Keeps

variable {I : State → Prop} (K : Keeps I) {s : State}

include K

theorem chargeFrames (a n : Nat) (h : I s) : I (chargeFrames a n s) :=
  K.free _ _ (K.account _ _ _ rfl h)

theorem returnFrames (a n : Nat) (h : I s) : I (returnFrames a n s) :=
  K.free _ _ (K.account _ _ _ rfl h)

theorem reserveWays (x c : Nat) (h : I s) : I (reserveWays x c s) := K.reserved _ _ _ h

theorem releaseWays (x c : Nat) (h : I s) : I (releaseWays x c s) := K.reserved _ _ _ h

theorem modifyUnit (v : Nat) (f : UnitRecord → UnitRecord) (h : I s) : I (s.modifyUnit v f) := by
  unfold State.modifyUnit; split
  · exact K.unit _ _ _ h
  · exact h

theorem stageUnit (c : CloseCause) (v : Nat) (h : I s) : I (stageUnit c v s) := by
  unfold Machine.stageUnit
  split
  · split
    · exact K.stagedCounter _ _ (K.stream _ _ _ (K.unit _ _ _ h))
    · exact h
  · exact h

theorem arrive (k v : Nat) (h : I s) : I (arrive k v s) := K.modifyUnit _ _ h

theorem appendFrame (k v f : Nat) (h : I s) : I (appendFrame k v f s) := by
  unfold Machine.appendFrame
  have h1 := K.arrive k v (K.stream _ k
    { (s.modifyUnit v fun u => { u with frames := u.frames ++ [f] }).stream k with
      slicesPlaced :=
        ((s.modifyUnit v fun u => { u with frames := u.frames ++ [f] }).stream k).slicesPlaced + 1 }
    (K.modifyUnit v (fun u => { u with frames := u.frames ++ [f] }) h))
  dsimp only
  split
  · exact K.stageUnit _ _ h1
  · exact h1

theorem restage (v : Nat) (h : I s) : I (restage v s) := K.modifyUnit _ _ h

theorem checkUnbound (k : Nat) (h : I s) : I (checkUnbound k s) := by
  unfold Machine.checkUnbound; dsimp only; split
  · exact K.stream _ _ _ h
  · exact h

theorem reserveSets (l : List (Nat × Nat)) (h : I s) : I (reserveSets l s) :=
  fold_keeps (fun s (p : Nat × Nat) => Machine.reserveWays p.1 p.2 s)
     (fun _ _ => K.reserveWays _ _) l h

theorem releaseSets (l : List (Nat × Nat)) (h : I s) : I (releaseSets l s) :=
  fold_keeps (fun s (p : Nat × Nat) => Machine.releaseWays p.1 p.2 s)
     (fun _ _ => K.releaseWays _ _) l h

theorem reserveRecords (k c : Nat) (h : I s) : I (reserveRecords k c s) := K.stream _ _ _ h

theorem releaseRecords (k c : Nat) (h : I s) : I (releaseRecords k c s) :=
  K.checkUnbound _ (K.stream _ _ _ h)

theorem grantRecords (g link tag a k : Nat) (key : Key) (n : Nat) (h : I s) :
    I (grantRecords g link tag a k key n s) :=
  K.grant _ _ _ (K.reserveRecords _ _ (K.reserveSets _ (K.chargeFrames _ _ h)))

theorem returnGrant (g : Nat) (v : Grant) (h : I s) : I (returnGrant g v s) :=
  K.releaseRecords _ _ (K.clearGrant _ _ (K.releaseSets _ (K.returnFrames _ _ h)))

theorem lapseGrant (g : Nat) (v : Grant) (h : I s) : I (lapseGrant g v s) :=
  K.event _ _ (K.returnGrant _ _ h)

theorem lapseGrants (p : Grant → Bool) (h : I s) : I (lapseGrants p s) :=
  fold_keeps (fun s (q : Nat × Grant) => Machine.lapseGrant q.1 q.2 s) (fun _ _ => K.lapseGrant _ _) _ h

theorem settleGrant (g : Nat) (v : Grant) (h : I s) : I (settleGrant g v s) :=
  K.releaseRecords _ _ (K.clearGrant _ _ h)

theorem fillFrame (w : SliceWrite) (f v : Nat) (h : I s) : I (fillFrame w f v s) :=
  K.appendFrame _ _ _ (K.fill _ _ _ rfl rfl (K.clearFreed _ f h))

theorem writeWay (x w : Nat) (v : Way) (h : I s) : I (writeWay x w v s) := K.wayInsert _ _ _ _ _ h

theorem placeInPlace (w : SliceWrite) (f : Nat) (v : Frame) (hf : s.frame? f = some v) (h : I s) :
    I (placeInPlace w f v s).2 := by
  unfold Machine.placeInPlace
  dsimp only
  exact K.arrive _ _ (K.stream _ _ _ (K.returnFrames _ _ (K.releaseWays _ _
    (K.overwrite _ _ v _ hf rfl rfl h))))

theorem placeDropped (w : SliceWrite) (h : I s) : I (placeDropped w s).2 :=
  K.returnFrames _ _ (K.releaseWays _ _ h)

theorem readFrame (f : Nat) (v : Frame) (r : ReadResult) (hf : s.frame? f = some v) (h : I s) :
    I (readFrame f v r s).2 := by
  unfold Machine.readFrame
  split
  · exact h
  · exact K.errors _ _ s.uncorrectable (K.mark _ f v _ hf rfl rfl h)
  · exact K.event _ _ (K.errors _ s.corrected _ (K.mark _ f v _ hf rfl rfl h))

theorem removeWay (x f : Nat) (h : I s) : I (removeWay x f s) := K.wayRemove _ _ _ h

theorem releaseFrame (f : Nat) (h : I s) : I (releaseFrame f s) := by
  unfold Machine.releaseFrame
  split
  · exact h
  · rename_i v _
    have h1 : I (if v.record.void = true then s
        else Machine.removeWay (indexHash v.record.key) f s) := by
      split
      · exact h
      · exact K.removeWay _ _ h
    exact K.returnFrames _ _ (K.setFreed _ _ _ (K.clearFrame _ _ h1))

theorem releaseFrames (fs : List Nat) (h : I s) : I (releaseFrames fs s) :=
  fold_keeps _ (fun _ f => K.releaseFrame f) fs h

theorem setReportQueue (q : List ReportItem) (h : I s) : I (s.setReportQueue q) :=
  K.reports _ _ s.delivered h

theorem markIssued (b : Bool) (v : Nat) (h : I s) : I (markIssued b v s) := K.setReportQueue _ h

theorem vacateUnit (v : Nat) (u : UnitRecord) (h : I s) : I (vacateUnit v u (leaveQueue v s)) :=
  K.clearUnit _ _ (K.releaseFrames _ (K.reports _ _ _ h))

theorem restart (v : Nat) (h : I s) : I (restart v s) := K.modifyUnit _ _ h

theorem withdrawOffer (v : Nat) (h : I s) : I (withdrawOffer v s) := by
  unfold Machine.withdrawOffer
  split
  · split
    · exact K.restage _ h
    · exact h
  · exact h

theorem leaveUp (g : Nat) (d : LaneState) (h : I s) : I (leaveUp g d s) := by
  unfold Machine.leaveUp
  have h1 : I (match (s.lane g).offer with
      | some o => Machine.withdrawOffer o.unit s
      | none => s) := by
    split
    · exact K.withdrawOffer _ h
    · exact h
  exact K.lane _ _ _ (fun _ _ => ⟨rfl, rfl⟩) (fold_keeps _ (fun _ v => K.restart v) _ h1)

theorem lowerInFlight (g : Nat) (h : I s) : I (lowerInFlight g s) :=
  K.lane _ _ _ (fun ok hup => ⟨(ok hup).1, by have := (ok hup).2; simp only at this ⊢; omega⟩) h

theorem discardFaulted (v : Nat) (u : UnitRecord) (h : I s) : I (discardFaulted v u s) :=
  K.setReportQueue _ (K.unit _ _ _ (K.faultList _ _ h))

theorem endLapsedOffer (g : Nat) (o : LaneOffer) (h : I s) : I (endLapsedOffer g o s) :=
  K.lane _ _ _ (fun ok hup => ⟨rfl, (ok hup).2⟩) (K.restage o.unit h)

theorem recordOffer (g v pos : Nat) (u : UnitRecord) (hr : laneReadyForOffer s g = true) (h : I s) :
    I (recordOffer g v pos u s) := by
  simp only [laneReadyForOffer, Bool.and_eq_true, beq_iff_eq] at hr
  exact K.lane _ _ _ (fun _ hn => absurd hr.1.1 hn) (K.unit _ _ _ h)

theorem acceptOffer (g v : Nat) (ho : holdsOffer s g v = true) (h : I s) : I (acceptOffer g v s) := by
  simp only [holdsOffer, Bool.and_eq_true, beq_iff_eq] at ho
  refine K.lane _ _ _ (fun _ hn => absurd ?_ hn) (K.modifyUnit _ _ h)
  unfold State.modifyUnit
  split <;> exact ho.1

theorem declineOffer (g v : Nat) (h : I s) : I (declineOffer g v s) :=
  K.lane _ _ _ (fun ok hup => ⟨rfl, (ok hup).2⟩) (K.restage _ h)

end Keeps

/-- A property that survives what the pending list and the links go through as well. -/
structure KeepsMore (I : State → Prop) : Prop extends Keeps I where
  join : ∀ s e, s.waiting.length < Config.pendingLimit → I s →
    I (raiseHeld e.account (s.setWaiting (s.waiting ++ [e])))
  walk : ∀ s, I s → I (retestWalk s)
  removeEntry : ∀ s e, e ∈ s.waiting → I s → I (removeEntry e s)
  removeLinkEntries : ∀ s l, I s → I (removeLinkEntries l s)
  powerFailAdmission : ∀ s, I s → I (powerFailAdmission s)
  emit : ∀ s l m, I s → I (emit l m s)
  cleared : ∀ s l, I s → I (s.setLink l
    { Link.reset with
      inSeq := (s.link l).inSeq, outSeq := (s.link l).outSeq, taken := (s.link l).taken,
      sent := (s.link l).sent, refused := (s.link l).refused,
      resets := satSucc (s.link l).resets, wire := (s.link l).wire })
  bringUp : ∀ s l, I s → I (bringUp l s)
  inSeq : ∀ s l n, I s → I (s.setLink l { s.link l with inSeq := n })
  refused : ∀ s l n, I s → I (s.setLink l { s.link l with refused := n })
  enqueue : ∀ s l c m, ((s.link l).queue c).messages.length < channelDepth l c → I s →
    I (enqueue l c m s)
  wheel : ∀ s p v, I s → I { s with wheelPos := p, nextVisit := v }
  settings : ∀ s c, I s → I { s with cfg := c }
  drain : ∀ s d v, I s → I (s.setDrain d v)
  clearEvents : ∀ s n, I s → I (clearEvents n s)
  maskEvents : ∀ s n, I s → I (maskEvents n s)

/-- What survives the single updates survives the acts. -/
theorem KeepsMore.acts {I : State → Prop} (K : KeepsMore I) : Acts I where
  rule := K.rule
  tenant := K.tenant
  trackers := K.trackers
  reclaimMap := K.reclaimMap
  captured := K.captured
  captures := K.captures
  event := K.event
  clearEvents := K.clearEvents
  maskEvents := K.maskEvents
  place := K.place
  takeHead := K.takeHead
  stallHead := K.stallHead
  callRetake := K.callRetake
  emit := K.emit
  cleared := K.cleared
  bringUp := K.bringUp
  inSeq := K.inSeq
  refused := K.refused
  enqueue := K.enqueue
  frozen _ _ _ h := K.account _ _ _ rfl h
  limits _ _ _ _ _ h := K.account _ _ _ rfl h
  granted _ _ _ _ _ _ _ _ _ _ _ h := K.toKeeps.grantRecords _ _ _ _ _ _ _ h
  returnGrant _ _ _ _ h := K.toKeeps.returnGrant _ _ h
  lapseGrants _ _ h := K.toKeeps.lapseGrants _ h
  join _ _ _ hl h := K.join _ _ hl h
  walk := K.walk
  removeEntry := K.removeEntry
  removeLinkEntries := K.removeLinkEntries
  powerFailAdmission := K.powerFailAdmission
  read _ _ _ _ hf h := K.toKeeps.readFrame _ _ _ hf h
  release _ _ _ _ _ h := K.toKeeps.vacateUnit _ _ h
  stream := K.stream
  stageUnit _ _ _ h := K.toKeeps.stageUnit _ _ h
  times _ _ _ _ h := K.toKeeps.modifyUnit _ _ h
  slot := K.slot
  wheel := K.wheel
  settings := K.settings
  drain := K.drain
  lane _ _ _ _ _ hl h := K.lane _ _ _ hl h
  leaveUp _ _ _ h := K.toKeeps.leaveUp _ _ h
  lapse _ _ _ _ h := K.toKeeps.endLapsedOffer _ _ h
  offer _ _ _ _ _ hr _ _ h := K.toKeeps.recordOffer _ _ _ _ hr h
  accept _ _ _ ho h := K.toKeeps.acceptOffer _ _ ho h
  decline _ _ _ _ h := K.toKeeps.declineOffer _ _ h
  discard _ _ _ _ _ h := K.toKeeps.discardFaulted _ _ h
  markIssued _ _ _ h := K.toKeeps.markIssued _ _ h
  flush := K.flush
  flushOrder := K.flushOrder
  dropFlush := K.dropFlush
  noFlushes := K.noFlushes

/-- A property that survives everything a command does but the full reset. -/
structure KeepsAll (I : State → Prop) : Prop extends KeepsMore I where
  drainCount : ∀ s n, I s → I (s.setDrainCount n)
  safe : ∀ s b, I s → I { s with safe := b }
  power : ∀ s ra pf p sc nv es et, I s →
    I { s with
      resetAsserted := ra, pfailAsserted := pf, part := p, scrubbing := sc, nextVisit := nv,
      entryState := es, entryTime := et }
  scrub : ∀ s n, I s → I (scrubTo n s)

namespace KeepsAll

variable {I : State → Prop} (K : KeepsAll I) {s t : State}

include K

theorem evalSafe (h : I s) : I (evalSafe s) := K.toKeepsMore.acts.setEventIf _ _ (K.safe _ _ h)

theorem openRecord (k r : Nat) (h : I s) : I (openRecord k r s) :=
  K.drainCount _ _ (K.stream _ _ _ (K.unit _ _ _ h))

theorem withOpenUnit {k v : Nat} (h : I s) (ht : withOpenUnit k s = some (v, t)) : I t := by
  unfold Machine.withOpenUnit at ht
  split at ht
  · cases ht; exact h
  · simp only [Option.map_eq_some_iff] at ht
    obtain ⟨r, _, hr⟩ := ht
    cases hr
    exact K.openRecord _ _ h

theorem placeNew {w : SliceWrite} {f : Nat} (h : I s) (ht : placeNew w s = .ok (f, t)) : I t := by
  unfold Machine.placeNew at ht
  split at ht
  · rename_i v s' hv
    cases ht
    exact K.toKeeps.fillFrame _ _ _ (K.withOpenUnit h hv)
  · cases ht
  · cases ht

theorem placeMiss {w : SliceWrite} {o : Placed} (h : I s) (ht : placeMiss w s = .ok (o, t)) :
    I t := by
  unfold Machine.placeMiss at ht
  dsimp only at ht
  split at ht
  · cases ht
  · split at ht
    · cases ht
    · rename_i hp
      cases ht
      exact K.toKeeps.writeWay _ _ _ (K.placeNew h hp)

theorem placeSupersede {w : SliceWrite} {i f : Nat} {v : Frame} {o : Placed}
    (hf : s.frame? f = some v) (h : I s) (ht : placeSupersede w i f v s = .ok (o, t)) : I t := by
  unfold Machine.placeSupersede at ht
  dsimp only at ht
  split at ht
  · cases ht
  · rename_i hp
    cases ht
    exact K.toKeeps.writeWay _ _ _ (K.placeNew (K.mark _ _ v { v with record := { v.record with void := true } } hf rfl rfl h) hp)

theorem placeSlice {w : SliceWrite} {o : Placed} (h : I s) (ht : placeSlice w s = .ok (o, t)) :
    I t := by
  unfold Machine.placeSlice at ht
  split at ht
  · exact K.placeMiss h ht
  · split at ht
    · exact K.placeMiss h ht
    · rename_i hf
      split at ht
      · have := congrArg (fun r => match r with | .ok p => p.2 | .error _ => s) ht
        simp only at this
        subst this
        exact K.toKeeps.placeInPlace _ _ _ hf h
      · split at ht
        · cases ht; exact K.toKeeps.placeDropped _ h
        · exact K.placeSupersede hf h ht

theorem placeSlices {ws : List SliceWrite} : ∀ {s t : State} {os : List Placed}, I s →
    placeSlices ws s = .ok (os, t) → I t := by
  induction ws with
  | nil => intro s t os h ht; cases ht; exact h
  | cons w ws ih =>
    intro s t os h ht
    simp only [Machine.placeSlices] at ht
    split at ht
    · cases ht
    · rename_i hp
      split at ht
      · cases ht
      · rename_i hq
        cases ht
        exact ih (K.placeSlice h hp) hq

theorem completeUnit (g v : Nat) (u : UnitRecord) (p : Opaque40) (h : I s) :
    I (completeUnit g v u p s) := by
  unfold Machine.completeUnit
  dsimp only
  have h1 := K.toKeeps.lowerInFlight g (K.unit s v { u with state := .releasing, handle := some p } h)
  revert h1
  generalize lowerInFlight g (s.setUnit v { u with state := .releasing, handle := some p }) = s1
  intro h1
  have h2 := K.toKeeps.setReportQueue (s1.reportQueue ++ [{ unit := v, issued := false }]) h1
  revert h2
  generalize s1.setReportQueue (s1.reportQueue ++ [{ unit := v, issued := false }]) = s2
  intro h2
  have h3 := K.toKeepsMore.acts.flushesAtDone v (K.stream s2 (unitStream v)
    { s2.stream (unitStream v) with
      unitsCompleted := (s2.stream (unitStream v)).unitsCompleted + 1 } h2)
  revert h3
  generalize flushesAtDone v (s2.setStream (unitStream v)
    { s2.stream (unitStream v) with
      unitsCompleted := (s2.stream (unitStream v)).unitsCompleted + 1 }) = s3
  intro h3
  exact K.evalSafe (K.drainCount _ _ h3)

theorem faultUnit (v : Nat) (h : I s) : I (faultUnit v s) :=
  K.drainCount _ _ (K.toKeepsMore.acts.flushesAtFault _ (K.event _ _ (K.faultList _ _
    (K.toKeeps.modifyUnit _ _ h))))

theorem failUnit (g v : Nat) (u : UnitRecord) (r : FailReason) (h : I s) :
    I (failUnit g v u r s) := by
  have step1 : ∀ s0, I s0 →
      I (if u.attempts + 1 < Config.attemptLimit then s0 else Machine.faultUnit v s0) := by
    intro s0 h0
    split
    · exact h0
    · exact K.faultUnit _ h0
  have step2 : ∀ s0, I s0 → I (match r with
      | .laneFault => setEvent .laneDown (leaveUp g .down s0)
      | .retry => s0) := by
    intro s0 h0
    split
    · exact K.event _ _ (K.toKeeps.leaveUp _ _ h0)
    · exact h0
  exact K.evalSafe (step2 _ (step1 _ (K.unit _ _ _ (K.toKeeps.lowerInFlight g h))))

theorem restageFaulted (v : Nat) (u : UnitRecord) (h : I s) : I (restageFaulted v u s) :=
  K.evalSafe (K.drainCount _ _ (K.toKeepsMore.acts.flushesAtRestage _ (K.unit _ _ _ (K.faultList _ _ h))))

/-- What survives the single updates survives the acts of every command. -/
theorem acts : ActsAll I where
  toActs := K.toKeepsMore.acts
  safe := K.safe
  power := K.power
  scrub := K.scrub
  settled _ _ _ _ _ _ _ _ hp h := K.toKeeps.settleGrant _ _ (K.placeSlices h hp)
  complete _ _ _ _ _ _ h := K.completeUnit _ _ _ _ h
  fail _ _ _ _ _ _ h := K.failUnit _ _ _ _ h
  restaged _ _ _ _ _ h := K.restageFaulted _ _ h

end KeepsAll

end Sys2Proof.Machine
end

