-- ==== Sys2Proof/Laws/Units.lean ====
section
/-! SUPPORT. The law of the units (R130, R135, R137, R158) survives every act. -/

namespace Sys2Proof.Machine

/-- The law of the units speaks of five records alone. -/
theorem UnitLaw.congr {s t : State} (h : UnitLaw s) (units : t.units = s.units)
    (lanes : t.lanes = s.lanes) (drainCount : t.drainCount = s.drainCount)
    (faultList : t.faultList = s.faultList)
    (reports : t.reportQueue.map (·.unit) = s.reportQueue.map (·.unit)) : UnitLaw t where
  sorted := by rw [units]; exact h.sorted
  drainCount := by rw [units, drainCount]; exact h.drainCount
  inFlight g := by unfold State.lane; rw [units, lanes]; exact h.inFlight g
  offers g o ho := by
    unfold State.lane at ho; rw [lanes] at ho
    unfold State.unit?; rw [units]; exact h.offers g o ho
  reportsOnce := by rw [reports]; exact h.reportsOnce
  reports v := by unfold State.unit?; rw [reports, units]; exact h.reports v
  faultsOnce := by rw [faultList]; exact h.faultsOnce
  faults v := by unfold State.unit?; rw [faultList, units]; exact h.faults v

theorem UnitLaw.same {s t : State} (h : UnitLaw s) (k : SameRecords s t) : UnitLaw t :=
  h.congr k.units k.lanes k.drainCount k.faultList (by rw [k.reportQueue])

/-- A lane record whose offer and in-flight count stay may be replaced. -/
theorem UnitLaw.setLane {s : State} (h : UnitLaw s) (g : Nat) (v : Lane)
    (h1 : v.offer = (s.lane g).offer) (h2 : v.inFlight = (s.lane g).inFlight) :
    UnitLaw (s.setLane g v) where
  sorted := h.sorted
  drainCount := h.drainCount
  inFlight j := by
    rw [State.lane_setLane]
    split
    · rename_i hj; subst hj; rw [h2]; exact h.inFlight _
    · exact h.inFlight j
  offers j o ho := by
    rw [State.lane_setLane] at ho
    split at ho
    · rename_i hj; subst hj; rw [h1] at ho; exact h.offers _ o ho
    · exact h.offers j o ho
  reportsOnce := h.reportsOnce
  reports := h.reports
  faultsOnce := h.faultsOnce
  faults := h.faults

/-- Two unit records weigh the same in the law of the units. -/
structure SameUnit (u u' : UnitRecord) : Prop where
  counted : u'.state.counted = u.state.counted
  inFlight : ∀ g, (u'.state == .inFlight && u'.lane == some g) =
    (u.state == .inFlight && u.lane == some g)
  offered : u.state = .offered → u'.state = .offered ∧ u'.lane = u.lane
  releasing : u'.state = .releasing ↔ u.state = .releasing
  faulted : u'.state = .faulted ↔ u.state = .faulted

/-- A unit record may be replaced by one that weighs the same. -/
theorem UnitLaw.setUnit {s : State} (h : UnitLaw s) {v : Nat} {u u' : UnitRecord}
    (hu : s.unit? v = some u) (hw : SameUnit u u') : UnitLaw (s.setUnit v u') where
  sorted := Table.sorted_insert _ _ h.sorted
  drainCount := by
    have := Table.countP_insert u' (fun p : Nat × UnitRecord => p.2.state.counted) h.sorted hu
    simp only [hw.counted] at this
    rw [show (s.setUnit v u').drainCount = s.drainCount from rfl, h.drainCount]
    exact (Nat.add_right_cancel this).symm
  inFlight g := by
    have := Table.countP_insert u'
      (fun p : Nat × UnitRecord => p.2.state == .inFlight && p.2.lane == some g) h.sorted hu
    simp only [hw.inFlight] at this
    rw [show (s.setUnit v u').lane g = s.lane g from rfl, h.inFlight]
    exact (Nat.add_right_cancel this).symm
  offers g o ho := by
    obtain ⟨w, hw1, hw2, hw3⟩ := h.offers g o ho
    rw [State.unit?_setUnit]
    split
    · rename_i hv; subst hv
      rw [hu] at hw1; cases hw1
      exact ⟨u', rfl, (hw.offered hw2).1, by rw [(hw.offered hw2).2]; exact hw3⟩
    · exact ⟨w, hw1, hw2, hw3⟩
  reportsOnce := h.reportsOnce
  reports w := by
    rw [State.unit?_setUnit]
    refine (h.reports w).trans ?_
    split
    · rename_i hv; subst hv
      rw [hu]; simp [hw.releasing]
    · rfl
  faultsOnce := h.faultsOnce
  faults w := by
    rw [State.unit?_setUnit]
    refine (h.faults w).trans ?_
    split
    · rename_i hv; subst hv
      rw [hu]; simp [hw.faulted]
    · rfl

theorem UnitLaw.times {s : State} (h : UnitLaw s) (v : Nat) (f : UnitRecord → UnitRecord)
    (hf : ∀ u : UnitRecord, (f u).state = u.state ∧ (f u).lane = u.lane) : UnitLaw (s.modifyUnit v f) := by
  unfold State.modifyUnit
  split
  · rename_i u hu
    exact h.setUnit hu
      ⟨by rw [(hf u).1], fun g => by rw [(hf u).1, (hf u).2], fun ho => by rw [(hf u).1, (hf u).2]; exact ⟨ho, rfl⟩,
        by rw [(hf u).1], by rw [(hf u).1]⟩
  · exact h

theorem UnitLaw.stageUnit {s : State} (h : UnitLaw s) (c : CloseCause) (v : Nat) :
    UnitLaw (stageUnit c v s) := by
  unfold Machine.stageUnit
  split
  · rename_i u hu
    split
    · rename_i ho
      exact (h.setUnit hu (u' := { u with
          state := .staged, cause := some c, deadline := none, stagedSeq := some s.stagedCounter })
        ⟨by rw [ho]; rfl, fun g => by rw [ho]; rfl, fun hc => (by rw [ho] at hc; cases hc),
          by rw [ho]; simp, by rw [ho]; simp⟩).congr rfl rfl rfl rfl rfl
    · exact h
  · exact h

/-! ### Offers and lanes -/

/-- Two lanes never hold offers of one unit. -/
theorem UnitLaw.offer_lane {s : State} (h : UnitLaw s) {g j : Nat} {o p : LaneOffer}
    (ho : (s.lane g).offer = some o) (hp : (s.lane j).offer = some p) (he : o.unit = p.unit) : g = j := by
  obtain ⟨u, hu, _, h1⟩ := h.offers g o ho
  obtain ⟨w, hw, _, h2⟩ := h.offers j p hp
  rw [he, hw] at hu; cases hu
  rw [h1] at h2; exact Option.some.inj h2

/-- An offer ends: its unit goes to a state other than OFFERED that is still in the drain count, on the lane
or on none, and the lane's count of units IN_FLIGHT follows. -/
theorem UnitLaw.endOffer {s : State} (h : UnitLaw s) {g : Nat} {o : LaneOffer} {u u' : UnitRecord} {k : Lane}
    (ho : (s.lane g).offer = some o) (hu : s.unit? o.unit = some u) (hk : k.offer = none)
    (hst : u'.state = .staged ∧ k.inFlight = (s.lane g).inFlight ∨
      u'.state = .inFlight ∧ u'.lane = some g ∧ k.inFlight = (s.lane g).inFlight + 1) :
    UnitLaw ((s.setUnit o.unit u').setLane g k) := by
  obtain ⟨w, hw, hoff, hlane⟩ := h.offers g o ho
  rw [hu] at hw; cases hw
  have hcount : u'.state.counted = true := by
    rcases hst with ⟨h1, _⟩ | ⟨h1, _⟩ <;> rw [h1] <;> rfl
  have hrel : u'.state ≠ .releasing ∧ u'.state ≠ .faulted := by
    rcases hst with ⟨h1, _⟩ | ⟨h1, _⟩ <;> rw [h1] <;> decide
  refine ⟨Table.sorted_insert _ _ h.sorted, ?_, ?_, ?_, h.reportsOnce, ?_, h.faultsOnce, ?_⟩
  · have := Table.countP_insert u' (fun p : Nat × UnitRecord => p.2.state.counted) h.sorted hu
    simp only [hcount, hoff, show UnitState.offered.counted = true from rfl, if_true] at this
    show s.drainCount = (Table.insert s.units o.unit u').countP _
    rw [h.drainCount]
    omega
  · intro j
    have := Table.countP_insert u'
      (fun p : Nat × UnitRecord => p.2.state == .inFlight && p.2.lane == some j) h.sorted hu
    have hl : ((s.setUnit o.unit u').setLane g k).lane j = if g = j then k else s.lane j :=
      State.lane_setLane _ _ _ _
    show (((s.setUnit o.unit u').setLane g k).lane j).inFlight = (Table.insert s.units o.unit u').countP _
    rw [hl]
    simp only [hoff] at this
    rw [← h.inFlight j] at this
    have e0 : (UnitState.offered == UnitState.inFlight && u.lane == some j) = false := rfl
    rw [e0] at this
    rcases hst with ⟨h1, h2⟩ | ⟨h1, h2, h3⟩
    · simp only [h1] at this
      have e1 : (UnitState.staged == UnitState.inFlight && u'.lane == some j) = false := rfl
      rw [e1] at this
      split
      · rename_i hj; subst hj; rw [h2]; simpa using this.symm
      · simpa using this.symm
    · simp only [h1, h2] at this
      split
      · rename_i hj; subst hj; rw [h3]; simpa using this.symm
      · rename_i hj
        have e1 : (UnitState.inFlight == UnitState.inFlight && some g == some j) = false := by
          simp [hj]
        rw [e1] at this
        simpa using this.symm
  · intro j p hp
    rw [State.lane_setLane] at hp
    split at hp
    · rw [hk] at hp; cases hp
    · rename_i hj
      have hp' : (s.lane j).offer = some p := hp
      obtain ⟨w, hw1, hw2, hw3⟩ := h.offers j p hp'
      refine ⟨w, ?_, hw2, hw3⟩
      show (s.setUnit o.unit u').unit? p.unit = some w
      rw [State.unit?_setUnit, if_neg]
      · exact hw1
      · intro he; exact hj (h.offer_lane ho hp' he)
  · intro w
    show _ ↔ ∃ u, (s.setUnit o.unit u').unit? w = some u ∧ _
    rw [State.unit?_setUnit]
    refine (h.reports w).trans ?_
    split
    · rename_i hv; subst hv; rw [hu]
      simp [hoff, hrel.1]
    · rfl
  · intro w
    show _ ↔ ∃ u, (s.setUnit o.unit u').unit? w = some u ∧ _
    rw [State.unit?_setUnit]
    refine (h.faults w).trans ?_
    split
    · rename_i hv; subst hv; rw [hu]
      simp [hoff, hrel.2]
    · rfl

theorem UnitLaw.lapse {s : State} (h : UnitLaw s) {g : Nat} {o : LaneOffer}
    (ho : (s.lane g).offer = some o) : UnitLaw (endLapsedOffer g o s) := by
  obtain ⟨u, hu, _, _⟩ := h.offers g o ho
  unfold endLapsedOffer restage State.modifyUnit
  rw [hu]
  exact h.endOffer ho hu rfl (.inl ⟨rfl, rfl⟩)

/-- A lane that holds the offer of a unit has it outstanding. -/
theorem holdsOffer_offer {s : State} {g v : Nat} (h : holdsOffer s g v = true) :
    ∃ o, (s.lane g).offer = some o ∧ o.unit = v := by
  simp only [holdsOffer, Bool.and_eq_true, beq_iff_eq] at h
  obtain ⟨_, h⟩ := h
  cases ho : (s.lane g).offer with
  | none => rw [ho] at h; simp at h
  | some o => rw [ho] at h; exact ⟨o, rfl, by simpa using h⟩

theorem UnitLaw.accept {s : State} (h : UnitLaw s) {g v : Nat} (hh : holdsOffer s g v = true) :
    UnitLaw (acceptOffer g v s) := by
  obtain ⟨o, ho, rfl⟩ := holdsOffer_offer hh
  obtain ⟨u, hu, _, _⟩ := h.offers g o ho
  unfold acceptOffer State.modifyUnit
  rw [hu]
  exact h.endOffer ho hu rfl (.inr ⟨rfl, rfl, rfl⟩)

theorem UnitLaw.decline {s : State} (h : UnitLaw s) {g v : Nat} (hh : holdsOffer s g v = true) :
    UnitLaw (declineOffer g v s) := by
  obtain ⟨o, ho, rfl⟩ := holdsOffer_offer hh
  obtain ⟨u, hu, _, _⟩ := h.offers g o ho
  unfold declineOffer restage State.modifyUnit
  rw [hu]
  exact h.endOffer ho hu rfl (.inl ⟨rfl, rfl⟩)

theorem mem_queueInsert {s : State} {v p : Nat × UnitRecord} {l : List (Nat × UnitRecord)}
    (h : p ∈ queueInsert s v l) : p = v ∨ p ∈ l := by
  induction l with
  | nil => simpa [queueInsert] using h
  | cons w l ih =>
    unfold queueInsert at h
    split at h
    · simpa using h
    · rcases List.mem_cons.1 h with h | h
      · simp [h]
      · rcases ih h with h | h <;> simp [h]

/-- Every unit of the staged queue is STAGED (R100). -/
theorem mem_stagedQueue {s : State} {v : Nat} (h : v ∈ stagedQueue s) :
    ∃ u, (v, u) ∈ s.units ∧ u.state = .staged := by
  have key : ∀ (l : List (Nat × UnitRecord)) p, p ∈ l.foldr (queueInsert s) [] → p ∈ l := by
    intro l
    induction l with
    | nil => intro p hp; simp at hp
    | cons a l ih =>
      intro p hp
      rcases mem_queueInsert hp with h | h
      · simp [h]
      · exact List.mem_cons_of_mem _ (ih p h)
  unfold stagedQueue at h
  obtain ⟨p, hp, rfl⟩ := List.mem_map.1 h
  have := List.mem_filter.1 (key _ p hp)
  exact ⟨p.2, this.1, by simpa using this.2⟩

theorem UnitLaw.offer {s : State} (h : UnitLaw s) {g v : Nat} (pos : Nat) {u : UnitRecord}
    (hv : v ∈ stagedQueue s) (hu : s.unit? v = some u) :
    UnitLaw (recordOffer g v pos u s) := by
  obtain ⟨w, hw, hs⟩ := mem_stagedQueue hv
  have := Table.find?_of_mem h.sorted hw
  have hw : w = u := by
    have e : s.unit? v = some w := this
    rw [hu] at e; exact (Option.some.inj e).symm
  subst hw
  have hne : ∀ j p, (s.lane j).offer = some p → p.unit ≠ v := by
    intro j p hp he
    obtain ⟨x, hx, h1, _⟩ := h.offers j p hp
    rw [he, hu] at hx; cases hx
    rw [hs] at h1; cases h1
  unfold recordOffer
  dsimp only
  refine ⟨Table.sorted_insert _ _ h.sorted, ?_, ?_, ?_, h.reportsOnce, ?_, h.faultsOnce, ?_⟩
  · have := Table.countP_insert { w with state := .offered, lane := some g }
      (fun p : Nat × UnitRecord => p.2.state.counted) h.sorted hu
    simp only [hs, show UnitState.offered.counted = true from rfl,
      show UnitState.staged.counted = true from rfl, if_true] at this
    show s.drainCount = (Table.insert s.units v _).countP _
    rw [h.drainCount]
    omega
  · intro j
    have := Table.countP_insert { w with state := .offered, lane := some g }
      (fun p : Nat × UnitRecord => p.2.state == .inFlight && p.2.lane == some j) h.sorted hu
    simp only [hs] at this
    have e1 : (UnitState.staged == UnitState.inFlight && w.lane == some j) = false := rfl
    have e2 : (UnitState.offered == UnitState.inFlight && some g == some j) = false := rfl
    rw [e1, e2, ← h.inFlight j] at this
    rw [State.lane_setLane]
    show _ = (Table.insert s.units v _).countP _
    split
    · rename_i hj; subst hj; simpa using this.symm
    · simpa using this.symm
  · intro j p hp
    rw [State.lane_setLane] at hp
    split at hp
    · rename_i hj
      injection hp with hp
      subst hp
      refine ⟨_, State.unit?_setUnit_same _ _ _, rfl, by rw [hj]⟩
    · have hp' : (s.lane j).offer = some p := hp
      obtain ⟨x, hx, h1, h2⟩ := h.offers j p hp'
      refine ⟨x, ?_, h1, h2⟩
      show (s.setUnit v _).unit? p.unit = some x
      rw [State.unit?_setUnit, if_neg (Ne.symm (hne j p hp'))]
      exact hx
  · intro x
    show _ ↔ ∃ u, (s.setUnit v _).unit? x = some u ∧ _
    rw [State.unit?_setUnit]
    refine (h.reports x).trans ?_
    split
    · rename_i hv; subst hv; rw [hu]; simp [hs]
    · rfl
  · intro x
    show _ ↔ ∃ u, (s.setUnit v _).unit? x = some u ∧ _
    rw [State.unit?_setUnit]
    refine (h.faults x).trans ?_
    split
    · rename_i hv; subst hv; rw [hu]; simp [hs]
    · rfl

/-! ### A lane's leaving UP -/

theorem sorted_units_leaveUp {s : State} (g : Nat) (d : LaneState) (h : Table.sorted s.units = true) :
    Table.sorted (leaveUp g d s).units = true := by
  have hm : ∀ (t : State) v f, Table.sorted t.units = true → Table.sorted (t.modifyUnit v f).units = true := by
    intro t v f ht
    unfold State.modifyUnit
    split
    · exact Table.sorted_insert _ _ ht
    · exact ht
  unfold leaveUp
  dsimp only
  refine fold_keeps (I := fun t => Table.sorted t.units = true) (fun s v => restart v s)
    (fun t v ht => hm t v _ ht) _ ?_
  split
  · unfold withdrawOffer
    split
    · split
      · exact hm _ _ _ h
      · exact h
    · exact h
  · exact h

/-- What a lane's leaving UP does to one unit record. -/
def leftUp (s : State) (g v : Nat) (u : UnitRecord) : UnitRecord :=
  if u.state = .inFlight ∧ u.lane = some g then
    { u with state := .staged, lane := none, restarted := true }
  else if u.state = .offered ∧ (∃ o, (s.lane g).offer = some o ∧ o.unit = v) then
    { u with state := .staged, lane := none }
  else u

/-- A lane's leaving UP, on the whole table of units. -/
theorem units_leaveUp {s : State} (g : Nat) (d : LaneState) (h : Table.sorted s.units = true) :
    (leaveUp g d s).units = s.units.map (fun p => (p.1, leftUp s g p.1 p.2)) := by
  refine Table.ext_find? (sorted_units_leaveUp g d h) (Table.sorted_map _ h) fun k => ?_
  rw [Table.find?_map]
  exact unit?_leaveUp g d s h k

theorem UnitLaw.leaveUp {s : State} (h : UnitLaw s) (g : Nat) (d : LaneState) :
    UnitLaw (leaveUp g d s) := by
  have hf := leaveUp_frame g d s
  have hunits := units_leaveUp g d h.sorted
  have hunit : ∀ v, (Machine.leaveUp g d s).unit? v = (s.unit? v).map (leftUp s g v) := by
    intro v; unfold State.unit?; rw [hunits, Table.find?_map]
  have hst : ∀ v u, (leftUp s g v u).state.counted = u.state.counted ∧
      ((leftUp s g v u).state = .releasing ↔ u.state = .releasing) ∧
      ((leftUp s g v u).state = .faulted ↔ u.state = .faulted) := by
    intro v u
    unfold leftUp
    split
    · rename_i h1; rw [h1.1]; exact ⟨rfl, by simp, by simp⟩
    · split
      · rename_i h1; rw [h1.1]; exact ⟨rfl, by simp, by simp⟩
      · exact ⟨rfl, Iff.rfl, Iff.rfl⟩
  refine ⟨sorted_units_leaveUp g d h.sorted, ?_, ?_, ?_, ?_, ?_, ?_, ?_⟩
  · rw [(congrArg State.drainCount hf :), h.drainCount, hunits, List.countP_map]
    refine List.countP_congr fun p _ => ?_
    simp [(hst p.1 p.2).1]
  · intro j
    rw [lane_leaveUp, hunits, List.countP_map]
    split
    · rename_i hj; subst hj
      refine (List.countP_eq_zero.2 fun p _ => ?_).symm
      simp only [Function.comp, Bool.and_eq_true, beq_iff_eq]
      intro ⟨h1, h2⟩
      unfold leftUp at h1 h2
      split at h1
      · simp at h1
      · rename_i hn
        split at h1
        · simp at h1
        · rename_i hn2
          rw [if_neg hn, if_neg hn2] at h2
          exact hn ⟨h1, h2⟩
    · rename_i hj
      rw [h.inFlight j]
      refine List.countP_congr fun p _ => ?_
      simp only [Function.comp, Bool.and_eq_true, beq_iff_eq]
      unfold leftUp
      split
      · rename_i h1
        rw [h1.1, h1.2]
        simp [hj]
      · split
        · rename_i h1; rw [h1.1]; simp
        · rfl
  · intro j o ho
    rw [lane_leaveUp] at ho
    split at ho
    · cases ho
    · rename_i hj
      obtain ⟨u, hu, h1, h2⟩ := h.offers j o ho
      refine ⟨u, ?_, h1, h2⟩
      rw [hunit, hu]
      unfold leftUp
      rw [Option.map_some, if_neg, if_neg]
      · rintro ⟨_, p, hp, he⟩
        exact hj (h.offer_lane hp ho he)
      · rw [h1]; simp
  · rw [(congrArg State.reportQueue hf :)]; exact h.reportsOnce
  · intro v
    rw [(congrArg State.reportQueue hf :), hunit]
    refine (h.reports v).trans ?_
    cases s.unit? v with
    | none => simp
    | some u => simp [(hst v u).2.1]
  · rw [(congrArg State.faultList hf :)]; exact h.faultsOnce
  · intro v
    rw [(congrArg State.faultList hf :), hunit]
    refine (h.faults v).trans ?_
    cases s.unit? v with
    | none => simp
    | some u => simp [(hst v u).2.2]


/-! ### One unit's moves between the states of Table 4-3 -/

/-- The part a unit record plays in the count of lane `g`. -/
def flies (u : UnitRecord) (g : Nat) : Bool := u.state == .inFlight && u.lane == some g

/-- A unit that is not OFFERED goes to a state that is not OFFERED: the counts and lists follow. -/
theorem UnitLaw.move {s t : State} (h : UnitLaw s) {v : Nat} {u u' : UnitRecord}
    (hu : s.unit? v = some u) (hunits : t.units = Table.insert s.units v u')
    (hn : u.state ≠ .offered)
    (hdrain : t.drainCount + (if u.state.counted then 1 else 0) =
      s.drainCount + (if u'.state.counted then 1 else 0))
    (hlane : ∀ j, (t.lane j).offer = (s.lane j).offer ∧
      (t.lane j).inFlight + (if flies u j then 1 else 0) =
        (s.lane j).inFlight + (if flies u' j then 1 else 0))
    (hrep : (t.reportQueue.map (·.unit)).Nodup ∧
      (∀ w, w ≠ v → (w ∈ t.reportQueue.map (·.unit) ↔ w ∈ s.reportQueue.map (·.unit))) ∧
      (v ∈ t.reportQueue.map (·.unit) ↔ u'.state = .releasing))
    (hflt : t.faultList.Nodup ∧ (∀ w, w ≠ v → (w ∈ t.faultList ↔ w ∈ s.faultList)) ∧
      (v ∈ t.faultList ↔ u'.state = .faulted)) : UnitLaw t := by
  have hunit : ∀ w, t.unit? w = if v = w then some u' else s.unit? w := by
    intro w; unfold State.unit?; rw [hunits, Table.find?_insert]
  refine ⟨by rw [hunits]; exact Table.sorted_insert _ _ h.sorted, ?_, ?_, ?_, hrep.1, ?_, hflt.1, ?_⟩
  · have := Table.countP_insert u' (fun p : Nat × UnitRecord => p.2.state.counted) h.sorted hu
    rw [hunits]
    rw [h.drainCount] at hdrain
    exact Nat.add_right_cancel (hdrain.trans this.symm)
  · intro j
    have := Table.countP_insert u'
      (fun p : Nat × UnitRecord => p.2.state == .inFlight && p.2.lane == some j) h.sorted hu
    rw [hunits]
    have h2 := (hlane j).2
    rw [h.inFlight j] at h2
    exact Nat.add_right_cancel (h2.trans this.symm)
  · intro j o ho
    rw [(hlane j).1] at ho
    obtain ⟨w, hw, h1, h2⟩ := h.offers j o ho
    refine ⟨w, ?_, h1, h2⟩
    rw [hunit, if_neg]
    · exact hw
    · intro he; subst he; rw [hu] at hw; cases hw; exact hn h1
  · intro w
    rw [hunit]
    split
    · rename_i hv; subst hv; rw [hrep.2.2]; simp
    · rename_i hv; rw [hrep.2.1 w (Ne.symm hv)]; exact h.reports w
  · intro w
    rw [hunit]
    split
    · rename_i hv; subst hv; rw [hflt.2.2]; simp
    · rename_i hv; rw [hflt.2.1 w (Ne.symm hv)]; exact h.faults w

/-- As `move`, for an act that ends with the flush entries and then writes the drain count. -/
theorem UnitLaw.moveThen {s x t : State} {n : Nat} (h : UnitLaw s) (hf : SameRecords x t) {v : Nat}
    {u u' : UnitRecord} (hu : s.unit? v = some u) (hunits : x.units = Table.insert s.units v u')
    (hn : u.state ≠ .offered)
    (hdrain : t.drainCount = x.drainCount → n + (if u.state.counted then 1 else 0) =
      s.drainCount + (if u'.state.counted then 1 else 0))
    (hlane : ∀ j, (x.lane j).offer = (s.lane j).offer ∧
      (x.lane j).inFlight + (if flies u j then 1 else 0) =
        (s.lane j).inFlight + (if flies u' j then 1 else 0))
    (hrep : (x.reportQueue.map (·.unit)).Nodup ∧
      (∀ w, w ≠ v → (w ∈ x.reportQueue.map (·.unit) ↔ w ∈ s.reportQueue.map (·.unit))) ∧
      (v ∈ x.reportQueue.map (·.unit) ↔ u'.state = .releasing))
    (hflt : x.faultList.Nodup ∧ (∀ w, w ≠ v → (w ∈ x.faultList ↔ w ∈ s.faultList)) ∧
      (v ∈ x.faultList ↔ u'.state = .faulted)) : UnitLaw (t.setDrainCount n) := by
  refine h.move hu (hf.units.trans hunits) hn (hdrain hf.drainCount) ?_ ?_ ?_
  · intro j
    have e : (t.setDrainCount n).lane j = x.lane j := by unfold State.lane; exact congrArg (Table.getD _ · j) hf.lanes
    rw [e]; exact hlane j
  · rw [show (t.setDrainCount n).reportQueue = x.reportQueue from hf.reportQueue]; exact hrep
  · rw [show (t.setDrainCount n).faultList = x.faultList from hf.faultList]; exact hflt

theorem UnitLaw.not_reported {s : State} (h : UnitLaw s) {v : Nat} {u : UnitRecord}
    (hu : s.unit? v = some u) (hn : u.state ≠ .releasing) : v ∉ s.reportQueue.map (·.unit) := by
  rw [h.reports]; rintro ⟨w, hw, h1⟩; rw [hu] at hw; cases hw; exact hn h1

theorem UnitLaw.not_faulted {s : State} (h : UnitLaw s) {v : Nat} {u : UnitRecord}
    (hu : s.unit? v = some u) (hn : u.state ≠ .faulted) : v ∉ s.faultList := by
  rw [h.faults]; rintro ⟨w, hw, h1⟩; rw [hu] at hw; cases hw; exact hn h1

theorem nodup_snoc {α : Type} {l : List α} {a : α} (h : l.Nodup) (ha : a ∉ l) : (l ++ [a]).Nodup := by
  rw [List.nodup_append]
  exact ⟨h, by simp, fun x hx y hy => by rw [List.mem_singleton.1 hy]; rintro rfl; exact ha hx⟩

/-- A unit joins the report queue as RELEASING (R125, R132). -/
theorem UnitLaw.queued {s : State} (h : UnitLaw s) {v : Nat} {u : UnitRecord} {q : List ReportItem}
    (hq : q = s.reportQueue ++ [{ unit := v, issued := false }])
    (hn : v ∉ s.reportQueue.map (·.unit)) (hu : u.state = .releasing) :
    (q.map (·.unit)).Nodup ∧ (∀ w, w ≠ v → (w ∈ q.map (·.unit) ↔ w ∈ s.reportQueue.map (·.unit))) ∧
      (v ∈ q.map (·.unit) ↔ u.state = .releasing) := by
  rw [hq, List.map_append]
  exact ⟨nodup_snoc h.reportsOnce hn, fun w hw => by simp [hw], by simp [hu]⟩

/-- The fault list stays at a move between states other than FAULTED (R130). -/
theorem UnitLaw.sameFaults {s : State} (h : UnitLaw s) {v : Nat} {u : UnitRecord} {l : List Nat}
    (hl : l = s.faultList) (hn : v ∉ s.faultList) (hu : u.state ≠ .faulted) :
    l.Nodup ∧ (∀ w, w ≠ v → (w ∈ l ↔ w ∈ s.faultList)) ∧ (v ∈ l ↔ u.state = .faulted) := by
  rw [hl]
  exact ⟨h.faultsOnce, fun _ _ => Iff.rfl, ⟨fun hc => absurd hc hn, fun hc => absurd hc hu⟩⟩

theorem inFlightAt_some {s : State} {g v : Nat} {u : UnitRecord} (h : inFlightAt s g v = some u) :
    s.unit? v = some u ∧ u.state = .inFlight ∧ u.lane = some g := by
  unfold inFlightAt at h
  rw [Option.filter_eq_some_iff] at h
  simpa using h

theorem UnitLaw.drainCount_pos {s : State} (h : UnitLaw s) {v : Nat} {u : UnitRecord}
    (hu : s.unit? v = some u) (hc : u.state.counted = true) : 0 < s.drainCount := by
  rw [h.drainCount, List.countP_pos_iff]
  exact ⟨_, Table.mem_of_find? hu, hc⟩

theorem UnitLaw.inFlight_pos {s : State} (h : UnitLaw s) {g v : Nat} {u : UnitRecord}
    (hu : inFlightAt s g v = some u) : 0 < (s.lane g).inFlight := by
  obtain ⟨h1, h2, h3⟩ := inFlightAt_some hu
  rw [h.inFlight, List.countP_pos_iff]
  exact ⟨_, Table.mem_of_find? h1, by simp [h2, h3]⟩

/-- The lane of a unit that leaves IN_FLIGHT. -/
theorem UnitLaw.lane_lower {s : State} (h : UnitLaw s) {g v : Nat} {u u' : UnitRecord}
    (hu : inFlightAt s g v = some u) (hn : u'.state ≠ .inFlight) (j : Nat) :
    ((lowerInFlight g s).lane j).offer = (s.lane j).offer ∧
      ((lowerInFlight g s).lane j).inFlight + (if flies u j then 1 else 0) =
        (s.lane j).inFlight + (if flies u' j then 1 else 0) := by
  obtain ⟨_, h2, h3⟩ := inFlightAt_some hu
  have hpos := h.inFlight_pos hu
  have e2 : flies u' j = false := by unfold flies; simp [hn]
  have e1 : flies u j = (some g == some j) := by unfold flies; simp [h2, h3]
  unfold lowerInFlight
  rw [State.lane_setLane, e1, e2]
  split
  · rename_i hj; subst hj
    simp
    omega
  · rename_i hj
    simp [hj]

theorem UnitLaw.complete {s : State} (h : UnitLaw s) {g v : Nat} {u : UnitRecord} (p : Opaque40)
    (hu : inFlightAt s g v = some u) : UnitLaw (completeUnit g v u p s) := by
  obtain ⟨h1, h2, h3⟩ := inFlightAt_some hu
  have hpos := h.drainCount_pos h1 (by rw [h2]; rfl)
  unfold completeUnit
  dsimp only
  refine UnitLaw.same ?_ (same_evalSafe _)
  refine h.moveThen (u' := { u with state := .releasing, handle := some p })
    (same_flushFrame (flushesAtDone_frame v _)) h1 rfl (by rw [h2]; decide) ?_
    (fun j => h.lane_lower hu (by simp) j) ?_ ?_
  · intro hd
    rw [hd, h2]
    show s.drainCount - 1 + 1 = s.drainCount + 0
    omega
  · exact h.queued (by simp [lowerInFlight, State.setReportQueue]) (h.not_reported h1 (by rw [h2]; decide)) rfl
  · exact h.sameFaults (by simp [lowerInFlight]) (h.not_faulted h1 (by rw [h2]; decide)) (by simp)

theorem UnitLaw.fault {s : State} (h : UnitLaw s) {v : Nat} {u : UnitRecord} (hu : s.unit? v = some u)
    (hs : u.state = .staged) : UnitLaw (faultUnit v s) := by
  have hpos := h.drainCount_pos hu (by rw [hs]; rfl)
  unfold faultUnit State.modifyUnit
  rw [hu]
  dsimp only
  refine h.moveThen (u' := { u with state := .faulted }) (same_flushFrame (flushesAtFault_frame v _)) hu rfl
    (by rw [hs]; decide) ?_ ?_ ?_ ?_
  · intro hd
    rw [hd, hs]
    show s.drainCount - 1 + 1 = s.drainCount + 0
    omega
  · intro j
    refine ⟨rfl, ?_⟩
    unfold flies
    rw [hs]
    rfl
  · exact ⟨h.reportsOnce, fun _ _ => Iff.rfl,
      ⟨fun hc => absurd hc (h.not_reported hu (by rw [hs]; decide)), fun hc => by cases hc⟩⟩
  · show (s.faultList ++ [v]).Nodup ∧ (∀ w, w ≠ v → (w ∈ s.faultList ++ [v] ↔ _)) ∧
      (v ∈ s.faultList ++ [v] ↔ _)
    exact ⟨nodup_snoc h.faultsOnce (h.not_faulted hu (by rw [hs]; decide)), fun w hw => by simp [hw],
      by simp⟩

theorem UnitLaw.fail {s : State} (h : UnitLaw s) {g v : Nat} {u : UnitRecord} (r : FailReason)
    (hu : inFlightAt s g v = some u) : UnitLaw (failUnit g v u r s) := by
  obtain ⟨h1, h2, h3⟩ := inFlightAt_some hu
  unfold failUnit
  dsimp only
  refine UnitLaw.same ?_ (same_evalSafe _)
  have hA : UnitLaw ((lowerInFlight g s).setUnit v
      { u with state := .staged, lane := none, attempts := u.attempts + 1 }) := by
    refine h.move (u' := { u with state := .staged, lane := none, attempts := u.attempts + 1 }) h1 rfl
      (by rw [h2]; decide) ?_ (fun j => h.lane_lower hu (by simp) j) ?_ ?_
    · rw [h2]; rfl
    · exact ⟨h.reportsOnce, fun _ _ => Iff.rfl,
        ⟨fun hc => absurd hc (h.not_reported h1 (by rw [h2]; decide)), fun hc => by cases hc⟩⟩
    · exact ⟨h.faultsOnce, fun _ _ => Iff.rfl,
        ⟨fun hc => absurd hc (h.not_faulted h1 (by rw [h2]; decide)), fun hc => by cases hc⟩⟩
  revert hA
  generalize hw : ((lowerInFlight g s).setUnit v
      { u with state := .staged, lane := none, attempts := u.attempts + 1 }) = s1
  intro hA
  have hB : UnitLaw (if u.attempts + 1 < Config.attemptLimit then s1 else faultUnit v s1) := by
    split
    · exact hA
    · exact hA.fault (u := { u with state := .staged, lane := none, attempts := u.attempts + 1 })
        (by rw [← hw, State.unit?_setUnit_same]) rfl
  revert hB
  generalize (if u.attempts + 1 < Config.attemptLimit then s1 else faultUnit v s1) = s2
  intro hB
  split
  · exact (hB.leaveUp g .down).same (same_setEvent _ _)
  · exact hB

theorem UnitLaw.restaged {s : State} (h : UnitLaw s) {v : Nat} {u : UnitRecord}
    (hu : s.unit? v = some u) (hs : u.state = .faulted) : UnitLaw (restageFaulted v u s) := by
  unfold restageFaulted
  dsimp only
  refine UnitLaw.same ?_ (same_evalSafe _)
  refine h.moveThen (u' := { u with state := .staged, attempts := 0 })
    (same_flushFrame (flushesAtRestage_frame v _)) hu rfl (by rw [hs]; decide) ?_ ?_ ?_ ?_
  · intro hd
    rw [hd, hs]
    rfl
  · intro j
    refine ⟨rfl, ?_⟩
    unfold flies
    rw [hs]
    rfl
  · exact ⟨h.reportsOnce, fun _ _ => Iff.rfl,
      ⟨fun hc => absurd hc (h.not_reported hu (by rw [hs]; decide)), fun hc => by cases hc⟩⟩
  · show (s.faultList.filter (· ≠ v)).Nodup ∧ (∀ w, w ≠ v → (w ∈ s.faultList.filter (· ≠ v) ↔ _)) ∧
      (v ∈ s.faultList.filter (· ≠ v) ↔ _)
    exact ⟨h.faultsOnce.filter _, fun w hw => by simp [hw], by simp⟩

theorem UnitLaw.discard {s : State} (h : UnitLaw s) {v : Nat} {u : UnitRecord}
    (hu : s.unit? v = some u) (hs : u.state = .faulted) : UnitLaw (discardFaulted v u s) := by
  refine h.move (u' := { u with state := .releasing, discard := true }) hu rfl (by rw [hs]; decide)
    ?_ ?_ ?_ ?_
  · rw [hs]; rfl
  · intro j
    refine ⟨rfl, ?_⟩
    unfold flies
    rw [hs]
    rfl
  · exact h.queued rfl (h.not_reported hu (by rw [hs]; decide)) rfl
  · show (s.faultList.filter (· ≠ v)).Nodup ∧ (∀ w, w ≠ v → (w ∈ s.faultList.filter (· ≠ v) ↔ _)) ∧
      (v ∈ s.faultList.filter (· ≠ v) ↔ _)
    exact ⟨h.faultsOnce.filter _, fun w hw => by simp [hw], by simp⟩

/-! ### Placement and release -/

theorem UnitLaw.frame {s : State} (h : UnitLaw s) (f : Nat) (v : Frame) : UnitLaw (s.setFrame f v) :=
  h.congr rfl rfl rfl rfl rfl

theorem UnitLaw.account {s : State} (h : UnitLaw s) (a : Nat) (v : Account) : UnitLaw (s.setAccount a v) :=
  h.congr rfl rfl rfl rfl rfl

theorem UnitLaw.set {s : State} (h : UnitLaw s) (x : Nat) (v : IndexSet) : UnitLaw (s.setIndexSet x v) :=
  h.congr rfl rfl rfl rfl rfl

theorem UnitLaw.stream {s : State} (h : UnitLaw s) (k : Nat) (v : Stream) : UnitLaw (s.setStream k v) :=
  h.congr rfl rfl rfl rfl rfl

theorem UnitLaw.nextSeq {s : State} (h : UnitLaw s) (n : Nat) : UnitLaw (s.setNextSeq n) :=
  h.congr rfl rfl rfl rfl rfl

theorem UnitLaw.returnFrames {s : State} (h : UnitLaw s) (a n : Nat) : UnitLaw (returnFrames a n s) :=
  UnitLaw.congr (h.account a { s.account a with used := (s.account a).used - n }) rfl rfl rfl rfl rfl

/-- The VACANT record of the ring that is opened becomes OPEN, and the drain count rises (R88, R158). -/
theorem UnitLaw.openUnit {s t : State} (h : UnitLaw s) {k v : Nat} (ht : withOpenUnit k s = some (v, t)) :
    UnitLaw t := by
  unfold withOpenUnit at ht
  split at ht
  · cases ht; exact h
  · cases hr : nextRecord s k with
    | none => rw [hr] at ht; cases ht
    | some r =>
      rw [hr] at ht
      simp only [Option.map_some, Option.some.injEq, Prod.mk.injEq] at ht
      obtain ⟨rfl, rfl⟩ := ht
      have hv : s.unit? (unitId k r) = none := by
        unfold nextRecord at hr
        simp only [Option.map_eq_some_iff] at hr
        obtain ⟨i, hi, rfl⟩ := hr
        have := (firstFrom_some hi).2.2.1
        simpa using this
      refine ⟨Table.sorted_insert _ _ h.sorted, ?_, ?_, ?_, h.reportsOnce, ?_, h.faultsOnce, ?_⟩
      · show s.drainCount + 1 = (Table.insert s.units _ _).countP _
        rw [Table.countP_insert_new _ _ h.sorted hv, h.drainCount]
        rfl
      · intro j
        show (s.lane j).inFlight = (Table.insert s.units _ _).countP _
        rw [Table.countP_insert_new _ _ h.sorted hv, h.inFlight]
        rfl
      · intro j o ho
        obtain ⟨w, hw, h1, h2⟩ := h.offers j o ho
        refine ⟨w, ?_, h1, h2⟩
        show (s.setUnit _ _).unit? _ = _
        rw [State.unit?_setUnit, if_neg]
        · exact hw
        · intro he; rw [he, hw] at hv; cases hv
      · intro w
        show w ∈ s.reportQueue.map _ ↔ ∃ u, (s.setUnit _ _).unit? w = some u ∧ _
        rw [State.unit?_setUnit]
        refine (h.reports w).trans ?_
        split
        · rename_i he; subst he; rw [hv]; simp
        · rfl
      · intro w
        show w ∈ s.faultList ↔ ∃ u, (s.setUnit _ _).unit? w = some u ∧ _
        rw [State.unit?_setUnit]
        refine (h.faults w).trans ?_
        split
        · rename_i he; subst he; rw [hv]; simp
        · rfl

theorem UnitLaw.arrive {s : State} (h : UnitLaw s) (k v : Nat) : UnitLaw (arrive k v s) :=
  h.times _ _ fun _ => ⟨rfl, rfl⟩

theorem UnitLaw.append {s : State} (h : UnitLaw s) (k v f : Nat) : UnitLaw (appendFrame k v f s) := by
  unfold appendFrame
  dsimp only
  have h1 := UnitLaw.arrive (k := k) (v := v) ((h.times v (fun u => { u with frames := u.frames ++ [f] })
    fun _ => ⟨rfl, rfl⟩).congr (t := (s.modifyUnit v (fun u => { u with frames := u.frames ++ [f] })).setStream k
      { (s.modifyUnit v (fun u => { u with frames := u.frames ++ [f] })).stream k with
        slicesPlaced := ((s.modifyUnit v (fun u => { u with frames := u.frames ++ [f] })).stream k).slicesPlaced + 1 })
    rfl rfl rfl rfl rfl)
  split
  · exact h1.stageUnit _ _
  · exact h1

theorem UnitLaw.fill {s : State} (h : UnitLaw s) (w : SliceWrite) (f v : Nat) :
    UnitLaw (fillFrame w f v s) := by
  have h0 : UnitLaw (s.clearFreed f) := h.congr rfl rfl rfl rfl rfl
  unfold fillFrame
  dsimp only
  exact UnitLaw.append ((h0.frame _ _).nextSeq _) _ _ _

theorem UnitLaw.placeNew {s t : State} (h : UnitLaw s) {w : SliceWrite} {f : Nat}
    (ht : placeNew w s = .ok (f, t)) : UnitLaw t := by
  unfold Machine.placeNew at ht
  split at ht
  · rename_i ho
    simp only [Except.ok.injEq, Prod.mk.injEq] at ht
    obtain ⟨rfl, rfl⟩ := ht
    exact (h.openUnit ho).fill _ _ _
  · cases ht
  · cases ht

theorem UnitLaw.placeMiss {s t : State} (h : UnitLaw s) {w : SliceWrite} {o : Placed}
    (ht : placeMiss w s = .ok (o, t)) : UnitLaw t := by
  unfold Machine.placeMiss at ht
  dsimp only at ht
  split at ht
  · cases ht
  · split at ht
    · cases ht
    · rename_i hp
      simp only [Except.ok.injEq, Prod.mk.injEq] at ht
      obtain ⟨_, rfl⟩ := ht
      exact (h.placeNew hp).set _ _

theorem UnitLaw.placeSlice {s t : State} (h : UnitLaw s) {w : SliceWrite} {o : Placed}
    (ht : placeSlice w s = .ok (o, t)) : UnitLaw t := by
  unfold Machine.placeSlice at ht
  split at ht
  · exact h.placeMiss ht
  · split at ht
    · exact h.placeMiss ht
    · split at ht
      · simp only [Except.ok.injEq] at ht
        have h1 := congrArg Prod.snd ht
        simp only at h1
        rw [← h1]
        exact UnitLaw.arrive (((((h.frame _ _).nextSeq _).set _ _).returnFrames _ _).stream _ _) _ _
      · split at ht
        · simp only [Except.ok.injEq] at ht
          have h1 := congrArg Prod.snd ht
          simp only at h1
          rw [← h1]
          exact (h.set _ _).returnFrames _ _
        · unfold Machine.placeSupersede at ht
          dsimp only at ht
          split at ht
          · cases ht
          · rename_i hp
            simp only [Except.ok.injEq, Prod.mk.injEq] at ht
            obtain ⟨_, rfl⟩ := ht
            exact (UnitLaw.placeNew (h.frame _ _) hp).set _ _

/-- A RELEASING unit's report is delivered: its record is VACANT and it is off the queue (R142). -/
theorem UnitLaw.release {s : State} (h : UnitLaw s) {v : Nat} {u : UnitRecord} (hu : s.unit? v = some u)
    (hq : v ∈ s.reportQueue.map (·.unit)) : UnitLaw (vacateUnit v u (leaveQueue v s)) := by
  have hs : u.state = .releasing := by
    obtain ⟨w, hw, h1⟩ := (h.reports v).1 hq
    rw [hu] at hw; cases hw; exact h1
  have hf := releaseFrames_frame u.frames (leaveQueue v s)
  unfold ReleaseFrame at hf
  have e1 := (congrArg State.units hf :)
  have e2 := (congrArg State.lanes hf :)
  have e3 := (congrArg State.drainCount hf :)
  have e4 := (congrArg State.faultList hf :)
  have e5 := (congrArg State.reportQueue hf :)
  clear hf
  unfold vacateUnit
  generalize releaseFrames u.frames (leaveQueue v s) = t at e1 e2 e3 e4 e5
  have hunit : ∀ w, (t.clearUnit v).unit? w = if v = w then none else s.unit? w := by
    intro w
    rw [State.unit?_clearUnit]
    unfold State.unit?
    rw [e1]; rfl
  have hlane : ∀ j, (t.clearUnit v).lane j = s.lane j := by
    intro j; unfold State.lane; exact congrArg (Table.getD _ · j) e2
  have e5' : t.reportQueue.map (·.unit) = (s.reportQueue.map (·.unit)).filter (· ≠ v) := by
    rw [e5, List.filter_map]; rfl
  have e1' : (t.clearUnit v).units = Table.erase s.units v := congrArg (Table.erase · v) e1
  refine ⟨by rw [e1']; exact Table.sorted_erase _ h.sorted, ?_, ?_, ?_, ?_, ?_, ?_, ?_⟩
  · have := Table.countP_erase (fun p : Nat × UnitRecord => p.2.state.counted) h.sorted hu
    rw [e1', show (t.clearUnit v).drainCount = s.drainCount from e3, h.drainCount]
    simp only [hs] at this
    exact this.symm
  · intro j
    have := Table.countP_erase
      (fun p : Nat × UnitRecord => p.2.state == .inFlight && p.2.lane == some j) h.sorted hu
    rw [e1', hlane, h.inFlight j]
    simp only [hs] at this
    exact this.symm
  · intro j o ho
    rw [hlane] at ho
    obtain ⟨w, hw, h1, h2⟩ := h.offers j o ho
    refine ⟨w, ?_, h1, h2⟩
    rw [hunit, if_neg]
    · exact hw
    · intro he; subst he; rw [hu] at hw; cases hw; rw [hs] at h1; cases h1
  · show (t.reportQueue.map _).Nodup
    rw [e5']; exact h.reportsOnce.filter _
  · intro w
    show w ∈ t.reportQueue.map _ ↔ _
    rw [e5', hunit]
    split
    · rename_i he; subst he; simp
    · rename_i he
      rw [← h.reports w]
      simp [Ne.symm he]
  · show t.faultList.Nodup
    rw [e4]; exact h.faultsOnce
  · intro w
    show w ∈ t.faultList ↔ _
    rw [e4, hunit]
    refine (h.faults w).trans ?_
    split
    · rename_i he; subst he; rw [hu]; simp [hs]
    · rfl

/-! ### Every act -/

theorem checkUnbound_same (k : Nat) (s : State) : SameRecords s (checkUnbound k s) := by
  unfold checkUnbound; dsimp only; split
  · exact ⟨rfl, rfl, rfl, rfl, rfl, rfl, rfl, rfl, rfl, rfl, fun _ => ⟨rfl, rfl⟩⟩
  · exact ⟨rfl, rfl, rfl, rfl, rfl, rfl, rfl, rfl, rfl, rfl, fun _ => ⟨rfl, rfl⟩⟩

theorem UnitLaw.unbound {s : State} (h : UnitLaw s) (k : Nat) : UnitLaw (checkUnbound k s) :=
  h.same (checkUnbound_same k s)

theorem UnitLaw.settle {s : State} (h : UnitLaw s) (g : Nat) (v : Grant) : UnitLaw (settleGrant g v s) :=
  UnitLaw.unbound (UnitLaw.stream (s := s.clearGrant g) (h.congr rfl rfl rfl rfl rfl) _ _) _

theorem UnitLaw.releaseSets {s : State} (h : UnitLaw s) (l : List (Nat × Nat)) : UnitLaw (releaseSets l s) :=
  fold_keeps (fun s (p : Nat × Nat) => releaseWays p.1 p.2 s) (fun _ _ h => h.set _ _) l h

theorem UnitLaw.reserveSets {s : State} (h : UnitLaw s) (l : List (Nat × Nat)) : UnitLaw (reserveSets l s) :=
  fold_keeps (fun s (p : Nat × Nat) => reserveWays p.1 p.2 s) (fun _ _ h => h.set _ _) l h

theorem UnitLaw.returned {s : State} (h : UnitLaw s) (g : Nat) (v : Grant) : UnitLaw (returnGrant g v s) := by
  have h1 := (h.returnFrames v.account v.n).releaseSets v.sets
  exact UnitLaw.unbound (UnitLaw.stream (s := State.clearGrant _ g) (h1.congr rfl rfl rfl rfl rfl) _ _) _

theorem UnitLaw.acts : RecordActs UnitLaw where
  quiet _ _ k h := h.same k
  waiting _ _ _ h := h.congr rfl rfl rfl rfl rfl
  limits _ _ _ _ _ h := h.account _ _
  granted s g link tag a k key n _ _ _ h := by
    unfold grantRecords
    dsimp only
    have h1 : UnitLaw (chargeFrames a n s) :=
      UnitLaw.congr (h.account a { s.account a with used := (s.account a).used + n }) rfl rfl rfl rfl rfl
    have h2 : UnitLaw (reserveRecords k (newGrant s link tag a k key n).k
        (Machine.reserveSets (newGrant s link tag a k key n).sets (chargeFrames a n s))) :=
      (h1.reserveSets _).stream _ _
    exact h2.congr rfl rfl rfl rfl rfl
  returnGrant _ _ _ _ h := h.returned _ _
  lapseGrants _ _ h :=
    fold_keeps (fun s (q : Nat × Grant) => lapseGrant q.1 q.2 s)
      (fun _ _ h => (h.returned _ _).same (same_setEvent _ _)) _ h
  settled _ _ _ _ _ _ _ _ hp h :=
    (placeSlices_keeps (I := UnitLaw) (fun _ _ _ _ ht h => h.placeSlice ht) _ hp h).settle _ _
  read _ f v r _ h := by
    unfold readFrame
    split
    · exact h
    · exact UnitLaw.congr (h.frame f { v with latent := true }) rfl rfl rfl rfl rfl
    · dsimp only
      refine UnitLaw.same ?_ (same_setEvent _ _)
      exact UnitLaw.congr (h.frame f { v with record := { v.record with damaged := true } })
        rfl rfl rfl rfl rfl
  release _ _ _ hu hq h := by
    obtain ⟨i, hi, rfl⟩ := hq
    exact h.release hu (List.mem_map.2 ⟨i, hi, rfl⟩)
  stageUnit _ _ _ h := h.stageUnit _ _
  times _ _ _ hf h := h.times _ _ hf
  lane _ _ _ h1 h2 h := h.setLane _ _ h1 h2
  leaveUp _ _ _ h := h.leaveUp _ _
  lapse _ _ _ ho h := h.lapse ho
  offer _ _ _ _ _ _ hv hu h := h.offer _ hv hu
  accept _ _ _ hh h := h.accept hh
  decline _ _ _ hh h := h.decline hh
  discard _ _ _ hu hs h := h.discard hu hs
  marks _ _ hq h := h.congr rfl rfl rfl rfl hq
  complete _ _ _ _ _ hu h := h.complete _ hu
  fail _ _ _ _ _ hu h := h.fail _ hu
  restaged _ _ _ hu hs h := h.restaged hu hs

theorem UnitLaw.reset : UnitLaw State.reset where
  sorted := rfl
  drainCount := rfl
  inFlight _ := rfl
  offers _ _ ho := by cases ho
  reportsOnce := List.nodup_nil
  reports v := by
    refine Iff.intro (fun h => ?_) ?_
    · cases h
    · rintro ⟨_, h, _⟩; cases h
  faultsOnce := List.nodup_nil
  faults v := by
    refine Iff.intro (fun h => ?_) ?_
    · cases h
    · rintro ⟨_, h, _⟩; cases h

end Sys2Proof.Machine
end

