-- ==== Sys2Proof/Laws/LinkReset.lean ====
section
/-! SUPPORT. A reset of a link, taken apart into its acts (R49, R50, R117, R145, R155, R167, R168). -/

namespace Sys2Proof.Machine

/-! ### The grants a re-test walk makes -/

theorem grants_place (l : Nat) (m : OutMessage) (s : State) : (place l m s).grants = s.grants :=
  (congrArg State.grants (links_place l m s) :)

theorem grants_stageUnit (c : CloseCause) (v : Nat) (s : State) : (stageUnit c v s).grants = s.grants :=
  (congrArg State.grants (stageUnit_frame c v s) :)

theorem grants_pressureCompare (s : State) : (pressureCompare s).grants = s.grants := by
  unfold pressureCompare pressureStage
  split
  · split
    · exact grants_stageUnit _ _ _
    · rfl
  · rfl

theorem grants_reliefStage (x : Nat) (s : State) : (reliefStage x s).grants = s.grants := by
  unfold reliefStage
  split
  · rfl
  · split
    · exact grants_stageUnit _ _ _
    · rfl

theorem grants_afterHold (r : Reasons) (x : Option Nat) (s : State) : (afterHold r x s).grants = s.grants := by
  unfold afterHold
  have h : (if r.frames = true then pressureCompare s else s).grants = s.grants := by
    split
    · exact grants_pressureCompare s
    · rfl
  dsimp only
  split
  · exact (grants_reliefStage _ _).trans h
  · exact h

theorem grants_callIntentRetakes (s : State) : (callIntentRetakes s).grants = s.grants := by
  have h : ∀ {t : State} l c k, t.grants = s.grants → (callRetake l c k t).grants = s.grants :=
    fun l c k ht => ((congrArg State.grants (links_callRetake l c k _) :)).trans ht
  simp only [callIntentRetakes, List.foldl]
  exact h _ _ _ (h _ _ _ (h _ _ _ (h _ _ _ (h _ _ _ rfl))))

theorem grants_refuseEntry (e : Entry) (c : RefusalCode) (s : State) : (refuseEntry e c s).grants = s.grants :=
  (grants_callIntentRetakes _).trans (grants_place _ _ _)

theorem grants_makeGrant (g link tag a k : Nat) (key : Key) (n : Nat) (s : State) :
    (makeGrant g link tag a k key n s).grants = Table.insert s.grants g (newGrant s link tag a k key n) := by
  unfold makeGrant
  dsimp only
  rw [grants_pressureCompare, grants_place]
  unfold grantRecords
  dsimp only
  show Table.insert (reserveSets _ _).grants g _ = _
  rw [(congrArg State.grants (reserveSets_frame _ _) :)]
  rfl

theorem setEventIf_same (b : Bool) (e : Event) (s : State) :
    (setEventIf b e s).grants = s.grants ∧ (setEventIf b e s).links = s.links := by
  unfold setEventIf; split <;> exact ⟨rfl, rfl⟩

/-- A re-test leaves the grants, or makes one for the link of its entry (R43). -/
theorem grants_retest (e : Entry) (s : State) :
    (retestState (retest e s)).grants = s.grants ∨
      ∃ g v, (retestState (retest e s)).grants = Table.insert s.grants g v ∧ v.link = e.link := by
  unfold retest
  dsimp only
  have hw := (setEventIf_same (judge s e.cls e.stream (fallbackStream s e)).fellBack .fallback s).1
  revert hw
  generalize setEventIf (judge s e.cls e.stream (fallbackStream s e)).fellBack .fallback s = s1
  intro hw
  rw [← hw]
  split
  · simp only [retestState]; exact .inl (grants_refuseEntry _ _ _)
  · split
    · simp only [retestState]; exact .inl (grants_refuseEntry _ _ _)
    · split
      · exact .inl rfl
      · unfold retestResources
        dsimp only
        split
        · split
          · simp only [retestState]
            refine .inr ⟨_, _, (grants_callIntentRetakes _).trans (grants_makeGrant _ _ _ _ _ _ _ _), rfl⟩
          · simp only [retestState]; exact .inl (grants_afterHold _ _ _)
        · simp only [retestState]; exact .inl (grants_afterHold _ _ _)

/-- An entry that a re-test keeps on the list keeps its link. -/
theorem retest_link {e e' : Entry} {s s' : State} (h : retest e s = .keep e' s') : e'.link = e.link := by
  unfold retest at h
  dsimp only at h
  split at h
  · cases h
  · split at h
    · cases h
    · split at h
      · cases h; rfl
      · unfold retestResources at h
        dsimp only at h
        split at h
        · split at h
          · cases h
          · cases h; rfl
        · cases h; rfl

/-- After a re-test walk a link has grants and entries only where it had some before (R42, R43). -/
theorem walkFrom_links (l : Nat) (es : List Entry) : ∀ (kept : List Entry) {s : State},
    (∀ e ∈ kept ++ es, e.link ≠ l) → (∀ p ∈ s.grants, p.2.link ≠ l) →
    (∀ e ∈ (walkFrom kept es s).waiting, e.link ≠ l) ∧ ∀ p ∈ (walkFrom kept es s).grants, p.2.link ≠ l := by
  induction es with
  | nil => intro kept s he hg; exact ⟨fun e h => he e (List.mem_append_left _ h), hg⟩
  | cons e es ih =>
    intro kept s he hg
    have hel := he e (by simp)
    unfold walkFrom
    split
    · refine ih _ (fun x hx => ?_) hg
      simp only [List.append_assoc, List.cons_append, List.nil_append, List.mem_append, List.mem_cons] at hx
      rcases hx with hx | hx | hx
      · exact he x (by simp [hx])
      · subst hx; exact hel
      · exact he x (by simp [hx])
    · have hgr : ∀ p ∈ (retestState (retest e s)).grants, p.2.link ≠ l := by
        rcases grants_retest e s with h | ⟨g, v, h, hv⟩
        · rw [h]; exact hg
        · rw [h]
          intro p hp
          rcases Table.mem_insert hp with rfl | hp
          · exact hv ▸ hel
          · exact hg p hp
      split
      · rename_i e' s' hr
        rw [hr] at hgr
        refine ih _ (fun x hx => ?_) hgr
        simp only [List.append_assoc, List.cons_append, List.nil_append, List.mem_append,
          List.mem_cons] at hx
        rcases hx with hx | hx | hx
        · exact he x (by simp [hx])
        · subst hx; rw [retest_link hr]; exact hel
        · exact he x (by simp [hx])
      · rename_i s' hr
        rw [hr] at hgr
        refine ih _ (fun x hx => ?_) hgr
        rcases List.mem_append.1 hx with hx | hx
        · exact he x (by simp [hx])
        · exact he x (by simp [hx])

/-! ### A link that is DOWN with empty queues -/

/-- The link is DOWN and its queues are empty (R167). -/
structure Quiet (k : Link) : Prop where
  down : k.up = false
  queues : ∀ c, k.queue c = ChannelQueue.empty

/-- No act of admission touches a link that is DOWN with empty queues. -/
theorem quiet_survives (l : Nat) (k : Link) (hk : Quiet k) :
    SurvivesAdmission (fun t => t.link l = k) where
  account _ _ _ h := h
  free _ _ h := h
  grant _ _ _ h := h
  clearGrant _ _ h := h
  set _ _ _ h := h
  stream _ _ _ h := h
  unit _ _ _ _ h := h
  staged _ _ h := h
  event _ _ h := h
  captured _ _ h := h
  waiting _ _ h := h
  place t j m h := by
    by_cases hj : j = l
    · subst hj
      rw [place_down m (by rw [h]; exact hk.down)]; exact h
    · rw [(place_frame j m t).links l (Ne.symm hj)]; exact h
  retake t j c n h := by
    by_cases hj : j = l
    · subst hj
      unfold callRetake
      dsimp only
      rw [if_neg]
      · exact h
      · rw [h, hk.queues]; simp [ChannelQueue.empty]
    · rw [(callRetake_frame j c n t).links l (Ne.symm hj)]; exact h

/-! ### LIF's part (R145, R167 to R169) -/

/-- What LIF's part of a reset leaves of the link (R167 to R169). -/
def downed (k : Link) : Link :=
  { Link.reset with
    inSeq := k.inSeq, outSeq := k.outSeq, taken := k.taken, sent := k.sent, refused := k.refused,
    resets := satSucc k.resets, wire := k.wire }

theorem downed_quiet (k : Link) : Quiet (downed k) := ⟨rfl, fun c => by cases c <;> rfl⟩

theorem downLink_effect (l : Nat) (s : State) :
    (downLink l s).link l = downed (s.link l) ∧
      (downLink l s).reportQueue = s.reportQueue.map (fun i =>
        if i.unit ∈ reportUnits ((s.link l).outbound ++ (s.link l).overflow) then { i with issued := false }
        else i) ∧
      { downLink l s with links := s.links, reportQueue := s.reportQueue } = s := by
  have key : ∀ (vs : List Nat) (t : State),
      (vs.foldl (fun s v => markIssued false v s) t).links = t.links ∧
      (vs.foldl (fun s v => markIssued false v s) t).reportQueue = t.reportQueue.map (fun i =>
        if i.unit ∈ vs then { i with issued := false } else i) ∧
      { vs.foldl (fun s v => markIssued false v s) t with reportQueue := t.reportQueue } = t := by
    intro vs
    induction vs with
    | nil => intro t; exact ⟨rfl, by simp, rfl⟩
    | cons v vs ih =>
      intro t
      obtain ⟨h1, h2, h3⟩ := ih (markIssued false v t)
      rw [List.foldl_cons]
      refine ⟨h1.trans rfl, ?_, ?_⟩
      · rw [h2]
        show List.map _ (List.map _ t.reportQueue) = _
        rw [List.map_map]
        refine List.map_congr_left fun i _ => ?_
        simp only [Function.comp]
        by_cases hv : i.unit = v
        · rw [if_pos hv]; simp [hv]
        · rw [if_neg hv]; simp [hv]
      · exact (congrArg (fun x : State => ({ x with reportQueue := t.reportQueue } : State)) h3 :)
  obtain ⟨h1, h2, h3⟩ := key (reportUnits ((s.link l).outbound ++ (s.link l).overflow))
    (s.setLink l (downed (s.link l)))
  refine ⟨?_, h2, ?_⟩
  · have : (downLink l s).links = (s.setLink l (downed (s.link l))).links := h1
    show Table.getD Link.reset (downLink l s).links l = _
    rw [this]
    exact State.link_setLink_same _ _ _
  · exact (congrArg (fun x : State => ({ x with links := s.links } : State)) h3 :)

/-! ### The lanes of a drain link (R117) -/

/-- One lane of a drain link that is reset (R117). -/
def resetLane (s : State) (g : Nat) : State :=
  let s := laneTo g .absent s
  s.setLane g { s.lane g with lapses := 0 }

theorem resetLanes_eq (d : Nat) (s : State) :
    resetLanes d s = ((List.range 8).map (globalLane d)).foldl resetLane s := by
  unfold resetLanes
  rw [List.foldl_map]
  rfl

theorem lane_resetLane (g j : Nat) (s : State) :
    (resetLane s g).lane j =
      if g = j then
        if (s.lane g).state = .up then
          { s.lane g with state := .absent, lapses := 0, offer := none, inFlight := 0 }
        else { s.lane g with state := .absent, lapses := 0 }
      else s.lane j := by
  unfold resetLane laneTo
  dsimp only
  rw [State.lane_setLane]
  by_cases hg : g = j
  · subst hg
    rw [if_pos rfl, if_pos rfl]
    split
    · rw [lane_leaveUp, if_pos rfl]
    · rw [State.lane_setLane_same]
  · rw [if_neg hg, if_neg hg]
    split
    · rw [lane_leaveUp, if_neg hg]
    · rw [State.lane_setLane, if_neg hg]

theorem unit?_resetLane (g v : Nat) (s : State) (hs : Table.sorted s.units = true) :
    (resetLane s g).unit? v =
      (s.unit? v).map fun u => if (s.lane g).state = .up then leftUp s g v u else u := by
  unfold resetLane laneTo
  dsimp only
  split
  · rename_i h
    refine (show _ = (leaveUp g .absent s).unit? v from rfl).trans ?_
    rw [unit?_leaveUp g .absent s hs]
    rfl
  · show s.unit? v = _
    cases s.unit? v <;> rfl

theorem sorted_units_resetLane (g : Nat) (s : State) (hs : Table.sorted s.units = true) :
    Table.sorted (resetLane s g).units = true := by
  unfold resetLane laneTo
  dsimp only
  split
  · exact sorted_units_leaveUp g .absent hs
  · exact hs

theorem resetLane_frame (g : Nat) (s : State) :
    { resetLane s g with units := s.units, lanes := s.lanes } = s := by
  unfold resetLane laneTo
  dsimp only
  split
  · exact (congrArg (fun x : State => ({ x with units := s.units, lanes := s.lanes } : State))
      (leaveUp_frame g .absent s) :)
  · rfl

/-- What the reset of a group of lanes does to one unit record (R116, R117). -/
def leftAll (s : State) (gs : List Nat) (v : Nat) (u : UnitRecord) : UnitRecord :=
  gs.foldl (fun u g => if (s.lane g).state = .up then leftUp s g v u else u) u

/-- A unit that is neither OFFERED nor IN_FLIGHT stays as it is. -/
theorem leftAll_same (s : State) (gs : List Nat) (v : Nat) (u : UnitRecord)
    (h : ∀ g ∈ gs, ¬(u.state = .inFlight ∧ u.lane = some g) ∧
      ¬(u.state = .offered ∧ ∃ o, (s.lane g).offer = some o ∧ o.unit = v)) : leftAll s gs v u = u := by
  unfold leftAll
  induction gs with
  | nil => rfl
  | cons g gs ih =>
    rw [List.foldl_cons]
    have h1 : (if (s.lane g).state = .up then leftUp s g v u else u) = u := by
      split
      · unfold leftUp; rw [if_neg (h g (by simp)).1, if_neg (h g (by simp)).2]
      · rfl
    rw [h1]
    exact ih fun j hj => h j (by simp [hj])

theorem leftAll_cons (s : State) (g : Nat) (gs : List Nat) (v : Nat) (u : UnitRecord) :
    leftAll s (g :: gs) v u = leftAll s gs v (if (s.lane g).state = .up then leftUp s g v u else u) := rfl

/-- An IN_FLIGHT unit of one of the lanes, which is UP, is STAGED again as restarted (R116). -/
theorem leftAll_inFlight (s : State) (gs : List Nat) (v : Nat) (u : UnitRecord) {g : Nat} (hg : g ∈ gs)
    (hup : (s.lane g).state = .up) (h : u.state = .inFlight ∧ u.lane = some g) :
    leftAll s gs v u = { u with state := .staged, lane := none, restarted := true } := by
  induction gs with
  | nil => cases hg
  | cons j gs ih =>
    rw [leftAll_cons]
    by_cases hj : j = g
    · subst hj
      rw [if_pos hup]
      unfold leftUp
      rw [if_pos h]
      exact leftAll_same _ _ _ _ fun _ _ => ⟨fun c => (by simp : UnitState.staged ≠ .inFlight) c.1,
        fun c => (by simp : UnitState.staged ≠ .offered) c.1⟩
    · have hm : g ∈ gs := by simpa [Ne.symm hj] using hg
      have h1 : (if (s.lane j).state = .up then leftUp s j v u else u) = u := by
        split
        · unfold leftUp
          rw [if_neg (fun c => hj (Option.some.inj (c.2.symm.trans h.2))), if_neg]
          rintro ⟨c, -⟩
          rw [h.1] at c
          cases c
        · rfl
      rw [h1]
      exact ih hm

/-- An OFFERED unit, offered on one of the lanes, which is UP, is STAGED again (R116). -/
theorem leftAll_offered (s : State) (gs : List Nat) (v : Nat) (u : UnitRecord) {g : Nat} (hg : g ∈ gs)
    (hup : (s.lane g).state = .up) (h : u.state = .offered)
    (ho : ∃ o, (s.lane g).offer = some o ∧ o.unit = v) :
    leftAll s gs v u = { u with state := .staged, lane := none } := by
  induction gs with
  | nil => cases hg
  | cons j gs ih =>
    rw [leftAll_cons]
    have hstop : leftAll s gs v { u with state := .staged, lane := none } =
        { u with state := .staged, lane := none } :=
      leftAll_same _ _ _ _ fun _ _ => ⟨fun c => (by simp : UnitState.staged ≠ .inFlight) c.1,
        fun c => (by simp : UnitState.staged ≠ .offered) c.1⟩
    have hn : ∀ i, ¬(u.state = .inFlight ∧ u.lane = some i) := by
      rintro i ⟨c, -⟩; rw [h] at c; cases c
    by_cases hj : j = g
    · subst hj
      rw [if_pos hup]
      unfold leftUp
      rw [if_neg (hn _), if_pos ⟨h, ho⟩]
      exact hstop
    · have hm : g ∈ gs := by simpa [Ne.symm hj] using hg
      split
      · unfold leftUp
        rw [if_neg (hn _)]
        split
        · exact hstop
        · exact ih hm
      · exact ih hm

/-- What the reset of a group of lanes does (R117). -/
structure LanesReset (s t : State) (gs : List Nat) : Prop where
  reset : ∀ g ∈ gs, (t.lane g).state = .absent ∧ (t.lane g).lapses = 0 ∧
    (LaneLaw s → (t.lane g).offer = none ∧ (t.lane g).inFlight = 0)
  others : ∀ j, j ∉ gs → t.lane j = s.lane j
  units : ∀ v, t.unit? v = (s.unit? v).map (leftAll s gs v)
  sorted : Table.sorted t.units = true
  rest : { t with units := s.units, lanes := s.lanes } = s

theorem laneReset_rest (gs : List Nat) (s : State) :
    { gs.foldl resetLane s with units := s.units, lanes := s.lanes } = s :=
  fold_keeps (I := fun t => { t with units := s.units, lanes := s.lanes } = s) resetLane
    (fun t g h => (congrArg (fun x : State => ({ x with units := s.units, lanes := s.lanes } : State))
      (resetLane_frame g t)).trans h) gs rfl

/-- The lanes a reset touches, whatever the units. -/
theorem laneReset_lanes (gs : List Nat) (s : State) (hn : gs.Nodup) :
    (∀ g ∈ gs, ((gs.foldl resetLane s).lane g).state = .absent ∧ ((gs.foldl resetLane s).lane g).lapses = 0 ∧
      (LaneLaw s → ((gs.foldl resetLane s).lane g).offer = none ∧
        ((gs.foldl resetLane s).lane g).inFlight = 0)) ∧
    ∀ j, j ∉ gs → (gs.foldl resetLane s).lane j = s.lane j := by
  induction gs generalizing s with
  | nil => exact ⟨fun g h => absurd h (by simp), fun _ _ => rfl⟩
  | cons g gs ih =>
    rw [List.nodup_cons] at hn
    rw [List.foldl_cons]
    obtain ⟨h1, h2⟩ := ih (resetLane s g) hn.2
    have hlaw : LaneLaw s → LaneLaw (resetLane s g) := by
      intro h j
      rw [lane_resetLane]
      split
      · rename_i hj
        split
        · exact fun _ => ⟨rfl, rfl⟩
        · rename_i hup; exact fun _ => h g hup
      · exact h j
    refine ⟨fun j hj => ?_, fun j hj => ?_⟩
    · by_cases hg : j = g
      · subst hg
        rw [h2 j hn.1, lane_resetLane, if_pos rfl]
        split
        · exact ⟨rfl, rfl, fun _ => ⟨rfl, rfl⟩⟩
        · rename_i hup; exact ⟨rfl, rfl, fun h => h j hup⟩
      · have hm : j ∈ gs := by simpa [hg] using hj
        obtain ⟨a, b, c⟩ := h1 j hm
        exact ⟨a, b, fun h => c (hlaw h)⟩
    · rw [List.mem_cons, not_or] at hj
      rw [h2 j hj.2, lane_resetLane, if_neg (Ne.symm hj.1)]

theorem laneReset_effect (gs : List Nat) (s : State) (hn : gs.Nodup) (hs : Table.sorted s.units = true) :
    LanesReset s (gs.foldl resetLane s) gs := by
  refine ⟨(laneReset_lanes gs s hn).1, (laneReset_lanes gs s hn).2, ?_, ?_, laneReset_rest gs s⟩
  · induction gs generalizing s with
    | nil => intro v; cases h : s.unit? v <;> simp [h, leftAll]
    | cons g gs ih =>
      rw [List.nodup_cons] at hn
      intro v
      rw [List.foldl_cons, ih _ hn.2 (sorted_units_resetLane g s hs), unit?_resetLane g v s hs, Option.map_map]
      congr 1
      funext u
      rw [Function.comp, leftAll_cons]
      unfold leftAll
      refine List.foldl_ext _ _ _ fun u j hj => ?_
      have hne : g ≠ j := fun e => hn.1 (e ▸ hj)
      unfold leftUp
      rw [lane_resetLane, if_neg hne]
  · exact fold_keeps (I := fun t => Table.sorted t.units = true) resetLane
      (fun t g h => sorted_units_resetLane g t h) gs hs

/-! ### The grants and entries of a link (R49, R50) -/

/-- The lapse of a link's grants, and then the removal of its entries (R49, R50). -/
theorem endLinkTraffic_acts (l : Nat) (s : State) :
    ∃ s1, GrantsLapse s s1 (s.grants.filter fun q => q.2.link == l) ∧
      s1 = lapseGrants (fun v => v.link == l) s ∧
      EntriesRemoved s1 (endLinkTraffic l s) (s.waiting.filter fun e => e.link == l) ∧
      (endLinkTraffic l s).waiting = s.waiting.filter fun e => !(e.link == l) := by
  refine ⟨_, lapseGrants_effect (fun v => v.link == l) s, rfl, ?_⟩
  have hw : (lapseGrants (fun v => v.link == l) s).waiting = s.waiting :=
    (congrArg State.waiting (lapseGrants_effect (fun v => v.link == l) s).rest :)
  unfold endLinkTraffic
  generalize lapseGrants (fun v => v.link == l) s = q at hw
  refine ⟨?_, ?_⟩
  · unfold removeLinkEntries
    rw [hw]
    exact removals_effect _ q
  · rw [waiting_removeLinkEntries, hw]

/-- The fields the end of a link's traffic may write: all others of `t` are those of `s`. -/
def TrafficFrame (s t : State) : Prop :=
  { t with
    free := s.free, accounts := s.accounts, sets := s.sets, streams := s.streams, grants := s.grants,
    events := s.events, alert := s.alert, waiting := s.waiting, captures := s.captures,
    refusals := s.refusals, links := s.links } = s

theorem endLinkTraffic_frame (l : Nat) (s : State) : TrafficFrame s (endLinkTraffic l s) := by
  obtain ⟨s1, h1, -, h2, -⟩ := endLinkTraffic_acts l s
  generalize endLinkTraffic l s = t at h2
  have e1 := congrArg (fun x : State => ({ x with
    free := s.free, accounts := s.accounts, sets := s.sets, streams := s.streams, grants := s.grants,
    events := s.events, alert := s.alert, waiting := s.waiting, captures := s.captures,
    refusals := s.refusals, links := s.links } : State)) h2.rest
  have e2 := congrArg (fun x : State => ({ x with
    free := s.free, accounts := s.accounts, sets := s.sets, streams := s.streams, grants := s.grants,
    events := s.events, alert := s.alert, waiting := s.waiting, captures := s.captures,
    refusals := s.refusals, links := s.links } : State)) h1.rest
  exact e1.trans e2

/-- What the end of a link's traffic returns and leaves (R37, R49, R50). -/
structure TrafficEnds (s t : State) (l : Nat) : Prop where
  free : t.free = s.free + lapsedFrames s (fun v => v.link == l)
  account : ∀ a, t.account a =
    { s.account a with
      used := (s.account a).used - lapsedFrom s (fun v => v.link == l) a,
      heldCount := (s.account a).heldCount - s.waiting.countP (fun e => e.link == l && e.account == a) }
  set : ∀ x, t.indexSet x =
    { s.indexSet x with reserved := (s.indexSet x).reserved - lapsedWays s (fun v => v.link == l) x }
  records : ∀ k, (t.stream k).reserved = (s.stream k).reserved - lapsedRecords s (fun v => v.link == l) k
  lapsed : (∃ q ∈ s.grants, q.2.link = l) → (t.event Event.grantLapse.code).flag = true
  grants : Table.sorted s.grants = true → t.grants = s.grants.filter fun q => !(q.2.link == l)
  noGrant : ∀ p ∈ t.grants, p.2.link ≠ l
  waiting : t.waiting = s.waiting.filter fun e => !(e.link == l)

theorem endLinkTraffic_ends (l : Nat) (s : State) : TrafficEnds s (endLinkTraffic l s) l := by
  obtain ⟨s1, h1, hs1, h2, hw⟩ := endLinkTraffic_acts l s
  generalize endLinkTraffic l s = t at h2 hw ⊢
  have hgr : t.grants = s1.grants := (congrArg State.grants h2.rest :)
  have hg : ∀ p ∈ t.grants, p.2.link ≠ l := by
    rw [hgr, h1.grants]
    intro p hp he
    obtain ⟨hm, hall⟩ := List.mem_filter.1 hp
    rw [List.all_eq_true] at hall
    have := hall p (List.mem_filter.2 ⟨hm, by simp [he]⟩)
    simp at this
  refine ⟨?_, fun a => ?_, fun x => ?_, fun k => ?_, fun h => ?_, fun h => ?_, hg, hw⟩
  · exact (congrArg State.free h2.rest :).trans h1.free
  · rw [h2.account a, h1.account a, lapsedFrom_eq, List.countP_filter]
    have hc : (fun e : Entry => e.account == a && e.link == l) = fun e => e.link == l && e.account == a :=
      funext fun e => Bool.and_comm _ _
    rw [hc]
  · exact (congrArg (Table.getD IndexSet.reset · x) (congrArg State.sets h2.rest :)).trans (h1.set x)
  · have := congrArg (fun q => (Table.getD Stream.reset q k).reserved) (congrArg State.streams h2.rest :)
    exact this.trans ((h1.stream k).trans (by rw [lapsedRecords_eq]))
  · have he : t.event Event.grantLapse.code = s1.event Event.grantLapse.code :=
      congrArg (Table.getD EventRecord.reset · _) (congrArg State.events h2.rest :)
    rw [he]
    obtain ⟨q, hq, hl⟩ := h
    refine h1.set_flag (List.ne_nil_of_mem (List.mem_filter.2 ⟨hq, by simp [hl]⟩))
  · rw [hgr, hs1, grants_lapseGrants _ h]

/-- The same between states that agree in the records it speaks of. -/
theorem TrafficEnds.congr {s y x r : State} {l : Nat} (h : TrafficEnds y x l)
    (hs : ∃ z : State, y = { z with
      free := s.free, accounts := s.accounts, sets := s.sets, streams := s.streams, grants := s.grants,
      events := s.events, waiting := s.waiting })
    (hr : ∃ z : State, r = { z with
      free := x.free, accounts := x.accounts, sets := x.sets, streams := x.streams, grants := x.grants,
      events := x.events, waiting := x.waiting }) : TrafficEnds s r l := by
  obtain ⟨z, rfl⟩ := hs
  obtain ⟨w, rfl⟩ := hr
  exact ⟨h.free, h.account, h.set, h.records, h.lapsed, h.grants, h.noGrant, h.waiting⟩

/-- Two states agree in the records the end of a link's traffic speaks of. -/
theorem traffic_eta {s y : State} (h : y.free = s.free ∧ y.accounts = s.accounts ∧ y.sets = s.sets ∧
    y.streams = s.streams ∧ y.grants = s.grants ∧ y.events = s.events ∧ y.waiting = s.waiting) :
    ∃ z : State, y = { z with
      free := s.free, accounts := s.accounts, sets := s.sets, streams := s.streams, grants := s.grants,
      events := s.events, waiting := s.waiting } := by
  obtain ⟨h1, h2, h3, h4, h5, h6, h7⟩ := h
  exact ⟨y, by rw [← h1, ← h2, ← h3, ← h4, ← h5, ← h6, ← h7]⟩

/-! ### A reset of link 0 (R22) -/

/-- The trackers have their values after the full reset (R22). -/
theorem tracker_clearTrackers (s : State) (i : Nat) :
    ((clearTrackers s).tenant i).tracker = RunTracker.reset := by
  unfold clearTrackers State.tenant Table.getD Table.mapPut
  dsimp only
  cases h : Table.find? (List.filter (fun p => decide (p.2 ≠ Tenant.reset))
      (List.map (fun p => (p.1, ({ p.2 with tracker := RunTracker.reset } : Tenant))) s.tenants)) i with
  | none => rfl
  | some v =>
    obtain ⟨p, hp, he⟩ := List.mem_map.1 (List.mem_filter.1 (Table.mem_of_find? h)).1
    injection he with _ he
    rw [← he]
    rfl

/-! ### The owners' acts (Table 9-2) -/

/-- The fields of the records that no reset of a link writes but through the re-test walk. -/
def ResetFrame (s t : State) : Prop :=
  { t with
    free := s.free, accounts := s.accounts, sets := s.sets, streams := s.streams, grants := s.grants,
    events := s.events, alert := s.alert, waiting := s.waiting, captures := s.captures,
    refusals := s.refusals, links := s.links, units := s.units, lanes := s.lanes, tenants := s.tenants,
    flushes := s.flushes, flushOrder := s.flushOrder, reportQueue := s.reportQueue } = s

/-- What the owners' acts at a reset of a link that is UP do, before the walk (Table 9-2). -/
structure OwnersReset (s r : State) (l : Nat) : Prop where
  link : r.link l = downed (s.link l)
  reports : r.reportQueue = s.reportQueue.map (fun i =>
    if i.unit ∈ reportUnits ((s.link l).outbound ++ (s.link l).overflow) then { i with issued := false } else i)
  ends : l ≤ 4 → TrafficEnds s r l
  intake : l = 0 → r.flushes = [] ∧ r.flushOrder = [] ∧ r.lanes = s.lanes ∧ r.units = s.units ∧
    ∀ i, (r.tenant i).tracker = RunTracker.reset
  drain : 1 ≤ l → l ≤ 4 → r.flushes = s.flushes ∧ r.flushOrder = s.flushOrder ∧ r.tenants = s.tenants ∧
    (∀ i, i < 8 → (r.lane (globalLane l i)).state = .absent ∧ (r.lane (globalLane l i)).lapses = 0 ∧
      (LaneLaw s → (r.lane (globalLane l i)).offer = none ∧ (r.lane (globalLane l i)).inFlight = 0)) ∧
    (Table.sorted s.units = true →
      ∀ v, r.unit? v = (s.unit? v).map (leftAll s ((List.range 8).map (globalLane l)) v))
  mgmt : 5 ≤ l → { r with links := s.links, reportQueue := s.reportQueue } = s
  rest : ResetFrame s r

theorem lanes_nodup (l : Nat) : ((List.range 8).map (globalLane l)).Nodup := by
  refine List.Nodup.map (fun a b h => ?_) List.nodup_range
  unfold globalLane at h
  omega

theorem ownersReset_effect (l : Nat) (s : State) : OwnersReset s (ownersReset l (downLink l s)) l := by
  obtain ⟨d1, d2, d3⟩ := downLink_effect l s
  generalize downLink l s = d at d1 d2 d3
  have Q := quiet_survives l _ (downed_quiet (s.link l))
  have hd : ResetFrame s d := (congrArg (fun x : State => ({ x with
    free := s.free, accounts := s.accounts, sets := s.sets, streams := s.streams, grants := s.grants,
    events := s.events, alert := s.alert, waiting := s.waiting, captures := s.captures,
    refusals := s.refusals, links := s.links, units := s.units, lanes := s.lanes, tenants := s.tenants,
    flushes := s.flushes, flushOrder := s.flushOrder, reportQueue := s.reportQueue } : State)) d3 :)
  have same : d.free = s.free ∧ d.accounts = s.accounts ∧ d.sets = s.sets ∧ d.streams = s.streams ∧
      d.grants = s.grants ∧ d.events = s.events ∧ d.waiting = s.waiting :=
    ⟨(congrArg State.free d3 :), (congrArg State.accounts d3 :), (congrArg State.sets d3 :),
      (congrArg State.streams d3 :), (congrArg State.grants d3 :), (congrArg State.events d3 :),
      (congrArg State.waiting d3 :)⟩
  have traffic : ∀ {y x : State}, TrafficFrame y x → ResetFrame s y → ResetFrame s x := by
    intro y x h k
    exact (congrArg (fun x : State => ({ x with
      free := s.free, accounts := s.accounts, sets := s.sets, streams := s.streams, grants := s.grants,
      events := s.events, alert := s.alert, waiting := s.waiting, captures := s.captures,
      refusals := s.refusals, links := s.links, units := s.units, lanes := s.lanes, tenants := s.tenants,
      flushes := s.flushes, flushOrder := s.flushOrder, reportQueue := s.reportQueue } : State)) h).trans k
  by_cases h0 : l = 0
  · subst h0
    have hr : ownersReset 0 d = vacateFlushes (endLinkTraffic 0 (clearTrackers d)) := rfl
    rw [hr]
    have hc : ResetFrame s (clearTrackers d) := hd
    have hct := tracker_clearTrackers d
    have hy : (clearTrackers d).free = s.free ∧ (clearTrackers d).accounts = s.accounts ∧
      (clearTrackers d).sets = s.sets ∧ (clearTrackers d).streams = s.streams ∧
      (clearTrackers d).grants = s.grants ∧ (clearTrackers d).events = s.events ∧
      (clearTrackers d).waiting = s.waiting := same
    have hyl : (clearTrackers d).link 0 = downed (s.link 0) := d1
    have hyq : (clearTrackers d).reportQueue = d.reportQueue := rfl
    have hyu : (clearTrackers d).units = s.units ∧ (clearTrackers d).lanes = s.lanes :=
      ⟨(congrArg State.units d3 :), (congrArg State.lanes d3 :)⟩
    generalize clearTrackers d = y at hc hct hy hyl hyq hyu
    have hx := endLinkTraffic_frame 0 y
    have he := endLinkTraffic_ends 0 y
    have hxl := Q.endLinkTraffic 0 hyl
    generalize endLinkTraffic 0 y = x at hx he hxl
    have hrx : ResetFrame s x := traffic hx hc
    refine ⟨hxl, ?_, fun _ => ?_, fun _ => ⟨rfl, rfl, ?_, ?_, fun i => ?_⟩, fun h => by omega,
      fun h => by omega, hrx⟩
    · refine (show (vacateFlushes x).reportQueue = x.reportQueue from rfl).trans ?_
      rw [(congrArg State.reportQueue hx :), hyq, d2]
    · exact he.congr (traffic_eta hy) ⟨vacateFlushes x, rfl⟩
    · exact (congrArg State.lanes hx :).trans hyu.2
    · exact (congrArg State.units hx :).trans hyu.1
    · rw [← hct i]
      exact congrArg (fun q => (Table.getD Tenant.reset q i).tracker) (congrArg State.tenants hx :)
  · by_cases h4 : l ≤ 4
    · have hdr : isDrain l = true := by unfold isDrain; simp; omega
      have hr : ownersReset l d = endLinkTraffic l (resetLanes l d) := by
        unfold ownersReset; rw [if_neg h0, if_pos hdr]
      rw [hr, resetLanes_eq]
      have lr := laneReset_rest ((List.range 8).map (globalLane l)) d
      have ll := laneReset_lanes ((List.range 8).map (globalLane l)) d (lanes_nodup l)
      have lu := fun hs => (laneReset_effect ((List.range 8).map (globalLane l)) d (lanes_nodup l) hs).units
      generalize ((List.range 8).map (globalLane l)).foldl resetLane d = y at lr ll lu
      have hy : ResetFrame s y := (congrArg (fun x : State => ({ x with
        free := s.free, accounts := s.accounts, sets := s.sets, streams := s.streams, grants := s.grants,
        events := s.events, alert := s.alert, waiting := s.waiting, captures := s.captures,
        refusals := s.refusals, links := s.links, units := s.units, lanes := s.lanes, tenants := s.tenants,
        flushes := s.flushes, flushOrder := s.flushOrder, reportQueue := s.reportQueue } : State)) lr).trans hd
      have hyl : y.link l = downed (s.link l) :=
        (congrArg (Table.getD Link.reset · l) (congrArg State.links lr :)).trans d1
      have hyq : y.reportQueue = d.reportQueue := (congrArg State.reportQueue lr :)
      have hys : y.free = s.free ∧ y.accounts = s.accounts ∧ y.sets = s.sets ∧ y.streams = s.streams ∧
          y.grants = s.grants ∧ y.events = s.events ∧ y.waiting = s.waiting :=
        ⟨(congrArg State.free lr :).trans same.1, (congrArg State.accounts lr :).trans same.2.1,
          (congrArg State.sets lr :).trans same.2.2.1, (congrArg State.streams lr :).trans same.2.2.2.1,
          (congrArg State.grants lr :).trans same.2.2.2.2.1,
          (congrArg State.events lr :).trans same.2.2.2.2.2.1,
          (congrArg State.waiting lr :).trans same.2.2.2.2.2.2⟩
      have hlane : ∀ g, d.lane g = s.lane g := fun g =>
        congrArg (Table.getD Lane.reset · g) (congrArg State.lanes d3 :)
      have hunit : ∀ v, d.unit? v = s.unit? v := fun v =>
        congrArg (Table.find? · v) (congrArg State.units d3 :)
      have hx := endLinkTraffic_frame l y
      have he := endLinkTraffic_ends l y
      have hxl := Q.endLinkTraffic l hyl
      generalize endLinkTraffic l y = x at hx he hxl
      have hxlane : ∀ g, x.lane g = y.lane g := fun g =>
        congrArg (Table.getD Lane.reset · g) (congrArg State.lanes hx :)
      refine ⟨hxl, ?_, fun _ => ?_, fun h => absurd h h0, fun _ _ => ⟨?_, ?_, ?_, fun i hi => ?_, fun hs v => ?_⟩,
        fun h => by omega, traffic hx hy⟩
      · rw [(congrArg State.reportQueue hx :), hyq, d2]
      · exact he.congr (traffic_eta hys) ⟨x, rfl⟩
      · exact (congrArg State.flushes hx :).trans ((congrArg State.flushes lr :).trans (congrArg State.flushes d3 :))
      · exact (congrArg State.flushOrder hx :).trans
          ((congrArg State.flushOrder lr :).trans (congrArg State.flushOrder d3 :))
      · exact (congrArg State.tenants hx :).trans ((congrArg State.tenants lr :).trans (congrArg State.tenants d3 :))
      · obtain ⟨a, b, c⟩ := ll.1 (globalLane l i) (List.mem_map.2 ⟨i, List.mem_range.2 hi, rfl⟩)
        rw [hxlane]
        exact ⟨a, b, fun h => c fun g => by rw [hlane]; exact h g⟩
      · have hds : Table.sorted d.units = true := by rw [(congrArg State.units d3 :)]; exact hs
        have hxu : x.unit? v = y.unit? v := congrArg (Table.find? · v) (congrArg State.units hx :)
        rw [hxu, lu hds, hunit]
        congr 1
        funext u
        unfold leftAll leftUp
        simp only [hlane]
    · have hdr : isDrain l = false := by unfold isDrain; simp; omega
      have hr : ownersReset l d = d := by
        unfold ownersReset; rw [if_neg h0, if_neg (by simp [hdr])]
      rw [hr]
      exact ⟨d1, d2, fun h => absurd h h4, fun h => absurd h h0, fun _ h => absurd h h4, fun _ => d3, hd⟩

end Sys2Proof.Machine
end

