-- ==== Sys2Proof/Laws/Queue.lean ====
section
/-! SUPPORT. The staged queue: which units it holds and in which order (R100); which of them a lane is offered
(R106 to R108). -/

namespace Sys2Proof.Machine

/-- A unit is older than another, as a proposition (R100). -/
def Older (s : State) (v w : Nat × UnitRecord) : Prop :=
  stagedDistance s (w.2.stagedSeq.getD 0) < stagedDistance s (v.2.stagedSeq.getD 0) ∨
    (stagedDistance s (w.2.stagedSeq.getD 0) = stagedDistance s (v.2.stagedSeq.getD 0) ∧ v.1 < w.1)

theorem olderUnit_iff (s : State) (v w : Nat × UnitRecord) : olderUnit s v w = true ↔ Older s v w := by
  unfold olderUnit Older
  simp only [Bool.or_eq_true, Bool.and_eq_true, decide_eq_true_eq, beq_iff_eq]
  constructor
  · rintro (h | ⟨h1, h2⟩)
    · exact .inl h
    · exact .inr ⟨h1.symm, h2⟩
  · rintro (h | ⟨h1, h2⟩)
    · exact .inl h
    · exact .inr ⟨h1.symm, h2⟩

theorem Older.trans {s : State} {a b c : Nat × UnitRecord} (h : Older s a b) (k : Older s b c) : Older s a c := by
  unfold Older at *
  omega

theorem older_total {s : State} {a b : Nat × UnitRecord} (hne : a.1 ≠ b.1) (h : ¬Older s a b) : Older s b a := by
  unfold Older at *
  omega

theorem queueInsert_perm (s : State) (v : Nat × UnitRecord) (l : List (Nat × UnitRecord)) :
    (queueInsert s v l).Perm (v :: l) := by
  induction l with
  | nil => exact .refl _
  | cons w l ih =>
    unfold queueInsert
    split
    · exact .refl _
    · exact (ih.cons w).trans (.swap v w l)

theorem queueInsert_ordered (s : State) (v : Nat × UnitRecord) (l : List (Nat × UnitRecord))
    (hn : ∀ w ∈ l, v.1 ≠ w.1) (h : l.Pairwise (Older s)) : (queueInsert s v l).Pairwise (Older s) := by
  induction l with
  | nil => exact List.pairwise_singleton _ _
  | cons w l ih =>
    rw [List.pairwise_cons] at h
    unfold queueInsert
    split
    · rename_i ho
      have ho := (olderUnit_iff s v w).1 ho
      rw [List.pairwise_cons]
      refine ⟨fun x hx => ?_, List.pairwise_cons.2 h⟩
      rcases List.mem_cons.1 hx with rfl | hx
      · exact ho
      · exact ho.trans (h.1 x hx)
    · rename_i ho
      have hw : Older s w v := older_total (hn w (by simp)) fun c => ho ((olderUnit_iff s v w).2 c)
      rw [List.pairwise_cons]
      refine ⟨fun x hx => ?_, ih (fun x hx => hn x (by simp [hx])) h.2⟩
      rcases List.mem_cons.1 ((queueInsert_perm s v l).mem_iff.1 hx) with rfl | hx
      · exact hw
      · exact h.1 x hx

/-- The STAGED units with their records, oldest first (R100). -/
def stagedRecords (s : State) : List (Nat × UnitRecord) :=
  (s.units.filter (fun p => p.2.state = .staged)).foldr (queueInsert s) []

theorem stagedQueue_eq (s : State) : stagedQueue s = (stagedRecords s).map (·.1) := rfl

theorem stagedRecords_spec {s : State} (hs : Table.sorted s.units = true) :
    (stagedRecords s).Perm (s.units.filter (fun p => p.2.state = .staged)) ∧
      (stagedRecords s).Pairwise (Older s) := by
  have key : ∀ l : List (Nat × UnitRecord), l.Pairwise (fun p q => p.1 < q.1) →
      (l.foldr (queueInsert s) []).Perm l ∧ (l.foldr (queueInsert s) []).Pairwise (Older s) := by
    intro l
    induction l with
    | nil => intro _; exact ⟨.refl _, .nil⟩
    | cons p l ih =>
      intro h
      rw [List.pairwise_cons] at h
      obtain ⟨h1, h2⟩ := ih h.2
      rw [List.foldr_cons]
      refine ⟨(queueInsert_perm _ _ _).trans (h1.cons p), queueInsert_ordered _ _ _ (fun w hw => ?_) h2⟩
      exact Nat.ne_of_lt (h.1 w (h1.mem_iff.1 hw))
  exact key _ (((Table.sorted_iff _).1 hs).filter _)

/-- The staged queue holds every STAGED unit, and no other (R100). -/
theorem mem_stagedQueue_iff {s : State} (hs : Table.sorted s.units = true) (v : Nat) :
    v ∈ stagedQueue s ↔ ∃ u, s.unit? v = some u ∧ u.state = .staged := by
  rw [stagedQueue_eq]
  simp only [List.mem_map, (stagedRecords_spec hs).1.mem_iff, List.mem_filter, decide_eq_true_eq]
  constructor
  · rintro ⟨⟨a, u⟩, ⟨hm, ho⟩, rfl⟩
    exact ⟨u, Table.find?_of_mem hs hm, ho⟩
  · rintro ⟨u, hu, ho⟩
    exact ⟨(v, u), ⟨Table.mem_of_find? hu, ho⟩, rfl⟩

/-- The staged queue holds each of them once (R100). -/
theorem stagedQueue_nodup {s : State} (hs : Table.sorted s.units = true) : (stagedQueue s).Nodup := by
  rw [stagedQueue_eq, ((stagedRecords_spec hs).1.map (·.1)).nodup_iff]
  exact (((Table.sorted_iff _).1 hs).filter _).map _ fun a b h => Nat.ne_of_lt h

/-- The staged queue holds them oldest first (R100). -/
theorem stagedQueue_ordered {s : State} (hs : Table.sorted s.units = true) {earlier later : List Nat} {v w : Nat}
    (he : stagedQueue s = earlier ++ v :: later) (hw : w ∈ later) {u x : UnitRecord}
    (hu : s.unit? v = some u) (hx : s.unit? w = some x) : Older s (v, u) (w, x) := by
  have hp := (stagedRecords_spec hs).2
  have hmem : ∀ p ∈ stagedRecords s, s.unit? p.1 = some p.2 := fun p h =>
    Table.find?_of_mem (v := p.2) hs (List.mem_filter.1 ((stagedRecords_spec hs).1.mem_iff.1 h)).1
  rw [stagedQueue_eq] at he
  obtain ⟨a, b, hab, -, hb⟩ := List.map_eq_append_iff.1 he
  obtain ⟨p, l, rfl, hp1, hl⟩ := List.map_eq_cons_iff.1 hb
  rw [← hl] at hw
  obtain ⟨q, hq, hq1⟩ := List.mem_map.1 hw
  have h1 := hmem p (by rw [hab]; simp)
  have h2 := hmem q (by rw [hab]; simp [hq])
  rw [hp1, hu] at h1
  rw [hq1, hx] at h2
  rw [hab] at hp
  have := (List.pairwise_cons.1 (List.pairwise_append.1 hp).2.1).1 q hq
  have e1 : p = (v, u) := Prod.ext hp1 (Option.some.inj h1).symm
  have e2 : q = (w, x) := Prod.ext hq1 (Option.some.inj h2).symm
  rw [e1, e2] at this
  exact this

/-- When a lane can take an offer (R106). -/
theorem laneReadyForOffer_iff (s : State) (g : Nat) :
    laneReadyForOffer s g = true ↔
      (s.lane g).state = .up ∧ (s.lane g).offer = none ∧ (s.lane g).inFlight < (s.drain (laneLink g)).depth := by
  unfold laneReadyForOffer
  simp only [Bool.and_eq_true, beq_iff_eq, decide_eq_true_eq, Option.isNone_iff_eq_none, and_assoc]

/-- Which units a lane can be offered (R106, R107). -/
theorem eligible_iff (s : State) (g v : Nat) :
    (s.part ≠ .powerFail → (eligible s g v = true ↔
      (s.stream (v / 64)).state ≠ .paused ∧ (s.stream (v / 64)).lanes.getLsbD g = true)) ∧
    (s.part = .powerFail → (eligible s g v = true ↔
      (s.stream (v / 64)).lanes.getLsbD g = true ∨
        ∀ i, i < 32 → (s.stream (v / 64)).lanes.getLsbD i = true → (s.lane i).state ≠ .up)) := by
  unfold eligible
  refine ⟨fun h => ?_, fun h => ?_⟩
  · dsimp only
    rw [if_neg h]
    simp only [Bool.and_eq_true, bne_iff_ne]
    rfl
  · dsimp only
    rw [if_pos h]
    simp only [Bool.or_eq_true, Bool.not_eq_true', List.any_eq_false, List.mem_range, Bool.and_eq_true,
      beq_iff_eq, not_and]
    rfl

end Sys2Proof.Machine
end

