-- ==== Sys2Proof/Laws/OfferLapses.lean ====
section
/-! SUPPORT. The lapse of offers at a slot visit: what it does to the lanes and to the units (R105, R111,
R112). -/

namespace Sys2Proof.Machine

/-- What the lapse of its offer leaves of a lane record (R111, R112). -/
def lapsedLane (k : Lane) : Lane :=
  { k with
    offer := none, lapses := k.lapses + 1, totalLapses := satSucc k.totalLapses,
    state := if 8 ≤ k.lapses + 1 then .down else k.state,
    inFlight := if 8 ≤ k.lapses + 1 then 0 else k.inFlight }

/-- What the lapse of lane `g`'s offer does to one unit record (R111, R112, R116). -/
def lapsedUnit (s : State) (g v : Nat) (u : UnitRecord) : UnitRecord :=
  if ∃ o, (s.lane g).offer = some o ∧ o.unit = v then { u with state := .staged, lane := none }
  else if 8 ≤ (s.lane g).lapses + 1 ∧ u.state = .inFlight ∧ u.lane = some g then
    { u with state := .staged, lane := none, restarted := true }
  else u

theorem endLapsedOffer_effect (g : Nat) (o : LaneOffer) (s : State) :
    (∀ j, (endLapsedOffer g o s).lane j =
      if g = j then
        { s.lane g with
          offer := none, lapses := (s.lane g).lapses + 1, totalLapses := satSucc (s.lane g).totalLapses }
      else s.lane j) ∧
    (∀ v, (endLapsedOffer g o s).unit? v =
      if o.unit = v then (s.unit? v).map fun u => { u with state := .staged, lane := none } else s.unit? v) ∧
    (Table.sorted s.units = true → Table.sorted (endLapsedOffer g o s).units = true) := by
  have hl : ∀ j, (restage o.unit s).lane j = s.lane j := by
    intro j
    unfold restage State.modifyUnit
    split <;> rfl
  refine ⟨fun j => ?_, fun v => ?_, fun h => ?_⟩
  · unfold endLapsedOffer
    dsimp only
    rw [State.lane_setLane, hl, hl]
  · exact unit?_modifyUnit s o.unit v _
  · unfold endLapsedOffer restage State.modifyUnit
    dsimp only
    split
    · exact Table.sorted_insert _ _ h
    · exact h

theorem lane_lapseOffer {g : Nat} {s : State} {o : LaneOffer} (ho : (s.lane g).offer = some o) (j : Nat) :
    (lapseOffer g s).lane j = if g = j then lapsedLane (s.lane g) else s.lane j := by
  obtain ⟨h1, -, -⟩ := endLapsedOffer_effect g o s
  unfold lapseOffer
  rw [ho]
  dsimp only
  have he : ∀ i, (setEvent .offerLapse (endLapsedOffer g o s)).lane i = (endLapsedOffer g o s).lane i :=
    fun _ => rfl
  have hg := (he g).trans ((h1 g).trans (if_pos rfl))
  have hlim : Config.lapseLimit = 8 := rfl
  split
  · rename_i h8
    rw [hg, hlim] at h8
    refine (show _ = (leaveUp g .down (setEvent .offerLapse (endLapsedOffer g o s))).lane j from rfl).trans ?_
    rw [lane_leaveUp]
    split
    · rw [hg]
      unfold lapsedLane
      have h8 : 8 ≤ (s.lane g).lapses + 1 := h8
      rw [if_pos h8, if_pos h8]
    · rename_i hj
      rw [he, h1, if_neg hj]
  · rename_i h8
    rw [hg, hlim] at h8
    rw [he, h1]
    split
    · unfold lapsedLane
      have h8 : ¬8 ≤ (s.lane g).lapses + 1 := h8
      rw [if_neg h8, if_neg h8]
    · rfl

theorem unit?_lapseOffer {g : Nat} {s : State} (hs : Table.sorted s.units = true)
    (ho : (s.lane g).offer ≠ none) (v : Nat) :
    (lapseOffer g s).unit? v = (s.unit? v).map (lapsedUnit s g v) := by
  obtain ⟨o, ho⟩ := Option.ne_none_iff_exists'.1 ho
  obtain ⟨h1, h2, h3⟩ := endLapsedOffer_effect g o s
  unfold lapseOffer
  rw [ho]
  dsimp only
  have he : ∀ i, (setEvent .offerLapse (endLapsedOffer g o s)).lane i = (endLapsedOffer g o s).lane i :=
    fun _ => rfl
  have hg := (he g).trans ((h1 g).trans (if_pos rfl))
  have hlim : Config.lapseLimit = 8 := rfl
  have hcase : ∀ u : UnitRecord, lapsedUnit s g v u =
      if o.unit = v then { u with state := .staged, lane := none }
      else if 8 ≤ (s.lane g).lapses + 1 ∧ u.state = .inFlight ∧ u.lane = some g then
        { u with state := .staged, lane := none, restarted := true }
      else u := by
    intro u
    unfold lapsedUnit
    by_cases hv : o.unit = v
    · rw [if_pos ⟨o, ho, hv⟩, if_pos hv]
    · rw [if_neg, if_neg hv]
      rintro ⟨p, hp, hpv⟩
      rw [ho] at hp
      injection hp with hp
      exact hv (hp ▸ hpv)
  split
  · rename_i h8
    rw [hg, hlim] at h8
    have h8 : 8 ≤ (s.lane g).lapses + 1 := h8
    refine (show _ = (leaveUp g .down (setEvent .offerLapse (endLapsedOffer g o s))).unit? v from rfl).trans ?_
    rw [unit?_leaveUp g .down (setEvent .offerLapse (endLapsedOffer g o s)) (h3 hs)]
    have hu : (setEvent .offerLapse (endLapsedOffer g o s)).unit? v = (endLapsedOffer g o s).unit? v := rfl
    rw [hu, h2, hg]
    cases hx : s.unit? v with
    | none => split <;> rfl
    | some u =>
      by_cases hv : o.unit = v
      · rw [if_pos hv]; simp [hcase, hv]
      · rw [if_neg hv]; simp [hcase, hv, h8]
  · rename_i h8
    rw [hg, hlim] at h8
    have h8 : ¬8 ≤ (s.lane g).lapses + 1 := h8
    refine (show _ = (endLapsedOffer g o s).unit? v from rfl).trans ?_
    rw [h2]
    cases hx : s.unit? v with
    | none => split <;> rfl
    | some u =>
      by_cases hv : o.unit = v
      · rw [if_pos hv]; simp [hcase, hv]
      · rw [if_neg hv]; simp [hcase, hv, h8]

theorem lapseOffer_flags (g : Nat) (s : State) :
    (∀ i, (s.event i).flag = true → ((lapseOffer g s).event i).flag = true) ∧
      ((s.lane g).offer ≠ none → ((lapseOffer g s).event Event.offerLapse.code).flag = true ∧
        (8 ≤ (s.lane g).lapses + 1 → ((lapseOffer g s).event Event.laneDown.code).flag = true)) := by
  have hev : ∀ (o : LaneOffer) (i : Nat), (endLapsedOffer g o s).event i = s.event i := by
    intro o i
    have h : (endLapsedOffer g o s).events = s.events := by
      unfold endLapsedOffer restage State.modifyUnit
      dsimp only
      split <;> rfl
    exact congrArg (Table.getD EventRecord.reset · i) h
  have hleave : ∀ (d : LaneState) (t : State) (i : Nat), (leaveUp g d t).event i = t.event i := fun d t i =>
    congrArg (Table.getD EventRecord.reset · i) (congrArg State.events (leaveUp_frame g d t) :)
  unfold lapseOffer
  cases ho : (s.lane g).offer with
  | none => exact ⟨fun _ h => h, fun h => absurd rfl h⟩
  | some o =>
    dsimp only
    have hg : ((setEvent .offerLapse (endLapsedOffer g o s)).lane g).lapses = (s.lane g).lapses + 1 := by
      have := ((endLapsedOffer_effect g o s).1 g).trans (if_pos rfl)
      exact congrArg Lane.lapses this
    have h0 : ((setEvent .offerLapse (endLapsedOffer g o s)).event Event.offerLapse.code).flag = true := by
      rw [event_setEvent_same]
    split
    · refine ⟨fun i h => ?_, fun _ => ⟨?_, fun _ => ?_⟩⟩
      · refine flag_setEvent _ _ _ ?_
        rw [hleave]
        exact flag_setEvent _ _ _ (by rw [hev]; exact h)
      · refine flag_setEvent _ _ _ ?_
        rw [hleave]
        exact h0
      · rw [event_setEvent_same]
    · rename_i h8
      refine ⟨fun i h => flag_setEvent _ _ _ (by rw [hev]; exact h), fun _ => ⟨h0, fun h => absurd ?_ h8⟩⟩
      rw [hg]
      exact h

/-- What a group of lapses does to one unit record. -/
def lapsedUnits (s : State) (gs : List Nat) (v : Nat) (u : UnitRecord) : UnitRecord :=
  gs.foldl (fun u g => lapsedUnit s g v u) u

/-- What the lapses of a group of lanes' offers do (R105, R111, R112). -/
structure OffersLapse (s t : State) (gs : List Nat) : Prop where
  lapsed : ∀ g ∈ gs, t.lane g = lapsedLane (s.lane g)
  others : ∀ j, j ∉ gs → t.lane j = s.lane j
  units : Table.sorted s.units = true → ∀ v, t.unit? v = (s.unit? v).map (lapsedUnits s gs v)
  flags : ∀ g ∈ gs, (t.event Event.offerLapse.code).flag = true ∧
    (8 ≤ (s.lane g).lapses + 1 → (t.event Event.laneDown.code).flag = true)
  rest : WheelFrame s t

theorem lapseOffers_effect (gs : List Nat) (s : State) (hn : gs.Nodup)
    (ho : ∀ g ∈ gs, (s.lane g).offer ≠ none) : OffersLapse s (gs.foldl (fun s g => lapseOffer g s) s) gs := by
  have frame : WheelFrame s (gs.foldl (fun s g => lapseOffer g s) s) :=
    fold_keeps (I := WheelFrame s) (fun s g => lapseOffer g s)
      (fun _ g h => (WheelFrame.survives s).lapseOffer g h) gs rfl
  refine ⟨?_, ?_, ?_, ?_, frame⟩ <;> clear frame
  · induction gs generalizing s with
    | nil => intro g h; cases h
    | cons g gs ih =>
      rw [List.nodup_cons] at hn
      obtain ⟨o, hg⟩ := Option.ne_none_iff_exists'.1 (ho g (by simp))
      have hl := lane_lapseOffer hg
      have hi := ih (lapseOffer g s) hn.2 (fun j hj => by
        rw [hl, if_neg (fun (e : g = _) => hn.1 (e ▸ hj))]; exact ho j (by simp [hj]))
      have hk : ∀ (l : List Nat) (t : State), g ∉ l → (∀ j ∈ l, (t.lane j).offer ≠ none) → l.Nodup →
          (l.foldl (fun s g => lapseOffer g s) t).lane g = t.lane g := by
        intro l
        induction l with
        | nil => intro t _ _ _; rfl
        | cons j l ihl =>
          intro t hgl hjl hnl
          rw [List.nodup_cons] at hnl
          rw [List.mem_cons, not_or] at hgl
          obtain ⟨p, hp⟩ := Option.ne_none_iff_exists'.1 (hjl j (by simp))
          have ht := lane_lapseOffer hp
          rw [List.foldl_cons, ihl _ hgl.2 (fun i hi => by
            rw [ht, if_neg (fun (e : j = _) => hnl.1 (e ▸ hi))]; exact hjl i (by simp [hi])) hnl.2, ht,
            if_neg (Ne.symm hgl.1)]
      intro j hj
      rw [List.foldl_cons]
      by_cases hgj : j = g
      · subst hgj
        rw [hk gs _ hn.1 (fun i hi => by
          rw [hl, if_neg (fun (e : j = _) => hn.1 (e ▸ hi))]; exact ho i (by simp [hi])) hn.2, hl, if_pos rfl]
      · have hm : j ∈ gs := by simpa [hgj] using hj
        rw [hi j hm, hl, if_neg (Ne.symm hgj)]
  · induction gs generalizing s with
    | nil => intro j _; rfl
    | cons g gs ih =>
      rw [List.nodup_cons] at hn
      obtain ⟨o, hg⟩ := Option.ne_none_iff_exists'.1 (ho g (by simp))
      have hl := lane_lapseOffer hg
      intro j hj
      rw [List.mem_cons, not_or] at hj
      rw [List.foldl_cons, ih (lapseOffer g s) hn.2 (fun i hi => by
        rw [hl, if_neg (fun (e : g = _) => hn.1 (e ▸ hi))]; exact ho i (by simp [hi])) j hj.2, hl,
        if_neg (Ne.symm hj.1)]
  · induction gs generalizing s with
    | nil => intro _ v; cases h : s.unit? v <;> simp [h, lapsedUnits]
    | cons g gs ih =>
      rw [List.nodup_cons] at hn
      intro hs v
      obtain ⟨o, hg⟩ := Option.ne_none_iff_exists'.1 (ho g (by simp))
      have hl := lane_lapseOffer hg
      have hsort : Table.sorted (lapseOffer g s).units = true := by
        unfold lapseOffer
        rw [hg]
        dsimp only
        have h3 := (endLapsedOffer_effect g o s).2.2 hs
        split
        · exact sorted_units_leaveUp g .down (s := setEvent .offerLapse (endLapsedOffer g o s)) h3
        · exact h3
      rw [List.foldl_cons, ih (lapseOffer g s) hn.2 (fun i hi => by
        rw [hl, if_neg (fun (e : g = _) => hn.1 (e ▸ hi))]; exact ho i (by simp [hi])) hsort v,
        unit?_lapseOffer hs (ho g (by simp)), Option.map_map]
      congr 1
      funext u
      show List.foldl _ _ gs = List.foldl _ _ gs
      refine List.foldl_ext _ _ _ fun u j hj => ?_
      have hne : g ≠ j := fun (e : g = _) => hn.1 (e ▸ hj)
      unfold lapsedUnit
      rw [hl, if_neg hne]
  · have keep : ∀ (l : List Nat) (t : State) i, (t.event i).flag = true →
        ((l.foldl (fun s g => lapseOffer g s) t).event i).flag = true := fun l t i h =>
      fold_keeps (I := fun t => (t.event i).flag = true) (fun s g => lapseOffer g s)
        (fun x g h => (lapseOffer_flags g x).1 i h) l h
    induction gs generalizing s with
    | nil => intro g h; cases h
    | cons g gs ih =>
      rw [List.nodup_cons] at hn
      obtain ⟨o, hg⟩ := Option.ne_none_iff_exists'.1 (ho g (by simp))
      have hl := lane_lapseOffer hg
      intro j hj
      rw [List.foldl_cons]
      by_cases hgj : j = g
      · subst hgj
        obtain ⟨a, b⟩ := (lapseOffer_flags j s).2 (ho j (by simp))
        exact ⟨keep _ _ _ a, fun h => keep _ _ _ (b h)⟩
      · have hm : j ∈ gs := by simpa [hgj] using hj
        have := ih (lapseOffer g s) hn.2 (fun i hi => by
          rw [hl, if_neg (fun (e : g = _) => hn.1 (e ▸ hi))]; exact ho i (by simp [hi])) j hm
        rw [hl, if_neg (Ne.symm hgj)] at this
        exact this

/-- A unit whose offer does not lapse, and which is not IN_FLIGHT on a lane that goes DOWN, stays. -/
theorem lapsedUnits_same (s : State) (gs : List Nat) (v : Nat) (u : UnitRecord)
    (h : ∀ g ∈ gs, (¬∃ o, (s.lane g).offer = some o ∧ o.unit = v) ∧
      ¬(8 ≤ (s.lane g).lapses + 1 ∧ u.state = .inFlight ∧ u.lane = some g)) : lapsedUnits s gs v u = u := by
  unfold lapsedUnits
  induction gs with
  | nil => rfl
  | cons g gs ih =>
    have h1 : lapsedUnit s g v u = u := by
      unfold lapsedUnit; rw [if_neg (h g (by simp)).1, if_neg (h g (by simp)).2]
    rw [List.foldl_cons, h1]
    exact ih fun j hj => h j (by simp [hj])

/-- A unit whose offer lapses is STAGED again (R111). -/
theorem lapsedUnits_offered (s : State) (gs : List Nat) (v : Nat) (u : UnitRecord) {g : Nat} (hg : g ∈ gs)
    (ho : ∃ o, (s.lane g).offer = some o ∧ o.unit = v) (hu : u.state = .offered) :
    lapsedUnits s gs v u = { u with state := .staged, lane := none } := by
  have stop : ∀ l : List Nat, l.foldl (fun u g => lapsedUnit s g v u) { u with state := .staged, lane := none } =
      { u with state := .staged, lane := none } := by
    intro l
    induction l with
    | nil => rfl
    | cons j l ih =>
      have : lapsedUnit s j v { u with state := .staged, lane := none } =
          { u with state := .staged, lane := none } := by
        unfold lapsedUnit
        split
        · rfl
        · rw [if_neg]
          rintro ⟨-, c, -⟩
          cases c
      rw [List.foldl_cons, this, ih]
  unfold lapsedUnits
  induction gs with
  | nil => cases hg
  | cons j gs ih =>
    rw [List.foldl_cons]
    by_cases hj : ∃ o, (s.lane j).offer = some o ∧ o.unit = v
    · have : lapsedUnit s j v u = { u with state := .staged, lane := none } := if_pos hj
      rw [this, stop]
    · have h1 : lapsedUnit s j v u = u := by
        unfold lapsedUnit
        rw [if_neg hj, if_neg]
        rintro ⟨-, c, -⟩
        rw [hu] at c
        cases c
      rw [h1]
      refine ih ?_
      rcases List.mem_cons.1 hg with rfl | hg
      · exact absurd ho hj
      · exact hg

/-- A unit IN_FLIGHT on a lane that goes DOWN is STAGED again as restarted (R112, R116). -/
theorem lapsedUnits_inFlight (s : State) (gs : List Nat) (v : Nat) (u : UnitRecord) {g : Nat} (hg : g ∈ gs)
    (h8 : 8 ≤ (s.lane g).lapses + 1) (hu : u.state = .inFlight) (hl : u.lane = some g)
    (hn : ∀ j ∈ gs, ¬∃ o, (s.lane j).offer = some o ∧ o.unit = v) :
    lapsedUnits s gs v u = { u with state := .staged, lane := none, restarted := true } := by
  induction gs with
  | nil => cases hg
  | cons j gs ih =>
    show lapsedUnits s gs v (lapsedUnit s j v u) = _
    by_cases hj : j = g
    · subst hj
      have : lapsedUnit s j v u = { u with state := .staged, lane := none, restarted := true } := by
        unfold lapsedUnit; rw [if_neg (hn j (by simp)), if_pos ⟨h8, hu, hl⟩]
      rw [this]
      exact lapsedUnits_same _ _ _ _ fun i hi => ⟨hn i (by simp [hi]), by rintro ⟨-, c, -⟩; cases c⟩
    · have : lapsedUnit s j v u = u := by
        unfold lapsedUnit
        rw [if_neg (hn j (by simp)), if_neg]
        rintro ⟨-, -, c⟩
        exact hj (Option.some.inj (c.symm.trans hl))
      rw [this]
      exact ih (by simpa [Ne.symm hj] using hg) fun i hi => hn i (by simp [hi])

/-- The lanes whose offers lapse at a visit (R105). -/
theorem mem_lapsingLanes (s : State) (pos j : Nat) :
    j ∈ lapsingLanes s pos ↔ j < 32 ∧ ∃ p, (s.lane j).offer = some p ∧
      ((s.slot pos).enabled = true ∧ globalLane (s.slot pos).link (s.slot pos).lane = j ∨ p.slot = pos) := by
  unfold lapsingLanes lapsesAt Slot.names
  rw [List.mem_filter, List.mem_range]
  refine and_congr Iff.rfl ?_
  cases ho : (s.lane j).offer with
  | none => simp
  | some p => simp

end Sys2Proof.Machine
end

