-- ==== Sys2Proof/Laws/Rules.lean ====
section
/-! SUPPORT. The matching of classification rules, as R5 says it, and what a search for the least number finds. -/

namespace Sys2Proof

/-- The least number below a bound that satisfies a condition. -/
theorem firstFrom_iff (p : Nat → Bool) (n r : Nat) :
    firstFrom p n 0 = some r ↔ r < n ∧ p r = true ∧ ∀ j, j < r → ¬ p j = true := by
  constructor
  · intro h
    obtain ⟨-, a, b, c⟩ := firstFrom_some h
    exact ⟨by omega, b, fun j hj => by simp [c j (by omega) hj]⟩
  · rintro ⟨a, b, c⟩
    cases h : firstFrom p n 0 with
    | none => have := firstFrom_none h r (by omega) (by omega); rw [b] at this; cases this
    | some k =>
      obtain ⟨-, a', b', c'⟩ := firstFrom_some h
      congr 1
      rcases Nat.lt_trichotomy k r with h1 | h1 | h1
      · exact absurd b' (c k h1)
      · exact h1
      · have := c' r (by omega) h1; rw [b] at this; cases this

/-- No number below a bound satisfies a condition. -/
theorem firstFrom_none_iff (p : Nat → Bool) (n : Nat) :
    firstFrom p n 0 = none ↔ ∀ j, j < n → ¬ p j = true := by
  constructor
  · intro h j hj; simp [firstFrom_none h j (by omega) (by omega)]
  · intro h
    cases hf : firstFrom p n 0 with
    | none => rfl
    | some k => obtain ⟨-, a', b', c'⟩ := firstFrom_some hf; exact absurd b' (h k (by omega))

end Sys2Proof

namespace Sys2Proof.Machine

/-- The tenant, handle and hint conditions of R5. -/
theorem selects_iff (r : Rule) (t handle : Nat) (hint : Option Nat) :
    r.selects t handle hint = true ↔ Selects r t handle hint := by
  unfold Rule.selects Selects
  simp only [Bool.and_eq_true, decide_eq_true_eq, and_assoc, Option.all_eq_true, beq_iff_eq]
  constructor
  · rintro ⟨a, b, c, d, e⟩; exact ⟨a, b, c, fun h hh => (d h hh).symm, e⟩
  · rintro ⟨a, b, c, d, e⟩; exact ⟨a, b, c, fun h hh => (d h hh).symm, e⟩

/-- When a PROTECT rule matches (R5). -/
theorem protects_iff (r : Rule) (t handle lba n : Nat) (hint : Option Nat) :
    r.protects t handle lba n hint = true ↔ Protects r t handle lba n hint := by
  unfold Rule.protects Protects
  simp only [Bool.and_eq_true, decide_eq_true_eq, and_assoc, beq_iff_eq, selects_iff]

/-- When a STREAM or PASS rule matches (R5). -/
theorem directs_iff (r : Rule) (t handle lba : Nat) (hint : Option Nat) :
    r.directs t handle lba hint = true ↔ Directs r t handle lba hint := by
  unfold Rule.directs Directs
  simp only [Bool.and_eq_true, decide_eq_true_eq, and_assoc, bne_iff_ne, selects_iff]

end Sys2Proof.Machine
end

