-- ==== Sys2Proof/Laws/Opening.lean ====
section
/-! SUPPORT. The opening of a unit from the ring of its stream (R88). -/

namespace Sys2Proof.Machine

/-- The record that is opened next: the first VACANT one of the ring from the cursor on (R88). -/
theorem nextRecord_some {s : State} {k r : Nat} (h : nextRecord s k = some r) :
    ∃ i, i < 64 ∧ r = ((s.stream k).cursor + i) % 64 ∧ s.unit? (64 * k + r) = none ∧
      ∀ j, j < i → s.unit? (64 * k + ((s.stream k).cursor + j) % 64) ≠ none := by
  unfold nextRecord at h
  simp only [Option.map_eq_some_iff] at h
  obtain ⟨i, hi, rfl⟩ := h
  rw [firstFrom_iff] at hi
  obtain ⟨a, b, c⟩ := hi
  refine ⟨i, a, rfl, Option.isNone_iff_eq_none.1 b, fun j hj hn => c j hj ?_⟩
  exact Option.isNone_iff_eq_none.2 hn

/-- Where the ring has a VACANT record one is opened (R88). -/
theorem nextRecord_isSome {s : State} {k r : Nat} (hr : r < 64) (hn : s.unit? (64 * k + r) = none) :
    (nextRecord s k).isSome = true := by
  unfold nextRecord
  rw [Option.isSome_map, ← Option.not_isNone, Bool.not_eq_true', ← Bool.not_eq_true, Option.isNone_iff_eq_none,
    firstFrom_none_iff]
  intro hf
  have hc := Nat.mod_lt (s.stream k).cursor (show 0 < 64 by decide)
  refine hf ((r + 64 - (s.stream k).cursor % 64) % 64) (Nat.mod_lt _ (by decide)) ?_
  have he : ((s.stream k).cursor + (r + 64 - (s.stream k).cursor % 64) % 64) % 64 = r := by omega
  show (s.unit? (64 * k + ((s.stream k).cursor + (r + 64 - (s.stream k).cursor % 64) % 64) % 64)).isNone = true
  rw [he, hn]
  rfl

/-- The fields the opening of a record may write: all others of `t` are those of `s` (R88). -/
def OpenFrame (s t : State) : Prop :=
  { t with units := s.units, streams := s.streams, drainCount := s.drainCount } = s

theorem OpenFrame.setUnit {s t : State} (h : OpenFrame s t) (v : Nat) (u : UnitRecord) :
    OpenFrame s (t.setUnit v u) := h

theorem OpenFrame.setStream {s t : State} (h : OpenFrame s t) (k : Nat) (v : Stream) :
    OpenFrame s (t.setStream k v) := h

theorem OpenFrame.setDrainCount {s t : State} (h : OpenFrame s t) (n : Nat) :
    OpenFrame s (t.setDrainCount n) := h

theorem openRecord_frame (k r : Nat) (s : State) : OpenFrame s (openRecord k r s) :=
  OpenFrame.setDrainCount (OpenFrame.setStream (OpenFrame.setUnit (rfl : OpenFrame s s) _ _) _ _) _

/-- What the opening of a record writes (R88). -/
structure RecordOpened (s t : State) (k r v : Nat) : Prop where
  unit : t.unit? v = some
    { state := .opened, frames := [], firstArrival := s.now, lastArrival := s.now, deadline := none,
      cause := none, stagedSeq := none, lane := none, attempts := 0, restarted := false,
      handle := none, discard := false }
  others : ∀ j, j ≠ v → t.unit? j = s.unit? j
  stream : t.stream k = { s.stream k with openUnit := some v, cursor := (r + 1) % 64 }
  streams : ∀ j, j ≠ k → t.stream j = s.stream j
  drainCount : t.drainCount = s.drainCount + 1
  rest : OpenFrame s t

theorem openRecord_effect (k r : Nat) (s : State) : RecordOpened s (openRecord k r s) k r (unitId k r) := by
  have hf := openRecord_frame k r s
  unfold openRecord at hf ⊢
  refine ⟨State.unit?_setUnit_same _ _ _, fun j hj => ?_, State.stream_setStream_same _ _ _, fun j hj => ?_, rfl, hf⟩
  · exact (State.unit?_setUnit _ _ _ _).trans (if_neg (Ne.symm hj))
  · exact (State.stream_setStream _ _ _ _).trans (if_neg (Ne.symm hj))

end Sys2Proof.Machine
end

