-- ==== Sys2Proof/Laws/Reads.lean ====
section
/-! SUPPORT. What the reads of a Fetch do to the frames, said once: a frame read keeps its data and its record
but for the damaged flag and the mark of a correctable error, and no other frame changes (R73, R75, R122). -/

namespace Sys2Proof.Machine

/-- Between `s` and `t` frames of `fs` have been read: each keeps all but its damaged flag, which is never
cleared, and its mark of a correctable error; every other frame is as before, and beside the frames only the
counts and the flag of the store's errors may differ. -/
structure FramesRead (s t : State) (fs : List Nat) : Prop where
  kept : ∀ f v, s.frame? f = some v → ∃ damaged latent,
    t.frame? f = some { v with record := { v.record with damaged := damaged }, latent := latent } ∧
      (v.record.damaged = true → damaged = true)
  free : ∀ f, s.frame? f = none → t.frame? f = none
  others : ∀ f, f ∉ fs → t.frame? f = s.frame? f
  rest : { t with
    frames := s.frames, corrected := s.corrected, uncorrectable := s.uncorrectable,
    events := s.events, alert := s.alert } = s

theorem FramesRead.refl (s : State) (fs : List Nat) : FramesRead s s fs where
  kept _ v h := ⟨v.record.damaged, v.latent, h, id⟩
  free _ h := h
  others _ _ := rfl
  rest := rfl

theorem FramesRead.trans {s t u : State} {fs : List Nat} (h : FramesRead s t fs) (k : FramesRead t u fs) :
    FramesRead s u fs where
  kept f v hf := by
    obtain ⟨d, b, h1, h2⟩ := h.kept f v hf
    obtain ⟨d', b', h3, h4⟩ := k.kept f _ h1
    exact ⟨d', b', h3, fun hv => h4 (h2 hv)⟩
  free f hf := k.free f (h.free f hf)
  others f hf := (k.others f hf).trans (h.others f hf)
  rest := by
    have h1 := congrArg (fun t : State => { t with
      frames := s.frames, corrected := s.corrected, uncorrectable := s.uncorrectable,
      events := s.events, alert := s.alert }) k.rest
    exact (h1 :).trans h.rest

/-- A read of one frame (R73, R75). -/
theorem readFrame_read {s : State} {f : Nat} {v : Frame} (r : ReadResult) {fs : List Nat}
    (hf : s.frame? f = some v) (hm : f ∈ fs) :
    FramesRead s (readFrame f v r s).2 fs ∧
    ((readFrame f v r s).1.record.damaged = false → v.record.damaged = false) := by
  have key : ∀ (t : State) (d b : Bool),
      t.frames = Table.insert s.frames f
        { v with record := { v.record with damaged := d }, latent := b } →
      (v.record.damaged = true → d = true) →
      { t with
        frames := s.frames, corrected := s.corrected, uncorrectable := s.uncorrectable,
        events := s.events, alert := s.alert } = s → FramesRead s t fs := by
    intro t d b ht hd hr
    have h : ∀ i, t.frame? i = if f = i then
        some { v with record := { v.record with damaged := d }, latent := b } else s.frame? i := by
      intro i; unfold State.frame?; rw [ht, Table.find?_insert]
    refine ⟨fun i w hi => ?_, fun i hi => ?_, fun i hi => ?_, hr⟩
    · by_cases e : f = i
      · subst e; rw [hf] at hi; cases hi
        exact ⟨d, b, (h f).trans (if_pos rfl), hd⟩
      · exact ⟨w.record.damaged, w.latent, ((h i).trans (if_neg e)).trans hi, id⟩
    · by_cases e : f = i
      · subst e; rw [hf] at hi; cases hi
      · exact ((h i).trans (if_neg e)).trans hi
    · exact (h i).trans (if_neg (by rintro rfl; exact hi hm))
  unfold readFrame
  split
  · exact ⟨.refl s fs, id⟩
  · exact ⟨key _ v.record.damaged true rfl id rfl, id⟩
  · exact ⟨key _ true v.latent rfl (fun _ => rfl) rfl, fun h => (by cases h)⟩

/-- The entries of a Fetch Data, one for each position in order, and what its reads do (R122). -/
theorem fetchEntries_read (u : UnitRecord) : ∀ (ps : List Nat) (rs : List ReadResult) (s : State),
    (fetchEntries u ps rs s).1.map (·.position) = ps ∧
    FramesRead s (fetchEntries u ps rs s).2 u.frames ∧
    (∀ e ∈ (fetchEntries u ps rs s).1, u.frames.length ≤ e.position →
      e.mark = .pad ∧ e.bytes = zeroSlice) ∧
    ∀ e ∈ (fetchEntries u ps rs s).1, ∀ f v, u.frames[e.position]? = some f → s.frame? f = some v →
      (e.mark = .data ∧ e.bytes = v.data ∧ v.record.damaged = false) ∨
        (e.mark = .damaged ∧ e.bytes = zeroSlice) := by
  intro ps
  induction ps with
  | nil => intro rs s; exact ⟨rfl, .refl s _, fun e h => (by cases h), fun e h => (by cases h)⟩
  | cons p ps ih =>
    intro rs s
    unfold fetchEntries
    cases hq : (u.frames[p]?).bind (fun f => (s.frame? f).map (fun v => (f, v))) with
    | none =>
      obtain ⟨h1, h2, h3, h4⟩ := ih rs s
      dsimp only
      refine ⟨congrArg (p :: ·) h1, h2, fun e he hp => ?_, fun e he f v hf hv => ?_⟩
      · rcases List.mem_cons.1 he with h | h
        · subst h; exact ⟨rfl, rfl⟩
        · exact h3 e h hp
      · rcases List.mem_cons.1 he with h | h
        · subst h; rw [show u.frames[p]? = some f from hf] at hq
          simp [hv] at hq
        · exact h4 e h f v hf hv
    | some x =>
      obtain ⟨f0, v0⟩ := x
      obtain ⟨hp0, hv0⟩ : u.frames[p]? = some f0 ∧ s.frame? f0 = some v0 := by
        cases h : u.frames[p]? with
        | none => rw [h] at hq; cases hq
        | some f =>
          rw [h] at hq
          cases h2 : s.frame? f with
          | none => simp [h2] at hq
          | some w => simp [h2] at hq; obtain ⟨rfl, rfl⟩ := hq; exact ⟨rfl, h2⟩
      have hlt : p < u.frames.length := (List.getElem?_eq_some_iff.1 hp0).1
      obtain ⟨hr, hd⟩ := readFrame_read (nextRead rs) hv0 (List.mem_of_getElem? hp0)
      dsimp only
      generalize readFrame f0 v0 (nextRead rs) s = q at hr hd
      obtain ⟨v1, s1⟩ := q
      obtain ⟨h1, h2, h3, h4⟩ := ih rs.tail s1
      dsimp only at hr hd ⊢
      have hrest : ∀ e ∈ (fetchEntries u ps rs.tail s1).1, ∀ f v, u.frames[e.position]? = some f →
          s.frame? f = some v →
          (e.mark = .data ∧ e.bytes = v.data ∧ v.record.damaged = false) ∨
            (e.mark = .damaged ∧ e.bytes = zeroSlice) := by
        intro e he f v hf hv
        obtain ⟨d, b, k1, k2⟩ := hr.kept f v hv
        rcases h4 e he f _ hf k1 with ⟨a, b, c⟩ | h
        · refine .inl ⟨a, b, ?_⟩
          cases hvd : v.record.damaged with
          | false => rfl
          | true => exact absurd (k2 hvd) (by rw [show d = false from c]; decide)
        · exact .inr h
      split
      · refine ⟨congrArg (p :: ·) h1, hr.trans h2, fun e he hp => ?_, fun e he f v hf hv => ?_⟩
        · rcases List.mem_cons.1 he with h | h
          · subst h; exact absurd hp (Nat.not_le.2 hlt)
          · exact h3 e h hp
        · rcases List.mem_cons.1 he with h | h
          · subst h; exact .inr ⟨rfl, rfl⟩
          · exact hrest e h f v hf hv
      · rename_i hnd
        refine ⟨congrArg (p :: ·) h1, hr.trans h2, fun e he hp => ?_, fun e he f v hf hv => ?_⟩
        · rcases List.mem_cons.1 he with h | h
          · subst h; exact absurd hp (Nat.not_le.2 hlt)
          · exact h3 e h hp
        · rcases List.mem_cons.1 he with h | h
          · subst h
            rw [show u.frames[p]? = some f from hf] at hp0; cases hp0
            rw [hv] at hv0; cases hv0
            exact .inl ⟨rfl, rfl, hd (by simpa using hnd)⟩
          · exact hrest e h f v hf hv

end Sys2Proof.Machine
end

