-- ==== Sys2Proof/Laws/Reasons.lean ====
section
/-! SUPPORT. What the reasons of stages 1 to 6 say (R28 to R31), the first set of a run that fails stage 4, and
the grant that would be taken. -/

namespace Sys2Proof.Machine

/-- Set `x` has no room for the keys of a run that lie in it (R30). -/
def overfull (s : State) (key : Key) (n x : Nat) : Bool :=
  decide (16 < (s.indexSet x).ways.length + (s.indexSet x).reserved + runWays key n x)

/-- A set counted once more joins the tail when it was not met before. -/
theorem bump_map (x : Nat) (l : List (Nat × Nat)) :
    (bumpSet x l).map (·.1) = if x ∈ l.map (·.1) then l.map (·.1) else l.map (·.1) ++ [x] := by
  induction l with
  | nil => rfl
  | cons p l ih =>
    obtain ⟨y, c⟩ := p
    unfold bumpSet
    rw [List.map_cons]
    by_cases h : y = x
    · rw [if_pos h, if_pos (List.mem_cons.2 (.inl h.symm))]; rfl
    · rw [if_neg h, List.map_cons, ih]
      by_cases h2 : x ∈ l.map (·.1)
      · rw [if_pos h2, if_pos (List.mem_cons_of_mem _ h2)]
      · rw [if_neg h2, if_neg]
        · rfl
        · rw [List.mem_cons]; rintro (hc | hc)
          · exact h hc.symm
          · exact h2 hc

/-- The first set of a list of pairs that a test holds of is the first key's, in the order of the keys. -/
theorem find_bumps (p : Nat → Bool) (ks : List Key) (l : List (Nat × Nat)) :
    List.find? p ((ks.foldl (fun acc k => bumpSet (indexHash k) acc) l).map (·.1)) =
      List.find? p (l.map (·.1) ++ ks.map indexHash) := by
  induction ks generalizing l with
  | nil => simp
  | cons k ks ih =>
    rw [List.foldl_cons, ih, bump_map, List.map_cons]
    by_cases h : indexHash k ∈ l.map (·.1)
    · rw [if_pos h, List.find?_append, List.find?_append]
      cases hf : List.find? p (l.map (·.1)) with
      | some x => rfl
      | none =>
        have := List.find?_eq_none.1 hf _ h
        rw [List.find?_cons_of_neg this]
    · rw [if_neg h, List.append_assoc]; rfl

/-- The first set that fails stage 4 is that of the first key of the run whose set has no room (R30). -/
theorem failingSet_eq (s : State) (key : Key) (n : Nat) :
    failingSet s key n = List.find? (overfull s key n) ((runKeys key n).map indexHash) := by
  have h := find_bumps (overfull s key n) (runKeys key n) []
  rw [List.map_nil, List.nil_append] at h
  rw [← h]
  obtain ⟨h1, h2⟩ := setCounts_spec key n
  unfold failingSet
  have e : (runKeys key n).foldl (fun acc k => bumpSet (indexHash k) acc) [] = setCounts key n := rfl
  rw [e, List.find?_map]
  congr 1
  apply List.find?_congr
  intro p hp
  have hc : runWays key n p.1 = p.2 := by rw [← h1, pairSum_of_mem h2 hp]
  show (!decide ((s.indexSet p.1).ways.length + (s.indexSet p.1).reserved + p.2 ≤ 16)) =
    decide (16 < (s.indexSet p.1).ways.length + (s.indexSet p.1).reserved + runWays key n p.1)
  rw [hc]
  by_cases hle : (s.indexSet p.1).ways.length + (s.indexSet p.1).reserved + p.2 ≤ 16
  · rw [decide_eq_true hle, decide_eq_false (by omega)]; rfl
  · rw [decide_eq_false hle, decide_eq_true (by omega)]; rfl

theorem mem_runHashes {key : Key} {n x : Nat} :
    x ∈ (runKeys key n).map indexHash ↔ ∃ i, i < n ∧ indexHash (key.offset i) = x := by
  unfold runKeys
  simp

/-- WAYS is a reason where some key of the run lies in a set without room (R30). -/
theorem failingSet_isSome (s : State) (key : Key) (n : Nat) :
    (failingSet s key n).isSome = true ↔ ∃ i, i < n ∧ overfull s key n (indexHash (key.offset i)) = true := by
  rw [failingSet_eq, List.find?_isSome]
  constructor
  · rintro ⟨x, hx, h⟩
    obtain ⟨i, hi, rfl⟩ := mem_runHashes.1 hx
    exact ⟨i, hi, h⟩
  · rintro ⟨i, hi, h⟩
    exact ⟨_, mem_runHashes.2 ⟨i, hi, rfl⟩, h⟩

/-- The relief set is that of the lowest LBA whose set has no room (R30). -/
theorem failingSet_first {s : State} {key : Key} {n x : Nat} (h : failingSet s key n = some x) :
    ∃ i, i < n ∧ x = indexHash (key.offset i) ∧ overfull s key n x = true ∧
      ∀ j, j < i → overfull s key n (indexHash (key.offset j)) = false := by
  rw [failingSet_eq, List.find?_eq_some_iff_getElem] at h
  obtain ⟨hp, i, hi, he, hlt⟩ := h
  have hn : i < n := by simpa [runKeys] using hi
  refine ⟨i, hn, ?_, hp, fun j hj => ?_⟩
  · rw [← he]; simp [runKeys]
  · have := hlt j hj
    simpa [runKeys] using this

/-- The grant that would be taken is the lowest-numbered VACANT one (R31, R32). -/
theorem vacantGrant_iff (s : State) (g : Nat) : vacantGrant s = some g ↔
    g < 128 ∧ s.grant? g = none ∧ ∀ j, j < g → (s.grant? j).isSome = true := by
  unfold vacantGrant
  constructor
  · intro h
    obtain ⟨_, h1, h2, h3⟩ := firstFrom_some h
    simp only [Option.isNone_iff_eq_none] at h2 h3
    refine ⟨by simpa [Config.grantCount] using h1, h2, fun j hj => ?_⟩
    have := h3 j (Nat.zero_le _) hj
    cases hg : s.grant? j with
    | none => simp [hg] at this
    | some v => rfl
  · rintro ⟨h1, h2, h3⟩
    cases hv : firstFrom (fun g => (s.grant? g).isNone) Config.grantCount 0 with
    | none =>
      have := firstFrom_none hv g (Nat.zero_le _) (by simpa [Config.grantCount] using h1)
      simp [h2] at this
    | some k =>
      obtain ⟨_, k1, k2, k3⟩ := firstFrom_some hv
      rcases Nat.lt_trichotomy k g with h | h | h
      · have := h3 k h
        simp only [Option.isNone_iff_eq_none] at k2
        rw [k2] at this; cases this
      · rw [h]
      · have := k3 g (Nat.zero_le _) h
        simp [h2] at this

/-- GRANTS is a reason where all 128 grants are LIVE (R31). -/
theorem vacantGrant_none (s : State) :
    (vacantGrant s).isNone = true ↔ ∀ g, g < 128 → (s.grant? g).isSome = true := by
  constructor
  · intro h g hg
    rw [Option.isNone_iff_eq_none] at h
    have := firstFrom_none h g (Nat.zero_le _) (by simpa [Config.grantCount] using hg)
    cases hv : s.grant? g with
    | none => simp [hv] at this
    | some v => rfl
  · intro h
    cases hv : vacantGrant s with
    | none => rfl
    | some g =>
      obtain ⟨h1, h2, _⟩ := (vacantGrant_iff s g).1 hv
      have := h g h1
      rw [h2] at this; cases this

end Sys2Proof.Machine
end

