-- ==== Sys2Proof/Laws/Release.lean ====
section
/-! SUPPORT. What the release of a unit's frames and the delivery of its report do (R55, R139, R142, R164). -/

namespace Sys2Proof.Machine

/-- The frame a release touches is FREE, and no other changes (R55). -/
theorem frame?_releaseFrame (f i : Nat) (s : State) :
    (releaseFrame f s).frame? i = if f = i then none else s.frame? i := by
  unfold releaseFrame
  cases hf : s.frame? f with
  | none =>
    dsimp only
    split
    · rename_i h; subst h; exact hf
    · rfl
  | some v =>
    have hc : ∀ t : State, t.frames = s.frames →
        (returnFrames v.record.account 1
          ((t.clearFrame f).setFreed f { data := v.data, latent := v.latent })).frame? i =
          if f = i then none else s.frame? i := by
      intro t ht
      refine (show _ = (t.clearFrame f).frame? i from rfl).trans ?_
      rw [State.frame?_clearFrame]
      unfold State.frame?
      rw [ht]
    dsimp only
    split
    · exact hc s rfl
    · exact hc (removeWay (indexHash v.record.key) f s) rfl

theorem frames_releaseFrame (f : Nat) (s : State) : (releaseFrame f s).frames = Table.erase s.frames f := by
  unfold releaseFrame
  cases hf : s.frame? f with
  | none => exact (Table.erase_of_find?_none hf).symm
  | some v =>
    dsimp only
    split
    · rfl
    · rfl

/-- What the release of one HELD frame returns to its account and to F (R55, Table 2-2). -/
theorem charge_releaseFrame {f : Nat} {v : Frame} {s : State} (hf : s.frame? f = some v) :
    (releaseFrame f s).free = s.free + 1 ∧
      ∀ a, (releaseFrame f s).account a =
        if v.record.account = a then { s.account a with used := (s.account a).used - 1 } else s.account a := by
  have hc : ∀ t : State, t.free = s.free → t.accounts = s.accounts →
      (returnFrames v.record.account 1
        ((t.clearFrame f).setFreed f { data := v.data, latent := v.latent })).free = s.free + 1 ∧
      ∀ a, (returnFrames v.record.account 1
        ((t.clearFrame f).setFreed f { data := v.data, latent := v.latent })).account a =
        if v.record.account = a then { s.account a with used := (s.account a).used - 1 } else s.account a := by
    intro t h1 h2
    refine ⟨congrArg (· + 1) h1, fun a => ?_⟩
    have h3 : ∀ b, t.account b = s.account b := fun b => account_same h2 b
    refine (show _ = (t.setAccount v.record.account
      { t.account v.record.account with used := (t.account v.record.account).used - 1 }).account a
        from rfl).trans ?_
    rw [State.account_setAccount]
    split
    · rename_i h; rw [h3, h]
    · exact h3 a
  unfold releaseFrame
  rw [hf]
  dsimp only
  split
  · exact hc s rfl rfl
  · exact hc (removeWay (indexHash v.record.key) f s) rfl rfl

/-- What a released frame leaves in the stacked DRAM (R55; log entry 20). -/
theorem freed_releaseFrame (f : Nat) (s : State) :
    (releaseFrame f s).scrubbed = s.scrubbed ∧
      ∀ i, Table.getD Stored.zero (releaseFrame f s).freed i =
        match s.frame? f with
        | some v => if f = i then { data := v.data, latent := v.latent } else Table.getD Stored.zero s.freed i
        | none => Table.getD Stored.zero s.freed i := by
  unfold releaseFrame
  cases hf : s.frame? f with
  | none => exact ⟨rfl, fun _ => rfl⟩
  | some v =>
    have hc : ∀ t : State, t.freed = s.freed → ∀ i,
        Table.getD Stored.zero (returnFrames v.record.account 1
          ((t.clearFrame f).setFreed f { data := v.data, latent := v.latent })).freed i =
          if f = i then { data := v.data, latent := v.latent } else Table.getD Stored.zero s.freed i := by
      intro t ht i
      refine (show _ = Table.getD Stored.zero
        (Table.put Stored.zero t.freed f { data := v.data, latent := v.latent }) i from rfl).trans ?_
      rw [Table.getD_put, ht]
    have hs : ∀ t : State, t.scrubbed = s.scrubbed →
        (returnFrames v.record.account 1
          ((t.clearFrame f).setFreed f { data := v.data, latent := v.latent })).scrubbed = s.scrubbed :=
      fun _ h => h
    have hw : ∀ x, (removeWay x f s).freed = s.freed ∧ (removeWay x f s).scrubbed = s.scrubbed :=
      fun _ => ⟨rfl, rfl⟩
    dsimp only
    split
    · exact ⟨hs s rfl, hc s rfl⟩
    · exact ⟨hs _ (hw _).2, hc _ (hw _).1⟩

/-- The ways of the sets after the release of one frame (R55). -/
theorem set_releaseFrame (f x : Nat) (s : State) :
    (releaseFrame f s).indexSet x =
      match s.frame? f with
      | some v =>
        if v.record.void = false ∧ indexHash v.record.key = x then
          { s.indexSet x with ways := (s.indexSet x).ways.filter fun p => p.2.frame ≠ f }
        else s.indexSet x
      | none => s.indexSet x := by
  unfold releaseFrame
  cases hf : s.frame? f with
  | none => rfl
  | some v =>
    dsimp only
    have hc : ∀ t : State, (returnFrames v.record.account 1
        ((t.clearFrame f).setFreed f { data := v.data, latent := v.latent })).indexSet x = t.indexSet x :=
      fun _ => rfl
    rw [hc]
    by_cases hv : v.record.void = true
    · rw [if_pos hv, if_neg (by simp [hv])]
    · rw [if_neg hv]
      unfold removeWay
      dsimp only
      rw [State.indexSet_setIndexSet]
      by_cases hx : indexHash v.record.key = x
      · subst hx
        rw [if_pos rfl, if_pos ⟨by simpa using hv, rfl⟩]
      · rw [if_neg hx, if_neg (fun h => hx h.2)]

/-- What the release of a unit's frames does (R55, R142). -/
structure FramesReleased (s t : State) (fs : List Nat) : Prop where
  frames : ∀ i, t.frame? i = if i ∈ fs then none else s.frame? i
  free : Table.sorted s.frames = true → t.free = s.free + s.frames.countP fun p => fs.contains p.1
  account : Table.sorted s.frames = true → ∀ a, t.account a =
    { s.account a with
      used := (s.account a).used -
        s.frames.countP fun p => fs.contains p.1 && p.2.record.account == a }
  scrubbed : t.scrubbed = s.scrubbed
  freed : ∀ f ∈ fs, ∀ v, s.frame? f = some v →
    Table.getD Stored.zero t.freed f = { data := v.data, latent := v.latent }
  freedOthers : ∀ f, s.frame? f = none → Table.getD Stored.zero t.freed f = Table.getD Stored.zero s.freed f
  rest : ReleaseFrame s t

theorem releaseFrames_effect (fs : List Nat) (s : State) : FramesReleased s (releaseFrames fs s) fs := by
  refine ⟨?_, ?_, ?_, ?_, ?_, ?_, releaseFrames_frame fs s⟩
  · unfold releaseFrames
    induction fs generalizing s with
    | nil => intro i; simp
    | cons f fs ih =>
      intro i
      rw [List.foldl_cons, ih, frame?_releaseFrame]
      by_cases h1 : i ∈ fs
      · simp [h1]
      · by_cases h2 : f = i
        · simp [h2]
        · simp [h1, h2, Ne.symm h2]
  · unfold releaseFrames
    induction fs generalizing s with
    | nil => intro _; simp
    | cons f fs ih =>
      intro hs
      rw [List.foldl_cons, ih _ (by rw [frames_releaseFrame]; exact Table.sorted_erase f hs), frames_releaseFrame]
      have he : (Table.erase s.frames f).countP (fun p => (f :: fs).contains p.1) =
          (Table.erase s.frames f).countP fun p => fs.contains p.1 := by
        refine List.countP_congr fun p hp => ?_
        have := (List.mem_filter.1 hp).2
        simp only [decide_eq_true_eq] at this
        simp [this]
      cases hf : s.frame? f with
      | none =>
        have h0 : (releaseFrame f s).free = s.free := by unfold releaseFrame; rw [hf]
        rw [h0, ← he, Table.erase_of_find?_none hf]
      | some v =>
        have hc := Table.countP_erase (fun p : Nat × Frame => (f :: fs).contains p.1) hs hf
        rw [if_pos (by simp), he] at hc
        rw [(charge_releaseFrame hf).1, ← hc]
        omega
  · unfold releaseFrames
    induction fs generalizing s with
    | nil => intro _ a; simp
    | cons f fs ih =>
      intro hs a
      rw [List.foldl_cons, ih _ (by rw [frames_releaseFrame]; exact Table.sorted_erase f hs), frames_releaseFrame]
      have he : (Table.erase s.frames f).countP
            (fun p => (f :: fs).contains p.1 && p.2.record.account == a) =
          (Table.erase s.frames f).countP fun p => fs.contains p.1 && p.2.record.account == a := by
        refine List.countP_congr fun p hp => ?_
        have := (List.mem_filter.1 hp).2
        simp only [decide_eq_true_eq] at this
        simp [this]
      cases hf : s.frame? f with
      | none =>
        have h0 : (releaseFrame f s).account a = s.account a := by unfold releaseFrame; rw [hf]
        rw [h0, ← he, Table.erase_of_find?_none hf]
      | some v =>
        have hc := Table.countP_erase
          (fun p : Nat × Frame => (f :: fs).contains p.1 && p.2.record.account == a) hs hf
        rw [he] at hc
        rw [(charge_releaseFrame hf).2, ← hc]
        by_cases ha : v.record.account = a
        · rw [if_pos ha, if_pos (by simp [ha])]
          simp only [Nat.sub_sub, Nat.add_comm]
        · rw [if_neg ha, if_neg (by simp [ha])]
          rfl
  · unfold releaseFrames
    exact fold_keeps (I := fun t => t.scrubbed = s.scrubbed) (fun s (f : Nat) => releaseFrame f s)
      (fun t f h => (freed_releaseFrame f t).1.trans h) fs rfl
  · unfold releaseFrames
    induction fs generalizing s with
    | nil => intro f h; cases h
    | cons g fs ih =>
      intro f hm v hv
      rw [List.foldl_cons]
      by_cases hg : g = f
      · subst hg
        have hn : (releaseFrame g s).frame? g = none := by rw [frame?_releaseFrame, if_pos rfl]
        have hk : Table.getD Stored.zero (releaseFrame g s).freed g = { data := v.data, latent := v.latent } := by
          rw [(freed_releaseFrame g s).2, hv]; exact if_pos rfl
        have keep : ∀ (l : List Nat) (t : State), t.frame? g = none →
            Table.getD Stored.zero (l.foldl (fun s f => releaseFrame f s) t).freed g =
              Table.getD Stored.zero t.freed g := by
          intro l
          induction l with
          | nil => intro t _; rfl
          | cons j l ihl =>
            intro t ht
            rw [List.foldl_cons, ihl _ (by rw [frame?_releaseFrame, ht]; split <;> rfl),
              (freed_releaseFrame j t).2]
            split
            · rename_i w hw
              rw [if_neg]
              rintro rfl
              rw [ht] at hw; cases hw
            · rfl
        rw [keep fs _ hn, hk]
      · have hm' : f ∈ fs := by simpa [Ne.symm hg] using hm
        exact ih _ f hm' v (by rw [frame?_releaseFrame, if_neg hg]; exact hv)
  · unfold releaseFrames
    induction fs generalizing s with
    | nil => intro f _; rfl
    | cons g fs ih =>
      intro f hf
      rw [List.foldl_cons, ih _ f (by rw [frame?_releaseFrame, hf]; split <;> rfl), (freed_releaseFrame g s).2]
      split
      · rename_i w hw
        rw [if_neg]
        rintro rfl
        rw [hf] at hw; cases hw
      · rfl

/-- The ways of every set after the release of a unit's frames, where the laws of the index hold: those that
name one of the frames are gone (R55, R56). -/
theorem set_releaseFrames (fs : List Nat) (x : Nat) {s : State} (h : IndexLaw s) :
    (releaseFrames fs s).indexSet x =
      { s.indexSet x with ways := (s.indexSet x).ways.filter fun p => !fs.contains p.2.frame } := by
  have key : ∀ (l done : List Nat) (t : State),
      (∀ i, t.frame? i = if i ∈ done then none else s.frame? i) →
      (∀ y, t.indexSet y = { s.indexSet y with
        ways := (s.indexSet y).ways.filter fun p => !done.contains p.2.frame }) →
      ∀ y, (l.foldl (fun s f => releaseFrame f s) t).indexSet y =
        { s.indexSet y with
          ways := (s.indexSet y).ways.filter fun p => !(done ++ l).contains p.2.frame } := by
    intro l
    induction l with
    | nil => intro done t _ hi y; rw [List.append_nil]; exact hi y
    | cons f l ih =>
      intro done t hfr hi y
      rw [List.foldl_cons]
      have := ih (done ++ [f]) (releaseFrame f t) (fun i => ?_) (fun z => ?_) y
      · rw [this]; simp
      · rw [frame?_releaseFrame, hfr]
        by_cases h1 : i ∈ done
        · simp [h1]
        · by_cases h2 : f = i
          · simp [h2]
          · simp [h1, h2, Ne.symm h2]
      · have hsame : ∀ (q : IndexSet), q = { s.indexSet z with
            ways := (s.indexSet z).ways.filter fun p => !done.contains p.2.frame } →
            (∀ p ∈ (s.indexSet z).ways, !done.contains p.2.frame → p.2.frame ≠ f) →
            q = { s.indexSet z with
              ways := (s.indexSet z).ways.filter fun p => !(done ++ [f]).contains p.2.frame } := by
          rintro _ rfl hn
          show IndexSet.mk _ _ = IndexSet.mk _ _
          congr 1
          refine List.filter_congr fun p hp => ?_
          by_cases hd : p.2.frame ∈ done
          · simp [hd]
          · have := hn p hp (by simp [hd])
            simp [hd, this]
        rw [set_releaseFrame]
        cases hf : t.frame? f with
        | none =>
          refine hsame _ (hi z) fun p hp hd he => ?_
          obtain ⟨-, v, hv, -⟩ := h.named z p hp
          rw [hfr, if_neg (by rw [← he]; simpa using hd), ← he, hv] at hf
          cases hf
        | some v =>
          dsimp only
          have hsf : f ∉ done ∧ s.frame? f = some v := by
            rw [hfr] at hf
            by_cases hd : f ∈ done
            · rw [if_pos hd] at hf; cases hf
            · rw [if_neg hd] at hf; exact ⟨hd, hf⟩
          by_cases hc : v.record.void = false ∧ indexHash v.record.key = z
          · rw [if_pos hc, hi]
            congr 1
            show List.filter _ (List.filter _ _) = _
            rw [List.filter_filter]
            refine List.filter_congr fun p hp => ?_
            by_cases hd : p.2.frame ∈ done
            · simp [hd]
            · by_cases he : p.2.frame = f
              · simp [he]
              · simp [hd, he]
          · rw [if_neg hc]
            refine hsame _ (hi z) fun p hp hd he => hc ?_
            obtain ⟨hz, w, hw, hk, hv⟩ := h.named z p hp
            rw [he, hsf.2] at hw
            injection hw with hw
            subst hw
            exact ⟨hv, by rw [hk]; exact hz⟩
  have := key fs [] s (fun i => by simp) (fun y => by simp) x
  simpa [releaseFrames] using this

/-! ### The message that leaves (R164, R165) -/

/-- What leaving does to the link's own side (R161, R164, R165, R169). -/
structure Emitted (k k' : Link) (m : OutMessage) : Prop where
  up : k'.up = k.up
  outbound : k'.outbound = k.outbound.tail ++ k.overflow.take 1
  overflow : k'.overflow = k.overflow.tail
  outSeq : k'.outSeq = (k.outSeq + 1) % 65536
  sent : k'.sent = satSucc k.sent
  wire : k'.wire = some { linkSeq := k.outSeq, message := m }

theorem emitted_callRetake {k : Link} {l j : Nat} {m : OutMessage} {s : State} (c : Channel) (n : Nat)
    (h : Emitted k (s.link j) m) : Emitted k ((callRetake l c n s).link j) m := by
  unfold callRetake
  dsimp only
  split
  · rw [State.link_setLink]
    split
    · rename_i hj; subst hj
      have hq : ∀ q, ((s.link l).setQueue c q).up = (s.link l).up ∧
          ((s.link l).setQueue c q).outbound = (s.link l).outbound ∧
          ((s.link l).setQueue c q).overflow = (s.link l).overflow ∧
          ((s.link l).setQueue c q).outSeq = (s.link l).outSeq ∧
          ((s.link l).setQueue c q).sent = (s.link l).sent ∧
          ((s.link l).setQueue c q).wire = (s.link l).wire := by
        intro q; cases c <;> exact ⟨rfl, rfl, rfl, rfl, rfl, rfl⟩
      obtain ⟨a, b, d, e, f, g⟩ := hq { (s.link l).queue c with retake := true }
      exact ⟨a.trans h.up, b.trans h.outbound, d.trans h.overflow, e.trans h.outSeq, f.trans h.sent,
        g.trans h.wire⟩
    · exact h
  · exact h

theorem emit_effect (l : Nat) (m : OutMessage) (s : State) : Emitted (s.link l) ((emit l m s).link l) m := by
  unfold emit callLinkRetakes
  dsimp only
  split
  · refine emitted_callRetake _ _ (emitted_callRetake _ _ ?_)
    rw [State.link_setLink_same]
    exact ⟨rfl, rfl, rfl, rfl, rfl, rfl⟩
  · rw [State.link_setLink_same]
    exact ⟨rfl, rfl, rfl, rfl, rfl, rfl⟩

/-- What last left a link stays on the wire through every act of admission (R164). -/
theorem wire_survives (l : Nat) (w : Option Sent) : SurvivesAdmission (fun t => (t.link l).wire = w) where
  account _ _ _ h := h
  free _ _ h := h
  grant _ _ _ h := h
  clearGrant _ _ h := h
  set _ _ _ h := h
  stream _ _ _ h := h
  unit _ _ _ _ h := h
  staged _ _ h := h
  event _ _ h := h
  captured _ _ h := h
  waiting _ _ h := h
  place t j m h := by
    by_cases hj : j = l
    · subst hj
      rw [link_place]
      split
      · split <;> exact h
      · exact h
    · rw [(place_frame j m t).links l (Ne.symm hj)]; exact h
  retake t j c n h := by
    by_cases hj : j = l
    · subst hj
      unfold callRetake
      dsimp only
      split
      · rw [State.link_setLink_same]
        cases c <;> exact h
      · exact h
    · rw [(callRetake_frame j c n t).links l (Ne.symm hj)]; exact h

/-- A record that is VACANT stays so through every act of admission (R88). -/
theorem vacant_survives (v : Nat) : SurvivesAdmission (fun t => t.unit? v = none) where
  account _ _ _ h := h
  free _ _ h := h
  grant _ _ _ h := h
  clearGrant _ _ h := h
  set _ _ _ h := h
  stream _ _ _ h := h
  unit t w u hw h := by
    rw [State.unit?_setUnit, if_neg]
    · exact h
    · rintro rfl; rw [h] at hw; cases hw
  staged _ _ h := h
  event _ _ h := h
  captured _ _ h := h
  waiting _ _ h := h
  place t l m h := (congrArg (Table.find? · v) (congrArg State.units (links_place l m t) :)).trans h
  retake t l c k h := (congrArg (Table.find? · v) (congrArg State.units (links_callRetake l c k t) :)).trans h

/-! ### The report (R140, R141) -/

/-- Where every frame of the unit is HELD the report has one entry for each, in rising position (R141). -/
theorem reportSlices_held (s : State) (u : UnitRecord) (h : ∀ f ∈ u.frames, (s.frame? f).isSome = true) :
    ((List.range u.fill).filterMap (reportSlice s u)).length = u.frames.length ∧
      ∀ p f fr, u.frames[p]? = some f → s.frame? f = some fr →
        ((List.range u.fill).filterMap (reportSlice s u))[p]? = some
          ({ position := p, status := reportStatus u.discard fr.record, cls := fr.record.cls,
             account := fr.record.account, key := fr.record.key, latestSeq := fr.record.latestSeq,
             source := if fr.record.cls = .reclaim then fr.record.source else none } : ReportSlice) := by
  have hsome : ∀ p ∈ List.range u.fill, (reportSlice s u p).isSome = true := by
    intro p hp
    have hp : p < u.frames.length := List.mem_range.1 hp
    unfold reportSlice
    rw [List.getElem?_eq_getElem hp]
    have := h _ (List.getElem_mem hp)
    rw [Option.isSome_iff_exists] at this
    obtain ⟨v, hv⟩ := this
    simp [hv]
  have hmap : ∀ (l : List Nat), (∀ p ∈ l, (reportSlice s u p).isSome = true) →
      (l.filterMap (reportSlice s u)).map some = l.map (reportSlice s u) := by
    intro l
    induction l with
    | nil => intro _; rfl
    | cons p l ih =>
      intro hl
      obtain ⟨q, hq⟩ := Option.isSome_iff_exists.1 (hl p (by simp))
      rw [List.filterMap_cons_some hq, List.map_cons, List.map_cons, hq, ih fun r hr => hl r (by simp [hr])]
  have hm := hmap _ hsome
  have hlen : ((List.range u.fill).filterMap (reportSlice s u)).length = u.frames.length := by
    have := congrArg List.length hm
    simpa [UnitRecord.fill] using this
  refine ⟨hlen, fun p f fr hp hf => ?_⟩
  have hpl : p < u.frames.length := (List.getElem?_eq_some_iff.1 hp).1
  have h1 := congrArg (fun l : List (Option ReportSlice) => l[p]?) hm
  simp only [List.getElem?_map] at h1
  rw [List.getElem?_range (by simpa [UnitRecord.fill] using hpl)] at h1
  have h2 : reportSlice s u p = some
      { position := p, status := reportStatus u.discard fr.record, cls := fr.record.cls,
        account := fr.record.account, key := fr.record.key, latestSeq := fr.record.latestSeq,
        source := if fr.record.cls = .reclaim then fr.record.source else none } := by
    unfold reportSlice
    rw [hp]
    simp [hf]
  rw [Option.map_some, h2] at h1
  cases hq : ((List.range u.fill).filterMap (reportSlice s u))[p]? with
  | none => rw [hq] at h1; cases h1
  | some q => rw [hq] at h1; simpa using h1

end Sys2Proof.Machine
end

