-- ==== Sys2Proof/Laws/Streams.lean ====
section
/-! SUPPORT. What Stream Pause, Stream Resume and Stream Retire do to the streams and the units, said once. -/

namespace Sys2Proof.Machine

/-- A stream's records beside its units. -/
theorem streams_modifyUnit (s : State) (v : Nat) (f : UnitRecord → UnitRecord) :
    { s.modifyUnit v f with units := s.units } = s := by
  unfold State.modifyUnit; split <;> rfl

/-- Stream Pause of an ACTIVE stream (R84). -/
theorem pauseActive_spec (k : Nat) (s : State) :
    (∀ j, (pauseActive k s).stream j =
      if k = j then { s.stream k with state := .paused } else s.stream j) ∧
    (∀ v, (pauseActive k s).unit? v =
      if (s.stream k).openUnit = some v then (s.unit? v).map (fun u => { u with deadline := none })
      else s.unit? v) ∧
    { pauseActive k s with units := s.units, streams := s.streams } = s := by
  unfold pauseActive
  cases ho : (s.stream k).openUnit with
  | none =>
    dsimp only
    rw [ho]
    exact ⟨fun j => State.stream_setStream _ _ _ _, fun v => (if_neg (by simp)).symm, rfl⟩
  | some w =>
    dsimp only
    rw [ho]
    dsimp only
    have hm := streams_modifyUnit s w (fun u => { u with deadline := none })
    have hu := unit?_modifyUnit s w
    have hu2 := fun v => hu v (fun u => { u with deadline := none })
    revert hm hu2
    generalize s.modifyUnit w (fun u => { u with deadline := none }) = q
    intro hm hu2
    refine ⟨fun j => ?_, fun v => ?_, ?_⟩
    · rw [State.stream_setStream]
      rw [show q.stream j = s.stream j from congrArg (Table.getD Stream.reset · j) (congrArg State.streams hm :)]
    · refine (hu2 v).trans ?_
      by_cases e : w = v <;> simp [e]
    · exact (congrArg (fun t : State => { t with streams := s.streams }) hm :)

/-- Stream Resume of a PAUSED stream (R85). -/
theorem resumePaused_spec (k : Nat) (s : State) :
    (∀ j, (resumePaused k s).stream j =
      if k = j then { s.stream k with state := .active } else s.stream j) ∧
    (∀ v, (resumePaused k s).unit? v =
      if (s.stream k).openUnit = some v then
        (s.unit? v).map (fun u =>
          { u with
            firstArrival := s.now, lastArrival := s.now,
            deadline := deadlineOf { s.stream k with state := .active } s.now s.now })
      else s.unit? v) ∧
    { resumePaused k s with units := s.units, streams := s.streams } = s := by
  obtain ⟨p, hp, h1, h2, h3, h4⟩ : ∃ p, p = s.setStream k { s.stream k with state := .active } ∧
      (∀ j, p.stream j = if k = j then { s.stream k with state := .active } else s.stream j) ∧
      (∀ v, p.unit? v = s.unit? v) ∧ p.now = s.now ∧ { p with streams := s.streams } = s :=
    ⟨_, rfl, fun j => State.stream_setStream _ _ _ _, fun _ => rfl, rfl, rfl⟩
  have e : resumePaused k s = match (p.stream k).openUnit with
      | some v => p.modifyUnit v fun u =>
        { u with firstArrival := p.now, lastArrival := p.now,
                 deadline := deadlineOf (p.stream k) p.now p.now }
      | none => p := by rw [hp]; rfl
  rw [e, h1 k, if_pos rfl, h3]
  clear e hp
  cases ho : (s.stream k).openUnit with
  | none =>
    refine ⟨h1, fun v => ?_, ?_⟩
    · exact (h2 v).trans (if_neg (by simp)).symm
    · exact (congrArg (fun t : State => { t with units := s.units }) h4 :)
  | some w =>
    have hm := fun f => streams_modifyUnit p w f
    refine ⟨fun j => ?_, fun v => ?_, ?_⟩
    · exact (congrArg (Table.getD Stream.reset · j) (congrArg State.streams (hm _) :)).trans (h1 j)
    · refine (unit?_modifyUnit p w v _).trans ?_
      rw [h2]
      by_cases e : w = v
      · subst e; rw [if_pos rfl, if_pos rfl]
      · rw [if_neg e, if_neg (by rintro h; cases h; exact e rfl)]
    · have a := congrArg (fun t : State => { t with units := s.units, streams := s.streams }) (hm fun u =>
        { u with firstArrival := s.now, lastArrival := s.now,
                 deadline := deadlineOf { s.stream k with state := .active, openUnit := some w } s.now s.now })
      have b := congrArg (fun t : State => { t with units := s.units }) h4
      exact (a :).trans b

/-- Stream Retire of a stream without an OPEN unit (R86). -/
theorem retireBound_idle {k : Nat} {s : State} (ho : (s.stream k).openUnit = none) :
    (∀ j, (retireBound k s).stream j =
      if k = j then
        { s.stream k with
          state := if (s.stream k).reserved = 0 ∧ s.usedRecords k = 0 then .unbound else .retiring }
      else s.stream j) ∧
    { retireBound k s with streams := s.streams } = s := by
  obtain ⟨p, hp, h1, h2, h3⟩ : ∃ p, p = s.setStream k { s.stream k with state := .retiring } ∧
      (∀ j, p.stream j = if k = j then { s.stream k with state := .retiring } else s.stream j) ∧
      p.usedRecords k = s.usedRecords k ∧ { p with streams := s.streams } = s :=
    ⟨_, rfl, fun j => State.stream_setStream _ _ _ _, rfl, rfl⟩
  have hk := (h1 k).trans (if_pos rfl)
  have e : retireBound k s = checkUnbound k p := by
    unfold retireBound stageOpen; rw [← hp, hk, show
      ({ s.stream k with state := .retiring } : Stream).openUnit = none from ho]
  rw [e]
  unfold checkUnbound
  dsimp only
  rw [h2]
  by_cases hc : (s.stream k).reserved = 0 ∧ s.usedRecords k = 0
  · rw [if_pos (by rw [hk]; exact ⟨rfl, hc⟩)]
    simp only [if_pos hc]
    refine ⟨fun j => ?_, h3⟩
    rw [State.stream_setStream, hk, h1]
    by_cases e : k = j
    · rw [if_pos e, if_pos e]
    · rw [if_neg e, if_neg e, if_neg e]
  · rw [if_neg (by rw [hk]; exact fun h => hc h.2), if_neg hc]
    exact ⟨h1, h3⟩

/-- Stream Retire of a stream with an OPEN unit stages it; its record in use keeps the stream RETIRING (R86,
R93). -/
theorem retireBound_open {k v : Nat} {u : UnitRecord} {s : State} (ho : (s.stream k).openUnit = some v)
    (hk : unitStream v = k) (hu : s.unit? v = some u) (hs : u.state = .opened) :
    Staged (s.setStream k { s.stream k with state := .retiring }) (retireBound k s) .retire v u := by
  obtain ⟨p, hp, h1, h2⟩ : ∃ p, p = s.setStream k { s.stream k with state := .retiring } ∧
      p.stream k = { s.stream k with state := .retiring } ∧ p.unit? v = s.unit? v :=
    ⟨_, rfl, (State.stream_setStream _ _ _ _).trans (if_pos rfl), rfl⟩
  have e : retireBound k s = checkUnbound k (stageUnit .retire v p) := by
    unfold retireBound stageOpen; rw [← hp, h1, show
      ({ s.stream k with state := .retiring } : Stream).openUnit = some v from ho]
  have S := stageUnit_open (c := .retire) (h2.trans hu) hs
  rw [← hp, e]
  unfold checkUnbound
  dsimp only
  rw [if_neg]
  · exact S
  · rintro ⟨_, _, h0⟩
    unfold State.usedRecords at h0
    rw [List.length_eq_zero_iff, List.filter_eq_nil_iff] at h0
    refine h0 (v % 64) (List.mem_range.2 (Nat.mod_lt _ (by decide))) ?_
    have : unitId k (v % 64) = v := by
      subst hk
      show 64 * (v / 64) + v % 64 = v
      omega
    rw [this, S.unit]
    rfl

end Sys2Proof.Machine
end

