-- ==== Sys2Proof/WellFormed.lean ====
section
/-! DEFINITION. Which commands are well formed: a command's operands lie in the ranges their fields have.
The machine gives every command a meaning; an ill-formed one is one that no partner, board line or clock
can make. -/

namespace Sys2Proof

/-- A link of the part (Table 0-1). -/
def linkInRange (link : Nat) : Bool := decide (link ≤ 5)

/-- A link that carries Write Intents and Write Data (Table 9-1). -/
def writeLinkInRange (link : Nat) : Bool := decide (link ≤ 4)

/-- A drain link (Table 0-1). -/
def drainLinkInRange (link : Nat) : Bool := decide (1 ≤ link) && decide (link ≤ 4)

/-- The header fields of a message fit their bytes (Table 9-5). -/
def Message.headerFits (m : Message) : Bool :=
  decide (m.kind < 256) && decide (m.payloadCount < 256) && decide (m.tag < 65536) &&
    decide (m.bodyLength < 65536) && decide (m.linkSeq < 65536)

/-- The body has the length the header gives, and there are as many payloads of 4,096 bytes as it gives
(Table 9-5). -/
def Message.bodyFits (m : Message) : Bool :=
  m.body.length == m.bodyLength && m.payloads.length == m.payloadCount &&
    m.payloads.all (fun p => p.length == Config.sliceBytes)

/-- At most one read for each position of the largest Fetch or Read Probe (R69, R120). -/
def readsInRange (reads : List ReadResult) : Bool := decide (reads.length ≤ 32)

/-- A command is well formed. -/
def Instr.wellFormed : Instr → Bool
  | .linkUp link => linkInRange link
  | .linkReset link => linkInRange link
  | .messageArrival link m => linkInRange link && m.headerFits && m.bodyFits
  | .messageSent link => linkInRange link
  | .writeIntent link => writeLinkInRange link
  | .stalledIntentRetake link => writeLinkInRange link
  | .withdraw link => writeLinkInRange link
  | .grantLapse g => decide (g < Config.grantCount)
  | .writeData link => writeLinkInRange link
  | .readProbe reads => readsInRange reads
  | .inquire link => drainLinkInRange link
  | .deadlineExpiry unit => decide (unit < Config.unitCount)
  | .offerLapse lane => decide (lane < Config.laneCount)
  | .accept link => drainLinkInRange link
  | .decline link => drainLinkInRange link
  | .laneReady link => drainLinkInRange link
  | .laneQuit link => drainLinkInRange link
  | .fetch link reads => drainLinkInRange link && readsInRange reads
  | .unitDone link => drainLinkInRange link
  | .unitFail link => drainLinkInRange link
  | .fullReset | .resetNRelease _ | .scrubComplete | .pfailNAssertion | .placementReportDelivery
  | .reportFetch | .flush | .stalledFlushRetake | .slotVisit | .start | .stop | .configure
  | .ruleSet | .reclaimMapSet | .tenantSet | .reclaimAccountSet | .tenantFreeze | .tenantThaw
  | .streamBind | .streamSet | .streamPause | .streamResume | .streamRetire | .unitClose
  | .slotSet | .laneBlock | .laneUnblock | .unitRestage | .unitDiscard | .inspect | .eventFetch
  | .eventClear | .eventMask | .unknownRequestKind => true

end Sys2Proof
end

