-- ==== Sys2Proof/Tests/Slice0.lean ====
section
/-! SUPPORT. Tests of the model on small states: the checks of WellFormed, each command on one state with the
values the spec's rules give, and for each statement with hypotheses a state that meets them (and one for
each of its clauses). -/

namespace Sys2Proof.Tests

set_option Elab.async false

open Sys2Proof Sys2Proof.Machine

/-! ### Helpers -/

/-- The next state of an outcome, and the reset state where there is none. -/
def after (r : Result) : State :=
  match r with
  | .next s => s
  | _ => State.reset

/-- A command gives a next state. -/
def isNext (r : Result) : Bool :=
  match r with
  | .next _ => true
  | _ => false

def msg (kind tag : Nat) (body : List Byte) (payloads : List Slice) : Message :=
  { kind := kind, payloadCount := payloads.length, tag := tag, bodyLength := body.length, linkSeq := 0,
    body := body, payloads := payloads }

/-- The state with a link UP and a message at the tail of a channel. -/
def send (l : Nat) (c : Channel) (m : Message) (s : State) : State :=
  let k := s.link l
  s.setLink l
    ({ k with up := true }.setQueue c { k.queue c with messages := (k.queue c).messages ++ [m] })

/-- As `send`, with the message stalled and called for again. -/
def sendStalled (l : Nat) (c : Channel) (m : Message) (s : State) : State :=
  let k := s.link l
  s.setLink l ({ k with up := true }.setQueue c { messages := [m], stalled := true, retake := true })

def intentBody (t h lba n : Nat) : List Byte :=
  leBytes 2 t ++ leBytes 2 h ++ leBytes 5 lba ++ leBytes 1 n ++ leBytes 1 0 ++ leBytes 1 0

def base : State :=
  { State.reset with
    resetAsserted := false, part := .running, scrubbed := 65536, now := 50, nextVisit := some 50 }

def active (c : WriteClass) : Sys2Proof.Machine.Stream :=
  { Sys2Proof.Machine.Stream.reset with state := .active, cls := c }

def unitIn (st : UnitState) (frames : List Nat) : UnitRecord :=
  { state := st, frames := frames, firstArrival := 0, lastArrival := 0, deadline := none,
    cause := none, stagedSeq := none, lane := none, attempts := 0, restarted := false,
    handle := none, discard := false }

def frameAt (h lba a : Nat) (c : WriteClass) (seq unit pos : Nat) : Frame :=
  { record :=
      { key := { handle := h, lba := lba }, account := a, cls := c, firstSeq := seq,
        latestSeq := seq, unit := unit, position := pos, void := false, damaged := false,
        source := none },
    data := [7#8], latent := false }

def grantOf (l tag a k n : Nat) (key : Key) : Grant :=
  { link := l, tag := tag, account := a, stream := k, key := key, n := n, sets := setCounts key n,
    k := 1, lapse := 50 }

def laneUp : Lane := { Lane.reset with state := .up }

/-- A request of management kind on link 5. -/
def ask (body : List Byte) (s : State) : State := send 5 .mgmt (msg 15 9 body []) s

/-- The code of the answer at the tail of link 5's outbound queue. -/
def answerCode (s : State) : Option MgmtCode :=
  match (s.link 5).outbound.getLast? with
  | some (.mgmtAnswer _ c _) => some c
  | _ => none

theorem waits_send (l : Nat) (c : Channel) (m : Message) (s : State)
    (h : (s.link l).overflow = []) (h1 : ((s.link l).queue c).stalled = false)
    (h2 : ((s.link l).queue c).messages = []) : Waits (send l c m s) l c m := by
  unfold send
  cases c <;> exact
    { up := by simp [Link.setQueue], noOverflow := by simpa [Link.setQueue] using h,
      notStalled := by simpa [Link.setQueue, Link.queue] using h1,
      head := by simp [Link.setQueue, Link.queue] at h2 ⊢; simp [h2] }

theorem waitsAgain_send (l : Nat) (c : Channel) (m : Message) (s : State)
    (h : (s.link l).overflow = []) : WaitsAgain (sendStalled l c m s) l c m := by
  unfold sendStalled
  cases c <;> exact
    { up := by simp [Link.setQueue], noOverflow := by simpa [Link.setQueue] using h,
      stalled := by simp [Link.setQueue, Link.queue], called := by simp [Link.setQueue, Link.queue],
      head := by simp [Link.setQueue, Link.queue] }

theorem controlWaits_send (l kind tag : Nat) (body : List Byte) (s : State) (hl : 1 ≤ l ∧ l ≤ 4)
    (h : (s.link l).overflow = []) (h1 : ((s.link l).queue .control).stalled = false)
    (h2 : ((s.link l).queue .control).messages = []) :
    ControlWaits (send l .control (msg kind tag body []) s) l kind (msg kind tag body []) :=
  { drain := hl, waits := waits_send l .control _ s h h1 h2, isKind := rfl }

theorem requestWaits_ask (kind : Nat) (body : List Byte) (s : State) (hk : byteAt body 0 = kind)
    (h : (s.link 5).overflow = []) (h1 : ((s.link 5).queue .mgmt).stalled = false)
    (h2 : ((s.link 5).queue .mgmt).messages = []) :
    RequestWaits (ask body s) kind (msg 15 9 body []) :=
  { waits := waits_send 5 .mgmt _ s h h1 h2, isRequest := rfl, isKind := hk }

/-! ### WellFormed: an ill-formed command for each check -/

theorem test_wf_linkUp : (Instr.linkUp 6).wellFormed = false ∧ (Instr.linkUp 5).wellFormed = true := by
  decide

theorem test_wf_linkReset : (Instr.linkReset 6).wellFormed = false := by decide

theorem test_wf_messageSent : (Instr.messageSent 6).wellFormed = false := by decide

theorem test_wf_writeIntent :
    (Instr.writeIntent 5).wellFormed = false ∧ (Instr.stalledIntentRetake 5).wellFormed = false ∧
    (Instr.withdraw 5).wellFormed = false ∧ (Instr.writeData 5).wellFormed = false ∧
    (Instr.writeData 4).wellFormed = true := by decide

theorem test_wf_drain :
    [Instr.inquire 0, .inquire 5, .accept 0, .decline 5, .laneReady 0, .laneQuit 5, .fetch 0 [],
      .unitDone 5, .unitFail 0].all (fun c => !c.wellFormed) = true := by decide

theorem test_wf_grantLapse :
    (Instr.grantLapse 128).wellFormed = false ∧ (Instr.grantLapse 127).wellFormed = true := by decide

theorem test_wf_deadlineExpiry :
    (Instr.deadlineExpiry 4096).wellFormed = false ∧
    (Instr.deadlineExpiry 4095).wellFormed = true := by decide

theorem test_wf_offerLapse :
    (Instr.offerLapse 32).wellFormed = false ∧ (Instr.offerLapse 31).wellFormed = true := by decide

theorem test_wf_reads :
    (Instr.readProbe (List.replicate 33 .clean)).wellFormed = false ∧
    (Instr.fetch 1 (List.replicate 33 .clean)).wellFormed = false ∧
    (Instr.fetch 1 (List.replicate 32 .clean)).wellFormed = true := by decide

/-- A message whose link, each header field in turn, body length or payloads do not fit. -/
theorem test_wf_messageArrival :
    (Instr.messageArrival 0 (msg 6 1 [] [])).wellFormed = true ∧
    (Instr.messageArrival 6 (msg 6 1 [] [])).wellFormed = false ∧
    (Instr.messageArrival 0 { msg 6 1 [] [] with kind := 256 }).wellFormed = false ∧
    (Instr.messageArrival 0 { msg 6 1 [] [] with payloadCount := 256 }).wellFormed = false ∧
    (Instr.messageArrival 0 { msg 6 1 [] [] with tag := 65536 }).wellFormed = false ∧
    (Instr.messageArrival 0 { msg 6 1 [] [] with bodyLength := 65536 }).wellFormed = false ∧
    (Instr.messageArrival 0 { msg 6 1 [] [] with linkSeq := 65536 }).wellFormed = false ∧
    (Instr.messageArrival 0 { msg 6 1 [] [] with bodyLength := 1 }).wellFormed = false ∧
    (Instr.messageArrival 0 { msg 6 1 [] [] with payloadCount := 1 }).wellFormed = false ∧
    (Instr.messageArrival 0 (msg 4 1 [0#8, 1#8, 0#8, 0#8] [[7#8]])).wellFormed = false := by
  decide

/-! ### The machine -/

theorem test_step_front :
    ({ base with pending := [.scrubComplete, .start] } : State).pending =
        .scrubComplete :: [.start] ∧
    (after (step { base with pending := [.scrubComplete, .start] })).pending = [.start] := by
  decide +kernel

theorem test_idle_advances :
    dueEvents { base with part := .stopped, nextVisit := none } = [] ∧
    (after (step { base with part := .stopped, nextVisit := none })).now = 51 := by
  decide +kernel

theorem test_idle_in_reset :
    State.reset.pending = [] ∧ dueEvents State.reset = [] ∧
    (after (step State.reset)).now = 0 := by decide +kernel

def scrubbingNow : State := { State.reset with resetAsserted := false, scrubbing := true }

/-- In the start-up scrub nothing but its end is due (whether it is due is a free value, log entry 5). -/
theorem test_idle_scrub :
    scrubbingNow.part = .starting ∧ scrubbingNow.scrubbed ≤ 65536 ∧
    ∀ c ∈ dueEvents scrubbingNow, c = .scrubComplete := by
  refine ⟨rfl, by decide, ?_⟩
  have h : dueEvents scrubbingNow =
      (if scrubDue scrubbingNow then [Instr.scrubComplete] else []) ++ [] ++ [] ++ [] := rfl
  rw [h]
  split <;> simp

theorem test_idle_due :
    dueEvents (base.setGrant 5 (grantOf 0 1 7 3 1 { handle := 5, lba := 100 })) =
      [.grantLapse 5, .slotVisit] := by decide +kernel

theorem test_keeps_queue :
    isNext (exec .scrubComplete { base with part := .starting, scrubbing := true }) = true := by
  decide

/-! ### Board lines -/

theorem test_fullReset :
    (after (exec .fullReset { base with pfailAsserted := true })).part = .starting ∧
    (after (exec .fullReset { base with pfailAsserted := true })).now = 0 ∧
    (after (exec .fullReset { base with pfailAsserted := true })).pfailAsserted = true := by
  decide +kernel

theorem test_release :
    State.reset.resetAsserted = true ∧
    after (exec (.resetNRelease false) State.reset) =
      { State.reset with resetAsserted := false, scrubbing := true } := by decide +kernel

/-- PFAIL_N asserted at the release: no unit is in use, so SAFE is asserted at the entry (R158). -/
theorem test_release_pfail :
    (after (exec (.resetNRelease true) State.reset)).part = .powerFail ∧
    (after (exec (.resetNRelease true) State.reset)).safe = true ∧
    (after (exec (.resetNRelease true) State.reset)).alert = true := by decide +kernel

theorem test_scrub :
    (after (exec .scrubComplete { State.reset with resetAsserted := false, scrubbing := true })).part =
      .stopped ∧
    exec .scrubComplete base = .next base := ⟨by decide, rfl⟩

/-- A scrub that stood at frame 3: frame 9 held bytes before it, and holds zero data after it. -/
theorem test_scrub_zeroes :
    ({ scrubbingNow with scrubbed := 3, freed := [(9, { data := [7#8], latent := true })] } : State).frame? 9 =
      none ∧
    (after (exec .scrubComplete
      { scrubbingNow with scrubbed := 3, freed := [(9, { data := [7#8], latent := true })] })).freed = [] := by
  decide +kernel

def failing : State :=
  { (base.setUnit 192 (unitIn .opened [0])).setStream 3
      { active .host with openUnit := some 192 } with drainCount := 1 }

theorem test_pfail :
    failing.resetAsserted = false ∧ failing.part ≠ .powerFail ∧
    ((after (exec .pfailNAssertion failing)).unit? 192).map (·.cause) = some (some .powerFail) ∧
    (after (exec .pfailNAssertion failing)).safe = false ∧
    (after (exec .pfailNAssertion { base with part := .powerFail })).pfailAsserted = true := by
  decide +kernel

/-! ### Links -/

theorem test_place :
    (State.reset.link 0).up = false ∧
    ((place 0 (.reportEmpty 1) (send 0 .read (msg 6 1 [] []) base)).link 0).outbound =
      [.reportEmpty 1] := by decide +kernel

def fullOut : State :=
  base.setLink 0 { Link.reset with up := true, outbound := List.replicate 64 (.reportEmpty 0) }

theorem test_place_full :
    (fullOut.link 0).up = true ∧ 64 ≤ (fullOut.link 0).outbound.length ∧
    ((place 0 (.reportEmpty 1) fullOut).link 0).overflow = [.reportEmpty 1] := by decide +kernel

theorem test_linkUp :
    (base.link 3).up = false ∧ base.resetAsserted = false ∧
    ((after (exec (.linkUp 3) base)).link 3).up = true ∧
    ((after (exec (.linkUp 0) fullOut)).link 0).outbound = [] ∧
    ((after (exec (.linkUp 0) fullOut)).link 0).resets = 1 := by decide +kernel

def resetting (l : Nat) : State :=
  ((send l .reclaim (msg 2 1 [] []) base).setLane 8 { laneUp with offer := some { unit := 192, slot := 4 } }).setUnit
    192 { unitIn .offered [0] with lane := some 8 }

theorem test_linkReset_drain :
    ((resetting 2).link 2).up = true ∧ LaneLaw (resetting 2) ∧
    ((after (exec (.linkReset 2) (resetting 2))).lane 8).state = .absent ∧
    ((after (exec (.linkReset 2) (resetting 2))).lane 8).offer = none ∧
    ((after (exec (.linkReset 2) (resetting 2))).unit? 192).map (·.state) = some .staged ∧
    ((after (exec (.linkReset 2) (resetting 2))).link 2).reclaim.messages = [] := by
  refine ⟨by decide, fun g h => ?_, by decide +kernel⟩
  have hl : (resetting 2).lane g =
      if 8 = g then { laneUp with offer := some { unit := 192, slot := 4 } } else base.lane g := by
    unfold resetting send
    simp only [State.setUnit_records, State.lane_setLane, State.setLink_records]
  rw [hl] at h ⊢
  split at h
  · exact absurd rfl h
  · rename_i hg; rw [if_neg hg]; exact ⟨rfl, rfl⟩

theorem test_linkReset_zero :
    ((fullOut.setFlush 0 { scope := .all, horizon := 1, count := 1, tags := [3] }).link 0).up = true ∧
    (after (exec (.linkReset 0)
      (fullOut.setFlush 0 { scope := .all, horizon := 1, count := 1, tags := [3] }))).flushes = [] := by
  decide +kernel

theorem test_linkReset_five :
    ((ask [1#8] base).link 5).up = true ∧ hasLinkTraffic (ask [1#8] base) 5 = false ∧
    ((after (exec (.linkReset 5) (ask [1#8] base))).link 5).mgmt.messages = [] := by decide +kernel

theorem test_linkReset_down : exec (.linkReset 1) base = .next base := rfl

def upLink (l : Nat) : State := base.setLink l { Link.reset with up := true, inSeq := 65535 }

theorem test_arrival :
    (upLink 0).link 0 = { Link.reset with up := true, inSeq := 65535 } ∧
    kindChannel 0 6 = some .read ∧ sizeOk 0 { msg 6 1 [] [] with linkSeq := 65535 } = true ∧
    (((upLink 0).link 0).queue .read).messages.length < channelDepth 0 .read ∧
    ((after (exec (.messageArrival 0 { msg 6 1 [] [] with linkSeq := 65535 }) (upLink 0))).link
      0).read.messages.length = 1 ∧
    ((after (exec (.messageArrival 0 { msg 6 1 [] [] with linkSeq := 65535 }) (upLink 0))).link
      0).inSeq = 0 := by decide +kernel

/-- The wrong sequence, and each refusal of R161. -/
theorem test_arrival_refused :
    ((after (exec (.messageArrival 0 (msg 6 1 [] [])) (upLink 0))).link 0).up = false ∧
    ((after (exec (.messageArrival 0 { msg 7 1 [] [] with linkSeq := 65535 }) (upLink 0))).link
      0).outbound = [.messageRefused 7 1 .unknownKind] ∧
    ((after (exec (.messageArrival 0 { msg 6 1 [3#8] [] with linkSeq := 65535 }) (upLink 0))).link
      0).outbound = [.messageRefused 6 1 .badLength] ∧
    ((after (exec (.messageArrival 5 { msg 15 1 [1#8] [] with linkSeq := 65535 })
      ((upLink 5).setLink 5 { (upLink 5).link 5 with
        mgmt := { messages := List.replicate 8 (msg 15 0 [1#8] []), stalled := false,
                  retake := false } }))).link 5).outbound = [.messageRefused 15 1 .overrun] := by
  decide +kernel

/-- The boundary of each refusal: the kinds beside a link's own, and the channel at its depth. -/
theorem test_arrival_bounds :
    kindChannel 0 7 = none ∧ kindChannel 5 15 = some .mgmt ∧ kindChannel 1 15 = none ∧
    sizeOk 0 (msg 6 1 [3#8] []) = false ∧ channelDepth 5 .mgmt = 8 := by decide

def overflowing : State :=
  fullOut.setLink 0
    { fullOut.link 0 with
      overflow := [.reportEmpty 5],
      intent := { messages := [msg 3 1 [1#8, 0#8, 0#8] []], stalled := true, retake := false } }

theorem test_sent :
    (overflowing.link 0).outbound = .reportEmpty 0 :: List.replicate 63 (.reportEmpty 0) ∧
    ((after (exec (.messageSent 0) overflowing)).link 0).overflow = [] ∧
    ((after (exec (.messageSent 0) overflowing)).link 0).outbound.length = 64 ∧
    ((after (exec (.messageSent 0) overflowing)).link 0).intent.retake = true ∧
    ((after (exec (.messageSent 0) overflowing)).link 0).wire =
      some { linkSeq := 0, message := .reportEmpty 0 } := by decide +kernel

def delivering : State :=
  let u : UnitRecord :=
    { unitIn .releasing [4] with
      lane := some 1, handle := some 99#40, cause := some .full, stagedSeq := some 0 }
  { (((base.setUnit 192 u).setFrame 4 (frameAt 5 100 7 .host 3 192 0)).setIndexSet 385
        { ways := [(0, { key := { handle := 5, lba := 100 }, frame := 4 })], reserved := 0 }).setLink 0
      { Link.reset with up := true, outbound := [.reportEntry 8 192] } with
    reportQueue := [{ unit := 192, issued := true }], nextSeq := 4, free := 100 }

theorem test_delivery :
    (delivering.reportQueue.any fun i => i.unit == 192 && i.issued) = true ∧
    (delivering.unit? 192).isSome = true ∧
    (after (exec .placementReportDelivery delivering)).unit? 192 = none ∧
    (after (exec .placementReportDelivery delivering)).frame? 4 = none ∧
    ((after (exec .placementReportDelivery delivering)).indexSet 385).ways = [] ∧
    (after (exec .placementReportDelivery delivering)).free = 101 ∧
    exec (.messageSent 0) delivering = exec .placementReportDelivery delivering :=
  ⟨by decide, by decide, by decide +kernel, by decide +kernel, by decide +kernel, by decide +kernel, rfl⟩

/-- The premises of the clauses about the frames, and a RETIRING stream that becomes UNBOUND. -/
theorem test_delivery_clauses :
    Table.sorted delivering.frames = true ∧ (delivering.frame? 4).isSome = true ∧
    4 < delivering.scrubbed ∧
    ((after (exec .placementReportDelivery delivering)).stored? 4).map (·.data) = some [7#8] ∧
    ((after (exec .placementReportDelivery
      (delivering.setStream 3 { active .host with state := .retiring }))).stream 3).state = .unbound := by
  decide +kernel

theorem test_indexLaw : IndexLaw delivering := by
  have hx : ∀ x, delivering.indexSet x =
      if 385 = x then { ways := [(0, { key := { handle := 5, lba := 100 }, frame := 4 })], reserved := 0 }
      else IndexSet.reset := fun x => by
    have h : delivering.indexSet x = (base.setIndexSet 385
        { ways := [(0, { key := { handle := 5, lba := 100 }, frame := 4 })], reserved := 0 }).indexSet x := rfl
    rw [h, State.indexSet_setIndexSet]
    rfl
  have hf : ∀ f, delivering.frame? f = if 4 = f then some (frameAt 5 100 7 .host 3 192 0) else none :=
    fun _ => rfl
  refine ⟨fun x => ?_, fun x p h => ?_, fun x p h q k e => ?_, fun f v h hv => ?_⟩
  · rw [hx]; split <;> rfl
  · rw [hx] at h
    split at h
    · rename_i hx'
      rw [List.mem_singleton.1 h]
      subst hx'
      exact ⟨by decide, _, hf 4, rfl, rfl⟩
    · cases h
  · rw [hx] at h k
    split at h
    · rename_i hx'
      rw [if_pos hx'] at k
      rw [List.mem_singleton.1 h, List.mem_singleton.1 k]
    · cases h
  · rw [hf] at h
    split at h
    · rename_i h4
      cases h
      subst h4
      refine ⟨(0, { key := { handle := 5, lba := 100 }, frame := 4 }), ?_, rfl⟩
      rw [show indexHash (frameAt 5 100 7 .host 3 192 0).record.key = 385 by decide, hx]
      exact List.mem_singleton.2 rfl
    · cases h

/-! ### Classification and admission -/

def key100 : Key := { handle := 5, lba := 100 }

/-- Tenant 7 with default stream 3, which is ACTIVE of class HOST; stream 40 is ACTIVE of class RECLAIM. -/
def open7 : State :=
  { ((base.setStream 3 (active .host)).setStream 40 (active .reclaim)).setTenant 7
      { Tenant.reset with defaultStream := 3 } with reclaimMap := [40, 40, 40, 40] }

def intent4 : Message := msg 1 21 (intentBody 7 5 100 4) []

def asked : State := send 0 .intent intent4 open7

def askedReclaim : State := send 2 .reclaim intent4 open7

theorem test_fit :
    (active .host).fit .host = true ∧ (active .host).fit .reclaim = false ∧
    Sys2Proof.Machine.Stream.reset.fit .host = false := by decide

/-- The two cases of R9 at their boundary: the next LBA, and one beyond it. -/
theorem test_tracker :
    (({ handle := some 5, nextLba := 100, runLength := 4094 } : RunTracker).advance 5 100 4) =
      { handle := some 5, nextLba := 104, runLength := 4095 } ∧
    (({ handle := some 5, nextLba := 100, runLength := 9 } : RunTracker).advance 5 101 4) =
      { handle := some 5, nextLba := 105, runLength := 4 } := by decide

theorem test_takesIntent :
    TakesIntent asked 0 intent4 (.writeIntent 0) ∧
    TakesIntent (sendStalled 0 .intent intent4 open7) 0 intent4 (.stalledIntentRetake 0) ∧
    TakesIntent askedReclaim 2 intent4 (.writeIntent 2) ∧ intent4.kind = kindWriteIntent :=
  ⟨.first (waits_send _ _ _ _ (by decide) (by decide) (by decide)),
    .again (waitsAgain_send _ _ _ _ (by decide)),
    .first (waits_send _ _ _ _ (by decide) (by decide) (by decide)), rfl⟩

theorem test_hostPasses : HostPasses asked 21 (readIntent intent4.body) 3 :=
  { running := by decide, fields := by decide, tagFree := by decide +kernel,
    unprotected := by decide +kernel, stream := by decide +kernel, underCap := by decide +kernel }

theorem test_reclaimPasses : ReclaimPasses askedReclaim 2 21 (readIntent intent4.body) 40 :=
  { drain := by decide, running := by decide, fields := by decide, tagFree := by decide +kernel,
    stream := by decide +kernel, underCap := by decide +kernel }

theorem test_hostGranted :
    holdReasons asked 7 3 key100 4 = Reasons.none ∧ vacantGrant asked = some 0 ∧
    holdReasons askedReclaim 256 40 key100 4 = Reasons.none ∧ vacantGrant askedReclaim = some 0 ∧
    ((after (exec (.writeIntent 0) asked)).link 0).outbound = [.grant 21 0 3 100] ∧
    (after (exec (.writeIntent 0) asked)).free = 65532 ∧
    ((after (exec (.writeIntent 0) asked)).account 7).used = 4 ∧
    ((after (exec (.writeIntent 0) asked)).grant? 0).map (·.lapse) = some 10050 ∧
    ((after (exec (.writeIntent 0) asked)).indexSet 385).reserved = 1 ∧
    ((after (exec (.writeIntent 0) asked)).tenant 7).tracker =
      { handle := some 5, nextLba := 104, runLength := 4 } ∧
    ((after (exec (.writeIntent 2) askedReclaim)).account 256).used = 4 := by decide +kernel

theorem test_retakeGranted :
    ((after (exec (.stalledIntentRetake 0) (sendStalled 0 .intent intent4 open7))).link 0).outbound =
      [.grant 21 0 3 100] ∧
    ((after (exec (.stalledIntentRetake 0) (sendStalled 0 .intent intent4 open7))).link
      0).intent.messages = [] := by decide +kernel

def entry7 : Entry :=
  { link := 0, tag := 30, account := 7, cls := .host, key := key100, n := 2, stream := 3,
    reasons := { Reasons.none with frozen := true }, relief := none }

def refusedBy (s : State) : Option (RefusalCode × Option Nat) :=
  s.captures.getLast?.map fun c => (c.reason, c.rule)

/-- A state for each refusal of R27 in its order, on link 0. -/
theorem test_intentsRefused :
    refusedBy (after (exec (.writeIntent 0) { asked with part := .powerFail })) =
      some (.powerFail, none) ∧
    refusedBy (after (exec (.writeIntent 0) { asked with part := .stopped })) =
      some (.notRunning, none) ∧
    refusedBy (after (exec (.writeIntent 0)
      (send 0 .intent (msg 1 21 (intentBody 7 5 100 0) []) open7))) = some (.malformed, none) ∧
    refusedBy (after (exec (.writeIntent 0)
      (asked.setGrant 9 (grantOf 0 21 7 3 1 key100)))) = some (.duplicateTag, none) ∧
    refusedBy (after (exec (.writeIntent 0) (asked.setRule 4
      { Rule.reset with enabled := true, action := .protect, lbaLow := 103, lbaHigh := 200 }))) =
        some (.protectedRange, some 4) ∧
    refusedBy (after (exec (.writeIntent 0) (asked.setStream 3 (active .reclaim)))) =
      some (.noStream, none) ∧
    refusedBy (after (exec (.writeIntent 0) (asked.setAccount 7 { Account.reset with cap := 3 }))) =
      some (.exceedsCap, none) := by decide +kernel

/-- The ninth refusal drops the oldest; the counts saturate at 2^32 − 1 (R4, R20). -/
def refusing : State :=
  { open7 with
    captures := entry7.captureOf .powerFail :: List.replicate 7 (entry7.captureOf .noStream)
    refusals := 4294967295 }.setRule 4 { Rule.reset with hits := 4294967295 }

theorem test_capture :
    8 ≤ refusing.captures.length ∧
    (refuse (entry7.captureOf .exceedsCap) refusing).captures =
      List.replicate 7 (entry7.captureOf .noStream) ++ [entry7.captureOf .exceedsCap] ∧
    (refuse (entry7.captureOf .exceedsCap) refusing).refusals = 4294967295 ∧
    (refuse (entry7.captureOf .exceedsCap) open7).captures = [entry7.captureOf .exceedsCap] ∧
    ((hitRule 4 refusing).rule 4).hits = 4294967295 ∧ ((hitRule 4 open7).rule 4).hits = 1 ∧
    ((readIntent intent4.body).captureOf 2 21 .noStream none).tenant = none := by decide +kernel

/-- A rule that ends the search and falls back: one hit more, FALLBACK, and the tracker (R4, R13, R14). -/
theorem test_told :
    searchRule (asked.setRule 4 { Rule.reset with enabled := true, action := .stream 9 }) 7 5 100 none =
      some 4 ∧
    ((tellChoice (asked.setRule 4 { Rule.reset with enabled := true, action := .stream 9 })
      (readIntent intent4.body)).rule 4).hits = 1 ∧
    ((tellChoice (asked.setRule 4 { Rule.reset with enabled := true, action := .stream 9 })
      (readIntent intent4.body)).event 5).flag = true ∧
    ((classified asked (readIntent intent4.body)).tenant 7).tracker =
      { handle := some 5, nextLba := 104, runLength := 4 } := by decide +kernel

theorem test_reclaimRefused :
    refusedBy (after (exec (.writeIntent 2) (askedReclaim.setStream 40 (active .host)))) =
      some (.noStream, none) ∧
    refusedBy (after (exec (.writeIntent 2)
      (askedReclaim.setAccount 256 { Account.reset with cap := 3 }))) =
        some (.exceedsCap, none) := by decide +kernel

/-- The hypotheses of the last refusals of R27. -/
theorem test_refusedHypotheses :
    (hostChoice (asked.setStream 3 (active .reclaim)) (readIntent intent4.body)).stream = none ∧
    (hostChoice asked (readIntent intent4.body)).stream.isSome = true ∧
    (chooseReclaim (askedReclaim.setStream 40 (active .host)) 0).stream = none ∧
    (chooseReclaim askedReclaim 0).stream.isSome = true := by decide +kernel

theorem test_fallback :
    (hostChoice (asked.setTenant 7
      { Tenant.reset with defaultStream := 3, seqStream := some 9, tracker :=
          { handle := some 5, nextLba := 100, runLength := 252 } })
      (readIntent intent4.body)) = { stream := some 3, fellBack := true } := by decide +kernel

/-- The hint map, the sequential stream at its threshold, and the default stream. -/
theorem test_choice :
    chooseHost open7 { Tenant.reset with hintMap := [some 9] } none 0 (some 0) = 9 ∧
    chooseHost open7 { Tenant.reset with seqStream := some 8 } none 256 (some 0) = 8 ∧
    chooseHost open7 { Tenant.reset with seqStream := some 8, defaultStream := 3 } none 255 none = 3 ∧
    chooseHost (open7.setRule 4 { Rule.reset with action := .stream 6 }) Tenant.reset (some 4) 0 none = 6 ∧
    searchRule (open7.setRule 31 { Rule.reset with enabled := true, action := .stream 6 }) 7 5 100 none =
      some 31 := by decide +kernel

def frozen7 : State := asked.setAccount 7 { Account.reset with frozen := true }

theorem test_held :
    holdReasons frozen7 7 3 key100 4 = { Reasons.none with frozen := true } ∧
    frozen7.waiting.length < 64 ∧
    (after (exec (.writeIntent 0) frozen7)).waiting =
      [heldEntry frozen7 0 21 7 .host 3 key100 4] ∧
    ((after (exec (.writeIntent 0) frozen7)).link 0).outbound =
      [.holdNotice 21 { Reasons.none with frozen := true }] ∧
    ((after (exec (.writeIntent 0) frozen7)).account 7).heldCount = 1 := by decide +kernel

theorem test_hostPasses_held : HostPasses frozen7 21 (readIntent intent4.body) 3 :=
  { running := by decide, fields := by decide, tagFree := by decide +kernel,
    unprotected := by decide +kernel, stream := by decide +kernel, underCap := by decide +kernel }

theorem test_stalled :
    64 ≤ ({ frozen7 with waiting := List.replicate 64 entry7 } : State).waiting.length ∧
    exec (.writeIntent 0) { frozen7 with waiting := List.replicate 64 entry7 } =
      .next (stallHead 0 .intent { frozen7 with waiting := List.replicate 64 entry7 }) :=
  ⟨by decide, by rfl⟩

def withdrawing : State :=
  send 0 .intent (msg 2 30 [] [])
    ({ open7 with waiting := [entry7] }.setAccount 7 { Account.reset with heldCount := 1 })

theorem test_withdraw_entry :
    Waits withdrawing 0 .intent (msg 2 30 [] []) ∧ findEntry withdrawing 0 30 = some entry7 ∧
    (after (exec (.withdraw 0) withdrawing)).waiting = [] ∧
    ((after (exec (.withdraw 0) withdrawing)).account 7).heldCount = 0 ∧
    ((after (exec (.withdraw 0) withdrawing)).link 0).outbound = [.withdrawAnswer 30 true] :=
  ⟨waits_send _ _ _ _ (by decide) (by decide) (by decide), by decide +kernel, by decide +kernel,
    by decide +kernel, by decide +kernel⟩

def granted : State :=
  (((open7.setGrant 5 (grantOf 0 21 7 3 1 key100)).setAccount 7 { Account.reset with used := 1 }).setIndexSet
    385 { ways := [], reserved := 1 }).setStream 3 { active .host with reserved := 1 }

theorem test_withdraw_grant :
    findEntry (send 0 .intent (msg 2 21 [] []) granted) 0 21 = none ∧
    findGrant (send 0 .intent (msg 2 21 [] []) granted) 0 21 =
      some (5, grantOf 0 21 7 3 1 key100) ∧
    (after (exec (.withdraw 0) (send 0 .intent (msg 2 21 [] []) granted))).grant? 5 = none ∧
    (after (exec (.withdraw 0) (send 0 .intent (msg 2 21 [] []) granted))).free = 65537 ∧
    ((after (exec (.withdraw 0) (send 0 .intent (msg 2 77 [] []) granted))).link 0).outbound =
      [.withdrawAnswer 77 false] := by decide +kernel

theorem test_lapse :
    granted.grant? 5 = some (grantOf 0 21 7 3 1 key100) ∧ (grantOf 0 21 7 3 1 key100).lapse ≤ granted.now ∧
    (after (exec (.grantLapse 5) granted)).grant? 5 = none ∧
    ((after (exec (.grantLapse 5) granted)).account 7).used = 0 ∧
    ((after (exec (.grantLapse 5) granted)).indexSet 385).reserved = 0 ∧
    ((after (exec (.grantLapse 5) granted)).event 3) = { flag := true, masked := false, count := 1 } := by
  decide +kernel

theorem test_lapse_early :
    ({ granted with now := 49 } : State).now < (grantOf 0 21 7 3 1 key100).lapse ∧
    exec (.grantLapse 5) { granted with now := 49 } = .next { granted with now := 49 } :=
  ⟨by decide, by rfl⟩

/-- Two entries of a frozen account: the first stays FROZEN, the second is behind it (R42). -/
theorem test_walk :
    ((retestWalk ({ open7 with waiting := [entry7, { entry7 with tag := 31 }] }.setAccount 7
      { Account.reset with frozen := true, heldCount := 2 })).waiting.map (·.reasons)) =
        [{ Reasons.none with frozen := true }, { Reasons.none with order := true }] ∧
    retestWalk open7 = open7 := ⟨by decide +kernel, rfl⟩

theorem test_walk_grants :
    (retestWalk ({ open7 with waiting := [entry7] }.setAccount 7
      { Account.reset with heldCount := 1 })).waiting = [] ∧
    ((retestWalk ({ open7 with waiting := [entry7] }.setAccount 7
      { Account.reset with heldCount := 1 })).grant? 0).map (·.tag) = some 30 := by decide +kernel

/-- A walk over a list of the one entry `e`, with tenant 7's account `a`. -/
def walked (e : Entry) (a : Account) (s : State) : State :=
  retestWalk ({ s with waiting := [e] }.setAccount 7 { a with heldCount := 1 })

/-- The outcomes of a re-test: an unfit stream falls back or is refused NO_STREAM, a count above the cap is
refused EXCEEDS_CAP, and one of the resources holds the entry (R18, R42, R43). -/
theorem test_walk_outcomes :
    ((walked { entry7 with stream := 9 } Account.reset open7).grant? 0).map (·.stream) = some 3 ∧
    ((walked { entry7 with stream := 9 } Account.reset open7).event 5).flag = true ∧
    refusedBy (walked { entry7 with stream := 9 } Account.reset (open7.setStream 3 (active .reclaim))) =
      some (.noStream, none) ∧
    ((walked { entry7 with stream := 9 } Account.reset
      (open7.setStream 3 (active .reclaim))).account 7).heldCount = 0 ∧
    refusedBy (walked entry7 { Account.reset with cap := 1 } open7) = some (.exceedsCap, none) ∧
    (walked entry7 { Account.reset with cap := 2, used := 1 } open7).waiting =
      [{ entry7 with reasons := { Reasons.none with cap := true } }] ∧
    (walked { entry7 with cls := .reclaim, account := 256, stream := 9 } Account.reset
      open7).waiting = [] := by decide +kernel

/-- Both sides of the limits of stages 2 to 6, and the first set that fails (R29 to R31). -/
theorem test_reasons :
    (resourceReasons (asked.setIndexSet 385 { ways := [], reserved := 15 }) 7 3 key100 1).ways = false ∧
    (resourceReasons (asked.setIndexSet 385 { ways := [], reserved := 16 }) 7 3 key100 1).ways = true ∧
    failingSet (asked.setIndexSet 385 { ways := [], reserved := 16 }) key100 4 = some 385 ∧
    (resourceReasons (asked.setAccount 7 { Account.reset with cap := 4 }) 7 3 key100 4).cap = false ∧
    (resourceReasons (asked.setAccount 7 { Account.reset with cap := 4 }) 7 3 key100 5).cap = true ∧
    (resourceReasons { asked with free := 3 } 7 3 key100 4).frames = true ∧
    (resourceReasons (asked.setStream 3 { active .host with reserved := 64 }) 7 3 key100 1).units =
      true ∧
    vacantGrant (asked.setGrant 0 (grantOf 0 1 7 3 1 key100)) = some 1 := by decide +kernel

/-! ### Placement -/

def data1 : Message := msg 4 21 [5#8, 1#8, 0#8, 0#8] [[9#8]]

def writing : State := send 0 .data data1 granted

theorem test_dataRefused :
    Waits writing 0 .data data1 ∧
    ((after (exec (.writeData 0) (writing.clearGrant 5))).link 0).outbound =
      [.dataRefused 21 5 .late] ∧
    ((after (exec (.writeData 0) (writing.setGrant 5 (grantOf 0 22 7 3 1 key100)))).link
      0).outbound = [.dataRefused 21 5 .late] ∧
    ((after (exec (.writeData 0) (writing.setGrant 5 (grantOf 0 21 7 3 2 key100)))).link
      0).outbound = [.dataRefused 21 5 .mismatch] :=
  ⟨waits_send _ _ _ _ (by decide) (by decide) (by decide), by decide +kernel, by decide +kernel,
    by decide +kernel⟩

theorem test_dataPlaced :
    writing.grant? (byteAt data1.body 0) = some (grantOf 0 21 7 3 1 key100) ∧
    byteAt data1.body 1 = 1 ∧ (freeFrame writing).isSome = true ∧
    (vacantWay (writing.indexSet (indexHash key100))).isSome = true ∧
    (withOpenUnit 3 writing).isSome = true ∧
    ((after (exec (.writeData 0) writing)).frame? 0).map (·.data) = some [9#8] ∧
    ((after (exec (.writeData 0) writing)).link 0).outbound =
      [.writeDone 21 5 3 1 [.placed 1]] ∧
    (after (exec (.writeData 0) writing)).grant? 5 = none ∧
    ((after (exec (.writeData 0) writing)).unit? 192).map (·.frames) = some [0] := by
  decide +kernel

def slice9 (c : WriteClass) : SliceWrite :=
  { stream := 3, account := 7, cls := c, key := key100, data := [9#8], source := none }

/-- Frame 4 holds key (5, 100) in the OPEN unit 192 of stream 3. -/
def staged4 (c : WriteClass) : State :=
  { ((((granted.setFrame 4 (frameAt 5 100 7 c 3 192 0)).setIndexSet 385
      { ways := [(2, { key := key100, frame := 4 })], reserved := 1 }).setUnit 192
        (unitIn .opened [4])).setStream 3 { active .host with openUnit := some 192, reserved := 1 }) with
    nextSeq := 4 }

theorem test_inPlace :
    lookup (staged4 .host) key100 = some (2, { key := key100, frame := 4 }) ∧
    (staged4 .host).frame? 4 = some (frameAt 5 100 7 .host 3 192 0) ∧
    ((staged4 .host).stream 3).openUnit = some 192 ∧
    (match placeSlice (slice9 .host) (staged4 .host) with
     | .ok (o, t) => (o, (t.frame? 4).map (·.record.latestSeq), (t.frame? 4).map (·.data),
         t.nextSeq, t.free, (t.account 7).used, (t.indexSet 385).reserved)
     | .error _ => (.superseded, none, none, 0, 0, 0, 0)) =
      (.overwritten 4, some 4, some [9#8], 5, 65537, 0, 0) := by decide +kernel

theorem test_dropped :
    (match placeSlice { slice9 .reclaim with stream := 40, account := 7 } (staged4 .host) with
     | .ok (o, t) => (o, t.nextSeq, t.free, (t.indexSet 385).reserved, (t.frame? 4).isSome)
     | .error _ => (.placed 0, 0, 0, 0, false)) = (.superseded, 4, 65537, 0, true) := by
  decide +kernel

/-- A HOST slice over a RECLAIM frame supersedes it (Table 3-3). -/
theorem test_supersede :
    ¬((frameAt 5 100 7 .reclaim 3 192 0).record.cls = (slice9 .host).cls ∧
      ((staged4 .reclaim).stream 3).openUnit = some 192) ∧
    freeFrame (staged4 .reclaim) = some 0 ∧
    (withOpenUnit 3 (staged4 .reclaim)).map (·.1) = some 192 ∧
    (match placeSlice (slice9 .host) (staged4 .reclaim) with
     | .ok (o, t) => (o, (t.frame? 4).map (·.record.void), (t.frame? 0).map (·.record.position),
         (t.indexSet 385).ways, t.free)
     | .error _ => (.superseded, none, none, [], 0)) =
      (.placed 4, some true, some 1, [(2, { key := key100, frame := 0 })], 65536) := by
  decide +kernel

/-- A miss that fills the OPEN unit stages it FULL (R62). -/
theorem test_miss_full :
    lookup ((staged4 .host).setUnit 192 (unitIn .opened (List.range 15))) { handle := 5, lba := 101 } =
      none ∧
    vacantWay ((staged4 .host).indexSet 384) = some 0 ∧
    (match placeSlice { slice9 .host with key := { handle := 5, lba := 101 } }
        ((staged4 .host).setUnit 192 (unitIn .opened (List.range 15))) with
     | .ok (o, t) => (o, (t.unit? 192).map (fun u => (u.state, u.cause, u.frames.length)))
     | .error _ => (.superseded, none)) =
      (.placed 4, some (.staged, some .full, 16)) := by decide +kernel

/-- A stream without an OPEN unit: the record at the cursor, and the next VACANT one past the ring's end. -/
theorem test_openUnit :
    (open7.stream 3).openUnit = none ∧ (withOpenUnit 3 open7).map (·.1) = some 192 ∧
    (withOpenUnit 3 ((open7.setUnit 255 (unitIn .staged [])).setStream 3
      { active .host with cursor := 63 })).map (fun p => (p.1, (p.2.stream 3).cursor)) =
        some (192, 1) := by decide +kernel

/-! ### Index and reads -/

/-- Table 3-2, and the limits of the terms. -/
theorem test_indexHash :
    indexHash { handle := 0, lba := 0 } = 0 ∧ indexHash { handle := 0, lba := 4096 } = 1 ∧
    indexHash { handle := 1, lba := 0 } = 97 ∧
    indexHash { handle := 1023, lba := 1099511627775 } < 4096 := by decide

def probing : State := send 0 .read (msg 5 3 (leBytes 2 5 ++ leBytes 5 100 ++ leBytes 1 2) []) (staged4 .host)

theorem test_probe :
    Waits probing 0 .read (msg 5 3 (leBytes 2 5 ++ leBytes 5 100 ++ leBytes 1 2) []) ∧
    runOk 5 100 2 = true ∧ probing.part ≠ .starting ∧
    ((after (exec (.readProbe []) probing)).link 0).outbound =
      [.probeAnswer 3 2 [.hit, .miss] [[7#8]]] ∧
    ((after (exec (.readProbe [.uncorrectable]) probing)).link 0).outbound =
      [.probeAnswer 3 2 [.damaged, .miss] []] ∧
    (after (exec (.readProbe [.uncorrectable]) probing)).uncorrectable = 1 :=
  ⟨waits_send _ _ _ _ (by decide) (by decide) (by decide), by decide, by decide, by decide +kernel,
    by decide +kernel, by decide +kernel⟩

theorem test_probe_noLatent : NoLatent probing := by
  intro f v h
  have hf : probing.frame? f = if 4 = f then some (frameAt 5 100 7 .host 3 192 0) else none := by
    show (granted.setFrame 4 _).frame? f = _
    rw [State.frame?_setFrame]; rfl
  rw [hf] at h
  split at h
  · cases h; rfl
  · cases h

/-- The boundaries of the range check: n of 0, 32 and 33, the last handle and the last LBA. -/
theorem test_runOk :
    runOk 5 100 0 = false ∧ runOk 5 100 32 = true ∧ runOk 5 100 33 = false ∧
    runOk 1024 0 1 = false ∧ runOk 1023 1099511627775 1 = true ∧
    runOk 1023 1099511627775 2 = false := by decide

theorem test_probe_starting :
    ((after (exec (.readProbe []) { probing with part := .starting })).link 0).outbound =
      [.probeAnswer 3 2 [.miss, .miss] []] := by decide +kernel

def inquiring (n : Nat) : State :=
  send 2 .control (msg 14 3 (leBytes 2 5 ++ leBytes 5 100 ++ leBytes 1 n) []) (staged4 .host)

theorem test_inquire :
    ControlWaits (inquiring 2) 2 14 (msg 14 3 (leBytes 2 5 ++ leBytes 5 100 ++ leBytes 1 2) []) ∧
    ((after (exec (.inquire 2) (inquiring 2))).link 2).outbound = [.inquireAnswer 3 2 [true, false]] ∧
    ((after (exec (.inquire 2) (inquiring 0))).link 2).outbound = [.inquireRefused 3] :=
  ⟨controlWaits_send _ _ _ _ _ (by decide) (by decide) (by decide) (by decide), by decide +kernel,
    by decide +kernel⟩

theorem test_readFrame :
    (readFrame 4 (frameAt 5 100 7 .host 3 192 0) .corrected (staged4 .host)).2.corrected = 1 ∧
    (readFrame 4 { frameAt 5 100 7 .host 3 192 0 with latent := true } .clean
      (staged4 .host)).2.corrected = 1 ∧
    (readFrame 4 (frameAt 5 100 7 .host 3 192 0) .clean (staged4 .host)).2 = staged4 .host := by
  decide +kernel

/-! ### Reports and flushes -/

def fetching : State :=
  send 0 .read (msg 6 8 [] [])
    { base with reportQueue := [{ unit := 7, issued := true }, { unit := 9, issued := false }] }

theorem test_reportFetch :
    Waits fetching 0 .read (msg 6 8 [] []) ∧ nextReport fetching = some 9 ∧
    ((after (exec .reportFetch fetching)).link 0).outbound = [.reportEntry 8 9] ∧
    (after (exec .reportFetch fetching)).reportQueue =
      [{ unit := 7, issued := true }, { unit := 9, issued := true }] ∧
    nextReport { fetching with reportQueue := [] } = none ∧
    ((after (exec .reportFetch { fetching with reportQueue := [] })).link 0).outbound =
      [.reportEmpty 8] :=
  ⟨waits_send _ _ _ _ (by decide) (by decide) (by decide), by decide, by decide +kernel,
    by decide +kernel, by decide, by decide +kernel⟩

def flush (body : List Byte) : Message := msg 3 12 body []

def flushing (body : List Byte) : State := send 0 .intent (flush body) (staged4 .host)

theorem test_takesFlush :
    TakesFlush (flushing [1#8, 0#8, 0#8]) (flush [1#8, 0#8, 0#8]) .flush ∧
    TakesFlush (sendStalled 0 .intent (flush [1#8, 0#8, 0#8]) (staged4 .host)) (flush [1#8, 0#8, 0#8])
      .stalledFlushRetake :=
  ⟨.first (waits_send _ _ _ _ (by decide) (by decide) (by decide)),
    .again (waitsAgain_send _ _ _ _ (by decide))⟩

/-- A scope that names no member, a tenant of 256, and a tenant of 255 with nothing to flush. -/
theorem test_flush_atOnce :
    readScope [2#8, 0#8, 0#8] = none ∧ readScope [0#8, 0#8, 1#8] = some (.tenant 256) ∧
    readScope [0#8, 255#8, 0#8] = some (.tenant 255) ∧
    flushCounts (flushing [0#8, 255#8, 0#8]) (.tenant 255) 3 = 0 ∧
    ((after (exec .flush (flushing [2#8, 0#8, 0#8]))).link 0).outbound = [.flushRefused 12] ∧
    ((after (exec .flush (flushing [0#8, 0#8, 1#8]))).link 0).outbound = [.flushRefused 12] ∧
    ((after (exec .flush (flushing [0#8, 255#8, 0#8]))).link 0).outbound = [.flushDone 12 true] := by
  decide +kernel

theorem test_flush_waits :
    flushCounts (flushing [1#8, 0#8, 0#8]) .all 3 = 1 ∧
    vacantFlush (flushing [1#8, 0#8, 0#8]) = some 0 ∧
    (after (exec .flush (flushing [1#8, 0#8, 0#8]))).flush? 0 =
      some { scope := .all, horizon := 3, count := 1, tags := [12] } ∧
    ((after (exec .flush (flushing [1#8, 0#8, 0#8]))).unit? 192).map (·.cause) =
      some (some .flush) := by decide +kernel

/-- All 16 entries ACTIVE, the newest of which holds `tags`. -/
def flushFull (tags : List Nat) : State :=
  { flushing [1#8, 0#8, 0#8] with
    flushes := (List.range 16).map fun e =>
      (e, { scope := .tenant 7, horizon := 1, count := 1, tags := if e = 15 then tags else [e] })
    flushOrder := List.range 16 }

theorem test_flush_merges :
    vacantFlush (flushFull [1, 2, 3]) = none ∧ newestFlush (flushFull [1, 2, 3]) = some 15 ∧
    (after (exec .flush (flushFull [1, 2, 3]))).flush? 15 =
      some { scope := .all, horizon := 3, count := 1, tags := [1, 2, 3, 12] } ∧
    ((after (exec .flush (flushFull [1, 2, 3, 4]))).link 0).intent.stalled = true := by
  decide +kernel

theorem test_flush_retaken :
    ((after (exec .stalledFlushRetake
      (sendStalled 0 .intent (flush [1#8, 0#8, 0#8]) (staged4 .host)))).link 0).intent.messages = [] := by
  decide +kernel

/-! ### Deadlines, the wheel and the lanes -/

/-- R91: the window term equal to the hold term is a HOLD; one µs below it a WINDOW. -/
theorem test_deadline :
    deadlineOf { active .host with mode := .fixed, window := 1 } 7 9 =
      some { time := 17, kind := .window } ∧
    deadlineOf { active .host with window := 100, hold := 1 } 7 7 =
      some { time := 1007, kind := .hold } ∧
    deadlineOf { active .host with window := 100, hold := 1 } 8 7 =
      some { time := 1007, kind := .window } ∧
    deadlineOf { active .host with window := 0 } 7 7 = none ∧
    deadlineOf { active .host with state := .paused } 7 7 = none := by decide

def expiring (t : Nat) : State :=
  (staged4 .host).setUnit 192
    { unitIn .opened [4] with deadline := some { time := t, kind := .hold } }

theorem test_deadlineExpiry :
    ((expiring 50).unit? 192).map (·.deadline) = some (some { time := 50, kind := .hold }) ∧
    ((after (exec (.deadlineExpiry 192) (expiring 50))).unit? 192).map
      (fun u => (u.state, u.cause, u.stagedSeq)) = some (.staged, some .hold, some 0) ∧
    ((after (exec (.deadlineExpiry 192) (expiring 50))).stream 3).padSlices = 15 ∧
    (after (exec (.deadlineExpiry 192) (expiring 50))).stagedCounter = 1 ∧
    exec (.deadlineExpiry 192) (expiring 51) = .next (expiring 51) :=
  ⟨by decide, by decide +kernel, by decide +kernel, by decide +kernel, by rfl⟩

/-- Below the pressure threshold the earlier of two OPEN units is staged; at the threshold, and with the one
stream PAUSED, none is. -/
theorem test_pressure :
    sharedFree { staged4 .host with free := 4095 } < (staged4 .host).cfg.pressureThreshold ∧
    ((pressureCompare { staged4 .host with free := 4095 }).unit? 192).map (·.cause) =
      some (some .pressure) ∧
    (((pressureCompare { (staged4 .host).setUnit 0 { unitIn .opened [] with firstArrival := 1 } with
      free := 4095 })).unit? 0).map (·.cause) = some none ∧
    pressureCompare { staged4 .host with free := 4096 } = { staged4 .host with free := 4096 } ∧
    pressureCompare { (staged4 .host).setStream 3 { active .host with state := .paused } with free := 0 } =
      { (staged4 .host).setStream 3 { active .host with state := .paused } with free := 0 } := by
  decide +kernel

theorem test_relief :
    reliefCandidate (staged4 .host) { key := key100, frame := 4 } = some (3, 192) ∧
    ((reliefStage 385 (staged4 .host)).unit? 192).map (·.cause) = some (some .relief) ∧
    reliefStage 384 (staged4 .host) = staged4 .host ∧
    ((afterHold { Reasons.none with ways := true } (some 385) (staged4 .host)).unit? 192).map (·.cause) =
      some (some .relief) := by decide +kernel

/-- RETIRE, and ADAPTIVE with lane 0 idle or at its depth. -/
theorem test_endOfPlacement :
    ((endOfPlacement 3 ((staged4 .host).setStream 3
      { active .host with state := .retiring, openUnit := some 192 })).unit? 192).map (·.cause) =
        some (some .retire) ∧
    ((endOfPlacement 3 (((staged4 .host).setLane 0 laneUp).setStream 3
      { active .host with policy := .adaptive, openUnit := some 192 })).unit? 192).map (·.cause) =
        some (some .adaptive) ∧
    ((endOfPlacement 3 (((staged4 .host).setLane 0 { laneUp with inFlight := 2 }).setStream 3
      { active .host with policy := .adaptive, openUnit := some 192 })).unit? 192).map (·.cause) =
        some none ∧
    endOfPlacement 3 (staged4 .host) = staged4 .host := by decide +kernel

/-- Unit 192 STAGED; lane 0 UP; slot 0 is next. -/
def turning : State :=
  (((staged4 .host).setUnit 192 { unitIn .staged [4] with stagedSeq := some 0 }).setLane 0
    laneUp).setLink 1 { Link.reset with up := true }

theorem test_slotVisit :
    turning.nextVisit = some 50 ∧ 50 ≤ turning.now ∧ lapsingLanes turning (nextSlot turning) = [] ∧
    (turning.slot (nextSlot turning)).enabled = true ∧ stagedQueue turning = [192] ∧
    eligible turning 0 192 = true ∧
    (after (exec .slotVisit turning)).wheelPos = 0 ∧
    (after (exec .slotVisit turning)).nextVisit = some 58 ∧
    ((after (exec .slotVisit turning)).lane 0).offer = some { unit := 192, slot := 0 } ∧
    ((after (exec .slotVisit turning)).link 1).outbound =
      [.offer 192 0 16 1 3 0 false .linear] := by decide +kernel

theorem test_slotVisit_disabled :
    lapsingLanes (turning.setSlot 0 { enabled := false, link := 1, lane := 0 }) 0 = [] ∧
    (after (exec .slotVisit (turning.setSlot 0 { enabled := false, link := 1, lane := 0 }))).lane 0 =
      laneUp := by decide +kernel

/-- Why the offer step makes no offer: the lane is not UP, holds an offer, is full, or no unit is eligible. -/
theorem test_noOffer :
    offerStep 1 0 turning = turning ∧
    offerStep 0 0 (turning.setLane 0 { laneUp with inFlight := 2 }) =
      turning.setLane 0 { laneUp with inFlight := 2 } ∧
    eligible (turning.setStream 3 { active .host with state := .paused }) 0 192 = false := by
  decide +kernel

/-- The staged queue past the counter's end: distance 2 before 1, and the lower id of two alike. -/
theorem test_stagedQueue :
    stagedQueue { base with
      stagedCounter := 1,
      units := [(5, { unitIn .staged [] with stagedSeq := some 0 }),
        (6, { unitIn .staged [] with stagedSeq := some 4294967295 }),
        (7, { unitIn .staged [] with stagedSeq := some 0 })] } = [6, 5, 7] := by decide +kernel

/-- In POWER_FAIL a pause does not count, and a lane set without an UP lane holds nothing back. -/
theorem test_eligible :
    eligible { turning.setStream 3 { active .host with state := .paused } with part := .powerFail } 0 192 =
      true ∧
    eligible (turning.setStream 3 { active .host with lanes := 2#32 }) 0 192 = false ∧
    eligible { turning.setStream 3 { active .host with lanes := 2#32 } with part := .powerFail } 0 192 =
      true := by decide +kernel

/-- An offer made at slot `slot` to lane 0 after `n` lapses in a row. -/
def offered (slot n : Nat) : State :=
  (turning.setUnit 192 { unitIn .offered [4] with stagedSeq := some 0, lane := some 0 }).setLane 0
    { laneUp with offer := some { unit := 192, slot := slot }, lapses := n }

/-- Both conditions of R105, and both sides of the eighth lapse. -/
theorem test_offerLapse :
    ((offered 9 6).slot 0).enabled = true ∧
    globalLane ((offered 9 6).slot 0).link ((offered 9 6).slot 0).lane = 0 ∧
    nextSlot (offered 9 6) = 0 ∧
    ((after (exec (.offerLapse 0) (offered 9 6))).lane 0).lapses = 7 ∧
    ((after (exec (.offerLapse 0) (offered 9 6))).lane 0).state = .up ∧
    ((after (exec (.offerLapse 0) (offered 9 6))).unit? 192).map (·.state) = some .staged ∧
    ((after (exec (.offerLapse 0) (offered 9 7))).lane 0).state = .down ∧
    ((after (exec (.offerLapse 0) (offered 9 7))).event 0).flag = true ∧
    ((after (exec (.offerLapse 0) ((offered 0 6).setSlot 0
      { enabled := false, link := 1, lane := 0 }))).lane 0).offer = none := by decide +kernel

def answering (kind : Nat) : State :=
  send 1 .control (msg kind 0 [192#8, 0#8, 0#8] []) (offered 9 3)

theorem test_answers_wait :
    ControlWaits (answering 9) 1 9 (msg 9 0 [192#8, 0#8, 0#8] []) ∧
    ((answering 9).lane 0).offer = some { unit := 192, slot := 9 } ∧
    ((answering 9).unit? 192).isSome = true :=
  ⟨controlWaits_send _ _ _ _ _ (by decide) (by decide) (by decide) (by decide), by decide, by decide⟩

theorem test_accept :
    (after (exec (.accept 1) (answering 9))).lane 0 = { laneUp with inFlight := 1 } ∧
    ((after (exec (.accept 1) (answering 9))).unit? 192).map (·.state) = some .inFlight := by
  decide +kernel

theorem test_decline :
    (after (exec (.decline 1) (answering 10))).lane 0 = { laneUp with totalDeclines := 1 } ∧
    ((after (exec (.decline 1) (answering 10))).unit? 192).map (·.lane) = some none := by
  decide +kernel

def laneMsg (kind : Nat) (st : LaneState) : State :=
  send 1 .control (msg kind 0 [0#8] []) (base.setLane 0 { Lane.reset with state := st, lapses := 2 })

theorem test_laneReady :
    ControlWaits (laneMsg 7 .down) 1 7 (msg 7 0 [0#8] []) ∧
    (after (exec (.laneReady 1) (laneMsg 7 .down))).lane 0 = laneUp ∧
    (after (exec (.laneReady 1) (laneMsg 7 .absent))).lane 0 = laneUp ∧
    ((after (exec (.laneReady 1) (laneMsg 7 .blocked))).lane 0).state = .blocked ∧
    ((after (exec (.laneReady 1) (laneMsg 7 .up))).lane 0).lapses = 2 :=
  ⟨controlWaits_send _ _ _ _ _ (by decide) (by decide) (by decide) (by decide), by decide +kernel,
    by decide +kernel, by decide +kernel, by decide +kernel⟩

/-- Unit 192 IN_FLIGHT on lane 0, unit 193 offered to it, `n` attempts before. -/
def flying (n : Nat) (kind : Nat) (body : List Byte) : State :=
  send 1 .control (msg kind 0 body [])
    { ((((turning.setUnit 192
          { unitIn .inFlight [4] with stagedSeq := some 0, lane := some 0, attempts := n }).setUnit 193
          { unitIn .offered [] with stagedSeq := some 1, lane := some 0 }).setLane 0
        { laneUp with inFlight := 1, offer := some { unit := 193, slot := 0 } }).setLink 1
        { Link.reset with up := true }) with drainCount := 2 }

theorem test_laneQuit :
    ControlWaits (flying 0 8 [0#8]) 1 8 (msg 8 0 [0#8] []) ∧
    ((flying 0 8 [0#8]).lane 0).state = .up ∧ Table.sorted (flying 0 8 [0#8]).units = true ∧
    (after (exec (.laneQuit 1) (flying 0 8 [0#8]))).lane 0 = { laneUp with state := .down } ∧
    ((after (exec (.laneQuit 1) (flying 0 8 [0#8]))).unit? 192).map
      (fun u => (u.state, u.restarted, u.lane)) = some (.staged, true, none) ∧
    ((after (exec (.laneQuit 1) (flying 0 8 [0#8]))).unit? 193).map
      (fun u => (u.state, u.restarted)) = some (.staged, false) :=
  ⟨controlWaits_send _ _ _ _ _ (by decide) (by decide) (by decide) (by decide), by decide,
    by decide, by decide +kernel, by decide +kernel, by decide +kernel⟩

theorem test_laneQuit_notUp :
    ((after (exec (.laneQuit 1) (laneMsg 8 .absent))).lane 0).state = .down ∧
    ((after (exec (.laneQuit 1) (laneMsg 8 .blocked))).lane 0).state = .blocked := by decide +kernel

/-! ### Transfer and completion -/

/-- Table 6-1 and the last position of the largest unit. -/
theorem test_fetchPositions :
    (List.range 4).map (fetchPosition .linear 16 5) = [5, 6, 7, 8] ∧
    (List.range 4).map (fetchPosition .paired 16 5) = [5, 4, 7, 6] ∧
    fetchPosition .linear 32 31 31 = 30 ∧ fetchPosition .paired 32 31 31 = 0 := by decide

/-- What an outbound message says: its body's bytes, and the first byte of each payload. -/
def seen (o : OutMessage) : List Byte × List (List Byte) :=
  (o.bodyBytes, o.payloads.map (fun p => p.take 1))

theorem test_fetch :
    ControlWaits (flying 0 11 [192#8, 0#8, 0#8, 2#8]) 1 11 (msg 11 0 [192#8, 0#8, 0#8, 2#8] []) ∧
    ((after (exec (.fetch 1 []) (flying 0 11 [192#8, 0#8, 0#8, 2#8]))).link 1).outbound.map
        seen = [([192#8, 0#8, 0#8, 2#8, 0#8, 0#8, 1#8, 1#8], [[7#8], [0#8]])] :=
  ⟨controlWaits_send _ _ _ _ _ (by decide) (by decide) (by decide) (by decide), by decide +kernel⟩

theorem test_fetch_noLatent : NoLatent (flying 0 11 [192#8, 0#8, 0#8, 2#8]) := by
  intro f v h
  have hf : (flying 0 11 [192#8, 0#8, 0#8, 2#8]).frame? f =
      if 4 = f then some (frameAt 5 100 7 .host 3 192 0) else none := by
    show (granted.setFrame 4 _).frame? f = _
    rw [State.frame?_setFrame]; rfl
  rw [hf] at h
  split at h
  · cases h; rfl
  · cases h

/-- What the frame of a Fetch keeps and what a DRAM result writes in it. -/
theorem test_fetch_reads :
    ((after (exec (.fetch 1 [.uncorrectable]) (flying 0 11 [192#8, 0#8, 0#8, 2#8]))).frame? 4).map
      (fun v => (v.data, v.record.damaged, v.latent)) = some ([7#8], true, false) ∧
    ((after (exec (.fetch 1 [.corrected]) (flying 0 11 [192#8, 0#8, 0#8, 2#8]))).frame? 4).map
      (fun v => (v.data, v.record.damaged, v.latent)) = some ([7#8], false, true) ∧
    (after (exec (.fetch 1 [.corrected]) (flying 0 11 [192#8, 0#8, 0#8, 2#8]))).corrected = 1 := by
  decide +kernel

def doneBody : List Byte := [192#8, 0#8, 0#8] ++ leBytes 5 77

theorem test_unitDone :
    ControlWaits (flying 0 12 doneBody) 1 12 (msg 12 0 doneBody []) ∧
    ((after (exec (.unitDone 1) (flying 0 12 doneBody))).unit? 192).map
      (fun u => (u.state, u.handle, u.lane)) = some (.releasing, some 77#40, some 0) ∧
    (after (exec (.unitDone 1) (flying 0 12 doneBody))).reportQueue =
      [{ unit := 192, issued := false }] ∧
    (after (exec (.unitDone 1) (flying 0 12 doneBody))).drainCount = 1 :=
  ⟨controlWaits_send _ _ _ _ _ (by decide) (by decide) (by decide) (by decide), by decide +kernel,
    by decide +kernel, by decide +kernel⟩

/-- The last unit of the drain asserts SAFE in POWER_FAIL (R158). -/
theorem test_unitDone_safe :
    (after (exec (.unitDone 1)
      { flying 0 12 doneBody with part := .powerFail, drainCount := 1 })).safe = true ∧
    ((after (exec (.unitDone 1)
      { flying 0 12 doneBody with part := .powerFail, drainCount := 1 })).event 11).flag = true := by
  decide +kernel

/-- Entry 0 counts the one frame of unit 192. -/
def tracked (s : State) : State :=
  { s with flushes := [(0, { scope := .all, horizon := 3, count := 1, tags := [5, 6] })], flushOrder := [0],
           links := Table.insert s.links 0 { Link.reset with up := true } }

/-- The count falls to 0 at the Unit Done, the fourth failure ends it with FAULT, a restage raises it. -/
theorem test_flushEnds :
    ((after (exec (.unitDone 1) (tracked (flying 0 12 doneBody)))).link 0).outbound =
      [.flushDone 5 true, .flushDone 6 true] ∧
    (after (exec (.unitDone 1) (tracked (flying 0 12 doneBody)))).flushOrder = [] ∧
    ((after (exec (.unitFail 1) (tracked (flying 3 13 [192#8, 0#8, 0#8, 0#8])))).link 0).outbound =
      [.flushDone 5 false, .flushDone 6 false] ∧
    (after (exec (.unitFail 1) (tracked (flying 2 13 [192#8, 0#8, 0#8, 0#8])))).flushOrder = [0] ∧
    flushCountsIn (tracked (flying 0 12 doneBody)) .all 3 192 = 1 ∧
    flushCountsIn (tracked (flying 0 12 doneBody)) .all 3 193 = 0 := by decide +kernel

theorem test_flushEnds_bounds : LinkBounds 0 ((tracked (flying 0 12 doneBody)).link 0) :=
  ⟨by decide, fun h => absurd rfl h, fun c => by cases c <;> exact Nat.zero_le _⟩

theorem test_unitFail :
    ControlWaits (flying 2 13 [192#8, 0#8, 0#8, 0#8]) 1 13 (msg 13 0 [192#8, 0#8, 0#8, 0#8] []) ∧
    readReason [192#8, 0#8, 0#8, 0#8] = some .retry ∧
    Table.sorted (flying 2 13 [192#8, 0#8, 0#8, 0#8]).units = true ∧
    ((after (exec (.unitFail 1) (flying 2 13 [192#8, 0#8, 0#8, 0#8]))).unit? 192).map
      (fun u => (u.state, u.attempts, u.restarted)) = some (.staged, 3, false) ∧
    ((after (exec (.unitFail 1) (flying 3 13 [192#8, 0#8, 0#8, 0#8]))).unit? 192).map
      (fun u => (u.state, u.attempts)) = some (.faulted, 4) ∧
    (after (exec (.unitFail 1) (flying 3 13 [192#8, 0#8, 0#8, 0#8]))).faultList = [192] :=
  ⟨controlWaits_send _ _ _ _ _ (by decide) (by decide) (by decide) (by decide), by decide,
    by decide, by decide +kernel, by decide +kernel, by decide +kernel⟩

theorem test_unitFail_laneFault :
    readReason [192#8, 0#8, 0#8, 1#8] = some .laneFault ∧
    ((after (exec (.unitFail 1) (flying 0 13 [192#8, 0#8, 0#8, 1#8]))).lane 0).state = .down ∧
    ((after (exec (.unitFail 1) (flying 0 13 [192#8, 0#8, 0#8, 1#8]))).event 0).flag = true := by
  decide +kernel

/-- As `flying`, with unit 194 IN_FLIGHT on the lane too: a LANE_FAULT of unit 192 re-stages the others. -/
def flyingTwo : State :=
  (flying 0 13 [192#8, 0#8, 0#8, 1#8]).setUnit 194
    { unitIn .inFlight [] with stagedSeq := some 2, lane := some 0 }

theorem test_unitFail_others :
    ControlWaits flyingTwo 1 13 (msg 13 0 [192#8, 0#8, 0#8, 1#8] []) ∧
    Table.sorted flyingTwo.units = true ∧ flyingTwo.flushOrder = [] ∧
    (flyingTwo.lane 0).offer = some { unit := 193, slot := 0 } ∧
    [192, 193, 194].map (fun v => ((after (exec (.unitFail 1) flyingTwo)).unit? v).map
      (fun u => (u.state, u.restarted, u.attempts))) =
        [some (.staged, false, 1), some (.staged, false, 0), some (.staged, true, 0)] := by
  refine ⟨⟨by decide, ?_, rfl⟩, by decide, by decide, by decide, by decide +kernel⟩
  exact ⟨by decide, by decide, by decide, by decide⟩

/-- MALFORMED and STALE of R118, R120 and R124 at their boundaries: unit 4,096, lane 8, a reason of 2. -/
theorem test_controlRefused :
    ((after (exec (.accept 1) (flying 0 9 [0#8, 16#8, 0#8]))).link 1).outbound =
      [.controlRefused 9 (some 4096) 0 .malformed] ∧
    ((after (exec (.decline 1) (flying 0 10 [192#8, 0#8, 8#8]))).link 1).outbound =
      [.controlRefused 10 (some 192) 8 .malformed] ∧
    ((after (exec (.unitFail 1) (flying 0 13 [192#8, 0#8, 0#8, 2#8]))).link 1).outbound =
      [.controlRefused 13 (some 192) 0 .malformed] ∧
    ((after (exec (.accept 1) (flying 0 9 [192#8, 0#8, 0#8]))).link 1).outbound =
      [.controlRefused 9 (some 192) 0 .stale] ∧
    ((after (exec (.unitDone 1) (flying 0 12 ([193#8, 0#8, 0#8] ++ leBytes 5 77)))).link 1).outbound =
      [.controlRefused 12 (some 193) 0 .stale] ∧
    ((after (exec (.laneReady 1) (flying 0 7 [8#8]))).link 1).outbound =
      [.controlRefused 7 none 8 .malformed] ∧
    ((after (exec (.fetch 1 []) (flying 0 11 [192#8, 0#8, 16#8, 1#8]))).link 1).outbound =
      [.fetchRefused 0 192 .malformed] ∧
    ((after (exec (.fetch 1 []) (flying 0 11 [193#8, 0#8, 15#8, 1#8]))).link 1).outbound =
      [.fetchRefused 0 193 .stale] := by decide +kernel

/-! ### Management requests -/

theorem test_requestWaits :
    RequestWaits (ask [1#8] base) 1 (msg 15 9 [1#8] []) ∧
    RequestWaits (ask [24#8, 0#8, 0#8] base) 24 (msg 15 9 [24#8, 0#8, 0#8] []) ∧
    RequestWaits (ask [0#8] base) 0 (msg 15 9 [0#8] []) ∧
    RequestWaits (ask [25#8] base) 25 (msg 15 9 [25#8] []) :=
  ⟨requestWaits_ask _ _ _ rfl (by decide) (by decide) (by decide),
    requestWaits_ask _ _ _ rfl (by decide) (by decide) (by decide),
    requestWaits_ask _ _ _ rfl (by decide) (by decide) (by decide),
    requestWaits_ask _ _ _ rfl (by decide) (by decide) (by decide)⟩

theorem test_notReady :
    answerCode (after (exec .start { ask [1#8] base with part := .starting })) = some .notReady ∧
    answerCode (after (exec .eventMask { ask [24#8, 0#8, 0#8] base with part := .starting })) =
      some .notReady ∧
    answerCode (after (exec .unknownRequestKind (ask [0#8] base))) = some .badField ∧
    answerCode (after (exec .unknownRequestKind { ask [25#8] base with part := .starting })) =
      some .badField := by decide +kernel

theorem test_start :
    (after (exec .start { ask [1#8] base with part := .stopped })).part = .running ∧
    (after (exec .start { ask [1#8] base with part := .stopped })).nextVisit = some 58 ∧
    answerCode (after (exec .start (ask [1#8] base))) = some .badState := by decide +kernel

theorem test_stop :
    (after (exec .stop (ask [2#8] base))).part = .stopped ∧
    answerCode (after (exec .stop (ask [2#8] failing))) = some .busy ∧
    answerCode (after (exec .stop { ask [2#8] base with part := .stopped })) = some .badState := by
  decide +kernel

/-- A Configure with unit size `u`: slot period 8, lifetime 100, threshold 256, pressure 4,096, depths 1 to
4 and the orders LINEAR and PAIRED in turn. -/
def configBody (u : Nat) : List Byte :=
  [3#8] ++ leBytes 1 u ++ leBytes 1 8 ++ leBytes 2 100 ++ leBytes 2 256 ++ leBytes 4 4096 ++
    [1#8, 2#8, 3#8, 4#8, 0#8, 1#8, 0#8, 1#8]

theorem test_configure :
    (readSettings (configBody 32)).isSome = true ∧ (readSettings (configBody 32)).any settingsOk = true ∧
    (after (exec .configure { ask (configBody 32) base with part := .stopped })).cfg.unitSize = 32 ∧
    (after (exec .configure { ask (configBody 32) base with part := .stopped })).drain 4 =
      { depth := 4, order := .paired } ∧
    answerCode (after (exec .configure { ask (configBody 9) base with part := .stopped })) =
      some .badField ∧
    answerCode (after (exec .configure (ask (configBody 32) base))) = some .badState := by
  decide +kernel

/-- Rule Set of rule `n`: enabled, tenants 1 to 2, handle ANY, LBAs 0 to 9, hint ANY, PROTECT. -/
def ruleBody (n : Nat) : List Byte :=
  [4#8] ++ leBytes 1 n ++ [1#8, 1#8, 2#8, 255#8, 255#8] ++ leBytes 5 0 ++ leBytes 5 9 ++
    [255#8, 1#8, 0#8]

theorem test_ruleSet :
    (readRule (ruleBody 31)).any (ruleOk 31) = true ∧
    (after (exec .ruleSet (ask (ruleBody 31) base))).rule 31 =
      { enabled := true, tenantLow := 1, tenantHigh := 2, handle := none, lbaLow := 0, lbaHigh := 9,
        hint := none, action := .protect, hits := 0 } ∧
    answerCode (after (exec .ruleSet (ask (ruleBody 32) base))) = some .badField := by decide +kernel

/-- An enable byte of Rule Set that is neither 0 nor 1 (log entry 13), and an action byte that names no
action, read as no rule; each request is refused BAD_FIELD and the rule stays. -/
theorem test_ruleSet_unreadable :
    ∀ b ∈ [(ruleBody 31).set 2 2#8, (ruleBody 31).set 18 3#8],
      readRule b = none ∧ answerCode (after (exec .ruleSet (ask b base))) = some .badField ∧
      (after (exec .ruleSet (ask b base))).rule 31 = base.rule 31 := by decide +kernel

theorem test_reclaimMapSet :
    (after (exec .reclaimMapSet (ask [5#8, 1#8, 2#8, 3#8, 63#8] base))).reclaimMap = [1, 2, 3, 63] ∧
    answerCode (after (exec .reclaimMapSet (ask [5#8, 1#8, 2#8, 3#8, 64#8] base))) =
      some .badField := by decide +kernel

/-- Tenant Set of tenant 7 with reserve `r`, cap `c` and default stream `d`. -/
def tenantBody (r c d : Nat) : List Byte :=
  [6#8, 7#8] ++ leBytes 4 r ++ leBytes 4 c ++ leBytes 1 d ++ List.replicate 9 255#8

theorem test_tenantSet :
    tenantFieldsOk 7 (readTenantFields (tenantBody 10 20 3)) = true ∧
    limitCheck 7 10 20 (ask (tenantBody 10 20 3) base) = none ∧
    (after (exec .tenantSet (ask (tenantBody 10 20 3) base))).account 7 =
      { reserve := 10, cap := 20, used := 0, frozen := false, heldCount := 0 } ∧
    ((after (exec .tenantSet (ask (tenantBody 10 20 3) base))).tenant 7).defaultStream = 3 ∧
    answerCode (after (exec .tenantSet (ask (tenantBody 10 20 64) base))) = some .badField ∧
    answerCode (after (exec .tenantSet (ask (tenantBody 65537 20 3) base))) = some .badField ∧
    answerCode (after (exec .tenantSet
      ((ask (tenantBody 65536 20 3) base).setAccount 8 { Account.reset with reserve := 1 }))) =
        some .limit := by decide +kernel

theorem test_reclaimAccountSet :
    limitCheck 256 65536 0 base = none ∧
    limitCheck 256 65536 0 { base with free := 65535 } = some .limit ∧
    (after (exec .reclaimAccountSet
      (ask ([7#8] ++ leBytes 4 65536 ++ leBytes 4 0) base))).account 256 =
        { reserve := 65536, cap := 0, used := 0, frozen := false, heldCount := 0 } := by decide +kernel

theorem test_freezeThaw :
    ((after (exec .tenantFreeze (ask [8#8, 255#8] base))).account 255).frozen = true ∧
    ((after (exec .tenantThaw (ask [9#8, 7#8] frozen7))).account 7).frozen = false := by
  decide +kernel

/-- Policy ADAPTIVE, mode FIXED, window 3, hold `h`, lane set `l`. -/
def policyBytes (h l : Nat) : List Byte :=
  [1#8, 0#8] ++ leBytes 2 3 ++ leBytes 2 h ++ leBytes 4 l

theorem test_streamBind :
    (readStreamFields ([10#8, 63#8, 0#8] ++ policyBytes 1000 1) 3).isSome = true ∧
    (after (exec .streamBind (ask ([10#8, 63#8, 0#8] ++ policyBytes 1000 1) base))).stream 63 =
      { Sys2Proof.Machine.Stream.reset with
        state := .active, policy := .adaptive, mode := .fixed, window := 3, hold := 1000,
        lanes := 1#32 } ∧
    answerCode (after (exec .streamBind (ask ([10#8, 64#8, 0#8] ++ policyBytes 1 1) base))) =
      some .badField ∧
    answerCode (after (exec .streamBind (ask ([10#8, 63#8, 0#8] ++ policyBytes 1001 1) base))) =
      some .badField ∧
    answerCode (after (exec .streamBind (ask ([10#8, 63#8, 0#8] ++ policyBytes 1 0) base))) =
      some .badField ∧
    answerCode (after (exec .streamBind (ask ([10#8, 3#8, 0#8] ++ policyBytes 1 1) open7))) =
      some .busy := by decide +kernel

theorem test_streamSet :
    ((after (exec .streamSet (ask ([11#8, 3#8] ++ policyBytes 1 2) open7))).stream 3).lanes = 2#32 ∧
    answerCode (after (exec .streamSet (ask ([11#8, 4#8] ++ policyBytes 1 2) open7))) =
      some .badState ∧
    answerCode (after (exec .streamSet (ask ([11#8, 3#8] ++ policyBytes 0 2) open7))) =
      some .badField := by decide +kernel

theorem test_streamPause :
    ((expiring 90).stream 3).openUnit = some 192 ∧
    ((after (exec .streamPause (ask [12#8, 3#8] (expiring 90)))).unit? 192).map (·.deadline) =
      some none ∧
    ((after (exec .streamPause (ask [12#8, 3#8] (expiring 90)))).stream 3).state = .paused ∧
    answerCode (after (exec .streamPause (ask [12#8, 4#8] (expiring 90)))) = some .badState := by
  decide +kernel

theorem test_streamResume :
    ((after (exec .streamResume (ask [13#8, 3#8] ((expiring 90).setStream 3
      { active .host with state := .paused, openUnit := some 192 })))).unit? 192).map
        (fun u => (u.firstArrival, u.deadline)) =
      some (50, some { time := 550, kind := .window }) ∧
    answerCode (after (exec .streamResume (ask [13#8, 3#8] open7))) = some .accepted := by
  decide +kernel

theorem test_streamRetire :
    unitStream 192 = 3 ∧
    ((after (exec .streamRetire (ask [14#8, 3#8] (expiring 90)))).unit? 192).map (·.cause) =
      some (some .retire) ∧
    ((after (exec .streamRetire (ask [14#8, 3#8] (expiring 90)))).stream 3).state = .retiring ∧
    ((after (exec .streamRetire (ask [14#8, 3#8] open7))).stream 3).state = .unbound ∧
    (open7.stream 3).openUnit = none ∧
    ((after (exec .streamRetire (ask [14#8, 3#8] (expiring 90)))).stream 3).openUnit = none ∧
    (after (exec .streamRetire (ask [14#8, 3#8] (expiring 90)))).stagedCounter = 1 ∧
    (after (exec .streamRetire (ask [14#8, 3#8] (expiring 90)))).stream 40 =
      (expiring 90).stream 40 := by decide +kernel

/-- Stream 64, and a Bind of class 2: fields out of their ranges. -/
theorem test_streamFields :
    answerCode (after (exec .streamPause (ask [12#8, 64#8] open7))) = some .badField ∧
    answerCode (after (exec .streamResume (ask [13#8, 64#8] open7))) = some .badField ∧
    answerCode (after (exec .streamRetire (ask [14#8, 64#8] open7))) = some .badField ∧
    readClass 2 = none ∧
    answerCode (after (exec .streamBind (ask ([10#8, 63#8, 2#8] ++ policyBytes 1 1) base))) =
      some .badField ∧
    readStreamFields ([11#8, 3#8, 2#8, 0#8]) 2 = none := by decide +kernel

theorem test_unitClose :
    ((after (exec .unitClose (ask [15#8, 192#8, 0#8] (expiring 90)))).unit? 192).map (·.cause) =
      some (some .manual) ∧
    answerCode (after (exec .unitClose (ask [15#8, 193#8, 0#8] (expiring 90)))) = some .badState ∧
    answerCode (after (exec .unitClose (ask [15#8, 0#8, 16#8] (expiring 90)))) = some .badField ∧
    answerCode (after (exec .unitClose (ask [15#8, 0#8, 16#8]
      { expiring 90 with part := .powerFail }))) = some .badField := by decide +kernel

theorem test_slotSet :
    (after (exec .slotSet (ask [16#8, 31#8, 0#8, 4#8, 7#8] base))).slot 31 =
      { enabled := false, link := 4, lane := 7 } ∧
    answerCode (after (exec .slotSet (ask [16#8, 32#8, 0#8, 4#8, 7#8] base))) = some .badField ∧
    answerCode (after (exec .slotSet (ask [16#8, 31#8, 0#8, 0#8, 7#8] base))) = some .badField ∧
    answerCode (after (exec .slotSet (ask [16#8, 31#8, 2#8, 4#8, 8#8] base))) = some .badField := by
  decide +kernel

theorem test_laneBlock :
    (after (exec .laneBlock (ask [17#8, 0#8] (flying 0 8 [0#8])))).lane 0 =
      { laneUp with state := .blocked } ∧
    ((ask [17#8, 0#8] (flying 0 8 [0#8])).lane 0).state = .up ∧
    Table.sorted (ask [17#8, 0#8] (flying 0 8 [0#8])).units = true ∧
    [192, 193].map (fun v => ((after (exec .laneBlock (ask [17#8, 0#8] (flying 0 8 [0#8])))).unit? v).map
      (fun u => (u.state, u.restarted, u.lane))) =
        [some (.staged, true, none), some (.staged, false, none)] ∧
    ((after (exec .laneBlock (ask [17#8, 31#8] base))).lane 31).state = .blocked ∧
    answerCode (after (exec .laneBlock (ask [17#8, 32#8] base))) = some .badField := by decide +kernel

theorem test_laneUnblock :
    ((after (exec .laneUnblock (ask [18#8, 0#8] (laneMsg 7 .blocked)))).lane 0).state = .down ∧
    answerCode (after (exec .laneUnblock (ask [18#8, 0#8] base))) = some .badState := by
  decide +kernel

def faulty : State :=
  { (staged4 .host).setUnit 192
      { unitIn .faulted [4] with stagedSeq := some 0, attempts := 4 } with faultList := [192] }

theorem test_unitRestage :
    ((after (exec .unitRestage (ask [19#8, 192#8, 0#8] faulty))).unit? 192).map
      (fun u => (u.state, u.attempts)) = some (.staged, 0) ∧
    (after (exec .unitRestage (ask [19#8, 192#8, 0#8] faulty))).drainCount = 1 ∧
    answerCode (after (exec .unitRestage (ask [19#8, 193#8, 0#8] faulty))) = some .badState := by
  decide +kernel

theorem test_restage_raises :
    (after (exec .unitRestage (tracked (ask [19#8, 192#8, 0#8] faulty)))).flush? 0 =
      some { scope := .all, horizon := 3, count := 2, tags := [5, 6] } := by decide +kernel

theorem test_unitDiscard :
    ((after (exec .unitDiscard (ask [20#8, 192#8, 0#8] faulty))).unit? 192).map
      (fun u => (u.state, u.discard)) = some (.releasing, true) ∧
    (after (exec .unitDiscard (ask [20#8, 192#8, 0#8] faulty))).reportQueue =
      [{ unit := 192, issued := false }] ∧
    answerCode (after (exec .unitDiscard (ask [20#8, 0#8, 16#8] faulty))) = some .badField := by
  decide +kernel

/-- Account 256 is the last account; the capture is emptied by its take option (R21, R178). -/
theorem test_inspect :
    answerCode (after (exec .inspect (ask [21#8, 1#8, 0#8, 1#8, 0#8, 0#8] base))) = some .accepted ∧
    answerCode (after (exec .inspect (ask [21#8, 1#8, 1#8, 1#8, 0#8, 0#8] base))) = some .badField ∧
    inspectTarget [21#8, 1#8, 1#8, 1#8, 0#8, 0#8] base = none ∧
    takesCapture [21#8, 6#8, 1#8] = true ∧ takesCapture [21#8, 6#8, 0#8] = false ∧
    (after (exec .inspect (ask [21#8, 6#8, 1#8]
      { base with captures := [entry7.captureOf .noStream], refusals := 1 }))).captures = [] := by
  decide +kernel

/-- Targets at the ends of their ranges: a vacant and a LIVE grant, the last rule, position 1 of a list of one,
the drain links 0, 1, 4 and 5, link 5 and the code above the last. -/
theorem test_inspectTargets :
    inspectTarget [21#8, 7#8, 5#8, 0#8, 0#8, 0#8] granted =
      some (.grant (some (grantOf 0 21 7 3 1 key100)) 0) ∧
    inspectTarget [21#8, 7#8, 127#8, 0#8, 0#8, 0#8] granted = some (.grant none 0) ∧
    inspectTarget [21#8, 7#8, 128#8, 0#8, 0#8, 0#8] granted = none ∧
    inspectTarget [21#8, 4#8, 31#8, 0#8, 0#8, 0#8] base = some (.rule Rule.reset) ∧
    inspectTarget [21#8, 4#8, 32#8, 0#8, 0#8, 0#8] base = none ∧
    inspectTarget [21#8, 9#8, 0#8, 0#8, 0#8, 0#8] { base with waiting := [entry7] } =
      some (.pendingEntry entry7) ∧
    inspectTarget [21#8, 9#8, 1#8, 0#8, 0#8, 0#8] { base with waiting := [entry7] } = none ∧
    [0#8, 1#8, 4#8, 5#8].map (fun d => (inspectTarget [21#8, 20#8, d, 0#8, 0#8, 0#8] base).isSome) =
      [false, true, true, false] ∧
    inspectTarget [21#8, 25#8, 5#8, 0#8, 0#8, 0#8] base = some (.link false 0 0 0 0 [0] 0 0) ∧
    inspectTarget ([21#8, 12#8] ++ leBytes 2 5 ++ leBytes 5 100) (staged4 .host) =
      some (.key 385 (some (2, 4, (frameAt 5 100 7 .host 3 192 0).record))) ∧
    inspectTarget ([21#8, 12#8] ++ leBytes 2 1024 ++ leBytes 5 100) (staged4 .host) = none ∧
    inspectTarget [21#8, 6#8, 2#8] base = none ∧ inspectTarget [21#8, 27#8] base = none := by
  decide +kernel

def flagged : State := setEvent .laneDown (setEvent .safe base)

theorem test_eventFetch :
    ((after (exec .eventFetch (ask [22#8] flagged))).link 5).outbound =
      [.mgmtAnswer 9 .accepted (some (.events (eventRecords flagged)))] := by decide +kernel

theorem test_eventClear :
    (after (exec .eventClear (ask [23#8, 1#8, 8#8] flagged))).event 0 =
      { flag := false, masked := false, count := 1 } ∧
    (after (exec .eventClear (ask [23#8, 1#8, 8#8] flagged))).alert = false ∧
    answerCode (after (exec .eventClear (ask [23#8, 0#8, 16#8] flagged))) = some .badField := by
  decide +kernel

theorem test_eventMask :
    (after (exec .eventMask (ask [24#8, 1#8, 0#8] flagged))).event 0 =
      { flag := true, masked := true, count := 1 } ∧
    (after (exec .eventMask (ask [24#8, 1#8, 0#8] flagged))).alert = true ∧
    (after (exec .eventMask (ask [24#8, 1#8, 8#8] flagged))).alert = false := by decide +kernel

/-! ### The laws of the device -/

theorem test_laws :
    AlertLaw flagged ∧ SafeLaw base ∧ tablesWf (flying 0 8 [0#8]) = true ∧
    isNext (step { flagged with pending := [.slotVisit] }) = true :=
  ⟨by unfold AlertLaw; decide, ⟨by decide, fun h => absurd h (by decide)⟩, by decide, by decide +kernel⟩

theorem test_laneLaw : LaneLaw (laneMsg 7 .down) := by
  intro g _
  have hl : (laneMsg 7 .down).lane g =
      if 0 = g then { Lane.reset with state := .down, lapses := 2 } else base.lane g := by
    unfold laneMsg send
    simp only [State.setLink_records, State.lane_setLane]
  rw [hl]
  split <;> exact ⟨rfl, rfl⟩

theorem test_sequenceLaw : SequenceLaw (staged4 .host) := by
  intro f v h
  have hf : (staged4 .host).frame? f =
      if 4 = f then some (frameAt 5 100 7 .host 3 192 0) else none := by
    show (granted.setFrame 4 _).frame? f = _
    rw [State.frame?_setFrame]; rfl
  rw [hf] at h
  split at h
  · cases h; exact ⟨by decide, by decide⟩
  · cases h

theorem test_heldLaw : HeldLaw withdrawing := by
  intro a
  have ha : (withdrawing.account a).heldCount = if 7 = a then 1 else 0 := by
    unfold withdrawing send
    simp only [State.setLink_records, State.account_setAccount]
    split <;> rfl
  have hw : withdrawing.waiting = [entry7] := rfl
  rw [ha, hw]
  by_cases h : 7 = a
  · subst h; rfl
  · rw [if_neg h, List.countP_cons, List.countP_nil]
    rw [if_neg]
    simpa [entry7] using h

/-- A LIVE grant, a pending entry of tenant 7 on link 0 and an OPEN unit when PFAIL_N is asserted. -/
def failingFull : State :=
  { (granted.setAccount 7 { Account.reset with used := 1, heldCount := 1 }).setUnit 192 (unitIn .opened [0])
    with waiting := [entry7], drainCount := 1,
         links := [(0, { Link.reset with up := true }), (5, { Link.reset with up := true })] }

theorem test_pfail_effects :
    failingFull.resetAsserted = false ∧ failingFull.part ≠ .powerFail ∧ failingFull.grants ≠ [] ∧
    openUnits failingFull = [192] ∧ Table.sorted failingFull.units = true ∧
    failingFull.stagedCounter < 4294967296 ∧ (failingFull.link 0).up = true ∧
    (after (exec .pfailNAssertion failingFull)).grants = [] ∧
    (after (exec .pfailNAssertion failingFull)).free = 65537 ∧
    (after (exec .pfailNAssertion failingFull)).account 7 = Account.reset ∧
    ((after (exec .pfailNAssertion failingFull)).stream 3).reserved = 0 ∧
    refusedBy (after (exec .pfailNAssertion failingFull)) = some (.powerFail, none) ∧
    ((after (exec .pfailNAssertion failingFull)).link 0).outbound = [.intentRefused 30 .powerFail] ∧
    ((after (exec .pfailNAssertion failingFull)).unit? 192).map (fun u => (u.state, u.cause, u.stagedSeq)) =
      some (.staged, some .powerFail, some 0) ∧
    ((after (exec .pfailNAssertion failingFull)).event Event.powerFail.code).flag = true := by decide +kernel

theorem test_pfail_bounds : LinkBounds 0 (failingFull.link 0) :=
  ⟨by decide, fun h => absurd rfl h, fun c => by cases c <;> exact Nat.zero_le _⟩

/-- Units 192 OFFERED and 193 IN_FLIGHT on lane `g` after `n` lapses in a row. -/
def pairOn (g n : Nat) : State :=
  { turning with
    units := [(192, { unitIn .offered [] with stagedSeq := some 0, lane := some g }),
      (193, { unitIn .inFlight [] with stagedSeq := some 1, lane := some g })],
    lanes := [(g, { laneUp with offer := some { unit := 192, slot := 0 }, inFlight := 1, lapses := n })],
    drainCount := 2, links := [(1 + g / 8, { Link.reset with up := true })] }

theorem lane_pairOn (g n i : Nat) : (pairOn g n).lane i =
    if g = i then { laneUp with offer := some { unit := 192, slot := 0 }, inFlight := 1, lapses := n }
    else Lane.reset := by
  show (Table.find? (pairOn g n).lanes i).getD Lane.reset = _
  unfold pairOn
  simp only [Table.find?]
  split <;> rfl

theorem unit_pairOn (g n v : Nat) : (pairOn g n).unit? v =
    if 192 = v then some { unitIn .offered [] with stagedSeq := some 0, lane := some g }
    else if 193 = v then some { unitIn .inFlight [] with stagedSeq := some 1, lane := some g }
    else none := rfl

theorem test_unitLaw (g n : Nat) : UnitLaw (pairOn g n) where
  sorted := rfl
  drainCount := rfl
  inFlight i := by
    rw [lane_pairOn]
    have h : (pairOn g n).units = [(192, { unitIn .offered [] with stagedSeq := some 0, lane := some g }),
      (193, { unitIn .inFlight [] with stagedSeq := some 1, lane := some g })] := rfl
    rw [h]
    by_cases hg : g = i <;> simp [hg, unitIn, Lane.reset]
  offers i o h := by
    rw [lane_pairOn] at h
    split at h
    · rename_i hg
      cases h
      exact ⟨_, (unit_pairOn g n 192).trans (if_pos rfl), rfl, congrArg some hg⟩
    · cases h
  reportsOnce := List.nodup_nil
  reports v := by
    refine ⟨fun h => (by cases h), ?_⟩
    rintro ⟨u, hu, hs⟩
    rw [unit_pairOn] at hu
    split at hu
    · cases hu; cases hs
    · split at hu
      · cases hu; cases hs
      · cases hu
  faultsOnce := List.nodup_nil
  faults v := by
    refine ⟨fun h => (by cases h), ?_⟩
    rintro ⟨u, hu, hs⟩
    rw [unit_pairOn] at hu
    split at hu
    · cases hu; cases hs
    · split at hu
      · cases hu; cases hs
      · cases hu

theorem test_pair_laneLaw (g n : Nat) : LaneLaw (pairOn g n) := by
  intro i h
  rw [lane_pairOn] at h ⊢
  split at h
  · exact absurd rfl h
  · rename_i hg; rw [if_neg hg]; exact ⟨rfl, rfl⟩

/-- The eighth lapse of lane 0: both its units are STAGED again. -/
theorem test_offerLapse_units :
    0 ∈ lapsingLanes (pairOn 0 7) (nextSlot (pairOn 0 7)) ∧ (pairOn 0 7).nextVisit = some 50 ∧
    ((after (exec (.offerLapse 0) (pairOn 0 7))).unit? 192).map (fun u => (u.state, u.restarted)) =
      some (.staged, false) ∧
    ((after (exec (.offerLapse 0) (pairOn 0 7))).unit? 193).map (fun u => (u.state, u.restarted)) =
      some (.staged, true) ∧
    ((after (exec (.offerLapse 0) (pairOn 0 6))).unit? 193).map (·.state) = some .inFlight := by
  decide +kernel

/-- A reset of drain link 2, whose lane 8 holds both units. -/
theorem test_linkReset_units :
    ((pairOn 8 0).link 2).up = true ∧ globalLane 2 0 = 8 ∧
    ((after (exec (.linkReset 2) (pairOn 8 0))).unit? 192).map (fun u => (u.state, u.restarted)) =
      some (.staged, false) ∧
    ((after (exec (.linkReset 2) (pairOn 8 0))).unit? 193).map (fun u => (u.state, u.restarted)) =
      some (.staged, true) := by decide +kernel

/-- A reset of link 0 with a LIVE grant, a pending entry and an issued report entry on it. -/
theorem test_linkReset_returns :
    Table.sorted failingFull.grants = true ∧ hasLinkTraffic failingFull 0 = true ∧
    (after (exec (.linkReset 0) failingFull)).grants = [] ∧
    (after (exec (.linkReset 0) failingFull)).waiting = [] ∧
    (after (exec (.linkReset 0) failingFull)).free = 65537 ∧
    ((after (exec (.linkReset 0) failingFull)).account 7).used = 0 ∧
    (after (exec (.linkReset 0) delivering)).reportQueue = [{ unit := 192, issued := false }] := by
  decide +kernel

theorem test_boundsLaw : BoundsLaw fullOut where
  captures := by decide
  waiting := by decide
  links l := by
    have hl : fullOut.link l = if 0 = l then
        { Link.reset with up := true, outbound := List.replicate 64 (.reportEmpty 0) }
        else base.link l := by
      unfold fullOut; simp only [State.link_setLink]
    rw [hl]
    split
    · exact ⟨by decide, fun h => absurd rfl h, fun c => by cases c <;> exact Nat.zero_le _⟩
    · exact ⟨Nat.zero_le _, fun h => absurd rfl h, fun c => by cases c <;> exact Nat.zero_le _⟩

/-- The laws of the balance and of the sets hold after the full reset, from which a step is taken. -/
theorem test_stepLaws :
    BalanceLaw State.reset ∧ SetLaw State.reset ∧
    isNext (step { State.reset with pending := [.resetNRelease false] }) = true ∧
    isNext (step { pairOn 0 7 with pending := [.slotVisit] }) = true :=
  ⟨BalanceLaw.reset, SetLaw.reset, by decide, by decide +kernel⟩

/-! ### The bytes of messages -/

/-- An Offer on the link: the header of Table 9-5 (kind 44, a body of 8 bytes), then the body of Table
9-7 for unit 0102H, lane 3, U 16, fill 9, stream 4, two attempts, restarted and PAIRED. -/
theorem test_offerBytes :
    Sent.bytes ⟨5, .offer 258 3 16 9 4 2 true .paired⟩ =
      [44#8, 0#8, 0#8, 0#8, 8#8, 0#8, 5#8, 0#8] ++
        [2#8, 1#8, 3#8, 16#8, 9#8, 4#8, 2#8, 3#8] := by decide +kernel

/-- Numbers travel least significant byte first (chapter 9, before Table 9-5). -/
theorem test_numbers :
    leBytes 2 258 = [2#8, 1#8] ∧ leBytes 5 (2 ^ 40 - 1) = List.replicate 5 255#8 ∧
    numAt [2#8, 1#8] 0 2 = 258 := by decide

end Sys2Proof.Tests
end

section
/-! SUPPORT. The fitness of a stream for a class of intents (R12). -/

namespace Sys2Proof.Machine

/-- R12's definition of fitness, as a proposition on the stream's state and class. -/
theorem Stream.fit_iff (k : Stream) (c : WriteClass) :
    k.fit c = true ↔ (k.state = .active ∨ k.state = .paused) ∧ k.cls = c := by
  simp only [Stream.fit, Bool.and_eq_true, Bool.or_eq_true, beq_iff_eq]

/-- A stream that takes no new intents is unfit, whatever its class (R12). -/
theorem Stream.fit_eq_false_of_state {k : Stream} (c : WriteClass)
    (hstate : k.state = .unbound ∨ k.state = .retiring) : k.fit c = false := by
  refine Bool.eq_false_iff.mpr fun hfit => ?_
  obtain ⟨hopen, -⟩ := (k.fit_iff c).mp hfit
  rcases hstate with hunbound | hretiring
  · simp [hunbound] at hopen
  · simp [hretiring] at hopen

/-- A stream is unfit for every class but its own (R12). -/
theorem Stream.fit_eq_false_of_cls_ne {k : Stream} {c : WriteClass} (hcls : k.cls ≠ c) :
    k.fit c = false :=
  Bool.eq_false_iff.mpr fun hfit => hcls ((k.fit_iff c).mp hfit).2

/-- Settles O16: R12's definition, and its two unfit cases, by the stream's state and by its class. -/
theorem streamFitness : Obligations.StreamFitness := by
  intro k c
  refine ⟨k.fit_iff c, Stream.fit_eq_false_of_state c, fun hreclaim => ?_, fun hhost => ?_⟩
  · exact Stream.fit_eq_false_of_cls_ne (by simp [hreclaim])
  · exact Stream.fit_eq_false_of_cls_ne (by simp [hhost])

end Sys2Proof.Machine
end

section
/-! SUPPORT. The outcomes of a placement that take no new frame: the in-place hit (R63) and the dropped
relocation (R65). -/

namespace Sys2Proof.Machine

/-! ### An arrival into an OPEN unit (R89) -/

/-- An arrival writes no record but its unit's (R89). -/
theorem arrive_frame (k v : Nat) (s : State) : { arrive k v s with units := s.units } = s :=
  streams_modifyUnit s v _

/-- An arrival sets the last-arrival time of its unit and computes its deadline again (R89, R91). -/
theorem unit?_arrive (k v j : Nat) (s : State) :
    (arrive k v s).unit? j =
      if v = j then
        (s.unit? j).map fun u =>
          { u with lastArrival := s.now, deadline := deadlineOf (s.stream k) u.firstArrival s.now }
      else s.unit? j :=
  unit?_modifyUnit s v j _

@[simp] theorem arrive_records (k v : Nat) (s : State) :
    (arrive k v s).nextSeq = s.nextSeq ∧ (arrive k v s).stream = s.stream :=
  have hframe := arrive_frame k v s
  ⟨(congrArg State.nextSeq hframe :), (congrArg State.stream hframe :)⟩

/-! ### The promise returned by a slice that takes no new frame -/

/-- The promised way and the promised frame of a slice go back (R63, R65). -/
def returnPromise (w : SliceWrite) (s : State) : State :=
  returnFrames w.account 1 (releaseWays (indexHash w.key) 1 s)

theorem releaseWays_frame (x c : Nat) (s : State) : { releaseWays x c s with sets := s.sets } = s := rfl

theorem returnFrames_frame (a n : Nat) (s : State) :
    { returnFrames a n s with accounts := s.accounts, free := s.free } = s := rfl

/-- A returned promise writes the set, the account and F (R63, R65). -/
theorem returnPromise_frame (w : SliceWrite) (s : State) :
    { returnPromise w s with sets := s.sets, accounts := s.accounts, free := s.free } = s :=
  (congrArg (fun q : State => { q with sets := s.sets })
    (returnFrames_frame w.account 1 (releaseWays (indexHash w.key) 1 s)) :).trans
    (releaseWays_frame _ _ s)

@[simp] theorem returnPromise_records (w : SliceWrite) (s : State) :
    (returnPromise w s).nextSeq = s.nextSeq ∧ (returnPromise w s).now = s.now ∧
    (returnPromise w s).stream = s.stream ∧ (returnPromise w s).unit? = s.unit? :=
  have hframe := returnPromise_frame w s
  ⟨(congrArg State.nextSeq hframe :), (congrArg State.now hframe :), (congrArg State.stream hframe :),
    (congrArg State.unit? hframe :)⟩

/-! ### The in-place hit (R63) -/

/-- What a HELD frame holds once slice `w` has been written over it with sequence `seq` (R63). -/
def overwrittenFrame (w : SliceWrite) (v : Frame) (seq : Nat) : Frame :=
  { record :=
      { v.record with
        latestSeq := seq, damaged := false,
        source := if w.cls = .reclaim then w.source else v.record.source },
    data := w.data, latent := false }

/-- The write over frame `f` under the next sequence number (R54, R63). -/
def overwriteFrame (w : SliceWrite) (f : Nat) (v : Frame) (s : State) : State :=
  (s.setFrame f (overwrittenFrame w v s.nextSeq)).setNextSeq (s.nextSeq + 1)

/-- One more in-place hit of stream `k` (R63). -/
def countInPlaceHit (k : Nat) (s : State) : State :=
  s.setStream k { s.stream k with inPlaceHits := (s.stream k).inPlaceHits + 1 }

/-- An in-place hit, act by act: the write over the frame, the promise returned, the hit counted, the
arrival (R63). -/
theorem placeInPlace_eq (w : SliceWrite) (f : Nat) (v : Frame) (s : State) :
    placeInPlace w f v s =
      (.overwritten s.nextSeq, arrive w.stream v.record.unit
        (countInPlaceHit w.stream (returnPromise w (overwriteFrame w f v s)))) := rfl

@[simp] theorem overwriteFrame_records (w : SliceWrite) (f : Nat) (v : Frame) (s : State) :
    (overwriteFrame w f v s).nextSeq = s.nextSeq + 1 ∧ (overwriteFrame w f v s).now = s.now ∧
    (overwriteFrame w f v s).stream = s.stream ∧ (overwriteFrame w f v s).unit? = s.unit? :=
  ⟨rfl, rfl, rfl, rfl⟩

@[simp] theorem countInPlaceHit_records (k : Nat) (s : State) :
    (countInPlaceHit k s).nextSeq = s.nextSeq ∧ (countInPlaceHit k s).now = s.now ∧
    (countInPlaceHit k s).unit? = s.unit? :=
  ⟨rfl, rfl, rfl⟩

/-- The records an in-place hit may write: all others of `t` are those of `s` (R63). -/
def InPlaceFrame (s t : State) : Prop :=
  { t with
    frames := s.frames, nextSeq := s.nextSeq, sets := s.sets, accounts := s.accounts,
    free := s.free, streams := s.streams, units := s.units } = s

theorem InPlaceFrame.refl (s : State) : InPlaceFrame s s := rfl

theorem InPlaceFrame.overwriteFrame {s t : State} (h : InPlaceFrame s t) (w : SliceWrite) (f : Nat)
    (v : Frame) : InPlaceFrame s (overwriteFrame w f v t) := h

theorem InPlaceFrame.releaseWays {s t : State} (h : InPlaceFrame s t) (x c : Nat) :
    InPlaceFrame s (releaseWays x c t) := h

theorem InPlaceFrame.returnFrames {s t : State} (h : InPlaceFrame s t) (a n : Nat) :
    InPlaceFrame s (returnFrames a n t) := h

theorem InPlaceFrame.returnPromise {s t : State} (h : InPlaceFrame s t) (w : SliceWrite) :
    InPlaceFrame s (returnPromise w t) := (h.releaseWays _ _).returnFrames _ _

theorem InPlaceFrame.countInPlaceHit {s t : State} (h : InPlaceFrame s t) (k : Nat) :
    InPlaceFrame s (countInPlaceHit k t) := h

theorem InPlaceFrame.arrive {s t : State} (h : InPlaceFrame s t) (k v : Nat) :
    InPlaceFrame s (arrive k v t) := by
  unfold Machine.arrive State.modifyUnit
  split <;> exact h

theorem placeInPlace_frame (w : SliceWrite) (f : Nat) (v : Frame) (s : State) :
    InPlaceFrame s (placeInPlace w f v s).2 :=
  ((((InPlaceFrame.refl s).overwriteFrame w f v).returnPromise w).countInPlaceHit w.stream).arrive _ _

/-- An in-place hit writes over its frame and returns the promised way and frame; what it does to stream
and unit touches no record of `Placing` (R63). -/
theorem placeInPlace_placing (w : SliceWrite) (f : Nat) (v : Frame) (s : State) :
    Placing s (placeInPlace w f v s).2 w (Table.insert s.frames f (overwrittenFrame w v s.nextSeq))
      { s.indexSet (indexHash w.key) with
        reserved := (s.indexSet (indexHash w.key)).reserved - 1 } 1 := by
  have hoverwrite : Ledger s (overwriteFrame w f v s)
      (Table.insert s.frames f (overwrittenFrame w v s.nextSeq)) := ⟨rfl, rfl, rfl, rfl, rfl, rfl⟩
  rw [placeInPlace_eq]
  exact (Placing.ofReturn hoverwrite).congr
    (((AppendFrame.refl _).setStream _ _).modifyUnit _ _).ledger

/-- An in-place hit takes one sequence number (R54, R63). -/
theorem nextSeq_placeInPlace (w : SliceWrite) (f : Nat) (v : Frame) (s : State) :
    (placeInPlace w f v s).2.nextSeq = s.nextSeq + 1 := by
  simp [placeInPlace_eq]

/-- An in-place hit writes over its frame and leaves every other (R63). -/
theorem frame?_placeInPlace (w : SliceWrite) (f : Nat) (v : Frame) (s : State) (j : Nat) :
    (placeInPlace w f v s).2.frame? j =
      if f = j then some (overwrittenFrame w v s.nextSeq) else s.frame? j := by
  rw [frame?_of (placeInPlace_placing w f v s).frames, Table.find?_insert, State.frame?]

theorem stream_countInPlaceHit (k j : Nat) (s : State) :
    (countInPlaceHit k s).stream j =
      if k = j then { s.stream k with inPlaceHits := (s.stream k).inPlaceHits + 1 }
      else s.stream j :=
  State.stream_setStream _ _ _ _

/-- An in-place hit is counted in its stream (R63). -/
theorem stream_placeInPlace (w : SliceWrite) (f : Nat) (v : Frame) (s : State) (k : Nat) :
    (placeInPlace w f v s).2.stream k =
      if w.stream = k then
        { s.stream w.stream with inPlaceHits := (s.stream w.stream).inPlaceHits + 1 }
      else s.stream k := by
  simp [placeInPlace_eq, stream_countInPlaceHit]

/-- The count of in-place hits has no part in a deadline (R91). -/
theorem deadlineOf_countInPlaceHit (k : Nat) (s : State) :
    deadlineOf ((countInPlaceHit k s).stream k) = deadlineOf (s.stream k) := by
  rw [stream_countInPlaceHit, if_pos rfl]
  rfl

/-- An in-place hit is an arrival into the unit of its frame, and touches no other unit (R63, R89). -/
theorem unit?_placeInPlace (w : SliceWrite) (f : Nat) (v : Frame) (s : State) (j : Nat) :
    (placeInPlace w f v s).2.unit? j =
      if v.record.unit = j then
        (s.unit? j).map fun u =>
          { u with
            lastArrival := s.now, deadline := deadlineOf (s.stream w.stream) u.firstArrival s.now }
      else s.unit? j := by
  simp [placeInPlace_eq, unit?_arrive, deadlineOf_countInPlaceHit]

/-! ### The dropped relocation (R65) -/

/-- A dropped relocation only returns its promise (R65). -/
theorem placeDropped_eq (w : SliceWrite) (s : State) :
    placeDropped w s = (.superseded, returnPromise w s) := rfl

theorem returnPromise_placing (w : SliceWrite) (s : State) :
    Placing s (returnPromise w s) w s.frames
      { s.indexSet (indexHash w.key) with
        reserved := (s.indexSet (indexHash w.key)).reserved - 1 } 1 :=
  .ofReturn ⟨rfl, rfl, rfl, rfl, rfl, rfl⟩

/-! ### Which outcome a hit has (Table 3-3) -/

section
variable {s : State} {w : SliceWrite} {i : Nat} {way : Way} {o : Frame}

/-- A hit in the OPEN unit of the stream, in a frame of the same class, is in place (Table 3-3). -/
theorem placeSlice_inPlace (hfound : lookup s w.key = some (i, way))
    (hheld : s.frame? way.frame = some o) (hcls : o.record.cls = w.cls)
    (hopen : (s.stream w.stream).openUnit = some o.record.unit) :
    placeSlice w s = .ok (placeInPlace w way.frame o s) := by
  simp only [placeSlice, hfound, hheld, hcls, hopen, and_self, if_true]

/-- A relocation that hits a HOST frame is dropped (Table 3-3). -/
theorem placeSlice_dropped (hfound : lookup s w.key = some (i, way))
    (hheld : s.frame? way.frame = some o) (hreclaim : w.cls = .reclaim)
    (hhost : o.record.cls = .host) :
    placeSlice w s = .ok (placeDropped w s) := by
  simp [placeSlice, hfound, hheld, hreclaim, hhost]

/-! ### What a returned promise leaves -/

variable {t : State} {fr : Table Frame} {q : IndexSet} {back : Nat}

theorem Placing.set_own (h : Placing s t w fr q back) :
    t.indexSet (indexHash w.key) = q := by
  rw [h.set, if_pos rfl]

theorem Placing.set_other (h : Placing s t w fr q back) {x : Nat} (hx : x ≠ indexHash w.key) :
    t.indexSet x = s.indexSet x := by
  rw [h.set, if_neg hx.symm]

theorem Placing.account_own (h : Placing s t w fr q back) :
    t.account w.account =
      { s.account w.account with used := (s.account w.account).used - back } := by
  rw [h.accounts, if_pos rfl]

theorem Placing.account_other (h : Placing s t w fr q back) {b : Nat} (hb : b ≠ w.account) :
    t.account b = s.account b := by
  rw [h.accounts, if_neg hb.symm]

end

/-- Settles O29: Table 3-3 picks the outcome; an in-place hit is a write over the frame followed by an
arrival, and both outcomes return the promise by the same two acts (`Placing`). -/
theorem inPlaceAndDropped : Obligations.InPlaceAndDropped := by
  intro s w i way o hfound hheld
  refine ⟨fun hcls hopen => ?_, fun hreclaim hhost => ?_⟩
  · have hplacing := placeInPlace_placing w way.frame o s
    have hframe := placeInPlace_frame w way.frame o s
    refine ⟨(placeInPlace w way.frame o s).2, placeSlice_inPlace hfound hheld hcls hopen, ?_,
      fun j hj => ?_, nextSeq_placeInPlace w way.frame o s, hplacing.set_own, hplacing.free,
      hplacing.account_own, fun b => hplacing.account_other, ?_, fun u hu => ?_, fun v hv => ?_,
      hplacing.grants, hplacing.waiting, (congrArg State.lanes hframe :),
      (congrArg State.links hframe :)⟩
    · rw [frame?_placeInPlace, if_pos rfl, overwrittenFrame]
    · rw [frame?_placeInPlace, if_neg hj.symm]
    · rw [stream_placeInPlace, if_pos rfl]
    · rw [unit?_placeInPlace, if_pos rfl, hu, Option.map_some]
    · rw [unit?_placeInPlace, if_neg hv.symm]
  · have hplacing := returnPromise_placing w s
    refine ⟨returnPromise w s, ?_, hplacing.set_own, fun x => hplacing.set_other,
      hplacing.account_own, fun b => hplacing.account_other, hplacing.free, returnPromise_frame w s⟩
    rw [placeSlice_dropped hfound hheld hreclaim hhost, placeDropped_eq]

end Sys2Proof.Machine
end

section
/-! SUPPORT. The range of the index hash (R57), and the counts of a run's keys by it (R30). -/

namespace Sys2Proof.Machine

/-- The hash names one of the 4,096 sets: it is an exclusive or of three 12-bit terms (R57). -/
theorem indexHash_lt (k : Key) : indexHash k < 4096 := by
  have hterm (n : Nat) : n % 4096 < 2 ^ 12 := Nat.mod_lt n (by decide)
  exact Nat.xor_lt_two_pow (Nat.xor_lt_two_pow (hterm _) (hterm _)) (hterm _)

/-- Counting one more key leaves no set with a count of 0. -/
theorem one_le_of_mem_bumpSet (x : Nat) {l : List (Nat × Nat)} (h : ∀ p ∈ l, 1 ≤ p.2) :
    ∀ p ∈ bumpSet x l, 1 ≤ p.2 := by
  induction l with
  | nil => simp [bumpSet]
  | cons q l ih =>
    obtain ⟨y, c⟩ := q
    obtain ⟨hhead, htail⟩ := List.forall_mem_cons.mp h
    unfold bumpSet
    split
    · exact List.forall_mem_cons.mpr ⟨Nat.le_succ_of_le hhead, htail⟩
    · exact List.forall_mem_cons.mpr ⟨hhead, ih htail⟩

/-- A set listed with its c_x holds at least one key of the run (R30). -/
theorem one_le_of_mem_setCounts (key : Key) (n : Nat) : ∀ p ∈ setCounts key n, 1 ≤ p.2 :=
  List.foldlRecOn (motive := fun l : List (Nat × Nat) => ∀ p ∈ l, 1 ≤ p.2) (runKeys key n) _ (by simp)
    fun _ hpos k _ => one_le_of_mem_bumpSet (indexHash k) hpos

/-- The c_x listed for a set is the number of the run's keys that the hash puts there (R30). -/
theorem setCounts_count {key : Key} {n : Nat} {p : Nat × Nat} (hp : p ∈ setCounts key n) :
    p.2 = (runKeys key n).countP (fun q => indexHash q == p.1) := by
  obtain ⟨hsum, hnodup⟩ := setCounts_spec key n
  calc p.2 = pairSum (setCounts key n) p.1 := (pairSum_of_mem hnodup hp).symm
    _ = runWays key n p.1 := hsum p.1

/-- Settles O30: the hash and its range, Table 3-2 by evaluation, and the hash's two uses, in the counts of
stage 4 and in a lookup. -/
theorem indexHash_spec : Obligations.IndexHash := by
  intro k
  refine ⟨rfl, indexHash_lt k, by decide, by decide, by decide, by decide,
    fun n p hp => ⟨setCounts_count hp, one_le_of_mem_setCounts k n p hp⟩, fun s p => lookup_some,
    fun s => lookup_none⟩

end Sys2Proof.Machine
end

section
/-! SUPPORT. What the takings of Lane Ready (R113) and Lane Quit (R114) do, by the lane's state. -/

namespace Sys2Proof.Machine

/-- Taking a message writes no lane record (R162). -/
@[simp] theorem lane_takeHead (l : Nat) (c : Channel) (s : State) : (takeHead l c s).lane = s.lane := rfl

section
variable {s : State} {l i : Nat}

/-! ### Lane Ready (R113) -/

/-- A waiting Lane Ready leaves its queue and is taken for the lane its body names. -/
theorem exec_laneReady {m : Message} (hwaits : ControlWaits s l kindLaneReady m) :
    exec (.laneReady l) s = .next (takeLaneReady l (byteAt m.body 0) (takeHead l .control s)) :=
  congrArg Host.Outcome.next (controlTaking_waits _ hwaits)

theorem takeLaneReady_malformed (hi : 8 ≤ i) :
    takeLaneReady l i s = place l (.controlRefused kindLaneReady none i .malformed) s :=
  if_neg (Nat.not_lt.mpr hi)

theorem takeLaneReady_raises (hi : i < 8)
    (hstate : (s.lane (globalLane l i)).state = .absent ∨ (s.lane (globalLane l i)).state = .down) :
    takeLaneReady l i s =
      s.setLane (globalLane l i) { s.lane (globalLane l i) with state := .up, lapses := 0 } := by
  rcases hstate with habsent | hdown
  · simp only [takeLaneReady, if_pos hi, habsent]
  · simp only [takeLaneReady, if_pos hi, hdown]

theorem takeLaneReady_keeps (hi : i < 8)
    (hstate : (s.lane (globalLane l i)).state = .up ∨ (s.lane (globalLane l i)).state = .blocked) :
    takeLaneReady l i s = s := by
  rcases hstate with hup | hblocked
  · simp only [takeLaneReady, if_pos hi, hup]
  · simp only [takeLaneReady, if_pos hi, hblocked]

/-! ### Lane Quit (R114) -/

/-- A waiting Lane Quit leaves its queue and is taken for the lane its body names. -/
theorem exec_laneQuit {m : Message} (hwaits : ControlWaits s l kindLaneQuit m) :
    exec (.laneQuit l) s = .next (takeLaneQuit l (byteAt m.body 0) (takeHead l .control s)) :=
  congrArg Host.Outcome.next (controlTaking_waits _ hwaits)

theorem takeLaneQuit_malformed (hi : 8 ≤ i) :
    takeLaneQuit l i s = place l (.controlRefused kindLaneQuit none i .malformed) s :=
  if_neg (Nat.not_lt.mpr hi)

theorem takeLaneQuit_absent (hi : i < 8) (habsent : (s.lane (globalLane l i)).state = .absent) :
    takeLaneQuit l i s = s.setLane (globalLane l i) { s.lane (globalLane l i) with state := .down } := by
  simp only [takeLaneQuit, if_pos hi, habsent]

theorem takeLaneQuit_keeps (hi : i < 8)
    (hstate : (s.lane (globalLane l i)).state = .down ∨ (s.lane (globalLane l i)).state = .blocked) :
    takeLaneQuit l i s = s := by
  rcases hstate with hdown | hblocked
  · simp only [takeLaneQuit, if_pos hi, hdown]
  · simp only [takeLaneQuit, if_pos hi, hblocked]

/-- An UP lane leaves UP for DOWN, so R116 applies to its offer and its units. -/
theorem takeLaneQuit_up (hi : i < 8) (hup : (s.lane (globalLane l i)).state = .up) :
    takeLaneQuit l i s = leaveUp (globalLane l i) .down s := by
  simp only [takeLaneQuit, if_pos hi, hup]

end

/-- Settles O42: each clause is the equation of its taking on the state without the message; for an UP lane
that quits, what R116 does to the lanes, the units and the rest is `lane_leaveUp`, `leaveUp_units` and
`leaveUp_frame`. -/
theorem laneReadyAndQuit : Obligations.LaneReadyAndQuit := by
  rintro s l i g m rfl rfl
  refine ⟨fun hi => ⟨fun hready => ?_, fun hquit => ?_⟩,
    fun hi hready => ⟨fun hstate => ?_, fun hstate => ?_⟩,
    fun hi hquit => ⟨fun habsent => ?_, fun hstate => ?_, fun hup => ?_⟩⟩
  · rw [exec_laneReady hready, takeLaneReady_malformed hi]
  · rw [exec_laneQuit hquit, takeLaneQuit_malformed hi]
  · rw [exec_laneReady hready, takeLaneReady_raises (s := takeHead l .control s) hi hstate, lane_takeHead]
  · rw [exec_laneReady hready, takeLaneReady_keeps (s := takeHead l .control s) hi hstate]
  · rw [exec_laneQuit hquit, takeLaneQuit_absent (s := takeHead l .control s) hi habsent, lane_takeHead]
  · rw [exec_laneQuit hquit, takeLaneQuit_keeps (s := takeHead l .control s) hi hstate]
  · refine ⟨leaveUp (globalLane l (byteAt m.body 0)) .down (takeHead l .control s), ?_, ?_,
      fun j hj => ?_, leaveUp_units _ _ (takeHead l .control s), leaveUp_frame _ _ (takeHead l .control s)⟩
    · rw [exec_laneQuit hquit, takeLaneQuit_up (s := takeHead l .control s) hi hup]
    · rw [lane_leaveUp, if_pos rfl, lane_takeHead]
    · rw [lane_leaveUp, if_neg hj.symm, lane_takeHead]

end Sys2Proof.Machine
end

section
/-! SUPPORT. The positions of a Fetch (R121), and what a Fetch that passes its checks answers (R120, R122). -/

namespace Sys2Proof.Machine

/-! ### The positions of a Fetch (R121) -/

@[simp] theorem fetchPosition_linear (size k i : Nat) :
    fetchPosition .linear size k i = (k + i) % size := rfl

@[simp] theorem fetchPosition_paired (size k i : Nat) :
    fetchPosition .paired size k i = k ^^^ i := rfl

/-- In a unit of a power-of-two size every position lies in the unit (R121). -/
theorem fetchPosition_lt {b k i : Nat} (hk : k < 2 ^ b) (hi : i < 2 ^ b) (order : FetchOrder) :
    fetchPosition order (2 ^ b) k i < 2 ^ b := by
  cases order with
  | linear => exact Nat.mod_lt _ (Nat.two_pow_pos b)
  | paired => exact Nat.xor_lt_two_pow hk hi

/-- The positions of a Fetch of at most the whole unit are distinct (R121). -/
theorem fetchPosition_inj {size i j : Nat} (hi : i < size) (hj : j < size) (order : FetchOrder) (k : Nat)
    (heq : fetchPosition order size k i = fetchPosition order size k j) : i = j := by
  cases order with
  | linear => exact (Nat.ModEq.add_left_cancel' k heq).eq_of_lt_of_lt hi hj
  | paired => exact Nat.xor_right_inj.mp heq

/-- A PAIRED position stays in the aligned block of size 2 ^ b that holds `k` while `i` is below that size:
the exclusive or touches only the low `b` bits (R121). -/
theorem fetchPosition_paired_div {b i : Nat} (hi : i < 2 ^ b) (size k : Nat) :
    fetchPosition .paired size k i / 2 ^ b = k / 2 ^ b :=
  calc (k ^^^ i) / 2 ^ b = (k / 2 ^ b) ^^^ (i / 2 ^ b) := Nat.xor_div_two_pow
    _ = k / 2 ^ b := by rw [Nat.div_eq_of_lt hi, Nat.xor_zero]

/-- U is 8, 16 or 32, a power of two (R121). -/
theorem exists_two_pow_of_unitSize {size : Nat} (hsize : size = 8 ∨ size = 16 ∨ size = 32) :
    ∃ b, size = 2 ^ b := by
  rcases hsize with rfl | rfl | rfl
  · exact ⟨3, rfl⟩
  · exact ⟨4, rfl⟩
  · exact ⟨5, rfl⟩

/-- The block sizes within a unit are powers of two (R121). -/
theorem exists_two_pow_of_blockSize {block : Nat} (hblock : block ∈ [1, 2, 4, 8, 16, 32]) :
    ∃ b, block = 2 ^ b := by
  have hrange : [1, 2, 4, 8, 16, 32] = (List.range 6).map (2 ^ ·) := rfl
  rw [hrange] at hblock
  obtain ⟨b, -, hb⟩ := List.mem_map.mp hblock
  exact ⟨b, hb.symm⟩

/-! ### A Fetch that passes its checks (R120, R122) -/

section
variable {s : State} {l v k n tag : Nat} {u : UnitRecord} {reads : List ReadResult}

/-- A waiting Fetch leaves its queue and is taken with the fields its body names. -/
theorem exec_fetch {m : Message} (hwaits : ControlWaits s l kindFetch m) :
    exec (.fetch l reads) s =
      .next (takeFetch l m.tag (numAt m.body 0 2) (byteAt m.body 2) (byteAt m.body 3) reads
        (takeHead l .control s)) :=
  congrArg Host.Outcome.next (controlTaking_waits _ hwaits)

/-- A unit IN_FLIGHT on any lane of the drain link is the one a Fetch from that link names (R120). -/
theorem inFlightOn_eq_some (hunit : s.unit? v = some u) (hstate : u.state = .inFlight)
    (hlane : ∃ g, u.lane = some g ∧ laneLink g = l) : inFlightOn s l v = some u := by
  obtain ⟨g, hg, hlink⟩ := hlane
  simp [inFlightOn, hunit, Option.filter, hstate, hg, hlink]

/-- The positions a Fetch (k, n) on link `l` returns, in order (R121). -/
def fetchedPositions (s : State) (l k n : Nat) : List Nat :=
  (List.range n).map (fetchPosition (s.drain l).order s.cfg.unitSize k)

/-- A Fetch that passes both checks is answered by Fetch Data for its positions (R120, R122). -/
theorem takeFetch_served (hv : v < 4096) (hk : k < s.cfg.unitSize) (hn : 1 ≤ n)
    (hsize : n ≤ s.cfg.unitSize) (hon : inFlightOn s l v = some u) :
    takeFetch l tag v k n reads s =
      place l (.fetchData tag v k n (fetchEntries u (fetchedPositions s l k n) reads s).1)
        (fetchEntries u (fetchedPositions s l k n) reads s).2 := by
  have hwell : ¬ (Config.unitCount ≤ v ∨ s.cfg.unitSize ≤ k ∨ n = 0 ∨ s.cfg.unitSize < n) := by
    have hcount : Config.unitCount = 4096 := rfl
    omega
  simp only [takeFetch, if_neg hwell, hon]
  rfl

end

/-- Settles O43: the answer's entries are in the order of the positions (`fetchEntries_read`); the facts of
the two orders are those of sums modulo, and of exclusive or with, numbers below a power of two. -/
theorem fetchPositions : Obligations.FetchPositions := by
  refine ⟨?_, ?_⟩
  · rintro s l _ _ _ m u reads hwaits rfl rfl rfl hv hk hn hsize hunit hstate hlane
    have hon : inFlightOn (takeHead l .control s) l (numAt m.body 0 2) = some u :=
      inFlightOn_eq_some hunit hstate hlane
    refine ⟨_, _, (exec_fetch hwaits).trans (congrArg Host.Outcome.next
      (takeFetch_served hv hk hn hsize hon)), ?_⟩
    exact (fetchEntries_read u _ reads _).1
  · intro size k m hunitSize hk hm
    refine ⟨fun block hblock hmb i hi => ?_, fun i _ => rfl, fun i _ => rfl, fun order i hi => ?_,
      fun order i j hi hj => fetchPosition_inj (hi.trans_le hm) (hj.trans_le hm) order k⟩
    · obtain ⟨b, rfl⟩ := exists_two_pow_of_blockSize hblock
      exact fetchPosition_paired_div (hi.trans_le hmb) size k
    · obtain ⟨b, rfl⟩ := exists_two_pow_of_unitSize hunitSize
      exact fetchPosition_lt hk (hi.trans_le hm) order

end Sys2Proof.Machine
end

section
/-! SUPPORT. The choice of a Report Fetch (R138), and what its taking answers. -/

namespace Sys2Proof.Machine

/-- A message that waits is handed to its taking on the state without it (R162). -/
theorem taking_waits {s : State} {link kind : Nat} {c : Channel} {m : Message}
    (f : Message → State → State) (hwaits : Waits s link c m) (hkind : m.kind = kind) :
    taking link c kind f s = f m (takeHead link c s) := by
  simp only [taking, hwaits.takeable, if_pos hkind]

/-- Taking a message writes no item of the report queue (R162). -/
@[simp] theorem reportQueue_takeHead (l : Nat) (c : Channel) (s : State) :
    (takeHead l c s).reportQueue = s.reportQueue := rfl

section
variable {s : State}

/-! ### The oldest unit whose issued mark is clear (R138) -/

/-- Units whose issued mark is set are passed over; the first clear mark behind them is chosen. -/
theorem nextReport_eq_some {earlier later : List ReportItem} {v : Nat}
    (hqueue : s.reportQueue = earlier ++ { unit := v, issued := false } :: later)
    (hearlier : ∀ i ∈ earlier, i.issued = true) : nextReport s = some v := by
  have hpassed : earlier.find? (fun i => !i.issued) = none :=
    List.find?_eq_none.mpr fun i hi => by simp [hearlier i hi]
  simp [nextReport, hqueue, List.find?_append, hpassed]

theorem nextReport_eq_none (hissued : ∀ i ∈ s.reportQueue, i.issued = true) :
    nextReport s = none := by
  have hpassed : s.reportQueue.find? (fun i => !i.issued) = none :=
    List.find?_eq_none.mpr fun i hi => by simp [hissued i hi]
  rw [nextReport, hpassed, Option.map_none]

/-! ### The taking of a Report Fetch (R138) -/

/-- A waiting Report Fetch leaves its queue and is taken with its tag. -/
theorem exec_reportFetch {m : Message} (hwaits : Waits s 0 .read m) (hkind : m.kind = kindReportFetch) :
    exec .reportFetch s = .next (takeReportFetch m.tag (takeHead 0 .read s)) :=
  congrArg Host.Outcome.next (taking_waits _ hwaits hkind)

theorem takeReportFetch_chosen {v : Nat} (tag : Nat) (hnext : nextReport s = some v) :
    takeReportFetch tag s = place 0 (.reportEntry tag v) (markIssued true v s) := by
  simp only [takeReportFetch, hnext]

theorem takeReportFetch_empty (tag : Nat) (hnext : nextReport s = none) :
    takeReportFetch tag s = place 0 (.reportEmpty tag) s := by
  simp only [takeReportFetch, hnext]

end

/-- Settles O33: the report queue either has a first item whose mark is clear (`nextReport_eq_some`) or has
none (`nextReport_eq_none`), and the taking of the Report Fetch leaves that queue to the choice. -/
theorem reportFetchChooses : Obligations.ReportFetchChooses := by
  intro s m hwaits hkind
  refine ⟨fun earlier v later hqueue hearlier => ?_, fun hissued => ?_⟩
  · have hnext : nextReport (takeHead 0 .read s) = some v :=
      nextReport_eq_some ((reportQueue_takeHead 0 .read s).trans hqueue) hearlier
    rw [exec_reportFetch hwaits hkind, takeReportFetch_chosen m.tag hnext, markIssued,
      State.setReportQueue, reportQueue_takeHead]
  · have hnext : nextReport (takeHead 0 .read s) = none := nextReport_eq_none hissued
    rw [exec_reportFetch hwaits hkind, takeReportFetch_empty m.tag hnext]

end Sys2Proof.Machine
end

section
/-! SUPPORT. Start (R174), Stop (R175) and Configure (R176): what each does in each part state, and its
answer (R177). -/

namespace Sys2Proof.Machine

/-! ### The answer of a request (R177) -/

theorem replyMgmt_accepted (m : Message) (t : State) :
    replyMgmt m.tag (accepted t) = answeredWith m .accepted none t := rfl

theorem replyMgmt_denied (m : Message) (code : MgmtCode) (t : State) :
    replyMgmt m.tag (denied code t) = answeredWith m code none t := rfl

/-! ### The settings of a Configure (Table 10-3) -/

theorem settingsOk_iff (q : Settings) :
    settingsOk q = true ↔
      (q.cfg.unitSize = 8 ∨ q.cfg.unitSize = 16 ∨ q.cfg.unitSize = 32) ∧
      1 ≤ q.cfg.slotPeriod ∧ q.cfg.slotPeriod ≤ 255 ∧
      1 ≤ q.cfg.grantLifetime ∧ q.cfg.grantLifetime ≤ 1000 ∧
      8 ≤ q.cfg.seqThreshold ∧ q.cfg.seqThreshold ≤ 4095 ∧ q.cfg.pressureThreshold ≤ 65536 ∧
      ∀ d ∈ q.drains, 1 ≤ d.depth ∧ d.depth ≤ 4 := by
  simp only [settingsOk, Bool.and_eq_true, Bool.or_eq_true, beq_iff_eq, decide_eq_true_eq,
    List.all_eq_true, and_assoc, or_assoc]
  rfl

/-- One drain record is read for each number asked for. -/
theorem length_readDrains {b : List Byte} {is : List Nat} {ds : List DrainConfig}
    (hread : readDrains b is = some ds) : ds.length = is.length := by
  induction is generalizing ds with
  | nil =>
    obtain rfl : [] = ds := Option.some.inj hread
    rfl
  | cons i is ih =>
    simp only [readDrains] at hread
    split at hread
    · next hrest =>
      obtain rfl := Option.some.inj hread
      exact congrArg (· + 1) (ih hrest)
    · cases hread

/-- A Configure that can be read carries the settings of all four drain links. -/
theorem length_drains_of_readSettings {b : List Byte} {q : Settings}
    (hread : readSettings b = some q) : q.drains.length = 4 := by
  obtain ⟨ds, hds, rfl⟩ := Option.map_eq_some_iff.mp hread
  exact length_readDrains hds

section
variable {s : State} {m : Message}

/-! ### Replacing the settings (R176) -/

@[simp] theorem cfg_applySettings (q : Settings) : (applySettings q s).cfg = q.cfg :=
  List.foldlRecOn (motive := fun t : State => t.cfg = q.cfg) _ _ rfl fun _ hcfg _ _ => hcfg

/-- The settings MGU holds and those of the drain links are all that a Configure replaces. -/
theorem applySettings_frame (q : Settings) :
    { applySettings q s with cfg := s.cfg, drains := s.drains } = s :=
  List.foldlRecOn (motive := fun t : State => { t with cfg := s.cfg, drains := s.drains } = s) _ _ rfl
    fun _ hframe _ _ => hframe

/-- Drain link i + 1 takes the settings listed at place i. -/
theorem drain_applySettings {q : Settings} (hlength : q.drains.length = 4) {i : Nat} (hi : i < 4) :
    (applySettings q s).drain (i + 1) = q.drains.getD i DrainConfig.reset := by
  obtain ⟨cfg, ds⟩ := q
  match ds, hlength with
  | [d₁, d₂, d₃, d₄], _ =>
    interval_cases i <;> simp [applySettings, drainLinks, State.drain_setDrain]

/-! ### What each request does, by the part state -/

theorem startPart_stopped (hpart : s.part = .stopped) :
    startPart s = accepted { s with part := .running, nextVisit := some (s.now + s.cfg.slotPeriod) } :=
  if_pos hpart

theorem startPart_badState (hpart : s.part ≠ .stopped) : startPart s = denied .badState s :=
  if_neg hpart

/-- The four conditions of R175, as equations. -/
theorem nothingInUse_iff :
    nothingInUse s = true ↔ s.units = [] ∧ s.grants = [] ∧ s.waiting = [] ∧ s.flushes = [] := by
  simp only [nothingInUse, Bool.and_eq_true, List.isEmpty_iff, and_assoc]

theorem stopPart_idle (hpart : s.part = .running) (hidle : nothingInUse s = true) :
    stopPart s = accepted { s with part := .stopped, nextVisit := none } := by
  rw [stopPart, if_pos hpart, if_pos hidle]

theorem stopPart_busy (hpart : s.part = .running) (hbusy : ¬ nothingInUse s = true) :
    stopPart s = denied .busy s := by
  rw [stopPart, if_pos hpart, if_neg hbusy]

theorem stopPart_badState (hpart : s.part ≠ .running) : stopPart s = denied .badState s :=
  if_neg hpart

theorem configurePart_ok {q : Settings} (hpart : s.part = .stopped) (hok : settingsOk q = true) :
    configurePart (some q) s = accepted (applySettings q s) := by
  simp only [configurePart, if_pos hpart, checked, if_pos hok]

theorem configurePart_badField {read : Option Settings} (hpart : s.part = .stopped)
    (hbad : read = none ∨ ∃ q, read = some q ∧ settingsOk q = false) :
    configurePart read s = denied .badField s := by
  rcases hbad with rfl | ⟨q, rfl, hrange⟩
  · simp only [configurePart, if_pos hpart]
  · simp [configurePart, hpart, checked, hrange]

theorem configurePart_badState (read : Option Settings) (hpart : s.part ≠ .stopped) :
    configurePart read s = denied .badState s :=
  if_neg hpart

/-! ### The requests, taken outside STARTING (R177) -/

theorem exec_start (hwaits : RequestWaits s 1 m) (hpart : s.part ≠ .starting) :
    exec .start s = .next (replyMgmt m.tag (startPart (takeHead 5 .mgmt s))) :=
  request_waits (fun _ => startPart) hwaits hpart

theorem exec_stop (hwaits : RequestWaits s 2 m) (hpart : s.part ≠ .starting) :
    exec .stop s = .next (replyMgmt m.tag (stopPart (takeHead 5 .mgmt s))) :=
  request_waits (fun _ => stopPart) hwaits hpart

theorem exec_configure (hwaits : RequestWaits s 3 m) (hpart : s.part ≠ .starting) :
    exec .configure s =
      .next (replyMgmt m.tag (configurePart (readSettings m.body) (takeHead 5 .mgmt s))) :=
  request_waits (fun b => configurePart (readSettings b)) hwaits hpart

/-- A part in one of two states is in no third one. -/
theorem part_ne_of_eq_or {a b c : PartState} (hpart : s.part = a ∨ s.part = b) (ha : a ≠ c) (hb : b ≠ c) :
    s.part ≠ c :=
  hpart.elim (fun h => h.trans_ne ha) (fun h => h.trans_ne hb)

/-! ### The obligation's clauses -/

/-- In STARTING each of the three is refused (R177 step 2). -/
theorem exec_startStopConfigure_starting {kind : Nat} {c : Instr}
    (hmem : (kind, c) ∈ [(1, Instr.start), (2, Instr.stop), (3, Instr.configure)])
    (hwaits : RequestWaits s kind m) (hpart : s.part = .starting) :
    exec c s = .next (answeredWith m .notReady none (takeHead 5 .mgmt s)) := by
  simp only [List.mem_cons, Prod.mk.injEq, List.not_mem_nil, or_false] at hmem
  obtain ⟨rfl, rfl⟩ | ⟨rfl, rfl⟩ | ⟨rfl, rfl⟩ := hmem
  · exact request_starting (fun _ => startPart) hwaits hpart
  · exact request_starting (fun _ => stopPart) hwaits hpart
  · exact request_starting (fun b => configurePart (readSettings b)) hwaits hpart

/-- An accepted Configure replaces the settings of MGU and of the four drain links, and nothing else but
link 5, whose queue the request has left (R176). -/
theorem exec_configure_ok {q : Settings} (hwaits : RequestWaits s 3 m) (hpart : s.part = .stopped)
    (hread : readSettings m.body = some q) (hok : settingsOk q = true) :
    ∃ t, exec .configure s = .next (answeredWith m .accepted none t) ∧ t.cfg = q.cfg ∧
      (∀ i, i < 4 → t.drain (i + 1) = q.drains.getD i DrainConfig.reset) ∧
      { t with cfg := s.cfg, drains := s.drains, links := s.links } = s := by
  refine ⟨applySettings q (takeHead 5 .mgmt s), ?_, cfg_applySettings q,
    fun i hi => drain_applySettings (length_drains_of_readSettings hread) hi, ?_⟩
  · rw [exec_configure hwaits (by simp [hpart]), hread,
      configurePart_ok (s := takeHead 5 .mgmt s) hpart hok, replyMgmt_accepted]
  · exact (congrArg (fun t : State => { t with links := s.links })
      (applySettings_frame (s := takeHead 5 .mgmt s) q) :).trans (takeHead_frame 5 .mgmt s).rest

end

/-- Settles O49: each request is applied to the state without its message (`request_waits`), and what it does
there is read off its part state; Configure's replacement is a fold over the four drain links. -/
theorem startStopConfigure : Obligations.StartStopConfigure := by
  intro s m
  refine ⟨fun kind c => exec_startStopConfigure_starting, settingsOk_iff,
    fun hstart => ⟨fun hpart => ?_, fun hpart => ?_⟩,
    fun hstop => ⟨fun hpart hunits hgrants hwaiting hflushes => ?_, fun hpart hused => ?_,
      fun hpart => ?_⟩,
    fun hconfigure => ⟨fun q => exec_configure_ok hconfigure, fun hpart hbad => ?_, fun hpart => ?_⟩⟩
  · rw [exec_start hstart (by simp [hpart]), startPart_stopped (s := takeHead 5 .mgmt s) hpart,
      replyMgmt_accepted]
    rfl
  · rw [exec_start hstart (part_ne_of_eq_or hpart (by decide) (by decide)),
      startPart_badState (s := takeHead 5 .mgmt s) (part_ne_of_eq_or hpart (by decide) (by decide)),
      replyMgmt_denied]
  · have hidle : nothingInUse (takeHead 5 .mgmt s) = true :=
      nothingInUse_iff.mpr ⟨hunits, hgrants, hwaiting, hflushes⟩
    rw [exec_stop hstop (by simp [hpart]), stopPart_idle (s := takeHead 5 .mgmt s) hpart hidle,
      replyMgmt_accepted]
  · have hbusy : ¬ nothingInUse (takeHead 5 .mgmt s) = true := by
      rw [nothingInUse_iff, not_and_or, not_and_or, not_and_or]
      exact hused
    rw [exec_stop hstop (by simp [hpart]), stopPart_busy (s := takeHead 5 .mgmt s) hpart hbusy,
      replyMgmt_denied]
  · rw [exec_stop hstop (part_ne_of_eq_or hpart (by decide) (by decide)),
      stopPart_badState (s := takeHead 5 .mgmt s) (part_ne_of_eq_or hpart (by decide) (by decide)),
      replyMgmt_denied]
  · rw [exec_configure hconfigure (by simp [hpart]),
      configurePart_badField (s := takeHead 5 .mgmt s) hpart hbad, replyMgmt_denied]
  · rw [exec_configure hconfigure (part_ne_of_eq_or hpart (by decide) (by decide)),
      configurePart_badState (s := takeHead 5 .mgmt s) _ (part_ne_of_eq_or hpart (by decide) (by decide)),
      replyMgmt_denied]

end Sys2Proof.Machine
end

section
/-! SUPPORT. The records that only few acts write: the model's own counters and the timebase, the part state and
the SAFE line, the lanes, the frames and their sequence. A law that speaks of these alone is kept by every
command once the few acts keep it (R54 and the law of section 5.2.1; O3, O57, O58). -/

namespace Sys2Proof.Machine

/-! ### The frames of the acts over the pending list and the flags -/

theorem removeEntry_frame (e : Entry) (s : State) : AdmissionFrame s (removeEntry e s) :=
  (AdmissionFrame.survives s).removeEntry e (.refl s)

theorem removeLinkEntries_frame (l : Nat) (s : State) : AdmissionFrame s (removeLinkEntries l s) :=
  (AdmissionFrame.survives s).removeLinkEntries l (.refl s)

theorem powerFailAdmission_frame (s : State) : AdmissionFrame s (powerFailAdmission s) :=
  (AdmissionFrame.survives s).powerFailAdmission (.refl s)

/-- Event Clear and Event Mask are one writing of the event records (R179). -/
theorem clearEvents_setEvents (n : Nat) (s : State) : ∃ q, clearEvents n s = s.setEvents q := ⟨_, rfl⟩

theorem maskEvents_setEvents (n : Nat) (s : State) : ∃ q, maskEvents n s = s.setEvents q := ⟨_, rfl⟩

/-! ### States that agree in the records few acts write -/

structure SameSteady (s t : State) : Prop where
  pending : t.pending = s.pending
  idles : t.idles = s.idles
  now : t.now = s.now
  resetAsserted : t.resetAsserted = s.resetAsserted
  safe : t.safe = s.safe
  part : t.part = s.part
  scrubbing : t.scrubbing = s.scrubbing
  drainCount : t.drainCount = s.drainCount
  lanes : t.lanes = s.lanes
  frames : t.frames = s.frames
  nextSeq : t.nextSeq = s.nextSeq

theorem SameSteady.of_admission {s t : State} (h : AdmissionFrame s t) : SameSteady s t where
  pending := (congrArg State.pending h :)
  idles := (congrArg State.idles h :)
  now := (congrArg State.now h :)
  resetAsserted := (congrArg State.resetAsserted h :)
  safe := (congrArg State.safe h :)
  part := (congrArg State.part h :)
  scrubbing := (congrArg State.scrubbing h :)
  drainCount := (congrArg State.drainCount h :)
  lanes := (congrArg State.lanes h :)
  frames := (congrArg State.frames h :)
  nextSeq := (congrArg State.nextSeq h :)

theorem AdmissionFrame.of_links {s t : State} (h : { t with links := s.links } = s) : AdmissionFrame s t :=
  (congrArg (fun q : State => { q with
    accounts := s.accounts, free := s.free, grants := s.grants, sets := s.sets, streams := s.streams,
    units := s.units, stagedCounter := s.stagedCounter, events := s.events, alert := s.alert,
    captures := s.captures, refusals := s.refusals, waiting := s.waiting }) h :)

/-- What survives the acts on frames and lanes, and rests on the steady records alone, survives every other act
of `KeepsMore`. -/
theorem KeepsMore.of_steady {I : State → Prop} (quiet : ∀ {s t}, SameSteady s t → I s → I t)
    (fill : ∀ s f v, v.record.firstSeq = s.nextSeq → v.record.latestSeq = s.nextSeq → I s →
      I ((s.setFrame f v).setNextSeq (s.nextSeq + 1)))
    (overwrite : ∀ s f old v, s.frame? f = some old → v.record.firstSeq = old.record.firstSeq →
      v.record.latestSeq = s.nextSeq → I s → I ((s.setFrame f v).setNextSeq (s.nextSeq + 1)))
    (mark : ∀ s f old v, s.frame? f = some old → v.record.firstSeq = old.record.firstSeq →
      v.record.latestSeq = old.record.latestSeq → I s → I (s.setFrame f v))
    (clearFrame : ∀ s f, I s → I (s.clearFrame f))
    (lane : ∀ s g v, (LaneOk (s.lane g) → LaneOk v) → I s → I (s.setLane g v)) : KeepsMore I := by
  have admission {s t : State} (hframe : AdmissionFrame s t) (h : I s) : I t := quiet (.of_admission hframe) h
  constructor; constructor
  case fill => exact fill
  case overwrite => exact overwrite
  case mark => exact mark
  case clearFrame => exact clearFrame
  case lane => exact lane
  case place => exact fun s l m => admission (.of_links (links_place l m s))
  case callRetake => exact fun s l c k => admission (.of_links (links_callRetake l c k s))
  case emit => exact fun s l m => admission (.of_links (emit_frame l m s))
  case walk => exact fun s => admission (retestWalk_frame s)
  case removeEntry => exact fun s e _ => admission (removeEntry_frame e s)
  case removeLinkEntries => exact fun s l => admission (removeLinkEntries_frame l s)
  case powerFailAdmission => exact fun s => admission (powerFailAdmission_frame s)
  case clearEvents =>
    intro s n
    obtain ⟨q, hq⟩ := clearEvents_setEvents n s
    exact hq ▸ quiet ⟨rfl, rfl, rfl, rfl, rfl, rfl, rfl, rfl, rfl, rfl, rfl⟩
  case maskEvents =>
    intro s n
    obtain ⟨q, hq⟩ := maskEvents_setEvents n s
    exact hq ▸ quiet ⟨rfl, rfl, rfl, rfl, rfl, rfl, rfl, rfl, rfl, rfl, rfl⟩
  all_goals
    intros; rename_i h
    refine quiet ?_ h
    exact ⟨rfl, rfl, rfl, rfl, rfl, rfl, rfl, rfl, rfl, rfl, rfl⟩

/-! ### The lanes (section 5.2.1) -/

theorem LaneLaw.congr {s t : State} (h : LaneLaw s) (hlanes : t.lanes = s.lanes) : LaneLaw t := by
  intro g
  simp only [State.lane, hlanes]
  exact h g

/-- A lane is written only with a record that obeys the law. -/
theorem LaneLaw.keeps : KeepsAll LaneLaw where
  toKeepsMore := .of_steady (fun k h => h.congr k.lanes) (fun _ _ _ _ _ h => h.congr rfl)
    (fun _ _ _ _ _ _ _ h => h.congr rfl) (fun _ _ _ _ _ _ _ h => h.congr rfl) (fun _ _ h => h.congr rfl)
    (fun s g v hv h j => by
      rw [State.lane_setLane]
      split
      · exact hv (h g)
      · exact h j)
  drainCount _ _ h := h.congr rfl
  safe _ _ h := h.congr rfl
  power _ _ _ _ _ _ _ _ h := h.congr rfl
  scrub _ _ h := h.congr rfl

theorem LaneLaw.reset : LaneLaw State.reset := fun _ _ => ⟨rfl, rfl⟩

theorem LaneLaw.step {s t : State} (h : LaneLaw s) (ht : step s = .next t) : LaneLaw t :=
  LaneLaw.keeps.acts.step (fun _ _ => LaneLaw.reset.congr rfl) (fun _ _ _ h => h.congr rfl)
    (fun _ _ h => h.congr rfl) h ht

theorem UnitLaw.step {s t : State} (h : UnitLaw s) (ht : step s = .next t) : UnitLaw t :=
  UnitLaw.acts.step UnitLaw.reset h ht

/-- Settles O57: both laws survive every act of a command, the lane law since no act writes a lane that is not UP
with an offer or a unit IN_FLIGHT. -/
theorem stepsKeepTheLaneLaw : Obligations.StepsKeepTheLaneLaw :=
  ⟨fun _ _ => LaneLaw.step, fun _ _ => UnitLaw.step⟩

/-! ### The placement sequence (R54) -/

theorem SequenceLaw.congr {s t : State} (h : SequenceLaw s) (hframes : t.frames = s.frames)
    (hnext : t.nextSeq = s.nextSeq) : SequenceLaw t := by
  intro f v hv
  rw [hnext]
  exact h f v ((frame?_of hframes f).symm.trans hv)

/-- A frame that is written under the next sequence number keeps the law, where its first sequence is that number
or one the law held of. -/
theorem SequenceLaw.write {s : State} (h : SequenceLaw s) {f : Nat} {v : Frame}
    (hfirst : v.record.firstSeq ≤ s.nextSeq) (hlatest : v.record.latestSeq = s.nextSeq) :
    SequenceLaw ((s.setFrame f v).setNextSeq (s.nextSeq + 1)) := by
  intro j w hw
  change (s.setFrame f v).frame? j = some w at hw
  change _ ∧ w.record.latestSeq < s.nextSeq + 1
  rw [State.frame?_setFrame] at hw
  split at hw
  · cases hw
    omega
  · have := h j w hw
    omega

theorem SequenceLaw.mark {s : State} (h : SequenceLaw s) {f : Nat} {old v : Frame}
    (hold : s.frame? f = some old) (hfirst : v.record.firstSeq = old.record.firstSeq)
    (hlatest : v.record.latestSeq = old.record.latestSeq) : SequenceLaw (s.setFrame f v) := by
  intro j w hw
  rw [State.frame?_setFrame] at hw
  split at hw
  · cases hw
    rw [hfirst, hlatest]
    exact h f old hold
  · exact h j w hw

theorem SequenceLaw.clearFrame {s : State} (h : SequenceLaw s) (f : Nat) : SequenceLaw (s.clearFrame f) := by
  intro j w hw
  rw [State.frame?_clearFrame] at hw
  split at hw
  · cases hw
  · exact h j w hw

theorem SequenceLaw.keeps : KeepsAll SequenceLaw where
  toKeepsMore := .of_steady (fun k h => h.congr k.frames k.nextSeq)
    (fun _ _ _ hfirst hlatest h => h.write hfirst.le hlatest)
    (fun s f old v hold hfirst hlatest h => h.write (by have := h f old hold; omega) hlatest)
    (fun _ _ _ _ hold hfirst hlatest h => h.mark hold hfirst hlatest) (fun _ f h => h.clearFrame f)
    (fun _ _ _ _ h => h.congr rfl rfl)
  drainCount _ _ h := h.congr rfl rfl
  safe _ _ h := h.congr rfl rfl
  power _ _ _ _ _ _ _ _ h := h.congr rfl rfl
  scrub _ _ h := h.congr rfl rfl

theorem SequenceLaw.reset : SequenceLaw State.reset := fun _ _ hv => by cases hv

theorem SequenceLaw.step {s t : State} (h : SequenceLaw s) (ht : step s = .next t) : SequenceLaw t :=
  SequenceLaw.keeps.acts.step (fun _ _ => SequenceLaw.reset.congr rfl rfl)
    (fun _ _ _ h => h.congr rfl rfl) (fun _ _ h => h.congr rfl rfl) h ht

theorem IndexLaw.step {s t : State} (h : IndexLaw s) (ht : step s = .next t) : IndexLaw t :=
  IndexLaw.acts.acts.step IndexLaw.reset h ht

/-- Settles O58: both laws survive every act of a command; a frame is written under the next sequence number, or
keeps its sequences. -/
theorem stepsKeepTheSequenceLaw : Obligations.StepsKeepTheSequenceLaw :=
  ⟨fun _ _ => SequenceLaw.step, fun _ _ => IndexLaw.step⟩

/-! ### The model's own counters and the timebase (log entries 4 and 12) -/

/-- The queue of commands, the index of the free values and the timebase are those of `s`. -/
structure SameClock (s t : State) : Prop where
  pending : t.pending = s.pending
  idles : t.idles = s.idles
  now : t.now = s.now

theorem SameClock.steady {s t r : State} (k : SameSteady t r) (h : SameClock s t) : SameClock s r :=
  ⟨k.pending.trans h.pending, k.idles.trans h.idles, k.now.trans h.now⟩

theorem SameClock.keeps (s : State) : KeepsAll (SameClock s) where
  toKeepsMore := .of_steady SameClock.steady (fun _ _ _ _ _ h => ⟨h.pending, h.idles, h.now⟩)
    (fun _ _ _ _ _ _ _ h => ⟨h.pending, h.idles, h.now⟩) (fun _ _ _ _ _ _ _ h => ⟨h.pending, h.idles, h.now⟩)
    (fun _ _ h => ⟨h.pending, h.idles, h.now⟩) (fun _ _ _ _ h => ⟨h.pending, h.idles, h.now⟩)
  drainCount _ _ h := ⟨h.pending, h.idles, h.now⟩
  safe _ _ h := ⟨h.pending, h.idles, h.now⟩
  power _ _ _ _ _ _ _ _ h := ⟨h.pending, h.idles, h.now⟩
  scrub _ _ h := ⟨h.pending, h.idles, h.now⟩

/-- Settles O3: no act of a command writes the three counters; the full reset keeps two of them. -/
theorem commandsKeepTheQueue : Obligations.CommandsKeepTheQueue := by
  intro c s t ht
  by_cases hc : c = .fullReset
  · subst hc
    cases ht
    exact ⟨rfl, rfl, fun hne => absurd rfl hne⟩
  · have hclock := (SameClock.keeps s).acts.exec hc ⟨rfl, rfl, rfl⟩ ht
    exact ⟨hclock.pending, hclock.idles, fun _ => hclock.now⟩

end Sys2Proof.Machine
end

section
/-! SUPPORT. What the re-test walk does to the pending list, and the laws of the held-counts (R39) and of the
bounds (R20, R39, R161, R164, R165) (O59, O60). -/

namespace Sys2Proof.Machine

/-! ### Entries that a walk keeps (R42) -/

/-- What an entry keeps while it stands on the pending list (R39). -/
def Entry.identity (e : Entry) : Nat × Nat × Nat × Key × Nat := (e.link, e.tag, e.account, e.key, e.n)

theorem account_of_identity {e o : Entry} (h : e.identity = o.identity) : e.account = o.account :=
  (congrArg (fun i : Nat × Nat × Nat × Key × Nat => i.2.2.1) h :)

/-- A re-test rewrites the stream, the reasons and the relief set of an entry it keeps, and no more (R42). -/
theorem retest_identity {e e' : Entry} {s s' : State} (h : retest e s = .keep e' s') :
    e'.identity = e.identity := by
  unfold retest at h
  dsimp only at h
  split at h
  · cases h
  · split at h
    · cases h
    · split at h
      · cases h; rfl
      · unfold retestResources at h
        dsimp only at h
        split at h
        · split at h
          · cases h
          · cases h; rfl
        · cases h; rfl

/-- The entries that stay keep their order (R42). -/
theorem walkFrom_sublist (es : List Entry) (kept : List Entry) (s : State) :
    ((walkFrom kept es s).waiting.map Entry.identity).Sublist ((kept ++ es).map Entry.identity) := by
  induction es generalizing kept s with
  | nil =>
    rw [List.append_nil]
    exact List.Sublist.refl _
  | cons e es ih =>
    have hkeep {e' : Entry} (s' : State) (he : e'.identity = e.identity) :
        ((walkFrom (kept ++ [e']) es s').waiting.map Entry.identity).Sublist
          ((kept ++ e :: es).map Entry.identity) := by
      simpa [he] using ih (kept ++ [e']) s'
    unfold walkFrom
    split
    · exact hkeep s rfl
    · split
      · next e' s' hr => exact hkeep s' (retest_identity hr)
      · next s' _ =>
        refine (ih kept s').trans ?_
        simp

theorem retestWalk_sublist (s : State) :
    ((retestWalk s).waiting.map Entry.identity).Sublist (s.waiting.map Entry.identity) :=
  walkFrom_sublist s.waiting [] s

theorem length_waiting_retestWalk (s : State) : (retestWalk s).waiting.length ≤ s.waiting.length := by
  simpa using (retestWalk_sublist s).length_le

/-! ### The held-counts (R39) -/

/-- The held-count of every account `a` is `c a`. -/
def HeldCounts (c : Nat → Nat) (s : State) : Prop := ∀ a, (s.account a).heldCount = c a

theorem HeldCounts.congr {c : Nat → Nat} {s t : State} (h : HeldCounts c s) (haccounts : t.accounts = s.accounts) :
    HeldCounts c t := fun a => (congrArg Account.heldCount (account_same haccounts a)).trans (h a)

theorem HeldCounts.setAccount {c d : Nat → Nat} {s : State} (h : HeldCounts c s) {a : Nat} {v : Account}
    (hv : v.heldCount = d a) (hd : ∀ b, b ≠ a → d b = c b) : HeldCounts d (s.setAccount a v) := by
  intro b
  rw [State.account_setAccount]
  split
  · next hab => exact hab ▸ hv
  · next hab => exact (h b).trans (hd b (Ne.symm hab)).symm

/-- One entry of account `a` fewer (R39). -/
theorem HeldCounts.lower {c : Nat → Nat} {s : State} (h : HeldCounts c s) (a : Nat) :
    HeldCounts (Function.update c a (c a - 1)) (lowerHeld a s) :=
  h.setAccount (by simp [h a]) (fun b hb => by simp [hb])

/-- The held-counts are written by nothing but the acts over the pending list. -/
theorem HeldCounts.keeps (c : Nat → Nat) : Keeps (HeldCounts c) := by
  constructor
  case account =>
    exact fun s a v hv h => h.setAccount (hv.trans (h a)) fun _ _ => rfl
  case place => exact fun s l m h => h.congr (congrArg State.accounts (links_place l m s) :)
  case callRetake => exact fun s l d k h => h.congr (congrArg State.accounts (links_callRetake l d k s) :)
  all_goals intros; rename_i h; exact h.congr rfl

namespace Keeps

variable {I : State → Prop} (K : Keeps I) {s : State}

include K

theorem setEventIf (b : Bool) (e : Event) (h : I s) : I (setEventIf b e s) := by
  unfold Machine.setEventIf
  split
  · exact K.event _ _ h
  · exact h

theorem callIntentRetakes (h : I s) : I (callIntentRetakes s) :=
  fold_keeps (fun s d => Machine.callRetake d .reclaim 1 s) (fun _ _ => K.callRetake _ _ _ _) _
    (K.callRetake _ _ _ _ h)

theorem refuse (c : Capture) (h : I s) : I (refuse c s) := K.place _ _ _ (K.captured _ _ h)

theorem pressureCompare (h : I s) : I (pressureCompare s) := by
  unfold Machine.pressureCompare pressureStage
  split
  · split
    · exact K.event _ _ (K.stageUnit _ _ h)
    · exact h
  · exact h

theorem reliefStage (x : Nat) (h : I s) : I (reliefStage x s) := by
  unfold Machine.reliefStage
  split
  · exact h
  · split
    · exact K.event _ _ (K.stageUnit _ _ h)
    · exact h

theorem afterHold (r : Reasons) (x : Option Nat) (h : I s) : I (afterHold r x s) := by
  have hpressure : I (if r.frames then Machine.pressureCompare s else s) := by
    split
    · exact K.pressureCompare h
    · exact h
  unfold Machine.afterHold
  dsimp only
  split
  · exact K.reliefStage _ hpressure
  · exact hpressure

theorem makeGrant (g link tag a k : Nat) (key : Key) (n : Nat) (h : I s) :
    I (makeGrant g link tag a k key n s) :=
  K.pressureCompare (K.place _ _ _ (K.grantRecords g link tag a k key n h))

end Keeps

/-- The held-counts after a re-test of entry `e`: only an entry that leaves the list lowers that of its account. -/
def RetestCounts (c : Nat → Nat) (e : Entry) : Retest → Prop
  | .keep _ s => HeldCounts c s
  | .leave s => HeldCounts (Function.update c e.account (c e.account - 1)) s

/-- A re-test writes a held-count only where its entry leaves the list, and then that of its account (R43). -/
theorem heldCounts_retest {c : Nat → Nat} (e : Entry) {s : State} (h : HeldCounts c s) :
    RetestCounts c e (retest e s) := by
  have K := HeldCounts.keeps c
  have L := HeldCounts.keeps (Function.update c e.account (c e.account - 1))
  have hrefused (reason : RefusalCode) {t : State} (ht : HeldCounts c t) :
      HeldCounts (Function.update c e.account (c e.account - 1)) (refuseEntry e reason t) :=
    L.callIntentRetakes (L.refuse _ (ht.lower _))
  have htold := K.setEventIf (judge s e.cls e.stream (fallbackStream s e)).fellBack .fallback h
  unfold retest
  dsimp only
  generalize setEventIf (judge s e.cls e.stream (fallbackStream s e)).fellBack .fallback s = t at htold ⊢
  split
  · exact hrefused _ htold
  · split
    · exact hrefused _ htold
    · split
      · exact htold
      · unfold retestResources
        dsimp only
        split
        · split
          · exact L.callIntentRetakes (L.makeGrant _ _ _ _ _ _ _ (htold.lower _))
          · exact K.afterHold _ _ htold
        · exact K.afterHold _ _ htold

/-- The number of entries of an account in a list. -/
def entriesOf (l : List Entry) (a : Nat) : Nat := l.countP fun e => e.account == a

theorem HeldLaw.counts {s : State} : HeldLaw s ↔ HeldCounts (entriesOf s.waiting) s := Iff.rfl

/-- An entry that is rewritten in its place leaves the counts of the list. -/
theorem entriesOf_rewrite {e e' : Entry} (he : e'.account = e.account) (l m : List Entry) :
    entriesOf ((l ++ [e']) ++ m) = entriesOf (l ++ e :: m) := by
  funext a
  simp [entriesOf, he, List.countP_cons]

/-- An entry that leaves the list lowers the count of its account. -/
theorem entriesOf_leave (e : Entry) (l m : List Entry) :
    Function.update (entriesOf (l ++ e :: m)) e.account (entriesOf (l ++ e :: m) e.account - 1) =
      entriesOf (l ++ m) := by
  funext a
  by_cases ha : a = e.account
  · subst ha
    simp [entriesOf]
  · simp [entriesOf, ha, Ne.symm ha]

/-- The walk keeps the held-counts in step with the entries it has kept and those still to be visited. -/
theorem HeldLaw.walkFrom (es : List Entry) (kept : List Entry) {s : State}
    (h : HeldCounts (entriesOf (kept ++ es)) s) : HeldLaw (walkFrom kept es s) := by
  induction es generalizing kept s with
  | nil =>
    rw [List.append_nil] at h
    exact HeldLaw.counts.mpr (h.congr rfl)
  | cons e es ih =>
    unfold Machine.walkFrom
    split
    · refine ih _ ?_
      rw [entriesOf_rewrite (e := e)]
      · exact h
      · rfl
    · have hretest := heldCounts_retest e h
      split
      · next e' s' hr =>
        rw [hr] at hretest
        refine ih _ ?_
        rwa [entriesOf_rewrite (account_of_identity (retest_identity hr))]
      · next s' hr =>
        rw [hr] at hretest
        refine ih _ ?_
        rwa [← entriesOf_leave e]

theorem HeldLaw.congr {s t : State} (h : HeldLaw s) (haccounts : t.accounts = s.accounts)
    (hwaiting : t.waiting = s.waiting) : HeldLaw t :=
  HeldLaw.counts.mpr (hwaiting ▸ (HeldLaw.counts.mp h).congr haccounts)

/-- The removal of some entries of the list keeps the law, where the list has them (R38, R49, R50). -/
theorem HeldLaw.removed {s t : State} {es : List Entry} (h : HeldLaw s) (hremoved : EntriesRemoved s t es)
    (hcount : ∀ a, entriesOf t.waiting a = entriesOf s.waiting a - entriesOf es a) : HeldLaw t := by
  intro a
  rw [hremoved.account a]
  exact (congrArg (· - entriesOf es a) (h a)).trans (hcount a).symm

theorem HeldLaw.removeEntry {s : State} (h : HeldLaw s) {e : Entry} (he : e ∈ s.waiting) :
    HeldLaw (removeEntry e s) := by
  have hremoved := removeEntry_effect e s
  refine h.removed hremoved fun a => ?_
  rw [hremoved.waiting]
  simp only [entriesOf, List.foldl_cons, List.foldl_nil, List.countP_erase, he, true_and, List.countP_singleton]

theorem HeldLaw.removeLinkEntries {s : State} (h : HeldLaw s) (l : Nat) : HeldLaw (removeLinkEntries l s) := by
  refine h.removed (removals_effect _ s) fun a => ?_
  have hwaiting := waiting_removeLinkEntries l s
  have hsplit := List.countP_eq_countP_filter_add s.waiting (fun e => e.account == a) (fun e => e.link == l)
  simp only [entriesOf, hwaiting]
  omega

/-- On entry to POWER_FAIL no entry is left, and none is counted (R51). -/
theorem HeldLaw.powerFailAdmission {s : State} (h : HeldLaw s) : HeldLaw (powerFailAdmission s) := by
  have hlapsed : HeldLaw (lapseGrants (fun _ => true) s) :=
    HeldLaw.counts.mpr (((congrArg State.waiting (lapseGrants_effect _ s).rest :) ▸
      (HeldCounts.keeps _).lapseGrants _ h))
  have hadmission : Machine.powerFailAdmission s =
      ((lapseGrants (fun _ => true) s).waiting.foldl (fun s e => refuseEntry e .powerFail s)
        (lapseGrants (fun _ => true) s)).setWaiting [] := rfl
  rw [hadmission]
  generalize lapseGrants (fun _ => true) s = t at hlapsed ⊢
  intro a
  have hrefused := (refusals_effect .powerFail t.waiting t).account a
  refine (congrArg Account.heldCount hrefused).trans ?_
  exact Nat.sub_eq_zero_of_le (hlapsed a).le

/-- A held intent is counted with its account (R39). -/
theorem HeldLaw.join {s : State} (h : HeldLaw s) (e : Entry) :
    HeldLaw (raiseHeld e.account (s.setWaiting (s.waiting ++ [e]))) := by
  have hcounts : HeldCounts (entriesOf (s.waiting ++ [e])) (raiseHeld e.account (s.setWaiting (s.waiting ++ [e]))) := by
    refine HeldCounts.setAccount (c := entriesOf s.waiting) h ?_ fun a ha => ?_
    · simp [entriesOf, h e.account]
    · simp [entriesOf, Ne.symm ha]
  exact hcounts

theorem HeldLaw.keeps : KeepsAll HeldLaw := by
  constructor; constructor; constructor
  case account => exact fun s a v hv h => HeldCounts.setAccount (c := entriesOf s.waiting) h (hv.trans (h a)) fun _ _ => rfl
  case place =>
    exact fun s l m h => h.congr (congrArg State.accounts (links_place l m s) :)
      (congrArg State.waiting (links_place l m s) :)
  case callRetake =>
    exact fun s l c k h => h.congr (congrArg State.accounts (links_callRetake l c k s) :)
      (congrArg State.waiting (links_callRetake l c k s) :)
  case emit =>
    exact fun s l m h => h.congr (congrArg State.accounts (emit_frame l m s) :)
      (congrArg State.waiting (emit_frame l m s) :)
  case join => exact fun s e _ h => h.join e
  case walk => exact fun s h => HeldLaw.walkFrom s.waiting [] h
  case removeEntry => exact fun s e he h => h.removeEntry he
  case removeLinkEntries => exact fun s l h => h.removeLinkEntries l
  case powerFailAdmission => exact fun s h => h.powerFailAdmission
  case clearEvents =>
    intro s n h
    obtain ⟨q, hq⟩ := clearEvents_setEvents n s
    exact hq ▸ h.congr rfl rfl
  case maskEvents =>
    intro s n h
    obtain ⟨q, hq⟩ := maskEvents_setEvents n s
    exact hq ▸ h.congr rfl rfl
  all_goals intros; rename_i h; exact h.congr rfl rfl

theorem HeldLaw.reset : HeldLaw State.reset := fun _ => rfl

theorem HeldLaw.step {s t : State} (h : HeldLaw s) (ht : step s = .next t) : HeldLaw t :=
  HeldLaw.keeps.acts.step (fun _ _ => HeldLaw.reset.congr rfl rfl)
    (fun _ _ _ h => h.congr rfl rfl) (fun _ _ h => h.congr rfl rfl) h ht

theorem BalanceLaw.step {s t : State} (h : BalanceLaw s) (ht : step s = .next t) : BalanceLaw t :=
  BalanceLaw.acts.acts.step BalanceLaw.reset h ht

theorem SetLaw.step {s t : State} (h : SetLaw s) (ht : step s = .next t) : SetLaw t :=
  SetLaw.acts.acts.step SetLaw.reset h ht

/-- Settles O59: the walk keeps the held-counts in step with the list (`HeldLaw.walkFrom`); the other two laws
survive the acts on the ledger of frames, ways and accounts. -/
theorem stepsKeepTheHeldCounts : Obligations.StepsKeepTheHeldCounts :=
  ⟨fun _ _ => HeldLaw.step, fun _ _ => BalanceLaw.step, fun _ _ => SetLaw.step⟩

/-! ### The bounds of a link (R161, R164, R165) -/

namespace LinkBounds

variable {l : Nat} {a b : Link}

/-- The bounds rest on the outbound side and the lengths of the inbound queues alone. -/
theorem congr (h : LinkBounds l a) (hout : b.outbound = a.outbound) (hover : b.overflow = a.overflow)
    (hqueue : ∀ c, b.queue c = a.queue c) : LinkBounds l b where
  outbound := hout ▸ h.outbound
  overflow := hover ▸ hout ▸ h.overflow
  inbound c := hqueue c ▸ h.inbound c

theorem setQueue (h : LinkBounds l a) {c : Channel} {q : ChannelQueue}
    (hq : q.messages.length ≤ channelDepth l c) : LinkBounds l (a.setQueue c q) where
  outbound := by cases c <;> exact h.outbound
  overflow := by cases c <;> exact h.overflow
  inbound d := by
    rw [Link.queue_setQueue]
    split
    · next hcd => exact hcd ▸ hq
    · exact h.inbound d

/-- A link with empty queues keeps them. -/
theorem of_empty (hout : a.outbound = []) (hover : a.overflow = []) (hqueue : ∀ c, a.queue c = .empty) :
    LinkBounds l a where
  outbound := by simp [hout]
  overflow hne := absurd hover hne
  inbound c := by simp [hqueue c, ChannelQueue.empty]

/-- The place that comes free is taken by the oldest message of the overflow line (R164, R165). -/
theorem advance (h : LinkBounds l a) (hout : b.outbound = a.outbound.tail ++ a.overflow.take 1)
    (hover : b.overflow = a.overflow.tail) (hqueue : ∀ c, b.queue c = a.queue c) : LinkBounds l b where
  outbound := by
    have := h.outbound
    by_cases hline : a.overflow = []
    · simp [hout, hline]
      omega
    · have hfull := h.overflow hline
      simp only [hout, List.length_append, List.length_tail, List.length_take, Config.outboundDepth] at *
      omega
  overflow hne := by
    have hline : a.overflow ≠ [] := fun hnil => hne (by simp [hover, hnil])
    have hfull := h.overflow hline
    have hlen : 1 ≤ a.overflow.length := List.length_pos_iff.mpr hline
    simp only [hout, List.length_append, List.length_tail, List.length_take, Config.outboundDepth] at *
    omega
  inbound c := hqueue c ▸ h.inbound c

end LinkBounds

/-! ### The bounded lists (R20, R39) -/

/-- The bounds of the refusal capture and of the links (R20, R161, R164, R165). -/
structure QueueBounds (s : State) : Prop where
  captures : s.captures.length ≤ Config.captureLimit
  links : ∀ l, LinkBounds l (s.link l)

namespace QueueBounds

variable {s t : State}

theorem congr (h : QueueBounds s) (hcaptures : t.captures = s.captures) (hlinks : t.links = s.links) :
    QueueBounds t where
  captures := hcaptures ▸ h.captures
  links l := by
    simp only [State.link, hlinks]
    exact h.links l

theorem setLink (h : QueueBounds s) {l : Nat} {v : Link} (hv : LinkBounds l v) : QueueBounds (s.setLink l v) where
  captures := h.captures
  links j := by
    rw [State.link_setLink]
    split
    · next hj => exact hj ▸ hv
    · exact h.links j

theorem capture (h : QueueBounds s) (c : Capture) : QueueBounds (capture c s) where
  captures := by
    have hroom : s.captures.length ≤ 8 := h.captures
    change ((if s.captures.length < 8 then s.captures else s.captures.tail) ++ [c]).length ≤ 8
    rw [List.length_append, List.length_singleton]
    split
    · omega
    · rw [List.length_tail]
      omega
  links := h.links

theorem place (h : QueueBounds s) (l : Nat) (m : OutMessage) : QueueBounds (place l m s) where
  captures := (congrArg State.captures (links_place l m s) :) ▸ h.captures
  links j := by
    by_cases hj : j = l
    · subst hj
      by_cases hup : (s.link j).up = true
      · exact (leaving_place m hup (h.links j)).2.2
      · rw [place_down m (by simpa using hup)]
        exact h.links j
    · rw [(place_frame l m s).links j hj]
      exact h.links j

theorem callRetake (h : QueueBounds s) (l : Nat) (c : Channel) (k : Nat) : QueueBounds (callRetake l c k s) where
  captures := (congrArg State.captures (links_callRetake l c k s) :) ▸ h.captures
  links j := (sameSide_callRetake l j c k s).bounds (h.links j)

theorem emit (h : QueueBounds s) (l : Nat) (m : OutMessage) : QueueBounds (emit l m s) := by
  unfold Machine.emit
  dsimp only
  have hsent := h.setLink ((h.links l).advance
    (b := { s.link l with
      outbound := (s.link l).outbound.tail ++ (s.link l).overflow.take 1, overflow := (s.link l).overflow.tail,
      outSeq := ((s.link l).outSeq + 1) % Config.linkSeqModulus, sent := satSucc (s.link l).sent,
      wire := some { linkSeq := (s.link l).outSeq, message := m } }) rfl rfl (fun c => by cases c <;> rfl))
  split
  · exact (hsent.callRetake _ _ _).callRetake _ _ _
  · exact hsent

theorem survives : SurvivesAdmission QueueBounds where
  account _ _ _ h := h.congr rfl rfl
  free _ _ h := h.congr rfl rfl
  grant _ _ _ h := h.congr rfl rfl
  clearGrant _ _ h := h.congr rfl rfl
  set _ _ _ h := h.congr rfl rfl
  stream _ _ _ h := h.congr rfl rfl
  unit _ _ _ _ h := h.congr rfl rfl
  staged _ _ h := h.congr rfl rfl
  event _ _ h := h.congr rfl rfl
  captured _ c h := h.capture c
  place _ l m h := h.place l m
  retake _ l c k h := h.callRetake l c k
  waiting _ _ h := h.congr rfl rfl

end QueueBounds

namespace BoundsLaw

variable {s t : State}

theorem queues (h : BoundsLaw s) : QueueBounds s := ⟨h.captures, h.links⟩

theorem of_queues (h : QueueBounds s) (hwaiting : s.waiting.length ≤ Config.pendingLimit) : BoundsLaw s :=
  ⟨h.captures, hwaiting, h.links⟩

theorem congr (h : BoundsLaw s) (hcaptures : t.captures = s.captures) (hwaiting : t.waiting = s.waiting)
    (hlinks : t.links = s.links) : BoundsLaw t :=
  .of_queues (h.queues.congr hcaptures hlinks) (hwaiting ▸ h.waiting)

/-- An act that keeps the bounds of the queues, and leaves the pending list no longer, keeps the law. -/
theorem shrink (h : BoundsLaw s) (hq : QueueBounds t) (hwaiting : t.waiting.length ≤ s.waiting.length) :
    BoundsLaw t := .of_queues hq (hwaiting.trans h.waiting)

theorem setLink (h : BoundsLaw s) {l : Nat} {v : Link} (hv : LinkBounds l v) : BoundsLaw (s.setLink l v) :=
  h.shrink (h.queues.setLink hv) le_rfl

theorem takeHead (h : BoundsLaw s) (l : Nat) (c : Channel) : BoundsLaw (takeHead l c s) := by
  have hqueue : ((s.link l).queue c).messages.tail.length ≤ channelDepth l c :=
    List.length_tail.trans_le ((Nat.sub_le _ _).trans ((h.links l).inbound c))
  exact h.setLink (((h.links l).setQueue (q := ⟨_, false, false⟩) hqueue).congr rfl rfl fun d => by cases d <;> rfl)

theorem keeps : KeepsAll BoundsLaw := by
  have empty {l : Nat} {v : Link} (hout : v.outbound = []) (hover : v.overflow = [])
      (hqueue : ∀ c, v.queue c = .empty) {s : State} (h : BoundsLaw s) : BoundsLaw (s.setLink l v) :=
    h.setLink (.of_empty hout hover hqueue)
  constructor; constructor; constructor
  case captured => exact fun s c h => h.shrink (h.queues.capture c) le_rfl
  case captures => exact fun s h => h.shrink ⟨Nat.zero_le _, h.links⟩ le_rfl
  case place =>
    exact fun s l m h => h.shrink (h.queues.place l m) (congrArg (·.waiting.length) (links_place l m s) :).le
  case callRetake =>
    exact fun s l c k h => h.shrink (h.queues.callRetake l c k)
      (congrArg (·.waiting.length) (links_callRetake l c k s) :).le
  case emit =>
    exact fun s l m h => h.shrink (h.queues.emit l m) (congrArg (·.waiting.length) (emit_frame l m s) :).le
  case takeHead => exact fun s l c h => h.takeHead l c
  case stallHead => exact fun s l c h => h.setLink ((h.links l).setQueue ((h.links l).inbound c))
  case cleared => exact fun s l h => empty rfl rfl (fun c => by cases c <;> rfl) h
  case bringUp => exact fun s l h => empty rfl rfl (fun c => by cases c <;> rfl) h
  case inSeq => exact fun s l n h => h.setLink ((h.links l).congr rfl rfl fun c => by cases c <;> rfl)
  case refused => exact fun s l n h => h.setLink ((h.links l).congr rfl rfl fun c => by cases c <;> rfl)
  case enqueue => exact fun s l c m hroom h => h.setLink ((h.links l).setQueue (by simpa using hroom))
  case join => exact fun s e hroom h => .of_queues (h.queues.congr rfl rfl) (List.length_append.trans_le hroom)
  case walk =>
    exact fun s h => h.shrink (QueueBounds.survives.retestWalk h.queues) (length_waiting_retestWalk s)
  case removeEntry =>
    intro s e _ h
    refine h.shrink (QueueBounds.survives.removeEntry e h.queues) ?_
    rw [(removeEntry_effect e s).waiting]
    exact List.length_erase_le
  case removeLinkEntries =>
    intro s l h
    refine h.shrink (QueueBounds.survives.removeLinkEntries l h.queues) ?_
    rw [waiting_removeLinkEntries]
    exact List.length_filter_le _ _
  case powerFailAdmission =>
    exact fun s h => h.shrink (QueueBounds.survives.powerFailAdmission h.queues) (Nat.zero_le _)
  case clearEvents =>
    intro s n h
    obtain ⟨q, hq⟩ := clearEvents_setEvents n s
    exact hq ▸ h.congr rfl rfl rfl
  case maskEvents =>
    intro s n h
    obtain ⟨q, hq⟩ := maskEvents_setEvents n s
    exact hq ▸ h.congr rfl rfl rfl
  all_goals intros; rename_i h; exact h.congr rfl rfl rfl

theorem reset : BoundsLaw State.reset :=
  ⟨Nat.zero_le _, Nat.zero_le _, fun _ => .of_empty rfl rfl fun c => by cases c <;> rfl⟩

theorem step (h : BoundsLaw s) (ht : step s = .next t) : BoundsLaw t :=
  keeps.acts.step (fun _ _ => reset.congr rfl rfl rfl) (fun _ _ _ h => h.congr rfl rfl rfl)
    (fun _ _ h => h.congr rfl rfl rfl) h ht

end BoundsLaw

/-- Settles O60: a link is written only within its bounds, the capture drops its oldest entry, a hold is made only
on a list with room, and no other act makes the pending list longer. -/
theorem stepsKeepTheBounds : Obligations.StepsKeepTheBounds := fun _ _ => BoundsLaw.step

end Sys2Proof.Machine
end

section
/-! SUPPORT. The laws of the two output lines, ALERT_N (R180) and SAFE (R158) (O55). -/

namespace Sys2Proof.Machine

/-! ### ALERT_N (R180) -/

theorem AlertLaw.congr {s t : State} (h : AlertLaw s) (hevents : t.events = s.events) (halert : t.alert = s.alert) :
    AlertLaw t := by
  rw [AlertLaw, hevents, halert]
  exact h

/-- ALERT_N follows whatever is written to the event records. -/
theorem AlertLaw.setEvents (s : State) (q : Table EventRecord) : AlertLaw (s.setEvents q) := rfl

theorem AlertLaw.setEvent (e : Event) (s : State) : AlertLaw (setEvent e s) := AlertLaw.setEvents s _

theorem AlertLaw.of_links {s t : State} (h : AlertLaw s) (hlinks : { t with links := s.links } = s) : AlertLaw t :=
  h.congr (congrArg State.events hlinks :) (congrArg State.alert hlinks :)

theorem AlertLaw.survives : SurvivesAdmission AlertLaw where
  account _ _ _ h := h.congr rfl rfl
  free _ _ h := h.congr rfl rfl
  grant _ _ _ h := h.congr rfl rfl
  clearGrant _ _ h := h.congr rfl rfl
  set _ _ _ h := h.congr rfl rfl
  stream _ _ _ h := h.congr rfl rfl
  unit _ _ _ _ h := h.congr rfl rfl
  staged _ _ h := h.congr rfl rfl
  event s e _ := AlertLaw.setEvent e s
  captured _ _ h := h.congr rfl rfl
  place s l m h := h.of_links (links_place l m s)
  retake s l c k h := h.of_links (links_callRetake l c k s)
  waiting _ _ h := h.congr rfl rfl

theorem AlertLaw.keeps : KeepsAll AlertLaw := by
  constructor; constructor; constructor
  case event => exact fun s e _ => AlertLaw.setEvent e s
  case place => exact fun s l m h => h.of_links (links_place l m s)
  case callRetake => exact fun s l c k h => h.of_links (links_callRetake l c k s)
  case emit => exact fun s l m h => h.of_links (emit_frame l m s)
  case walk => exact fun s h => AlertLaw.survives.retestWalk h
  case removeEntry => exact fun s e _ h => AlertLaw.survives.removeEntry e h
  case removeLinkEntries => exact fun s l h => AlertLaw.survives.removeLinkEntries l h
  case powerFailAdmission => exact fun s h => AlertLaw.survives.powerFailAdmission h
  case clearEvents =>
    intro s n _
    obtain ⟨q, hq⟩ := clearEvents_setEvents n s
    exact hq ▸ AlertLaw.setEvents s q
  case maskEvents =>
    intro s n _
    obtain ⟨q, hq⟩ := maskEvents_setEvents n s
    exact hq ▸ AlertLaw.setEvents s q
  all_goals intros; rename_i h; exact h.congr rfl rfl

theorem AlertLaw.reset : AlertLaw State.reset := rfl

theorem AlertLaw.step {s t : State} (h : AlertLaw s) (ht : step s = .next t) : AlertLaw t :=
  AlertLaw.keeps.acts.step (fun _ _ => AlertLaw.reset.congr rfl rfl) (fun _ _ _ h => h.congr rfl rfl)
    (fun _ _ h => h.congr rfl rfl) h ht

/-! ### What a placement leaves alone (R60 to R65) -/

/-- The records the placing of slices may write: all others of `t` are those of `s`. -/
def StoreFrame (s t : State) : Prop :=
  { t with
    frames := s.frames, freed := s.freed, nextSeq := s.nextSeq, sets := s.sets, accounts := s.accounts,
    free := s.free, streams := s.streams, units := s.units, stagedCounter := s.stagedCounter,
    drainCount := s.drainCount } = s

namespace StoreFrame

variable {s t r : State}

theorem refl (s : State) : StoreFrame s s := rfl

theorem trans (h : StoreFrame s t) (k : StoreFrame t r) : StoreFrame s r :=
  (congrArg (fun q : State => { q with
    frames := s.frames, freed := s.freed, nextSeq := s.nextSeq, sets := s.sets, accounts := s.accounts,
    free := s.free, streams := s.streams, units := s.units, stagedCounter := s.stagedCounter,
    drainCount := s.drainCount }) k :).trans h

theorem of_append (h : AppendFrame s t) : StoreFrame s t :=
  (congrArg (fun q : State => { q with
    frames := s.frames, freed := s.freed, nextSeq := s.nextSeq, sets := s.sets, accounts := s.accounts,
    free := s.free }) h :)

theorem of_inPlace (h : InPlaceFrame s t) : StoreFrame s t :=
  (congrArg (fun q : State => { q with
    freed := s.freed, stagedCounter := s.stagedCounter, drainCount := s.drainCount }) h :)

theorem fillFrame (w : SliceWrite) (f v : Nat) (s : State) : StoreFrame s (fillFrame w f v s) :=
  StoreFrame.trans (t := ((s.clearFreed f).setFrame f
      { record := newRecord w s.nextSeq v (((s.unit? v).map UnitRecord.fill).getD 0), data := w.data,
        latent := false }).setNextSeq (s.nextSeq + 1)) rfl
    (.of_append (appendFrame_frame w.stream v f _))

theorem placeNew {w : SliceWrite} {f : Nat} (h : placeNew w s = .ok (f, t)) : StoreFrame s t := by
  unfold Machine.placeNew at h
  split at h
  · next hopen =>
    cases h
    exact (of_append (openUnit_frame hopen)).trans (.fillFrame _ _ _ _)
  · cases h
  · cases h

theorem writeWay (h : StoreFrame s t) (x i : Nat) (v : Way) : StoreFrame s (writeWay x i v t) := h

theorem placeMiss {w : SliceWrite} {o : Placed} (h : placeMiss w s = .ok (o, t)) : StoreFrame s t := by
  unfold Machine.placeMiss at h
  dsimp only at h
  split at h
  · cases h
  · split at h
    · cases h
    · next hnew =>
      cases h
      exact (placeNew hnew).writeWay _ _ _

theorem placeSupersede {w : SliceWrite} {i f : Nat} {v : Frame} {o : Placed}
    (h : placeSupersede w i f v s = .ok (o, t)) : StoreFrame s t := by
  unfold Machine.placeSupersede at h
  dsimp only at h
  split at h
  · cases h
  · next hnew =>
    cases h
    exact (StoreFrame.trans (s := s) (t := s.setFrame f { v with record := { v.record with void := true } }) rfl
      (placeNew hnew)).writeWay _ _ _

theorem placeSlice {w : SliceWrite} {o : Placed} (h : placeSlice w s = .ok (o, t)) : StoreFrame s t := by
  unfold Machine.placeSlice at h
  split at h
  · exact placeMiss h
  · split at h
    · exact placeMiss h
    · split at h
      · next v _ _ =>
        injection h with h
        rw [show t = _ from (congrArg Prod.snd h).symm]
        exact of_inPlace (placeInPlace_frame w _ v s)
      · split at h
        · injection h with h
          rw [show t = _ from (congrArg Prod.snd h).symm]
          rfl
        · exact placeSupersede h

theorem placeSlices {ws : List SliceWrite} {os : List Placed} (h : placeSlices ws s = .ok (os, t)) :
    StoreFrame s t :=
  placeSlices_keeps (I := StoreFrame s) (fun _ _ _ _ hplaced k => k.trans (placeSlice hplaced)) ws h (.refl s)

end StoreFrame

/-! ### SAFE (R158) -/

/-- While RESET_N is asserted the part state reads STARTING and no scrub runs (log entry 3). -/
def ResetHeld (s : State) : Prop := s.resetAsserted = true → s.part = .starting ∧ s.scrubbing = false

/-- Two states agree in the records that say so. -/
structure SameBoard (s t : State) : Prop where
  resetAsserted : t.resetAsserted = s.resetAsserted
  part : t.part = s.part
  scrubbing : t.scrubbing = s.scrubbing

theorem SameBoard.trans {s t r : State} (h : SameBoard s t) (k : SameBoard t r) : SameBoard s r :=
  ⟨k.resetAsserted.trans h.resetAsserted, k.part.trans h.part, k.scrubbing.trans h.scrubbing⟩

theorem SameBoard.of_admission {s t : State} (h : AdmissionFrame s t) : SameBoard s t :=
  ⟨(congrArg State.resetAsserted h :), (congrArg State.part h :), (congrArg State.scrubbing h :)⟩

theorem ResetHeld.congr {s t : State} (h : ResetHeld s) (k : SameBoard s t) : ResetHeld t := by
  intro hreset
  rw [k.part, k.scrubbing]
  exact h (k.resetAsserted.symm.trans hreset)

theorem SafeLaw.congr {s t : State} (h : SafeLaw s) (k : SameBoard s t) (hsafe : t.safe = s.safe)
    (hcount : t.drainCount = s.drainCount) : SafeLaw t where
  level := by
    rw [hsafe, h.level, safeLevel, safeLevel, k.part, hcount]
  inReset := ResetHeld.congr h.inReset k

/-- SAFE has its level once it is evaluated. -/
theorem SafeLaw.evalSafe {s : State} (h : ResetHeld s) : SafeLaw (evalSafe s) where
  level := evalSafe_level s
  inReset := h.congr ⟨(congrArg State.resetAsserted (evalSafe_frame s) :), (congrArg State.part (evalSafe_frame s) :),
    (congrArg State.scrubbing (evalSafe_frame s) :)⟩

/-- Outside POWER_FAIL SAFE is deasserted. -/
theorem SafeLaw.of_part {s : State} (hpart : s.part ≠ .powerFail) (hsafe : s.safe = false) (hreset : ResetHeld s) :
    SafeLaw s where
  level := by simp [safeLevel, hsafe, hpart]
  inReset := hreset

theorem SafeLaw.deasserted {s : State} (h : SafeLaw s) (hpart : s.part ≠ .powerFail) : s.safe = false := by
  simp [h.level, safeLevel, hpart]

theorem SafeLaw.keeps : KeepsMore SafeLaw :=
  .of_steady (fun k h => h.congr ⟨k.resetAsserted, k.part, k.scrubbing⟩ k.safe k.drainCount)
    (fun _ _ _ _ _ h => h.congr ⟨rfl, rfl, rfl⟩ rfl rfl) (fun _ _ _ _ _ _ _ h => h.congr ⟨rfl, rfl, rfl⟩ rfl rfl)
    (fun _ _ _ _ _ _ _ h => h.congr ⟨rfl, rfl, rfl⟩ rfl rfl) (fun _ _ h => h.congr ⟨rfl, rfl, rfl⟩ rfl rfl)
    (fun _ _ _ _ h => h.congr ⟨rfl, rfl, rfl⟩ rfl rfl)

/-! ### The commands that move the part state or the drain count -/

theorem SafeLaw.enterPowerFail {s : State} (hreset : s.resetAsserted = false) : SafeLaw (enterPowerFail s) where
  level := by
    obtain ⟨hpart, -, -, -, -, hsafe, -⟩ := enterPowerFail_sets s
    have hcount : (Machine.enterPowerFail s).drainCount = s.drainCount :=
      (congrArg State.drainCount (enterPowerFail_frame s) :)
    simp [safeLevel, hpart, hsafe, hcount]
  inReset hasserted := by
    have hkept : (Machine.enterPowerFail s).resetAsserted = s.resetAsserted :=
      (congrArg State.resetAsserted (enterPowerFail_frame s) :)
    rw [hkept, hreset] at hasserted
    cases hasserted

theorem sameBoard_endOfPlacement (k : Nat) (s : State) : SameBoard s (endOfPlacement k s) :=
  .of_admission ((AdmissionFrame.survives s).toSurvivesGrants.endOfPlacement k (.refl s))

theorem sameBoard_settleGrant (g : Nat) (v : Grant) (s : State) : SameBoard s (settleGrant g v s) :=
  .of_admission ((AdmissionFrame.survives s).toSurvivesGrants.settleGrant g v (.refl s))

theorem sameBoard_place (l : Nat) (m : OutMessage) (s : State) : SameBoard s (place l m s) :=
  .of_admission (.of_links (links_place l m s))

theorem SafeLaw.takeData {s t : State} (h : SafeLaw s) {link : Nat} {m : Message}
    (ht : takeData link m s = .next t) : SafeLaw t := by
  unfold Machine.takeData at ht
  dsimp only at ht
  split at ht
  · cases ht
    exact SafeLaw.keeps.place _ _ _ h
  · split at ht
    · cases ht
    · next v _ _ _ r hplaced =>
      injection ht with ht
      have hstore := StoreFrame.placeSlices hplaced
      have hboard : SameBoard s r :=
        ⟨(congrArg State.resetAsserted hstore :), (congrArg State.part hstore :), (congrArg State.scrubbing hstore :)⟩
      rw [← ht]
      refine SafeLaw.evalSafe (ResetHeld.congr h.inReset (hboard.trans ?_))
      exact (((sameBoard_settleGrant _ v r).trans (sameBoard_place _ _ _)).trans
        (sameBoard_endOfPlacement _ _)).trans (.of_admission (retestWalk_frame _))

theorem FlushFrame.board {s t : State} (h : FlushFrame s t) : SameBoard s t :=
  ⟨(congrArg State.resetAsserted h :), (congrArg State.part h :), (congrArg State.scrubbing h :)⟩

theorem SafeLaw.completeUnit {s : State} (h : SafeLaw s) (g v : Nat) (u : UnitRecord) (p : Opaque40) :
    SafeLaw (completeUnit g v u p s) := by
  have hstart : SameBoard s (doneStart g v u p s) := by
    unfold doneStart lowerInFlight
    constructor <;> simp
  have hdone := hstart.trans (FlushFrame.board (flushesAtDone_frame v _))
  have hcomplete : Machine.completeUnit g v u p s =
      Machine.evalSafe ((flushesAtDone v (doneStart g v u p s)).setDrainCount
        ((flushesAtDone v (doneStart g v u p s)).drainCount - 1)) := by
    unfold Machine.completeUnit; dsimp only; unfold doneStart; dsimp only
  rw [hcomplete]
  generalize flushesAtDone v (doneStart g v u p s) = q at hdone ⊢
  exact SafeLaw.evalSafe (ResetHeld.congr h.inReset ⟨hdone.resetAsserted, hdone.part, hdone.scrubbing⟩)

theorem SafeLaw.takeUnitDone {s : State} (h : SafeLaw s) (link v l : Nat) (p : Opaque40) :
    SafeLaw (takeUnitDone link v l p s) := by
  unfold Machine.takeUnitDone
  dsimp only
  split
  · exact SafeLaw.keeps.place _ _ _ h
  · split
    · exact SafeLaw.keeps.place _ _ _ h
    · exact h.completeUnit _ _ _ _

theorem Failed.board {s t : State} {g v : Nat} {u : UnitRecord} (h : Failed s t g v u) : SameBoard s t :=
  ⟨(congrArg State.resetAsserted h.frame :), (congrArg State.part h.frame :), (congrArg State.scrubbing h.frame :)⟩

theorem sameBoard_leaveUp (g : Nat) (d : LaneState) (s : State) : SameBoard s (leaveUp g d s) :=
  ⟨(congrArg State.resetAsserted (leaveUp_frame g d s) :), (congrArg State.part (leaveUp_frame g d s) :),
    (congrArg State.scrubbing (leaveUp_frame g d s) :)⟩

theorem SafeLaw.takeUnitFail {s : State} (h : SafeLaw s) (link v l : Nat) (reason : Option FailReason) :
    SafeLaw (takeUnitFail link v l reason s) := by
  unfold Machine.takeUnitFail
  dsimp only
  split
  · exact SafeLaw.keeps.place _ _ _ h
  · next reason =>
    split
    · exact SafeLaw.keeps.place _ _ _ h
    · split
      · exact SafeLaw.keeps.place _ _ _ h
      · next u _ =>
        obtain ⟨q, hfailed, hretry, hlane⟩ := failUnit_spec (globalLane link l) v u s
        cases reason with
        | retry =>
          rw [hretry]
          exact SafeLaw.evalSafe (ResetHeld.congr h.inReset hfailed.board)
        | laneFault =>
          have hleft := hfailed.board.trans (sameBoard_leaveUp (globalLane link l) .down q)
          rw [hlane]
          exact SafeLaw.evalSafe (ResetHeld.congr h.inReset ⟨hleft.resetAsserted, hleft.part, hleft.scrubbing⟩)

theorem SafeLaw.restageFaulted {s : State} (h : SafeLaw s) (v : Nat) (u : UnitRecord) :
    SafeLaw (restageFaulted v u s) := by
  have hframe := restageFaulted_frame v u s
  exact ⟨evalSafe_level _, ResetHeld.congr h.inReset ⟨(congrArg State.resetAsserted hframe :),
    (congrArg State.part hframe :), (congrArg State.scrubbing hframe :)⟩⟩

theorem SafeLaw.startPart {s : State} (h : SafeLaw s) : SafeLaw (startPart s).state := by
  unfold Machine.startPart
  split
  · next hpart =>
    refine .of_part nofun (h.deasserted (by simp [hpart])) fun hreset => ?_
    have hstarting := (h.inReset hreset).1
    rw [hpart] at hstarting
    cases hstarting
  · exact h

theorem SafeLaw.stopPart {s : State} (h : SafeLaw s) : SafeLaw (stopPart s).state := by
  unfold Machine.stopPart
  split
  · next hpart =>
    split
    · refine .of_part nofun (h.deasserted (by simp [hpart])) fun hreset => ?_
      have hstarting := (h.inReset hreset).1
      rw [hpart] at hstarting
      cases hstarting
    · exact h
  · exact h

/-- Every command but the full reset keeps the law of SAFE. -/
theorem SafeLaw.exec {s t : State} (h : SafeLaw s) {c : Instr} (hc : c ≠ .fullReset) (ht : exec c s = .next t) :
    SafeLaw t := by
  have K := SafeLaw.keeps.acts
  by_cases hq : quiet c = true
  · exact K.exec_quiet hq h ht
  cases c <;> simp only [quiet, not_true_eq_false] at hq <;> simp only [Machine.exec] at ht
  case fullReset => exact absurd rfl hc
  case resetNRelease p =>
    unfold execResetNRelease at ht
    split at ht
    · next hreset =>
      cases ht
      split
      · exact SafeLaw.enterPowerFail rfl
      · exact .of_part nofun (h.deasserted (by simp [(h.inReset hreset).1])) nofun
    · cases ht
      exact h
  case scrubComplete =>
    unfold execScrubComplete at ht
    split at ht
    · next hscrub =>
      cases ht
      refine .of_part nofun (h.deasserted (by simp [hscrub.1])) fun hreset => ?_
      have hidle := (h.inReset hreset).2
      rw [hscrub.2] at hidle
      cases hidle
    · cases ht
      exact h
  case pfailNAssertion =>
    cases ht
    split
    · exact h.congr ⟨rfl, rfl, rfl⟩ rfl rfl
    · next hentered =>
      rw [not_or] at hentered
      exact SafeLaw.enterPowerFail (Bool.eq_false_iff.mpr hentered.1)
  case writeData l =>
    unfold execWriteData at ht
    split at ht
    · split at ht
      · exact (K.takeHead _ _ _ h).takeData ht
      · cases ht
        exact h
    · cases ht
      exact h
  case unitDone l =>
    cases ht
    exact K.controlTaking _ _ _ (fun _ _ h => h.takeUnitDone _ _ _ _) h
  case unitFail l =>
    cases ht
    exact K.controlTaking _ _ _ (fun _ _ h => h.takeUnitFail _ _ _ _) h
  case start => exact K.request (fun _ _ h => h.startPart) h ht
  case stop => exact K.request (fun _ _ h => h.stopPart) h ht
  case unitRestage =>
    exact K.request (fun _ _ h => Acts.faultedRequest _ _ (fun _ _ _ _ h => h.restageFaulted _ _) h) h ht

theorem SafeLaw.reset : SafeLaw State.reset := .of_part nofun rfl fun _ => ⟨rfl, rfl⟩

theorem SafeLaw.step {s t : State} (h : SafeLaw s) (ht : step s = .next t) : SafeLaw t := by
  have all (c : Instr) {q : State} (h : SafeLaw q) (ht : Machine.exec c q = .next t) : SafeLaw t := by
    by_cases hc : c = .fullReset
    · subst hc
      cases ht
      exact SafeLaw.reset.congr ⟨rfl, rfl, rfl⟩ rfl rfl
    · exact h.exec hc ht
  have own (q : List Instr) (n : Nat) : SafeLaw { s with pending := q, idles := n } :=
    h.congr ⟨rfl, rfl, rfl⟩ rfl rfl
  have tick (q : State) (h : SafeLaw q) : SafeLaw (tick q) := by
    unfold Machine.tick scrubOn
    split
    · exact h
    · split <;> exact h.congr ⟨rfl, rfl, rfl⟩ rfl rfl
  unfold Machine.step at ht
  split at ht
  · exact all _ (own _ s.idles) ht
  · unfold idle at ht
    dsimp only at ht
    split at ht
    · exact all _ (own s.pending _) ht
    · cases ht
      exact tick _ (own s.pending _)

/-! ### The obligation -/

/-- Settles O55: both lines are a function of records that every command writes together with them. -/
theorem outputLinesFollowTheState : Obligations.OutputLinesFollowTheState := by
  unfold Obligations.OutputLinesFollowTheState
  intro s t halert hsafe ht
  exact ⟨halert.step ht, hsafe.step ht⟩

end Sys2Proof.Machine
end

section
/-! SUPPORT. The canonical form of the tables of records, the model's own representation (O56). -/

namespace Sys2Proof.Machine

/-! ### Every table but the ways of a set -/

/-- The clauses of `tablesWf` by name. -/
structure TablesCanonical (s : State) : Prop where
  frames : Table.sorted s.frames = true
  freed : Table.wf (fun _ => Stored.zero) s.freed = true
  grants : Table.sorted s.grants = true
  units : Table.sorted s.units = true
  flushes : Table.sorted s.flushes = true
  drains : Table.wf (fun _ => DrainConfig.reset) s.drains = true
  rules : Table.wf (fun _ => Rule.reset) s.rules = true
  tenants : Table.wf (fun _ => Tenant.reset) s.tenants = true
  accounts : Table.wf (fun _ => Account.reset) s.accounts = true
  sets : Table.wf (fun _ => IndexSet.reset) s.sets = true
  streams : Table.wf (fun _ => Stream.reset) s.streams = true
  slots : Table.wf Slot.reset s.slots = true
  lanes : Table.wf (fun _ => Lane.reset) s.lanes = true
  events : Table.wf (fun _ => EventRecord.reset) s.events = true
  links : Table.wf (fun _ => Link.reset) s.links = true

namespace TablesCanonical

variable {s : State} (h : TablesCanonical s)

include h

theorem setRule (r : Nat) (v : Rule) : TablesCanonical (s.setRule r v) :=
  { h with rules := Table.wf_put (d := fun _ => Rule.reset) _ _ h.rules }

theorem setTenant (n : Nat) (v : Tenant) : TablesCanonical (s.setTenant n v) :=
  { h with tenants := Table.wf_put (d := fun _ => Tenant.reset) _ _ h.tenants }

theorem setAccount (a : Nat) (v : Account) : TablesCanonical (s.setAccount a v) :=
  { h with accounts := Table.wf_put (d := fun _ => Account.reset) _ _ h.accounts }

theorem setIndexSet (x : Nat) (v : IndexSet) : TablesCanonical (s.setIndexSet x v) :=
  { h with sets := Table.wf_put (d := fun _ => IndexSet.reset) _ _ h.sets }

theorem setStream (k : Nat) (v : Stream) : TablesCanonical (s.setStream k v) :=
  { h with streams := Table.wf_put (d := fun _ => Stream.reset) _ _ h.streams }

theorem setSlot (i : Nat) (v : Slot) : TablesCanonical (s.setSlot i v) :=
  { h with slots := Table.wf_put (d := Slot.reset) _ _ h.slots }

theorem setLane (g : Nat) (v : Lane) : TablesCanonical (s.setLane g v) :=
  { h with lanes := Table.wf_put (d := fun _ => Lane.reset) _ _ h.lanes }

theorem setDrain (d : Nat) (v : DrainConfig) : TablesCanonical (s.setDrain d v) :=
  { h with drains := Table.wf_put (d := fun _ => DrainConfig.reset) _ _ h.drains }

theorem setLink (l : Nat) (v : Link) : TablesCanonical (s.setLink l v) :=
  { h with links := Table.wf_put (d := fun _ => Link.reset) _ _ h.links }

theorem setFreed (f : Nat) (v : Stored) : TablesCanonical (s.setFreed f v) :=
  { h with freed := Table.wf_put (d := fun _ => Stored.zero) _ _ h.freed }

theorem clearFreed (f : Nat) : TablesCanonical (s.clearFreed f) :=
  { h with freed := Table.wf_erase _ h.freed }

theorem setGrant (g : Nat) (v : Grant) : TablesCanonical (s.setGrant g v) :=
  { h with grants := Table.sorted_insert _ _ h.grants }

theorem clearGrant (g : Nat) : TablesCanonical (s.clearGrant g) :=
  { h with grants := Table.sorted_erase _ h.grants }

theorem setFrame (f : Nat) (v : Frame) : TablesCanonical (s.setFrame f v) :=
  { h with frames := Table.sorted_insert _ _ h.frames }

theorem clearFrame (f : Nat) : TablesCanonical (s.clearFrame f) :=
  { h with frames := Table.sorted_erase _ h.frames }

theorem setUnit (v : Nat) (u : UnitRecord) : TablesCanonical (s.setUnit v u) :=
  { h with units := Table.sorted_insert _ _ h.units }

theorem clearUnit (v : Nat) : TablesCanonical (s.clearUnit v) :=
  { h with units := Table.sorted_erase _ h.units }

theorem setFlush (e : Nat) (v : FlushEntry) : TablesCanonical (s.setFlush e v) :=
  { h with flushes := Table.sorted_insert _ _ h.flushes }

theorem setEvents (q : Table EventRecord) (hq : Table.wf (fun _ => EventRecord.reset) q = true) :
    TablesCanonical (s.setEvents q) :=
  { h with events := hq }

theorem setEvent (e : Event) : TablesCanonical (setEvent e s) :=
  h.setEvents _ (Table.wf_put (d := fun _ => EventRecord.reset) _ _ h.events)

theorem place (l : Nat) (m : OutMessage) : TablesCanonical (place l m s) := by
  unfold Machine.place
  dsimp only
  split
  · split <;> exact h.setLink _ _
  · exact h

theorem callRetake (l : Nat) (c : Channel) (k : Nat) : TablesCanonical (callRetake l c k s) := by
  unfold Machine.callRetake
  dsimp only
  split
  · exact h.setLink _ _
  · exact h

theorem emit (l : Nat) (m : OutMessage) : TablesCanonical (emit l m s) := by
  unfold Machine.emit
  dsimp only
  split
  · exact ((h.setLink _ _).callRetake _ _ _).callRetake _ _ _
  · exact h.setLink _ _

end TablesCanonical

/-- A table that a fold writes entry by entry stays canonical. -/
theorem wf_foldl_put {α β : Type} [DecidableEq α] {d : Nat → α} (f : Table α → β → Table α)
    (hf : ∀ t b, Table.wf d t = true → Table.wf d (f t b) = true) (l : List β) {t : Table α}
    (h : Table.wf d t = true) : Table.wf d (l.foldl f t) = true := by
  induction l generalizing t with
  | nil => exact h
  | cons b l ih => exact ih (hf t b h)

theorem TablesCanonical.clearEvents {s : State} (h : TablesCanonical s) (n : Nat) :
    TablesCanonical (clearEvents n s) := by
  refine h.setEvents _ (wf_foldl_put _ (fun t i ht => ?_) _ h.events)
  split
  · exact Table.wf_put (d := fun _ => EventRecord.reset) _ _ ht
  · exact ht

theorem TablesCanonical.maskEvents {s : State} (h : TablesCanonical s) (n : Nat) :
    TablesCanonical (maskEvents n s) :=
  h.setEvents _ (wf_foldl_put _ (fun _ _ ht => Table.wf_put (d := fun _ => EventRecord.reset) _ _ ht) _ h.events)

theorem TablesCanonical.survives : SurvivesAdmission TablesCanonical where
  account _ _ _ h := h.setAccount _ _
  free _ _ h := { h with }
  grant _ _ _ h := h.setGrant _ _
  clearGrant _ _ h := h.clearGrant _
  set _ _ _ h := h.setIndexSet _ _
  stream _ _ _ h := h.setStream _ _
  unit _ _ _ _ h := h.setUnit _ _
  staged _ _ h := { h with }
  event _ _ h := h.setEvent _
  captured _ _ h := { h with }
  place _ _ _ h := h.place _ _
  retake _ _ _ _ h := h.callRetake _ _ _
  waiting _ _ h := { h with }

theorem TablesCanonical.keeps : KeepsAll TablesCanonical := by
  constructor; constructor; constructor
  case rule => exact fun _ _ _ h => h.setRule _ _
  case tenant => exact fun _ _ _ h => h.setTenant _ _
  case trackers =>
    exact fun _ h =>
      { h with tenants := Table.wf_mapPut (fun v : Tenant => { v with tracker := RunTracker.reset }) h.tenants }
  case account => exact fun _ _ _ _ h => h.setAccount _ _
  case grant => exact fun _ _ _ h => h.setGrant _ _
  case clearGrant => exact fun _ _ h => h.clearGrant _
  case fill => exact fun _ _ _ _ _ h => { h.setFrame _ _ with }
  case overwrite => exact fun _ _ _ _ _ _ _ h => { h.setFrame _ _ with }
  case mark => exact fun _ _ _ _ _ _ _ h => h.setFrame _ _
  case clearFrame => exact fun _ _ h => h.clearFrame _
  case setFreed => exact fun _ _ _ h => h.setFreed _ _
  case clearFreed => exact fun _ _ h => h.clearFreed _
  case reserved => exact fun _ _ _ h => h.setIndexSet _ _
  case wayInsert => exact fun _ _ _ _ _ h => h.setIndexSet _ _
  case wayRemove => exact fun _ _ _ h => h.setIndexSet _ _
  case stream => exact fun _ _ _ h => h.setStream _ _
  case unit => exact fun _ _ _ h => h.setUnit _ _
  case clearUnit => exact fun _ _ h => h.clearUnit _
  case slot => exact fun _ _ _ h => h.setSlot _ _
  case lane => exact fun _ _ _ _ h => h.setLane _ _
  case flush => exact fun _ _ _ h => h.setFlush _ _
  case dropFlush => exact fun _ _ _ h => { h with flushes := Table.sorted_erase _ h.flushes }
  case noFlushes => exact fun _ h => { h with flushes := rfl }
  case event => exact fun _ _ h => h.setEvent _
  case place => exact fun _ _ _ h => h.place _ _
  case takeHead => exact fun _ _ _ h => h.setLink _ _
  case stallHead => exact fun _ _ _ h => h.setLink _ _
  case callRetake => exact fun _ _ _ _ h => h.callRetake _ _ _
  case join => exact fun _ _ _ h => { h.setAccount _ _ with }
  case walk => exact fun _ h => TablesCanonical.survives.retestWalk h
  case removeEntry => exact fun _ e _ h => TablesCanonical.survives.removeEntry e h
  case removeLinkEntries => exact fun _ l h => TablesCanonical.survives.removeLinkEntries l h
  case powerFailAdmission => exact fun _ h => TablesCanonical.survives.powerFailAdmission h
  case emit => exact fun _ _ _ h => h.emit _ _
  case cleared => exact fun _ _ h => h.setLink _ _
  case bringUp => exact fun _ _ h => h.setLink _ _
  case inSeq => exact fun _ _ _ h => h.setLink _ _
  case refused => exact fun _ _ _ h => h.setLink _ _
  case enqueue => exact fun _ _ _ _ _ h => h.setLink _ _
  case drain => exact fun _ _ _ h => h.setDrain _ _
  case clearEvents => exact fun _ _ h => h.clearEvents _
  case maskEvents => exact fun _ _ h => h.maskEvents _
  case scrub => exact fun _ _ h => { h with freed := Table.wf_filter _ h.freed }
  all_goals intros; rename_i h; exact { h with }

theorem TablesCanonical.reset : TablesCanonical State.reset := by
  constructor <;> rfl

theorem TablesCanonical.step {s t : State} (h : TablesCanonical s) (ht : step s = .next t) : TablesCanonical t :=
  TablesCanonical.keeps.acts.step (fun _ _ => { TablesCanonical.reset with }) (fun _ _ _ h => { h with })
    (fun _ _ h => { h with }) h ht

/-! ### The ways of a set -/

/-- The ways of every set stand in rising number. -/
def WaysSorted (s : State) : Prop := ∀ x, Table.sorted (s.indexSet x).ways = true

theorem WaysSorted.congr {s t : State} (h : WaysSorted s) (hsets : t.sets = s.sets) : WaysSorted t := by
  intro x
  simp only [State.indexSet, hsets]
  exact h x

/-- A set's ways may change in number only, or in order. -/
theorem WaysSorted.of_ways {s t : State} (h : WaysSorted s) (hways : ∀ x, (t.indexSet x).ways = (s.indexSet x).ways) :
    WaysSorted t := fun x => by
  rw [hways]
  exact h x

theorem WaysSorted.releaseSets {s : State} (h : WaysSorted s) (l : List (Nat × Nat)) : WaysSorted (releaseSets l s) :=
  h.of_ways fun x => by rw [indexSet_releaseSets]

theorem WaysSorted.reserveSets {s : State} (h : WaysSorted s) (l : List (Nat × Nat)) : WaysSorted (reserveSets l s) :=
  h.of_ways fun x => by rw [indexSet_reserveSets]

theorem WaysSorted.releaseFrame {s : State} (h : WaysSorted s) (f : Nat) : WaysSorted (releaseFrame f s) := by
  intro x
  rw [set_releaseFrame]
  split
  · split
    · exact Table.sorted_filter _ (h x)
    · exact h x
  · exact h x

theorem WaysSorted.returnGrant {s : State} (h : WaysSorted s) (g : Nat) (v : Grant) : WaysSorted (returnGrant g v s) :=
  WaysSorted.congr (h.congr (t := returnFrames v.account v.n s) rfl |>.releaseSets v.sets)
    (same_releaseRecords v.stream v.k _).sets

/-- What a placement writes to a set keeps its ways in order (R60 to R65). -/
theorem WaysSorted.placeSlice {s t : State} {w : SliceWrite} {o : Placed} (h : WaysSorted s)
    (ht : placeSlice w s = .ok (o, t)) : WaysSorted t := by
  have write {frames : Table Frame} {q : IndexSet} {back : Nat} (after : Placing s t w frames q back)
      (hq : Table.sorted q.ways = true) : WaysSorted t := by
    intro x
    rw [after.set]
    split
    · exact hq
    · exact h x
  cases placeSlice_effect ht with
  | miss f i r found free new vacant after => exact write after (Table.sorted_insert _ _ (h _))
  | inPlace i y v v' found held key account void after => exact write after (h _)
  | dropped after => exact write after (h _)
  | supersede i f y v r found held free other new after => exact write after (Table.sorted_insert _ _ (h _))

theorem WaysSorted.acts : LedgerActs WaysSorted where
  quiet _ _ k h := h.congr k.sets
  waiting _ _ _ h := h.congr rfl
  limits _ _ _ _ _ h := h.congr rfl
  granted s _ _ _ a _ key n _ _ _ h :=
    WaysSorted.congr (h.congr (t := chargeFrames a n s) rfl |>.reserveSets (setCounts key n)) rfl
  returnGrant _ _ _ _ h := h.returnGrant _ _
  lapseGrants _ _ h := fold_keeps (fun s (q : Nat × Grant) => lapseGrant q.1 q.2 s)
    (fun _ _ h => WaysSorted.congr (h.returnGrant _ _) (same_setEvent _ _).ledger.sets) _ h
  settled _ _ _ g v _ _ _ hp h :=
    WaysSorted.congr (t := settleGrant g v _) (placeSlices_keeps (fun _ _ _ _ ht h => h.placeSlice ht) _ hp h)
      (same_releaseRecords v.stream v.k _).sets
  frame _ _ _ _ _ _ _ _ h := h.congr rfl
  releaseFrame _ _ h := h.releaseFrame _

theorem WaysSorted.reset : WaysSorted State.reset := fun _ => rfl

theorem WaysSorted.step {s t : State} (h : WaysSorted s) (ht : step s = .next t) : WaysSorted t :=
  WaysSorted.acts.acts.acts.step (fun _ _ => WaysSorted.reset.congr rfl) (fun _ _ _ h => h.congr rfl)
    (fun _ _ h => h.congr rfl) h ht

/-! ### The obligation -/

/-- The executable clause on the ways, of a canonical table of sets, is the predicate. -/
theorem all_sets_iff {s : State} (h : Table.wf (fun _ => IndexSet.reset) s.sets = true) :
    s.sets.all (fun p => Table.sorted p.2.ways) = true ↔ WaysSorted s := by
  have hsorted : Table.sorted s.sets = true := by
    rw [Table.wf, Bool.and_eq_true] at h
    exact h.1
  rw [List.all_eq_true]
  constructor
  · intro hall x
    rw [State.indexSet, Table.getD]
    cases hset : Table.find? s.sets x with
    | none => rfl
    | some v => exact hall _ (Table.mem_of_find? hset)
  · rintro hways ⟨x, v⟩ hmem
    have hset : s.indexSet x = v := by rw [State.indexSet, Table.getD, Table.find?_of_mem hsorted hmem]; rfl
    exact hset ▸ hways x

theorem tablesWf_iff (s : State) : tablesWf s = true ↔ TablesCanonical s ∧ WaysSorted s := by
  constructor
  · intro h
    simp only [tablesWf, framesWf, Bool.and_eq_true, and_assoc] at h
    obtain ⟨hframes, hfreed, hgrants, hunits, hflushes, hdrains, hrules, htenants, haccounts, hsets, hstreams, hslots,
      hlanes, hevents, hlinks, hways⟩ := h
    exact ⟨⟨hframes, hfreed, hgrants, hunits, hflushes, hdrains, hrules, htenants, haccounts, hsets, hstreams, hslots,
      hlanes, hevents, hlinks⟩, (all_sets_iff hsets).mp hways⟩
  · rintro ⟨h, hways⟩
    simp [tablesWf, framesWf, h.frames, h.freed, h.grants, h.units, h.flushes, h.drains, h.rules, h.tenants,
      h.accounts, h.sets, h.streams, h.slots, h.lanes, h.events, h.links, (all_sets_iff h.sets).mpr hways]

/-- Settles O56: each clause survives every single update of a record. -/
theorem stepsKeepTheTablesCanonical : Obligations.StepsKeepTheTablesCanonical := by
  unfold Obligations.StepsKeepTheTablesCanonical
  intro s t h ht
  rw [tablesWf_iff] at h ⊢
  obtain ⟨htables, hways⟩ := h
  exact ⟨htables.step ht, hways.step ht⟩

end Sys2Proof.Machine
end

section
/-! SUPPORT. The machine's steps, its reset values, the board lines and the start-up, and three small rules of
records (O1, O2, O4 to O9, O32, O36, O54). -/

namespace Sys2Proof.Machine

/-! ### Steps (log entry 4) -/

theorem step_of_empty {s : State} (h : s.pending = []) : step s = idle s := by
  rw [step, h]

/-- Where no event is due, the timebase advances. -/
theorem idle_of_none {s : State} (h : dueEvents s = []) : idle s = .next (tick { s with idles := s.idles + 1 }) := by
  simp [idle, h]

/-- Where some are due, one of them is taken. -/
theorem idle_of_some {s : State} (h : dueEvents s ≠ []) :
    ∃ c ∈ dueEvents s, idle s = exec c { s with idles := s.idles + 1 } := by
  have hlt : Config.dueChoice s.idles % (dueEvents s).length < (dueEvents s).length :=
    Nat.mod_lt _ (List.length_pos_iff.mpr h)
  exact ⟨_, List.getElem_mem hlt, by simp only [idle, List.getElem?_eq_getElem hlt]⟩

theorem tick_inReset {s : State} (h : s.resetAsserted = true) : tick s = s := by simp [tick, h]

theorem tick_of_not_scrubbing {s : State} (h : s.resetAsserted = false)
    (hscrub : ¬(s.part = .starting ∧ s.scrubbing = true)) : tick s = { s with now := s.now + 1 } := by
  simp [tick, h, scrubOn, hscrub]

theorem tick_of_scrubbing {s : State} (h : s.resetAsserted = false) (hpart : s.part = .starting)
    (hscrub : s.scrubbing = true) :
    tick s = scrubTo (min Config.frameCount (s.scrubbed + Config.scrubStride s.idles))
      { s with now := s.now + 1 } := by
  simp [tick, h, scrubOn, hpart, hscrub]

/-- Settles O1, by the definition of a step. -/
theorem stepRunsFrontCommand : Obligations.StepRunsFrontCommand := by
  unfold Obligations.StepRunsFrontCommand
  intro c rest s h
  rw [step, h]

/-- Settles O2: the free value picks among the events that are due, and with none due only the tick is left. -/
theorem idleStepFollowsTheClock : Obligations.IdleStepFollowsTheClock := by
  unfold Obligations.IdleStepFollowsTheClock
  intro s hempty
  rw [step_of_empty hempty]
  refine ⟨fun hdue hreset hscrub => ?_, fun hreset hpart hscrub hbound honly => ?_, fun hdue hreset => ?_,
    idle_of_some⟩
  · exact (idle_of_none hdue).trans (congrArg Host.Outcome.next (tick_of_not_scrubbing hreset hscrub))
  · by_cases hdue : dueEvents s = []
    · refine .inl ⟨hdue, min 65536 (s.scrubbed + Config.scrubStride (s.idles + 1)), by omega, by omega, ?_⟩
      exact (idle_of_none hdue).trans (congrArg Host.Outcome.next (tick_of_scrubbing hreset hpart hscrub))
    · obtain ⟨c, hc, hidle⟩ := idle_of_some hdue
      rw [honly c hc] at hidle
      exact .inr ⟨hdue, hidle⟩
  · exact (idle_of_none hdue).trans (congrArg Host.Outcome.next (tick_inReset hreset))

/-! ### The values after the full reset -/

theorem sharedFree_reset : sharedFree State.reset = 65536 := by
  have hsum : sumAccounts unusedReserve State.reset = 0 := by
    unfold sumAccounts
    exact List.sum_eq_zero fun n hn => by
      obtain ⟨a, -, rfl⟩ := List.mem_map.mp hn
      rfl
  rw [sharedFree, hsum]
  rfl

/-- Settles O4: no table of the reset state lists a record, so each number holds its reset value. -/
theorem resetValues : Obligations.ResetValues := by
  unfold Obligations.ResetValues
  refine ⟨rfl, fun _ => rfl, fun _ => rfl, fun _ => rfl, rfl, rfl, rfl, fun _ => rfl, rfl, sharedFree_reset,
    fun _ => rfl, rfl, fun _ => ⟨rfl, rfl⟩, rfl, rfl, rfl, fun _ => rfl, fun _ => rfl, fun _ => rfl, rfl, rfl, rfl,
    rfl, fun _ => rfl, fun _ => rfl, rfl, rfl, rfl, fun _ => rfl, rfl, rfl, rfl, rfl, fun _ => rfl,
    fun l => ⟨rfl, fun c => ?_, rfl, rfl, rfl, rfl, rfl, rfl, rfl, rfl⟩, rfl, rfl, rfl, rfl, rfl, rfl⟩
  cases c <;> rfl

/-- Settles O5, by the definition of the full reset. -/
theorem fullResetRestoresRecords : Obligations.FullResetRestoresRecords := fun _ => rfl

/-- Settles O54. -/
theorem lawsHoldAtReset : Obligations.LawsHoldAtReset :=
  ⟨AlertLaw.reset, SafeLaw.reset, LaneLaw.reset, SequenceLaw.reset, HeldLaw.reset, BoundsLaw.reset,
    (tablesWf_iff _).mpr ⟨TablesCanonical.reset, WaysSorted.reset⟩, UnitLaw.reset, BalanceLaw.reset, SetLaw.reset,
    IndexLaw.reset⟩

/-! ### The board lines and the start-up -/

/-- Settles O6. -/
theorem releaseStartsTheScrub : Obligations.ReleaseStartsTheScrub := by
  unfold Obligations.ReleaseStartsTheScrub
  intro s hreset
  refine ⟨by simp [exec, execResetNRelease, hreset], ?_⟩
  let released : State := { s with resetAsserted := false, part := .starting, scrubbing := true, pfailAsserted := true }
  have hexec : exec (.resetNRelease true) s = .next (enterPowerFail released) := by
    simp [exec, execResetNRelease, hreset, released]
  obtain ⟨hpart, hscrub, hstate, htime, -, -, hwaiting, hgrants, -⟩ := enterPowerFail_sets released
  have hframe := enterPowerFail_frame released
  exact ⟨_, hexec, (congrArg State.resetAsserted hframe :), hpart, hscrub, (congrArg State.pfailAsserted hframe :),
    hstate, htime, hgrants, hwaiting⟩

/-- Settles O7. -/
theorem scrubCompletionStops : Obligations.ScrubCompletionStops := by
  unfold Obligations.ScrubCompletionStops
  intro s
  refine ⟨fun hpart hscrub => ⟨_, by rw [exec, execScrubComplete, if_pos ⟨hpart, hscrub⟩], rfl, fun f hf hfree => ?_,
    rfl⟩, fun hidle => ?_⟩
  · have hfreed : Table.find? ((s.freed.filter fun p => decide (Config.frameCount ≤ p.1))) f = none := by
      cases hfound : Table.find? (s.freed.filter fun p => decide (Config.frameCount ≤ p.1)) f with
      | none => rfl
      | some v =>
        have hmem := (List.mem_filter.mp (Table.mem_of_find? hfound)).2
        simp only [decide_eq_true_eq] at hmem
        exact absurd hf (Nat.not_lt.mpr hmem)
    have hzero : Table.getD Stored.zero (s.freed.filter fun p => decide (Config.frameCount ≤ p.1)) f = Stored.zero := by
      rw [Table.getD, hfreed]
      rfl
    rw [State.stored?]
    have hheld : ({ scrubTo Config.frameCount s with part := .stopped, scrubbing := false } : State).frame? f = none :=
      hfree
    rw [hheld]
    exact (if_pos hf).trans (congrArg some hzero)
  · have hno : ¬(s.part = .starting ∧ s.scrubbing = true) := by
      rintro ⟨hpart, hscrub⟩
      rcases hidle with h | h
      · exact h hpart
      · rw [hscrub] at h
        cases h
    rw [exec, execScrubComplete, if_neg hno]

/-- Settles O8: the entry is taken apart by `enterPowerFail_sets`, `_returns` and `_frame`. -/
theorem powerFailEntry : Obligations.PowerFailEntry := by
  unfold Obligations.PowerFailEntry
  intro s hreset
  refine ⟨fun hpart => ?_, fun hpart => ?_⟩
  · let asserted : State := { s with pfailAsserted := true }
    have hexec : exec .pfailNAssertion s = .next (enterPowerFail asserted) := by
      have hno : ¬(s.resetAsserted = true ∨ s.part = .powerFail) := by
        rintro (h | h)
        · rw [hreset] at h
          cases h
        · exact hpart h
      simp only [exec, execPfailNAssertion, if_neg hno]
      rfl
    obtain ⟨hentered, hscrub, hstate, htime, hvisit, hsafe, hwaiting, hgrants, hflag⟩ := enterPowerFail_sets asserted
    have R := enterPowerFail_returns asserted
    have hframe := enterPowerFail_frame asserted
    obtain ⟨hframes, hfrom, hways, hrecords⟩ := lapsedAll s
    refine ⟨_, hexec, hentered, (congrArg State.pfailAsserted hframe :), hscrub, (congrArg State.scrubbed hframe :),
      hstate, htime, hflag, hgrants, hframes ▸ R.free, fun a => hfrom a ▸ R.account a, fun hheld a => ?_,
      fun x => hways x ▸ R.set x, fun k => hrecords k ▸ R.records k, R.lapsed, hwaiting, R.captures, R.refusals,
      R.links, fun hsorted hcounter v u hu => ?_, fun v u hu ho => mem_openUnits hu ho, R.vacant,
      (congrArg State.frames hframe :), (congrArg State.freed hframe :), (congrArg State.nextSeq hframe :),
      (congrArg State.flushes hframe :), (congrArg State.flushOrder hframe :), (congrArg State.lanes hframe :),
      (congrArg State.faultList hframe :), (congrArg State.reportQueue hframe :), (congrArg State.tenants hframe :),
      (congrArg State.rules hframe :), (congrArg State.drainCount hframe :), hsafe,
      (congrArg State.wheelPos hframe :), fun hrunning => hvisit.trans (if_pos hrunning),
      fun hnot => hvisit.trans (if_neg hnot)⟩
    · rw [R.account]
      exact Nat.sub_eq_zero_of_le (Nat.le_of_eq (hheld a))
    · obtain ⟨r, hunits, hstaged, r', G, hunits', hstreams'⟩ := R.staged hsorted hcounter
      have hr : r.unit? v = some u := (congrArg (Table.find? · v) hunits :).trans hu
      have hafter : (enterPowerFail asserted).unit? v = r'.unit? v := congrArg (Table.find? · v) hunits'
      have hstream : (enterPowerFail asserted).stream (v / 64) = r'.stream (v / 64) :=
        congrArg (Table.getD Stream.reset · (v / 64)) hstreams'
      rw [hafter, hstream]
      refine ⟨fun hnot => ?_, fun earlier later hlist => ?_⟩
      · have hv : v ∉ openUnits s := fun hmem => by
          obtain ⟨w, hw, ho⟩ := (mem_openUnits_iff hsorted v).mp hmem
          rw [hu] at hw
          cases hw
          exact hnot ho
        exact (G.others v hv).trans hr
      · have hmem : v ∈ openUnits s := by simp [hlist]
        obtain ⟨w, hw, ho⟩ := (mem_openUnits_iff hsorted v).mp hmem
        rw [hu] at hw
        cases hw
        have hset := G.staged earlier v later hlist u hr
        rw [hstaged] at hset
        exact ⟨ho, G.closed v hmem, hset⟩
  · simp [exec, execPfailNAssertion, hpart]

/-! ### Queues of a link -/

/-- Settles O9. -/
theorem queuesTakeAndPlace : Obligations.QueuesTakeAndPlace := by
  unfold Obligations.QueuesTakeAndPlace
  intro s l m c
  have hqueue (c' : Channel) : ((takeHead l c s).link l).queue c' =
      if c = c' then { messages := ((s.link l).queue c).messages.tail, stalled := false, retake := false }
      else (s.link l).queue c' := by
    rw [← Link.queue_setQueue]
    simp only [takeHead, State.link_setLink, if_pos]
    cases c' <;> rfl
  refine ⟨place_down m, fun hup hroom => ?_, fun hup hfull => ?_, place_frame l m s, ?_, fun c' hc => ?_, ?_, ?_,
    takeHead_frame l c s⟩
  · rw [link_place, if_pos hup]
    exact if_pos hroom
  · rw [link_place, if_pos hup]
    exact if_neg (Nat.not_lt.mpr hfull)
  · rw [hqueue, if_pos rfl]
  · rw [hqueue, if_neg (Ne.symm hc)]
  · simp [takeHead]
  · cases c <;> simp [takeHead, Link.setQueue]

/-! ### Reads of a frame and deadlines -/

/-- Settles O32. -/
theorem frameReadEffects : Obligations.FrameReadEffects := by
  unfold Obligations.FrameReadEffects
  intro s f v r hf
  have hset (w : Frame) (n : Nat) (hn : n ≠ f) : (s.setFrame f w).frame? n = s.frame? n := by
    rw [State.frame?_setFrame, if_neg (Ne.symm hn)]
  refine ⟨?_, ?_, ?_⟩
  · rintro rfl hlatent
    simp [readFrame, readOutcome, hlatent]
  · intro hcorrected
    have hout : readOutcome v r = .corrected := by
      rcases hcorrected with rfl | ⟨rfl, hlatent⟩
      · cases hlatent : v.latent <;> simp [readOutcome, hlatent]
      · simp [readOutcome, hlatent]
    simp only [readFrame, hout]
    exact ⟨trivial, State.frame?_setFrame_same .., fun j hj => hset _ j hj, rfl, rfl⟩
  · rintro rfl
    have hout : readOutcome v .uncorrectable = .uncorrectable := by
      cases hlatent : v.latent <;> simp [readOutcome, hlatent]
    simp only [readFrame, hout]
    exact ⟨trivial, State.frame?_setFrame_same .., fun j hj => hset _ j hj, rfl, by rw [event_setEvent_same], rfl⟩

/-- Settles O36. -/
theorem deadlineRule : Obligations.DeadlineRule := by
  unfold Obligations.DeadlineRule
  intro k first last
  refine ⟨fun hpaused => ?_, fun hwindow => ?_, fun hstate hwindow hmode => ?_,
    fun hstate hwindow hmode hterm => ?_, fun hstate hwindow hmode hterm => ?_⟩
  · rw [deadlineOf, if_pos hpaused]
  · simp [deadlineOf, hwindow]
  · rw [deadlineOf, if_neg hstate, if_neg (by omega), hmode]
  · rw [deadlineOf, if_neg hstate, if_neg (by omega), hmode]
    exact if_pos hterm
  · rw [deadlineOf, if_neg hstate, if_neg (by omega), hmode]
    exact if_neg (by omega)

end Sys2Proof.Machine
end

section
/-! SUPPORT. What a link's commands do: its going UP and its reset, and the arrival of a message (O10 to O13). -/

namespace Sys2Proof.Machine

/-! ### The reset of a link (R167, R168) -/

theorem exec_linkReset {l : Nat} (hl : l ≤ 5) (s : State) : exec (.linkReset l) s = .next (resetLink l s) := by
  simp [exec, execLinkReset, linkOk, hl]

theorem exec_linkUp {l : Nat} {s : State} (hl : l ≤ 5) (hreset : s.resetAsserted = false) :
    exec (.linkUp l) s = .next (bringUp l (resetLink l s)) := by
  simp [exec, execLinkUp, linkOk, hl, hreset]

theorem resetLink_down {l : Nat} {s : State} (h : (s.link l).up = false) : resetLink l s = s := by
  simp [resetLink, h]

/-- The owners' acts, and the walk where the link had grants or entries (R168). -/
theorem resetLink_up {l : Nat} {s : State} (h : (s.link l).up = true) :
    resetLink l s = if hasLinkTraffic s l = true then retestWalk (ownersReset l (downLink l s))
      else ownersReset l (downLink l s) := by
  rw [resetLink, if_pos h]
  rfl

/-- A property of `r` that the acts of admission keep holds after the walk that may end the event. -/
theorem SurvivesAdmission.ifWalk {I : State → Prop} (K : SurvivesAdmission I) (b : Bool) {r : State} (h : I r) :
    I (if b = true then Machine.retestWalk r else r) := by
  split
  · exact K.retestWalk h
  · exact h

theorem admissionFrame_ifWalk (b : Bool) (r : State) : AdmissionFrame r (if b = true then retestWalk r else r) :=
  (AdmissionFrame.survives r).ifWalk b (.refl r)

theorem link_resetLink {l : Nat} {s : State} (h : (s.link l).up = true) :
    (resetLink l s).link l = downed (s.link l) := by
  rw [resetLink_up h]
  exact (quiet_survives l _ (downed_quiet (s.link l))).ifWalk _ (ownersReset_effect l s).link

theorem resetAsserted_resetLink (l : Nat) (s : State) : (resetLink l s).resetAsserted = s.resetAsserted := by
  cases hup : (s.link l).up with
  | false => rw [resetLink_down hup]
  | true =>
    rw [resetLink_up hup]
    exact (congrArg State.resetAsserted (admissionFrame_ifWalk _ _) :).trans
      (congrArg State.resetAsserted (ownersReset_effect l s).rest :)

/-- Settles O10. -/
theorem linkUpEffect : Obligations.LinkUpEffect := by
  unfold Obligations.LinkUpEffect
  intro s l hl hreset
  refine ⟨fun hdown => ⟨_, exec_linkUp hl hreset, ?_, ?_⟩, fun hup => ?_⟩
  · simp [resetLink_down hdown, bringUp]
  · rw [resetLink_down hdown]
    exact ⟨fun j hj => by simp [bringUp, State.link_setLink, Ne.symm hj], rfl⟩
  · have hdown : ((resetLink l s).link l).up = false := by
      rw [link_resetLink hup]
      rfl
    refine ⟨_, _, exec_linkReset hl s, ?_, exec_linkUp hl hreset⟩
    rw [exec_linkUp hl ((resetAsserted_resetLink l s).trans hreset), resetLink_down hdown]

/-! ### What is left of a link's traffic, and of its units -/

/-- Where a link has neither grant nor entry, the re-test walk gives it none (R42, R43). -/
theorem noTraffic_ifWalk {l : Nat} {r : State} (b : Bool) (hgrants : ∀ p ∈ r.grants, p.2.link ≠ l)
    (hwaiting : ∀ e ∈ r.waiting, e.link ≠ l) :
    (∀ p ∈ (if b = true then retestWalk r else r).grants, p.2.link ≠ l) ∧
      ∀ e ∈ (if b = true then retestWalk r else r).waiting, e.link ≠ l := by
  split
  · obtain ⟨hw, hg⟩ := walkFrom_links l r.waiting [] (s := r) (by simpa using hwaiting) hgrants
    exact ⟨hg, hw⟩
  · exact ⟨hgrants, hwaiting⟩

/-- A lane that a unit is IN_FLIGHT on is UP (R135, section 5.2.1). -/
theorem up_of_inFlight {s : State} (hunits : UnitLaw s) (hlanes : LaneLaw s) {v g : Nat} {u : UnitRecord}
    (hu : s.unit? v = some u) (hstate : u.state = .inFlight) (hlane : u.lane = some g) : (s.lane g).state = .up := by
  by_contra hup
  have hcount : 0 < s.units.countP fun p => p.2.state == .inFlight && p.2.lane == some g :=
    List.countP_pos_iff.mpr ⟨(v, u), Table.mem_of_find? hu, by simp [hstate, hlane]⟩
  have hzero := (hlanes g hup).2
  rw [hunits.inFlight g] at hzero
  omega

/-- A lane with an outstanding offer is UP (section 5.2.1). -/
theorem up_of_offer {s : State} (hlanes : LaneLaw s) {g : Nat} {o : LaneOffer} (ho : (s.lane g).offer = some o) :
    (s.lane g).state = .up := by
  by_contra hup
  rw [(hlanes g hup).1] at ho
  cases ho

theorem mem_lanes {l i : Nat} (hi : i < 8) : globalLane l i ∈ (List.range 8).map (globalLane l) :=
  List.mem_map.mpr ⟨i, List.mem_range.mpr hi, rfl⟩

/-- Settles O11: the owners' acts are `ownersReset_effect`, and the walk writes only what admission writes. -/
theorem linkResetEffect : Obligations.LinkResetEffect := by
  unfold Obligations.LinkResetEffect
  intro s l hl
  refine ⟨fun hdown => by rw [exec_linkReset hl, resetLink_down hdown], fun hup => ⟨_, exec_linkReset hl s, ?_⟩⟩
  have O := ownersReset_effect l s
  refine ⟨link_resetLink hup, ?_⟩
  rw [resetLink_up hup]
  generalize ownersReset l (downLink l s) = r at O
  have hwalk := admissionFrame_ifWalk (hasLinkTraffic s l) r
  have hnone := noTraffic_ifWalk (l := l) (hasLinkTraffic s l) (r := r)
  have hquiet (h : hasLinkTraffic s l = false) : (if hasLinkTraffic s l = true then retestWalk r else r) = r := by
    rw [h]
    rfl
  generalize hfinal : (if hasLinkTraffic s l = true then retestWalk r else r) = t at hwalk hnone hquiet ⊢
  refine ⟨(congrArg State.frames hwalk :).trans (congrArg State.frames O.rest :),
    (congrArg State.nextSeq hwalk :).trans (congrArg State.nextSeq O.rest :),
    (congrArg State.slots hwalk :).trans (congrArg State.slots O.rest :),
    (congrArg State.wheelPos hwalk :).trans (congrArg State.wheelPos O.rest :),
    (congrArg State.faultList hwalk :).trans (congrArg State.faultList O.rest :),
    (congrArg State.part hwalk :).trans (congrArg State.part O.rest :),
    (congrArg State.cfg hwalk :).trans (congrArg State.cfg O.rest :),
    (congrArg State.rules hwalk :).trans (congrArg State.rules O.rest :),
    (congrArg State.reclaimMap hwalk :).trans (congrArg State.reclaimMap O.rest :), fun h4 => ?_, fun h0 => ?_,
    fun h1 h4 => ?_, fun h5 hidle => ?_, (congrArg State.reportQueue hwalk :).trans O.reports,
    fun h4 => ⟨r, hfinal.symm, ?_⟩⟩
  · have E := O.ends h4
    obtain ⟨hgrants, hwaiting⟩ := hnone E.noGrant fun e he => by
      rw [E.waiting, List.mem_filter] at he
      simpa using he.2
    exact ⟨fun g v hv => hgrants _ (Table.mem_of_find? hv), hwaiting⟩
  · obtain ⟨hflushes, horder, hlanes, -, htrackers⟩ := O.intake h0
    refine ⟨(congrArg State.flushes hwalk :).trans hflushes, (congrArg State.flushOrder hwalk :).trans horder,
      (congrArg State.lanes hwalk :).trans hlanes, fun i => ?_⟩
    exact (congrArg (fun q => (Table.getD Tenant.reset q i).tracker) (congrArg State.tenants hwalk :)).trans
      (htrackers i)
  · obtain ⟨hflushes, -, htenants, hlanes, -⟩ := O.drain h1 h4
    refine ⟨(congrArg State.flushes hwalk :).trans hflushes, (congrArg State.tenants hwalk :).trans htenants,
      fun i hi => ?_⟩
    have hlane : t.lane (globalLane l i) = r.lane (globalLane l i) :=
      congrArg (Table.getD Lane.reset · (globalLane l i)) (congrArg State.lanes hwalk :)
    rw [hlane]
    exact hlanes i hi
  · subst h5
    rw [hquiet hidle]
    have hrest := O.mgmt (le_refl 5)
    exact ⟨(congrArg State.units hrest :), (congrArg State.lanes hrest :), (congrArg State.flushes hrest :),
      (congrArg State.grants hrest :), (congrArg State.waiting hrest :), (congrArg State.events hrest :),
      (congrArg State.alert hrest :)⟩
  · have E := O.ends h4
    refine ⟨E.grants, E.free, E.account, E.set, E.records, E.lapsed, E.waiting, fun h0 => (O.intake h0).2.2.2.1,
      fun h1 hunits hlanes v u hu => ?_⟩
    have hafter := (O.drain h1 h4).2.2.2.2 hunits.sorted v
    rw [hu, Option.map_some] at hafter
    rw [hafter]
    refine ⟨?_, ?_, fun hflight hoffered => ?_⟩
    · rintro hstate ⟨i, hi, hlane⟩
      rw [leftAll_inFlight s _ v u (mem_lanes hi) (up_of_inFlight hunits hlanes hu hstate hlane) ⟨hstate, hlane⟩]
    · rintro hstate ⟨i, o, hi, ho, hv⟩
      rw [leftAll_offered s _ v u (mem_lanes hi) (up_of_offer hlanes ho) hstate ⟨o, ho, hv⟩]
    · rw [leftAll_same]
      intro g hg
      obtain ⟨i, hi, rfl⟩ := List.mem_map.mp hg
      rw [List.mem_range] at hi
      exact ⟨fun ⟨hstate, hlane⟩ => hflight ⟨hstate, i, hi, hlane⟩, fun ⟨_, o, ho, hv⟩ => hoffered i o hi ho hv⟩

/-! ### Arrivals (R161) -/

theorem exec_messageArrival {l : Nat} {s : State} (hl : l ≤ 5) (hup : (s.link l).up = true) (m : Message) :
    exec (.messageArrival l m) s = .next (arrival l m s) := by
  simp [exec, execMessageArrival, linkOk, hl, hup]

/-- The state in which the checks are made after that of the link sequence: it has risen (R161). -/
def sequenced (l : Nat) (s : State) : State :=
  s.setLink l { s.link l with inSeq := ((s.link l).inSeq + 1) % 65536 }

theorem link_sequenced (l : Nat) (s : State) :
    (sequenced l s).link l = { s.link l with inSeq := ((s.link l).inSeq + 1) % 65536 } := State.link_setLink_same ..

theorem arrival_sequenced {l : Nat} {s : State} {m : Message} (hseq : m.linkSeq = (s.link l).inSeq) :
    arrival l m s =
      match kindChannel l m.kind with
      | none => refuseMessage l m .unknownKind (sequenced l s)
      | some c =>
        if !sizeOk l m then refuseMessage l m .badLength (sequenced l s)
        else if (((sequenced l s).link l).queue c).messages.length < channelDepth l c then
          enqueue l c m (sequenced l s)
        else refuseMessage l m .overrun (sequenced l s) := by
  unfold arrival
  dsimp only
  rw [if_neg (not_not.mpr hseq)]
  rfl

theorem queue_sequenced (l : Nat) (s : State) (c : Channel) :
    ((sequenced l s).link l).queue c = (s.link l).queue c := by
  rw [link_sequenced]
  cases c <;> rfl

/-- A change of the queue of a channel leaves the link's own side as it is. -/
theorem Link.setQueue_side (k : Link) (c : Channel) (q : ChannelQueue) :
    (k.setQueue c q).inSeq = k.inSeq ∧ (k.setQueue c q).outbound = k.outbound ∧
      (k.setQueue c q).refused = k.refused := by
  cases c <;> exact ⟨rfl, rfl, rfl⟩

/-- Settles O12. -/
theorem arrivalJoinsItsQueue : Obligations.ArrivalJoinsItsQueue := by
  unfold Obligations.ArrivalJoinsItsQueue
  intro s l m c hl hup hseq hkind hsize hroom
  have harrival : arrival l m s = enqueue l c m (sequenced l s) := by
    rw [arrival_sequenced hseq, hkind]
    simp only [hsize, queue_sequenced, hroom, if_true, Bool.not_true, Bool.false_eq_true, if_false]
  have hlink : (enqueue l c m (sequenced l s)).link l =
      ((sequenced l s).link l).setQueue c
        { (s.link l).queue c with messages := ((s.link l).queue c).messages ++ [m] } := by
    rw [← queue_sequenced]
    exact State.link_setLink_same ..
  obtain ⟨hin, hout, hrefused⟩ := Link.setQueue_side ((sequenced l s).link l) c
    { (s.link l).queue c with messages := ((s.link l).queue c).messages ++ [m] }
  refine ⟨_, by rw [exec_messageArrival hl hup, harrival], ?_⟩
  simp only [hlink, Link.queue_setQueue, if_true, hin, hout, hrefused]
  rw [link_sequenced]
  refine ⟨trivial, trivial, fun c' hc => ?_, rfl, rfl, rfl, fun j hj => ?_, rfl⟩
  · rw [if_neg (Ne.symm hc)]
    cases c' <;> rfl
  · simp [enqueue, sequenced, State.link_setLink, Ne.symm hj]

/-- Settles O13: the three checks are made in the order of the model. -/
theorem arrivalTurnedAway : Obligations.ArrivalTurnedAway := by
  unfold Obligations.ArrivalTurnedAway
  intro s l m hl hup
  refine ⟨fun hseq => ?_, fun hseq code hcode => ?_⟩
  · rw [exec_messageArrival hl hup, exec_linkReset hl, arrival, if_pos hseq, resetLink, if_pos hup]
  · have harrival : arrival l m s = refuseMessage l m code (sequenced l s) := by
      rw [arrival_sequenced hseq]
      rcases hcode with ⟨rfl, hkind⟩ | ⟨rfl, hkind, hsize⟩ | ⟨rfl, hsize, c, hkind, hfull⟩
      · rw [hkind]
      · obtain ⟨c, hc⟩ := Option.isSome_iff_exists.mp hkind
        rw [hc]
        exact if_pos (by simp [hsize])
      · rw [hkind]
        simp only [hsize, queue_sequenced, Nat.not_lt.mpr hfull, Bool.not_true, Bool.false_eq_true, if_false]
    let refused : State :=
      (sequenced l s).setLink l
        { (sequenced l s).link l with refused := satSucc ((sequenced l s).link l).refused }
    refine ⟨refused, ?_, ⟨fun j hj => ?_, rfl⟩, by rw [exec_messageArrival hl hup, harrival]; rfl⟩
    · simp [refused, sequenced]
    · simp [refused, sequenced, State.link_setLink, Ne.symm hj]

end Sys2Proof.Machine
end

section
/-! SUPPORT. Messages that leave a link, and the delivery of a report (O14, O15). -/

namespace Sys2Proof.Machine

/-! ### Calls for a new taking (R40, R150, R165) -/

/-- Between `a` and `b` new takings have been called for, and nothing else has changed. -/
structure Recalled (a b : Link) : Prop where
  up : b.up = a.up
  outbound : b.outbound = a.outbound
  overflow : b.overflow = a.overflow
  inSeq : b.inSeq = a.inSeq
  taken : b.taken = a.taken
  resets : b.resets = a.resets
  messages : ∀ c, (b.queue c).messages = (a.queue c).messages
  stalled : ∀ c, (b.queue c).stalled = (a.queue c).stalled
  retake : ∀ c, (a.queue c).retake = true → (b.queue c).retake = true

theorem Recalled.refl (a : Link) : Recalled a a := ⟨rfl, rfl, rfl, rfl, rfl, rfl, fun _ => rfl, fun _ => rfl, fun _ => id⟩

theorem Recalled.trans {a b c : Link} (h : Recalled a b) (k : Recalled b c) : Recalled a c :=
  ⟨k.up.trans h.up, k.outbound.trans h.outbound, k.overflow.trans h.overflow, k.inSeq.trans h.inSeq,
    k.taken.trans h.taken, k.resets.trans h.resets, fun d => (k.messages d).trans (h.messages d),
    fun d => (k.stalled d).trans (h.stalled d), fun d hd => k.retake d (h.retake d hd)⟩

/-- A link whose queue of channel `c` has been called for again. -/
theorem recalled_setQueue (k : Link) (c : Channel) :
    Recalled k (k.setQueue c { k.queue c with retake := true }) where
  up := by cases c <;> rfl
  outbound := by cases c <;> rfl
  overflow := by cases c <;> rfl
  inSeq := by cases c <;> rfl
  taken := by cases c <;> rfl
  resets := by cases c <;> rfl
  messages d := by
    rw [Link.queue_setQueue]
    split
    · next hd => rw [hd]
    · rfl
  stalled d := by
    rw [Link.queue_setQueue]
    split
    · next hd => rw [hd]
    · rfl
  retake d hd := by
    rw [Link.queue_setQueue]
    split
    · rfl
    · exact hd

theorem recalled_callRetake (l j : Nat) (c : Channel) (k : Nat) (s : State) :
    Recalled (s.link j) ((callRetake l c k s).link j) := by
  unfold callRetake
  dsimp only
  split
  · rw [State.link_setLink]
    split
    · next hj =>
      subst hj
      exact recalled_setQueue _ _
    · exact .refl _
  · exact .refl _

/-- The head of a channel's queue has stalled, and is a message of kind `k`. -/
structure StalledHead (s : State) (l : Nat) (c : Channel) (k : Nat) : Prop where
  stalled : ((s.link l).queue c).stalled = true
  head : ∃ m, ((s.link l).queue c).messages.head? = some m ∧ m.kind = k

theorem StalledHead.recalled {s t : State} {l : Nat} {c : Channel} {k : Nat} (h : StalledHead s l c k)
    (hrecalled : Recalled (s.link l) (t.link l)) : StalledHead t l c k where
  stalled := (hrecalled.stalled c).trans h.stalled
  head := by
    rw [hrecalled.messages]
    exact h.head

/-- Where the head of a channel is a stalled message of the kind called for, it is taken again. -/
theorem StalledHead.retake {s : State} {l : Nat} {c : Channel} {k : Nat} (h : StalledHead s l c k) :
    (((callRetake l c k s).link l).queue c).retake = true := by
  obtain ⟨m, hhead, hkind⟩ := h.head
  unfold callRetake
  simp [h.stalled, hhead, hkind, Link.queue_setQueue]

/-! ### A message leaves (R164, R165) -/

/-- The link after its head has left as message `m`, before any new taking is called for. -/
def afterSend (k : Link) (m : OutMessage) : Link :=
  { k with
    outbound := k.outbound.tail ++ k.overflow.take 1
    overflow := k.overflow.tail
    outSeq := (k.outSeq + 1) % Config.linkSeqModulus
    sent := satSucc k.sent
    wire := some { linkSeq := k.outSeq, message := m } }

theorem afterSend_queue (k : Link) (m : OutMessage) (c : Channel) : (afterSend k m).queue c = k.queue c := by
  cases c <;> rfl

theorem emit_quiet {l : Nat} {s : State} (m : OutMessage) (h : (s.link l).overflow.length ≠ 1) :
    emit l m s = s.setLink l (afterSend (s.link l) m) := by
  unfold emit
  dsimp only
  rw [if_neg h]
  rfl

theorem emit_calls {l : Nat} {s : State} (m : OutMessage) (h : (s.link l).overflow.length = 1) :
    emit l m s = callLinkRetakes l (s.setLink l (afterSend (s.link l) m)) := by
  unfold emit
  dsimp only
  rw [if_pos h]
  rfl

theorem recalled_callLinkRetakes (l j : Nat) (s : State) :
    Recalled (s.link j) ((callLinkRetakes l s).link j) :=
  (recalled_callRetake _ _ _ _ _).trans (recalled_callRetake _ _ _ _ _)

theorem recalled_emit (l : Nat) (m : OutMessage) (s : State) :
    Recalled (afterSend (s.link l) m) ((emit l m s).link l) := by
  by_cases h : (s.link l).overflow.length = 1
  · have hrecalled := recalled_callLinkRetakes l l (s.setLink l (afterSend (s.link l) m))
    rw [State.link_setLink_same] at hrecalled
    rw [emit_calls m h]
    exact hrecalled
  · rw [emit_quiet m h, State.link_setLink_same]
    exact .refl _

/-- After the overflow line has emptied, a stalled Write Intent or Flush is taken again (R165). -/
theorem callLinkRetakes_retake {s : State} {l k : Nat} (h : StalledHead s l (intentChannel l) k)
    (hk : k = kindWriteIntent ∨ k = kindFlush) :
    (((callLinkRetakes l s).link l).queue (intentChannel l)).retake = true := by
  have hrecalled := recalled_callRetake l l (intentChannel l)
  unfold callLinkRetakes
  rcases hk with rfl | rfl
  · exact (h.recalled (hrecalled kindFlush s)).retake
  · exact (hrecalled _ _).retake _ h.retake

theorem links_emit {l j : Nat} (m : OutMessage) (s : State) (hj : j ≠ l) : (emit l m s).link j = s.link j := by
  have hset : (s.setLink l (afterSend (s.link l) m)).link j = s.link j := by
    rw [State.link_setLink, if_neg (Ne.symm hj)]
  by_cases h : (s.link l).overflow.length = 1
  · rw [emit_calls m h, callLinkRetakes, (callRetake_frame l _ _ _).links j hj,
      (callRetake_frame l _ _ _).links j hj, hset]
  · rw [emit_quiet m h, hset]

/-- Settles O14. -/
theorem sentMessageLeaves : Obligations.SentMessageLeaves := by
  unfold Obligations.SentMessageLeaves
  intro s l m rest hl hup hout hentry
  have hexec : exec (.messageSent l) s = .next (emit l m s) := by
    cases m <;> simp_all [exec, execMessageSent, linkOk, sendHead]
  have E := emit_effect l m s
  have R := recalled_emit l m s
  refine ⟨_, hexec, by rw [E.outbound, hout]; rfl, E.overflow, E.outSeq, E.sent, E.wire, E.up.trans hup, R.inSeq,
    R.taken, R.resets, fun c => ?_, fun hkept c => ?_, fun hempties hstalled hhead => ?_,
    fun j hj => links_emit m s hj, emit_frame l m s⟩
  · rw [R.messages, R.stalled, afterSend_queue]
    exact ⟨rfl, rfl⟩
  · rw [emit_quiet m hkept, State.link_setLink_same, afterSend_queue]
  · obtain ⟨h, hhead, hkind⟩ := hhead
    rw [emit_calls m hempties]
    refine callLinkRetakes_retake (k := h.kind) ⟨?_, h, ?_, rfl⟩ hkind
    · rw [State.link_setLink_same, afterSend_queue, hstalled]
    · rw [State.link_setLink_same, afterSend_queue, hhead]

/-! ### The delivery of a report (R139 to R142) -/

/-- The state in which the report of unit `v` has been delivered, before the re-test walk (R139, R142). -/
def delivered (tag v : Nat) (u : UnitRecord) (s : State) : State :=
  checkUnbound (unitStream v) (vacateUnit v u (leaveQueue v (emit 0 (buildReport s tag v u) s)))

theorem deliverReport_issued {s : State} {v : Nat} {u : UnitRecord} (tag : Nat) (hu : s.unit? v = some u)
    (hissued : (s.reportQueue.any fun i => i.unit == v && i.issued) = true) :
    deliverReport tag v s = .next (retestWalk (delivered tag v u s)) := by
  unfold deliverReport
  rw [hu]
  exact if_pos hissued

/-- Both commands deliver the report entry at the head of link 0 (R139, R164). -/
theorem exec_deliver {s : State} {tag v : Nat} {rest : List OutMessage} {c : Instr}
    (hc : c = .placementReportDelivery ∨ c = .messageSent 0) (hup : (s.link 0).up = true)
    (hout : (s.link 0).outbound = .reportEntry tag v :: rest) : exec c s = deliverReport tag v s := by
  rcases hc with rfl | rfl
  · simp [exec, execPlacementReportDelivery, hup, hout]
  · simp [exec, execMessageSent, linkOk, sendHead, hup, hout]

/-- A stream has no used record where each of its 64 units is VACANT (R81). -/
theorem usedRecords_eq_zero_iff (s : State) (k : Nat) :
    s.usedRecords k = 0 ↔ ∀ i, i < 64 → s.unit? (64 * k + i) = none := by
  unfold State.usedRecords
  rw [List.length_eq_zero_iff, List.filter_eq_nil_iff]
  refine forall_congr' fun i => ?_
  rw [List.mem_range]
  refine forall_congr' fun _ => ?_
  rw [Option.isSome_iff_ne_none, not_not]
  rfl

/-- A RETIRING stream becomes UNBOUND when its last record is VACANT and none is reserved (R86). -/
theorem stream_checkUnbound (k j : Nat) (s : State) :
    (checkUnbound k s).stream j =
      if k = j ∧ (s.stream k).state = .retiring ∧ (s.stream k).reserved = 0 ∧ s.usedRecords k = 0 then
        { s.stream k with state := .unbound }
      else s.stream j := by
  unfold checkUnbound
  dsimp only
  split
  · next h =>
    rw [State.stream_setStream]
    split
    · next hj => rw [if_pos ⟨hj, h⟩]
    · next hj => rw [if_neg fun hand => hj hand.1]
  · next h => rw [if_neg fun hand => h hand.2]

/-- State `r` with the fields of `s` that the delivery of a report may write, the walk apart (R142, R164). -/
def withDeliveryFields (s r : State) : State :=
  { r with
    units := s.units, frames := s.frames, freed := s.freed, sets := s.sets,
    accounts := s.accounts, free := s.free, streams := s.streams,
    reportQueue := s.reportQueue, delivered := s.delivered, links := s.links }

/-- What the delivery of a unit's report does, the walk apart (R139, R142, R164). -/
structure Delivered (s r : State) (tag v : Nat) (u : UnitRecord) : Prop where
  link : r.link 0 = (emit 0 (buildReport s tag v u) s).link 0
  unit : ∀ i, r.unit? i = if v = i then none else s.unit? i
  reportQueue : r.reportQueue = s.reportQueue.filter fun i => i.unit ≠ v
  delivered : r.delivered = s.delivered + 1
  frames : ∀ f, r.frame? f = if f ∈ u.frames then none else s.frame? f
  stored : ∀ f ∈ u.frames, ∀ fr, s.frame? f = some fr → f < s.scrubbed →
    r.stored? f = some { data := fr.data, latent := fr.latent }
  free : Table.sorted s.frames = true → r.free = s.free + s.frames.countP fun p => u.frames.contains p.1
  account : Table.sorted s.frames = true → ∀ a, r.account a =
    { s.account a with
      used := (s.account a).used - s.frames.countP fun p => u.frames.contains p.1 && p.2.record.account == a }
  set : IndexLaw s → ∀ x, r.indexSet x =
    { s.indexSet x with ways := (s.indexSet x).ways.filter fun p => !u.frames.contains p.2.frame }
  stream : ∀ k, r.stream k =
    if v / 64 = k ∧ (s.stream (v / 64)).state = .retiring ∧ (s.stream (v / 64)).reserved = 0 ∧
        ∀ i, i < 64 → 64 * (v / 64) + i ≠ v → s.unit? (64 * (v / 64) + i) = none then
      { s.stream (v / 64) with state := .unbound }
    else s.stream k
  rest : withDeliveryFields s r = s

/-- The unit's record is VACANT and its frames are released, in a state where the report has left. -/
theorem delivered_effect (tag v : Nat) (u : UnitRecord) (s : State) : Delivered s (delivered tag v u s) tag v u := by
  have hemit := emit_frame 0 (buildReport s tag v u) s
  unfold delivered vacateUnit
  obtain ⟨q, hq⟩ : ∃ q, q = emit 0 (buildReport s tag v u) s := ⟨_, rfl⟩
  rw [← hq] at hemit ⊢
  have hleft : { leaveQueue v q with reportQueue := s.reportQueue, delivered := s.delivered, links := s.links } = s :=
    (congrArg (fun x : State => { x with reportQueue := s.reportQueue, delivered := s.delivered }) hemit :)
  have hreports : (leaveQueue v q).reportQueue = s.reportQueue.filter fun i => i.unit ≠ v :=
    congrArg (List.filter fun i : ReportItem => i.unit ≠ v) (congrArg State.reportQueue hemit :)
  have hcount : (leaveQueue v q).delivered = s.delivered + 1 := congrArg (· + 1) (congrArg State.delivered hemit :)
  have hlinks : (leaveQueue v q).links = q.links := rfl
  generalize leaveQueue v q = w at hleft hreports hcount hlinks ⊢
  have F := releaseFrames_effect u.frames w
  have hset (x : Nat) (h : IndexLaw w) := set_releaseFrames u.frames x h
  generalize releaseFrames u.frames w = f at F hset ⊢
  have hunbound := checkUnbound_frame (unitStream v) (f.clearUnit v)
  have hstream := stream_checkUnbound (unitStream v) (s := f.clearUnit v)
  generalize checkUnbound (unitStream v) (f.clearUnit v) = r at hunbound hstream ⊢
  have hframes : w.frames = s.frames := (congrArg State.frames hleft :)
  have haccounts : w.accounts = s.accounts := (congrArg State.accounts hleft :)
  have hsets : w.sets = s.sets := (congrArg State.sets hleft :)
  have hfree : w.free = s.free := (congrArg State.free hleft :)
  have hunits : f.units = s.units := (congrArg State.units F.rest :).trans (congrArg State.units hleft :)
  have hstreams (k : Nat) : f.stream k = s.stream k :=
    congrArg (Table.getD Stream.reset · k)
      ((congrArg State.streams F.rest :).trans (congrArg State.streams hleft :))
  have hframe (i : Nat) : r.frame? i = if i ∈ u.frames then none else s.frame? i := by
    refine (congrArg (Table.find? · i) (congrArg State.frames hunbound :)).trans ((F.frames i).trans ?_)
    rw [State.frame?, hframes]
    rfl
  have hunit (i : Nat) : (f.clearUnit v).unit? i = if v = i then none else s.unit? i := by
    rw [State.unit?_clearUnit, State.unit?, hunits]
    rfl
  refine ⟨?_, fun i => ?_, ?_, ?_, hframe, fun i hi fr hfr hlt => ?_, fun hsorted => ?_, fun hsorted a => ?_,
    fun hlaw x => ?_, fun k => ?_, ?_⟩
  · refine congrArg (Table.getD Link.reset · 0) ?_
    exact (congrArg State.links hunbound :).trans ((congrArg State.links F.rest :).trans (hlinks.trans (hq ▸ rfl)))
  · exact (congrArg (Table.find? · i) (congrArg State.units hunbound :)).trans (hunit i)
  · exact (congrArg State.reportQueue hunbound :).trans ((congrArg State.reportQueue F.rest :).trans hreports)
  · exact (congrArg State.delivered hunbound :).trans ((congrArg State.delivered F.rest :).trans hcount)
  · have hscrubbed : r.scrubbed = s.scrubbed :=
      (congrArg State.scrubbed hunbound :).trans (F.scrubbed.trans (congrArg State.scrubbed hleft :))
    have hfreed : r.freed = f.freed := (congrArg State.freed hunbound :)
    rw [State.stored?, hframe, if_pos hi, hscrubbed, hfreed]
    refine (if_pos hlt).trans (congrArg some ?_)
    exact F.freed i hi fr (by rw [State.frame?, hframes]; exact hfr)
  · rw [← hframes] at hsorted ⊢
    exact (congrArg State.free hunbound :).trans ((F.free hsorted).trans (congrArg (· + _) hfree))
  · rw [← hframes] at hsorted ⊢
    refine (congrArg (Table.getD Account.reset · a) (congrArg State.accounts hunbound :)).trans ?_
    refine (F.account hsorted a).trans ?_
    rw [State.account, haccounts]
    rfl
  · have hlaw' : IndexLaw w := hlaw.congr
      (fun x => congrArg (fun q => (Table.getD IndexSet.reset q x).ways) hsets)
      (fun i => congrArg (fun q => (Table.find? q i).map fun v : Frame => (v.record.key, v.record.void)) hframes)
    refine (congrArg (Table.getD IndexSet.reset · x) (congrArg State.sets hunbound :)).trans ?_
    refine (hset x hlaw').trans ?_
    rw [State.indexSet, hsets]
    rfl
  · rw [hstream]
    have hk : unitStream v = v / 64 := rfl
    have hclear (j : Nat) : (f.clearUnit v).stream j = s.stream j := hstreams j
    have hvacant : (f.clearUnit v).usedRecords (v / 64) = 0 ↔
        ∀ i, i < 64 → 64 * (v / 64) + i ≠ v → s.unit? (64 * (v / 64) + i) = none := by
      rw [usedRecords_eq_zero_iff]
      refine forall_congr' fun i => forall_congr' fun _ => ?_
      rw [hunit]
      by_cases hv : v = 64 * (v / 64) + i
      · rw [if_pos hv]
        exact ⟨fun _ hne => absurd hv.symm hne, fun _ => rfl⟩
      · rw [if_neg hv]
        exact ⟨fun h _ => h, fun h => h (Ne.symm hv)⟩
    simp only [hk, hclear, hvacant]
  · exact (congrArg (withDeliveryFields s) hunbound :).trans ((congrArg (withDeliveryFields s) F.rest :).trans
      (congrArg (withDeliveryFields s) hleft :))

/-- Settles O15. -/
theorem reportDelivery : Obligations.ReportDelivery := by
  unfold Obligations.ReportDelivery
  intro s tag v u rest c hc hup hout hu hissued
  have D := delivered_effect tag v u s
  have hexec : exec c s = .next (retestWalk (delivered tag v u s)) := by
    rw [exec_deliver hc hup hout, deliverReport_issued tag hu hissued]
  have E := emit_effect 0 (buildReport s tag v u) s
  generalize delivered tag v u s = r at D hexec
  have hwalk := retestWalk_frame r
  have hwire := (wire_survives 0 (r.link 0).wire).retestWalk (s := r) rfl
  have hvacant := (vacant_survives v).retestWalk (s := r) ((D.unit v).trans (if_pos rfl))
  refine ⟨_, r, (List.range u.fill).filterMap (reportSlice s u), hexec, rfl, ?_, hwire, ?_, ?_, ?_, ?_, fun hheld => ?_,
    (D.unit v).trans (if_pos rfl), fun i hi => (D.unit i).trans (if_neg (Ne.symm hi)), D.reportQueue, D.delivered,
    fun f hf => (D.frames f).trans (if_pos hf), fun f hf => (D.frames f).trans (if_neg hf), D.stored,
    fun hsorted => ⟨D.free hsorted, D.account hsorted⟩, D.set, ?_, fun k hk => ?_, D.rest, hvacant,
    (congrArg State.reportQueue hwalk :), (congrArg State.delivered hwalk :), (congrArg State.frames hwalk :), ?_⟩
  · rw [D.link, E.wire]
    rfl
  · rw [D.link, E.outbound, hout]
    rfl
  · rw [D.link, E.overflow]
  · rw [D.link, E.outSeq]
  · rw [D.link, E.sent]
  · exact reportSlices_held s u hheld
  · rw [D.stream]
    simp only [true_and]
  · rw [D.stream, if_neg fun hand => hk hand.1.symm]
  · exact ⟨(congrArg State.nextSeq hwalk :).trans (congrArg State.nextSeq D.rest :),
      (congrArg State.lanes hwalk :).trans (congrArg State.lanes D.rest :),
      (congrArg State.flushes hwalk :).trans (congrArg State.flushes D.rest :),
      (congrArg State.tenants hwalk :).trans (congrArg State.tenants D.rest :),
      (congrArg State.drainCount hwalk :).trans (congrArg State.drainCount D.rest :),
      (congrArg State.faultList hwalk :).trans (congrArg State.faultList D.rest :),
      (congrArg State.cfg hwalk :).trans (congrArg State.cfg D.rest :)⟩

end Sys2Proof.Machine
end

section
/-! SUPPORT. The classification of Write Intents, their refusals at stage 0 and their admission (O17 to O20). -/

namespace Sys2Proof.Machine

/-! ### Classification (R5 to R13, R17) -/

theorem judge_fit {s : State} {cls : WriteClass} {c : Nat} (d : Nat) (h : (s.stream c).fit cls = true) :
    judge s cls c d = { stream := some c, fellBack := false } := by
  rw [judge, if_pos h]

theorem judge_fallback {s : State} {cls : WriteClass} {c d : Nat} (h : (s.stream c).fit cls = false)
    (hd : (s.stream d).fit cls = true) : judge s cls c d = { stream := some d, fellBack := true } := by
  rw [judge, if_neg (by simp [h]), if_pos hd]

theorem judge_none {s : State} {cls : WriteClass} {c d : Nat} (h : (s.stream c).fit cls = false)
    (hd : (s.stream d).fit cls = false) : judge s cls c d = { stream := none, fellBack := false } := by
  rw [judge, if_neg (by simp [h]), if_neg (by simp [hd])]

/-- The rule that ended the search decides where it is a STREAM rule (R7). -/
theorem chooseHost_rule {s : State} {v : Tenant} {ended hint : Option Nat} {length r k : Nat}
    (hended : ended = some r) (haction : (s.rule r).action = .stream k) : chooseHost s v ended length hint = k := by
  simp [chooseHost, hended, haction]

/-- Any other leaves the choice to the tenant's record (R7, R8). -/
theorem chooseHost_record {s : State} {v : Tenant} {ended hint : Option Nat} {length : Nat}
    (h : ∀ r k, ended = some r → (s.rule r).action ≠ .stream k) :
    chooseHost s v ended length hint = chooseByRecord s v length hint := by
  unfold chooseHost
  split
  · next k hk =>
    obtain ⟨r, hr, haction⟩ := Option.map_eq_some_iff.mp hk
    exact absurd haction (h r k hr)
  · rfl

theorem chooseByRecord_hint {s : State} {v : Tenant} {length h k : Nat} (hk : v.hintMap.getD h none = some k) :
    chooseByRecord s v length (some h) = k := by
  unfold chooseByRecord
  rw [Option.bind_some, hk]

theorem hint_none {v : Tenant} {hint : Option Nat} (h : ∀ i, hint = some i → v.hintMap.getD i none = none) :
    (hint.bind fun i => v.hintMap.getD i none) = none := by
  cases hint with
  | none => rfl
  | some i => exact h i rfl

theorem chooseByRecord_sequential {s : State} {v : Tenant} {hint : Option Nat} {length k : Nat}
    (h : ∀ i, hint = some i → v.hintMap.getD i none = none) (hk : v.seqStream = some k)
    (hlength : s.cfg.seqThreshold ≤ length) : chooseByRecord s v length hint = k := by
  unfold chooseByRecord
  rw [hint_none h, hk]
  exact if_pos hlength

theorem chooseByRecord_default {s : State} {v : Tenant} {hint : Option Nat} {length : Nat}
    (h : ∀ i, hint = some i → v.hintMap.getD i none = none)
    (hseq : v.seqStream = none ∨ length < s.cfg.seqThreshold) :
    chooseByRecord s v length hint = v.defaultStream := by
  unfold chooseByRecord
  rw [hint_none h]
  cases hk : v.seqStream with
  | none => rfl
  | some k =>
    rcases hseq with hnone | hlength
    · rw [hk] at hnone
      cases hnone
    · exact if_neg (Nat.not_le.mpr hlength)

theorem protectRule_iff (s : State) (n handle lba count r : Nat) (hint : Option Nat) :
    protectRule s n handle lba count hint = some r ↔
      r < 32 ∧ Protects (s.rule r) n handle lba count hint ∧
        ∀ j, j < r → ¬Protects (s.rule j) n handle lba count hint := by
  unfold protectRule
  rw [firstFrom_iff]
  simp only [protects_iff]
  rfl

theorem protectRule_none_iff (s : State) (n handle lba count : Nat) (hint : Option Nat) :
    protectRule s n handle lba count hint = none ↔
      ∀ j, j < 32 → ¬Protects (s.rule j) n handle lba count hint := by
  unfold protectRule
  rw [firstFrom_none_iff]
  simp only [protects_iff]
  rfl

theorem searchRule_iff (s : State) (n handle lba r : Nat) (hint : Option Nat) :
    searchRule s n handle lba hint = some r ↔
      r < 32 ∧ Directs (s.rule r) n handle lba hint ∧ ∀ j, j < r → ¬Directs (s.rule j) n handle lba hint := by
  unfold searchRule
  rw [firstFrom_iff]
  simp only [directs_iff]
  rfl

theorem searchRule_none_iff (s : State) (n handle lba : Nat) (hint : Option Nat) :
    searchRule s n handle lba hint = none ↔ ∀ j, j < 32 → ¬Directs (s.rule j) n handle lba hint := by
  unfold searchRule
  rw [firstFrom_none_iff]
  simp only [directs_iff]
  rfl

/-- Settles O17. -/
theorem runTrackerFollows : Obligations.RunTrackerFollows := by
  unfold Obligations.RunTrackerFollows
  refine ⟨fun k handle lba n => ?_, fun s n handle lba count r hint => ?_, fun s v ended hint length => ?_,
    fun s w c d => ?_⟩
  · by_cases hrun : k.handle = some handle ∧ k.nextLba = lba
    · rw [RunTracker.advance, if_pos hrun]
      refine ⟨rfl, rfl, fun _ => rfl, fun hother => ?_⟩
      rcases hother with h | h
      · exact absurd hrun.1 h
      · exact absurd hrun.2 h
    · rw [RunTracker.advance, if_neg hrun]
      exact ⟨rfl, rfl, fun h => absurd h hrun, fun _ => rfl⟩
  · exact ⟨protectRule_iff .., protectRule_none_iff .., searchRule_iff .., searchRule_none_iff ..⟩
  · refine ⟨fun r k => chooseHost_rule, fun hother => ?_⟩
    rw [chooseHost_record hother]
    refine ⟨?_, fun hhint => ⟨fun k => chooseByRecord_sequential hhint, chooseByRecord_default hhint⟩⟩
    rintro h k rfl hk
    exact chooseByRecord_hint hk
  · refine ⟨?_, ?_⟩ <;> rintro rfl rfl
    · exact ⟨judge_fit _, judge_fallback, judge_none⟩
    · exact ⟨judge_fit _, judge_fallback, judge_none⟩

/-! ### The taking of an intent (R27, R40) -/

/-- Both commands take the intent at the head of its channel (R27, R40). -/
theorem exec_takesIntent {s : State} {l : Nat} {m : Message} {c : Instr} (h : TakesIntent s l m c) (hl : l ≤ 4)
    (hkind : m.kind = kindWriteIntent) : exec c s = .next (intentTaking l m s) := by
  cases h with
  | first hwaits => simp [exec, execWriteIntent, hwaits.takeable, isWriteLink, hl, hkind]
  | again hwaits => simp [exec, execStalledIntentRetake, hwaits.retakeable, isWriteLink, hl, hkind]

theorem exec_taken {s t : State} {l : Nat} {m : Message} {c : Instr} (h : TakesIntent s l m c) (hl : l ≤ 4)
    (hkind : m.kind = kindWriteIntent)
    (htaken : takeIntent l m.tag (readIntent m.body) (takeHead l (intentChannel l) s) = some t) :
    exec c s = .next t := by
  rw [exec_takesIntent h hl hkind, intentTaking, htaken]

theorem exec_stalled {s : State} {l : Nat} {m : Message} {c : Instr} (h : TakesIntent s l m c) (hl : l ≤ 4)
    (hkind : m.kind = kindWriteIntent)
    (hstalls : takeIntent l m.tag (readIntent m.body) (takeHead l (intentChannel l) s) = none) :
    exec c s = .next (stallHead l (intentChannel l) s) := by
  rw [exec_takesIntent h hl hkind, intentTaking, hstalls]

/-- Stage 0 once the part runs and the fields and the tag have passed (R27). -/
theorem takeIntent_running {s : State} {l tag : Nat} {w : Intent} (hpart : s.part = .running)
    (hfields : intentOk l w = true) (htag : tagInUse s l tag = false) :
    takeIntent l tag w s = if l = 0 then takeHost tag w s else takeReclaim l tag w s := by
  unfold takeIntent
  rw [hpart]
  simp [hfields, htag]

/-- A HOST intent with a stream goes on to the count check (R27 step 5). -/
theorem takeHost_stream {s : State} {tag k : Nat} {w : Intent}
    (hrule : protectRule s w.tenant w.handle w.lba w.n w.hint = none) (hstream : (hostChoice s w).stream = some k) :
    takeHost tag w s = admitOrRefuse 0 tag w.tenant .host k w (tellChoice s w) (classified s w) := by
  unfold takeHost
  rw [hrule]
  dsimp only
  rw [hstream]

theorem takeReclaim_stream {s : State} {l tag k : Nat} {w : Intent} (hstream : (chooseReclaim s w.age).stream = some k) :
    takeReclaim l tag w s =
      admitOrRefuse l tag 256 .reclaim k w (setEventIf (chooseReclaim s w.age).fellBack .fallback s)
        (setEventIf (chooseReclaim s w.age).fellBack .fallback s) := by
  unfold takeReclaim
  dsimp only
  rw [hstream]
  rfl

theorem admitOrRefuse_over {refused : State} {l tag a k : Nat} {cls : WriteClass} {w : Intent} (held : State)
    (h : (refused.account a).cap < w.n) :
    admitOrRefuse l tag a cls k w refused held = some (refuse (w.captureOf l tag .exceedsCap none) refused) := by
  rw [admitOrRefuse, if_pos h]

theorem admitOrRefuse_within {refused : State} {l tag a k : Nat} {cls : WriteClass} {w : Intent} (held : State)
    (h : w.n ≤ (refused.account a).cap) :
    admitOrRefuse l tag a cls k w refused held =
      admission l tag a cls k { handle := w.handle, lba := w.lba } w.n held := by
  rw [admitOrRefuse, if_neg (Nat.not_lt.mpr h)]

/-! ### What telling a choice writes (R4, R13, R14) -/

theorem setEventIf_frame (b : Bool) (e : Event) (s : State) :
    { setEventIf b e s with events := s.events, alert := s.alert } = s := by
  cases b <;> rfl

theorem tellChoice_rule {s : State} {w : Intent} {r : Nat} (h : endedRule s w = some r) :
    tellChoice s w = setEventIf (hostChoice s w).fellBack .fallback (hitRule r s) := by
  rw [tellChoice, h]

theorem tellChoice_none {s : State} {w : Intent} (h : endedRule s w = none) :
    tellChoice s w = setEventIf (hostChoice s w).fellBack .fallback s := by
  rw [tellChoice, h]

theorem tellChoice_frame (s : State) (w : Intent) :
    { tellChoice s w with rules := s.rules, events := s.events, alert := s.alert } = s := by
  cases h : endedRule s w with
  | none =>
    rw [tellChoice_none h]
    exact (congrArg (fun q : State => { q with rules := s.rules }) (setEventIf_frame _ _ s) :)
  | some r =>
    rw [tellChoice_rule h]
    exact (congrArg (fun q : State => { q with rules := s.rules }) (setEventIf_frame _ _ (hitRule r s)) :)

theorem classified_frame (s : State) (w : Intent) :
    { classified s w with tenants := s.tenants, rules := s.rules, events := s.events, alert := s.alert } = s :=
  (congrArg (fun q : State => { q with tenants := s.tenants }) (tellChoice_frame s w) :)

theorem tenants_tellChoice (s : State) (w : Intent) : (tellChoice s w).tenants = s.tenants :=
  (congrArg State.tenants (tellChoice_frame s w) :)

theorem tenant_classified (s : State) (w : Intent) (j : Nat) :
    (classified s w).tenant j =
      if w.tenant = j then { s.tenant w.tenant with tracker := trackerAfter s w } else s.tenant j := by
  have hkept : (tellChoice s w).tenant j = s.tenant j :=
    congrArg (Table.getD Tenant.reset · j) (tenants_tellChoice s w)
  unfold classified
  rw [State.tenant_setTenant, hkept]

/-! ### Stages 1 to 6 (R28 to R33) -/

/-- Two states agree in what stages 1 to 6 read. -/
structure SameStages (s t : State) : Prop where
  accounts : t.accounts = s.accounts
  free : t.free = s.free
  grants : t.grants = s.grants
  sets : t.sets = s.sets
  streams : t.streams = s.streams
  units : t.units = s.units
  cfg : t.cfg = s.cfg

theorem SameStages.account {s t : State} (h : SameStages s t) (a : Nat) : t.account a = s.account a :=
  account_same h.accounts a

theorem SameStages.vacantGrant {s t : State} (h : SameStages s t) : vacantGrant t = vacantGrant s := by
  simp only [Machine.vacantGrant, State.grant?, h.grants]

theorem SameStages.failingSet {s t : State} (h : SameStages s t) (key : Key) (n : Nat) :
    failingSet t key n = failingSet s key n := by
  simp only [Machine.failingSet, waysFit, State.indexSet, h.sets]
  rfl

theorem SameStages.isFrozen {s t : State} (h : SameStages s t) (a : Nat) : isFrozen t a = isFrozen s a := by
  simp only [Machine.isFrozen, h.account]

theorem SameStages.resourceReasons {s t : State} (h : SameStages s t) (a k : Nat) (key : Key) (n : Nat) :
    resourceReasons t a k key n = resourceReasons s a k key n := by
  simp only [Machine.resourceReasons, h.failingSet, h.vacantGrant, poolOk, sharedFree, sumAccounts, h.account, h.free,
    State.usedRecords, State.unit?, h.units, State.stream, h.streams, recordsNeeded, h.cfg]
  rfl

theorem SameStages.holdReasons {s t : State} (h : SameStages s t) (a k : Nat) (key : Key) (n : Nat) :
    holdReasons t a k key n = holdReasons s a k key n := by
  simp only [Machine.holdReasons, h.account, h.isFrozen, h.resourceReasons]

theorem SameStages.heldEntry {s t : State} (h : SameStages s t) (l tag a : Nat) (cls : WriteClass) (k : Nat) (key : Key)
    (n : Nat) : heldEntry t l tag a cls k key n = heldEntry s l tag a cls k key n := by
  simp only [Machine.heldEntry, h.holdReasons, h.account, h.isFrozen, h.failingSet]

theorem SameStages.tellChoice (l : Nat) (c : Channel) (s : State) (w : Intent) :
    SameStages s (tellChoice (takeHead l c s) w) := by
  have h := tellChoice_frame (takeHead l c s) w
  exact ⟨(congrArg State.accounts h :), (congrArg State.free h :), (congrArg State.grants h :),
    (congrArg State.sets h :), (congrArg State.streams h :), (congrArg State.units h :), (congrArg State.cfg h :)⟩

theorem SameStages.classified (l : Nat) (c : Channel) (s : State) (w : Intent) :
    SameStages s (classified (takeHead l c s) w) := by
  have h := classified_frame (takeHead l c s) w
  exact ⟨(congrArg State.accounts h :), (congrArg State.free h :), (congrArg State.grants h :),
    (congrArg State.sets h :), (congrArg State.streams h :), (congrArg State.units h :), (congrArg State.cfg h :)⟩

theorem SameStages.told (l : Nat) (c : Channel) (s : State) (b : Bool) (e : Event) :
    SameStages s (setEventIf b e (takeHead l c s)) := by
  have h := setEventIf_frame b e (takeHead l c s)
  exact ⟨(congrArg State.accounts h :), (congrArg State.free h :), (congrArg State.grants h :),
    (congrArg State.sets h :), (congrArg State.streams h :), (congrArg State.units h :), (congrArg State.cfg h :)⟩

/-- An account with pending entries or a frozen tenant holds its intents whatever the resources (R28). -/
theorem holdReasons_first {s : State} {a : Nat} (k : Nat) (key : Key) (n : Nat)
    (h : 0 < (s.account a).heldCount ∨ isFrozen s a = true) :
    holdReasons s a k key n =
        { Reasons.none with order := decide (0 < (s.account a).heldCount), frozen := isFrozen s a } ∧
      holdReasons s a k key n ≠ Reasons.none := by
  have heq : holdReasons s a k key n =
      { Reasons.none with order := decide (0 < (s.account a).heldCount), frozen := isFrozen s a } := by
    rw [holdReasons, if_pos h]
  refine ⟨heq, fun hnone => ?_⟩
  rw [heq] at hnone
  have horder := congrArg Reasons.order hnone
  have hfrozen := congrArg Reasons.frozen hnone
  simp only [Reasons.none, decide_eq_false_iff_not] at horder hfrozen
  rcases h with h | h
  · exact horder h
  · rw [h] at hfrozen
    cases hfrozen

theorem holdReasons_else {s : State} {a : Nat} (k : Nat) (key : Key) (n : Nat)
    (h : ¬(0 < (s.account a).heldCount ∨ isFrozen s a = true)) :
    holdReasons s a k key n = resourceReasons s a k key n := by
  rw [holdReasons, if_neg h]

/-- The test `admission` makes first is that of `holdReasons` (R28). -/
theorem order_or_frozen_iff (s : State) (a : Nat) :
    (decide (0 < (s.account a).heldCount) || isFrozen s a) = true ↔
      0 < (s.account a).heldCount ∨ isFrozen s a = true := by simp

/-- An intent that no stage holds is granted (R32). -/
theorem admission_granted {s : State} {l tag a k n g : Nat} {cls : WriteClass} {key : Key}
    (h : holdReasons s a k key n = Reasons.none) (hg : vacantGrant s = some g) :
    admission l tag a cls k key n s = some (makeGrant g l tag a k key n s) := by
  have hfree : ¬(0 < (s.account a).heldCount ∨ isFrozen s a = true) := fun hheld =>
    (holdReasons_first k key n hheld).2 h
  rw [holdReasons_else k key n hfree] at h
  unfold admission
  dsimp only
  rw [if_neg (mt (order_or_frozen_iff s a).mp hfree), hg]
  exact if_pos h

/-- An intent that some stage holds becomes its entry (R33). -/
theorem admission_held {s : State} {l tag a k n : Nat} {cls : WriteClass} {key : Key}
    (h : holdReasons s a k key n ≠ Reasons.none) :
    admission l tag a cls k key n s = holdIntent (heldEntry s l tag a cls k key n) s := by
  unfold admission
  dsimp only
  by_cases hheld : 0 < (s.account a).heldCount ∨ isFrozen s a = true
  · rw [if_pos ((order_or_frozen_iff s a).mpr hheld), heldEntry, (holdReasons_first k key n hheld).1, if_pos hheld]
  · rw [if_neg (mt (order_or_frozen_iff s a).mp hheld), heldEntry, if_neg hheld]
    rw [holdReasons_else k key n hheld] at h ⊢
    split
    · exact if_neg h
    · rfl

/-! ### Refusals (R19 to R21) -/

theorem refuse_eq (x : Capture) (s : State) :
    refuse x s = place x.link (.intentRefused x.tag x.reason) (capture x s) := rfl

theorem captures_capture (x : Capture) (s : State) :
    (capture x s).captures = (if s.captures.length < 8 then s.captures else s.captures.tail) ++ [x] := rfl

theorem rule_hitRule (r j : Nat) (s : State) :
    (hitRule r s).rule j = if r = j then { s.rule r with hits := satSucc (s.rule r).hits } else s.rule j :=
  State.rule_setRule _ _ _ _

theorem event_setEvent (e : Event) (i : Nat) (s : State) :
    (setEvent e s).event i =
      if e.code = i then { s.event e.code with flag := true, count := satSucc (s.event e.code).count } else s.event i := by
  unfold setEvent State.setEvents State.event
  dsimp only
  rw [Table.getD_put]

/-- Settles O18: the checks of stage 0 in their order, each on the state with the intent taken. -/
theorem intentsRefused : Obligations.IntentsRefused := by
  unfold Obligations.IntentsRefused
  refine ⟨fun s x => ⟨_, refuse_eq x s, fun hroom => ?_, fun hfull => ?_, rfl, rfl⟩, fun w l tag reason rule x hx => ?_,
    fun s r => ⟨?_, fun j hj => ?_, rfl⟩, fun s e => ⟨?_, fun i hi => ?_, rfl, rfl, rfl, rfl⟩,
    fun s w => ⟨fun r => tellChoice_rule, tellChoice_none, ?_, fun j hj => ?_, ?_⟩,
    fun s l m w c hl htakes hkind hread => ?_⟩
  · rw [captures_capture, if_pos hroom]
  · rw [captures_capture, if_neg (Nat.not_lt.mpr hfull)]
  · subst hx
    exact ⟨rfl, rfl, rfl, rfl, rfl, rfl, fun hl => if_pos hl, fun hl => if_neg hl⟩
  · rw [rule_hitRule, if_pos rfl]
    rfl
  · rw [rule_hitRule, if_neg (Ne.symm hj)]
  · rw [event_setEvent, if_pos rfl]
    rfl
  · rw [event_setEvent, if_neg (Ne.symm hi)]
  · rw [tenant_classified, if_pos rfl]
    rfl
  · rw [tenant_classified, if_neg (Ne.symm hj)]
  · have h := tenants_tellChoice s w
    unfold classified
    generalize tellChoice s w = q at h ⊢
    rw [← h]
    rfl
  · subst hread
    have taken {t : State} := exec_taken (t := t) htakes hl hkind
    have running (hpart : s.part = .running) (hfields : intentOk l (readIntent m.body) = true)
        (htag : tagInUse s l m.tag = false) :=
      takeIntent_running (s := takeHead l (intentChannel l) s) hpart hfields htag
    refine ⟨fun hpart => taken ?_, fun hpart => taken ?_, fun hpart hfields => taken ?_,
      fun hpart hfields htag => taken ?_, fun h0 hpart hfields htag => ?_, fun h1 hpart hfields htag => ?_⟩
    · rw [takeIntent, show (takeHead l (intentChannel l) s).part = .powerFail from hpart]
    · rcases hpart with hpart | hpart
      · rw [takeIntent, show (takeHead l (intentChannel l) s).part = .starting from hpart]
      · rw [takeIntent, show (takeHead l (intentChannel l) s).part = .stopped from hpart]
    · rw [takeIntent, show (takeHead l (intentChannel l) s).part = .running from hpart]
      simp [hfields]
    · rw [takeIntent, show (takeHead l (intentChannel l) s).part = .running from hpart]
      have htag' : tagInUse (takeHead l (intentChannel l) s) l m.tag = true := htag
      simp [hfields, htag']
    · subst h0
      have hhost := (running hpart hfields htag).trans (if_pos rfl)
      refine ⟨fun r hrule => taken ?_, fun hrule hnone => taken ?_, fun hrule hsome hcap => taken ?_⟩
      · rw [hhost, takeHost, show protectRule (takeHead 0 (intentChannel 0) s) _ _ _ _ _ = some r from hrule]
        rfl
      · rw [hhost, takeHost, show protectRule (takeHead 0 (intentChannel 0) s) _ _ _ _ _ = none from hrule]
        rw [show (hostChoice (takeHead 0 (intentChannel 0) s) _).stream = none from hnone]
        rfl
      · obtain ⟨k, hk⟩ := Option.isSome_iff_exists.mp hsome
        rw [hhost, takeHost_stream (s := takeHead 0 (intentChannel 0) s) hrule hk, admitOrRefuse_over]
        · rfl
        · rw [(SameStages.tellChoice 0 _ s _).account]
          exact hcap
    · have hne : l ≠ 0 := by omega
      have hchannel : intentChannel l = .reclaim := if_neg hne
      have hreclaim := (running hpart hfields htag).trans (if_neg hne)
      rw [hchannel] at hreclaim taken
      refine ⟨fun hnone => taken ?_, fun hsome hcap => taken ?_⟩
      · rw [hreclaim, takeReclaim]
        rw [show (chooseReclaim (takeHead l .reclaim s) _).stream = none from hnone]
        have hfell : (chooseReclaim (takeHead l .reclaim s) (readIntent m.body).age).fellBack = false := by
          change (chooseReclaim s _).fellBack = false
          have hjudge := hnone
          unfold chooseReclaim judge at hjudge ⊢
          split at hjudge
          · cases hjudge
          · split at hjudge
            · cases hjudge
            · next hfit hfit' => rw [if_neg hfit, if_neg hfit']
        rw [hfell]
        rfl
      · obtain ⟨k, hk⟩ := Option.isSome_iff_exists.mp hsome
        rw [hreclaim, takeReclaim_stream (s := takeHead l .reclaim s) hk, admitOrRefuse_over]
        · rfl
        · rw [(SameStages.told l _ s _ _).account]
          exact hcap

/-! ### Grants (R32) -/

/-- What a HOST intent that passes stage 0 comes to (R27, R28). -/
theorem takeIntent_host {s : State} {m : Message} {w : Intent} {k : Nat} (hpasses : HostPasses s m.tag w k) :
    takeIntent 0 m.tag w (takeHead 0 .intent s) =
      admission 0 m.tag w.tenant .host k { handle := w.handle, lba := w.lba } w.n
        (classified (takeHead 0 .intent s) w) := by
  rw [takeIntent_running (s := takeHead 0 .intent s) hpasses.running hpasses.fields hpasses.tagFree, if_pos rfl,
    takeHost_stream (s := takeHead 0 .intent s) hpasses.unprotected hpasses.stream, admitOrRefuse_within]
  rw [(SameStages.tellChoice 0 _ s _).account]
  exact hpasses.underCap

/-- What a RECLAIM intent that passes stage 0 comes to (R27, R28). -/
theorem takeIntent_reclaim {s : State} {l : Nat} {m : Message} {w : Intent} {k : Nat}
    (hpasses : ReclaimPasses s l m.tag w k) :
    takeIntent l m.tag w (takeHead l .reclaim s) =
      admission l m.tag 256 .reclaim k { handle := w.handle, lba := w.lba } w.n
        (setEventIf (chooseReclaim s w.age).fellBack .fallback (takeHead l .reclaim s)) := by
  have hne : l ≠ 0 := Nat.ne_of_gt hpasses.drain.1
  rw [takeIntent_running (s := takeHead l .reclaim s) hpasses.running hpasses.fields hpasses.tagFree, if_neg hne,
    takeReclaim_stream (s := takeHead l .reclaim s) hpasses.stream, admitOrRefuse_within]
  · rfl
  · rw [(SameStages.told l _ s _ _).account]
    exact hpasses.underCap

theorem channel_of_reclaim {s : State} {l tag k : Nat} {w : Intent} (h : ReclaimPasses s l tag w k) :
    intentChannel l = .reclaim := if_neg (Nat.ne_of_gt h.drain.1)

/-- Settles O19. -/
theorem hostIntentGranted : Obligations.HostIntentGranted := by
  unfold Obligations.HostIntentGranted
  intro s m w k g c htakes hkind hread hpasses hheld hgrant
  subst hread
  have hsame := SameStages.classified 0 .intent s (readIntent m.body)
  refine exec_taken htakes (by omega) hkind ((takeIntent_host hpasses).trans (admission_granted ?_ ?_))
  · rw [hsame.holdReasons, hheld]
  · rw [hsame.vacantGrant, hgrant]

/-- Settles O20. -/
theorem reclaimIntentGranted : Obligations.ReclaimIntentGranted := by
  unfold Obligations.ReclaimIntentGranted
  intro s l m w k g c htakes hkind hread hpasses hheld hgrant
  subst hread
  have hsame := SameStages.told l .reclaim s (chooseReclaim s (readIntent m.body).age).fellBack .fallback
  refine exec_taken htakes hpasses.drain.2 hkind ?_
  rw [channel_of_reclaim hpasses]
  refine (takeIntent_reclaim hpasses).trans (admission_granted ?_ ?_)
  · rw [hsame.holdReasons, hheld]
  · rw [hsame.vacantGrant, hgrant]

end Sys2Proof.Machine
end

section
/-! SUPPORT. Grants, holds, withdrawals, lapses and the re-test walk (O21 to O25). -/

namespace Sys2Proof.Machine

/-! ### The acts that follow a grant or a hold (R47, R48, R97, R98) -/

/-- State `t` with the fields of `s` that the staging of units by pressure or relief may write. -/
def withStagingFields (s t : State) : State :=
  { t with
    units := s.units, streams := s.streams, stagedCounter := s.stagedCounter, events := s.events,
    alert := s.alert }

/-- What staging by pressure or relief writes: the records of `withStagingFields`, and of a stream no
reservation. -/
structure Stages (s t : State) : Prop where
  rest : withStagingFields s t = s
  reserved : ∀ k, (t.stream k).reserved = (s.stream k).reserved

theorem Stages.refl (s : State) : Stages s s := ⟨rfl, fun _ => rfl⟩

theorem Stages.trans {s t r : State} (h : Stages s t) (k : Stages t r) : Stages s r where
  rest := (congrArg (withStagingFields s) k.rest :).trans h.rest
  reserved j := (k.reserved j).trans (h.reserved j)

theorem stages_stageUnit (c : CloseCause) (v : Nat) (s : State) : Stages s (stageUnit c v s) where
  rest := (congrArg (withStagingFields s) (stageUnit_frame c v s) :)
  reserved k := by
    unfold stageUnit
    split
    · split
      · simp only [State.setStagedCounter_records, State.stream_setStream]
        split
        · next hk => rw [hk]
        · rfl
      · rfl
    · rfl

theorem stages_setEvent (e : Event) (s : State) : Stages s (setEvent e s) := ⟨rfl, fun _ => rfl⟩

theorem stages_pressureCompare (s : State) : Stages s (pressureCompare s) := by
  unfold pressureCompare pressureStage
  split
  · split
    · exact (stages_stageUnit _ _ _).trans (stages_setEvent _ _)
    · exact .refl s
  · exact .refl s

theorem stages_reliefStage (x : Nat) (s : State) : Stages s (reliefStage x s) := by
  unfold reliefStage
  split
  · exact .refl s
  · split
    · exact (stages_stageUnit _ _ _).trans (stages_setEvent _ _)
    · exact .refl s

theorem afterHold_eq (r : Reasons) (x : Option Nat) (s : State) :
    afterHold r x s =
      match r.ways, x with
      | true, some x => reliefStage x (if r.frames then pressureCompare s else s)
      | _, _ => if r.frames then pressureCompare s else s := rfl

theorem stages_afterHold (r : Reasons) (x : Option Nat) (s : State) : Stages s (afterHold r x s) := by
  have hfirst : Stages s (if r.frames = true then pressureCompare s else s) := by
    split
    · exact stages_pressureCompare s
    · exact .refl s
  rw [afterHold_eq]
  split
  · exact hfirst.trans (stages_reliefStage _ _)
  · exact hfirst

/-! ### Placing in states that agree on the links -/

/-- What is placed on a link depends on that link alone. -/
theorem link_place_congr {s t : State} {l : Nat} (m : OutMessage) (h : t.link l = s.link l) :
    (place l m t).link l = (place l m s).link l := by
  rw [link_place, link_place, h]

theorem link_same {s t : State} (h : t.links = s.links) (l : Nat) : t.link l = s.link l :=
  congrArg (Table.getD Link.reset · l) h

/-! ### A grant (R32) -/

/-- What the records of a grant are (R32). -/
structure Granted (s q : State) (g link tag a k : Nat) (key : Key) (n : Nat) : Prop where
  free : q.free = s.free - n
  account : ∀ b, q.account b = if a = b then { s.account a with used := (s.account a).used + n } else s.account b
  grant : ∀ i, q.grant? i = if g = i then some (newGrant s link tag a k key n) else s.grant? i
  set : ∀ x, q.indexSet x = { s.indexSet x with reserved := (s.indexSet x).reserved + runWays key n x }
  stream : (q.stream k).reserved = (s.stream k).reserved + recordsNeeded s n

theorem grantRecords_effect (g link tag a k : Nat) (key : Key) (n : Nat) (s : State) :
    Granted s (grantRecords g link tag a k key n s) g link tag a k key n := by
  have hset := fun x => indexSet_reserveSets (setCounts key n) x (chargeFrames a n s)
  have hframe := reserveSets_frame (setCounts key n) (chargeFrames a n s)
  unfold grantRecords
  dsimp only
  change Granted s (State.setGrant (reserveRecords k (recordsNeeded s n)
    (reserveSets (setCounts key n) (chargeFrames a n s))) g (newGrant s link tag a k key n)) _ _ _ _ _ _ _
  generalize reserveSets (setCounts key n) (chargeFrames a n s) = q at hset hframe ⊢
  have haccounts : q.accounts = (chargeFrames a n s).accounts := (congrArg State.accounts hframe :)
  have hgrants : q.grants = s.grants := (congrArg State.grants hframe :)
  have hstreams : q.streams = s.streams := (congrArg State.streams hframe :)
  refine ⟨(congrArg State.free hframe :), fun b => ?_, fun i => ?_, fun x => ?_, ?_⟩
  · refine (account_same haccounts b :).trans ?_
    exact State.account_setAccount ..
  · refine (State.grant?_setGrant ..).trans ?_
    have hkept : (reserveRecords k (recordsNeeded s n) q).grant? i = s.grant? i := congrArg (Table.find? · i) hgrants
    rw [hkept]
  · refine (hset x).trans ?_
    rw [← (setCounts_spec key n).1]
    rfl
  · have hkept : q.stream k = s.stream k := congrArg (Table.getD Stream.reset · k) hstreams
    have hself : ((reserveRecords k (recordsNeeded s n) q).stream k).reserved =
        (q.stream k).reserved + recordsNeeded s n := by
      rw [reserveRecords, State.stream_setStream_same]
    exact hself.trans (by rw [hkept])

/-- Settles O21. -/
theorem grantEffects : Obligations.GrantEffects := by
  unfold Obligations.GrantEffects
  intro s g link tag a k n key
  refine ⟨_, rfl, ?_⟩
  have G := grantRecords_effect g link tag a k key n s
  have hframe := grantRecords_frame g link tag a k key n s
  unfold makeGrant
  dsimp only
  generalize grantRecords g link tag a k key n s = q at G hframe ⊢
  have hlinks (i : Nat) : q.link i = s.link i := link_same (congrArg State.links hframe :) i
  have hlifetime : q.cfg.grantLifetime = s.cfg.grantLifetime := (congrArg (·.cfg.grantLifetime) hframe :)
  rw [hlifetime]
  have hplace := links_place link (.grant tag g k s.cfg.grantLifetime) q
  have hplaced := link_place_congr (.grant tag g k s.cfg.grantLifetime) (hlinks link)
  have hothers := (place_frame link (.grant tag g k s.cfg.grantLifetime) q).links
  generalize place link (.grant tag g k s.cfg.grantLifetime) q = p at hplace hplaced hothers ⊢
  have P := stages_pressureCompare p
  generalize pressureCompare p = t at P ⊢
  have haccount (b : Nat) : t.account b = q.account b :=
    account_same ((congrArg State.accounts P.rest :).trans (congrArg State.accounts hplace :)) b
  have hgrant (i : Nat) : t.grant? i = q.grant? i :=
    congrArg (Table.find? · i) ((congrArg State.grants P.rest :).trans (congrArg State.grants hplace :))
  have hset (x : Nat) : t.indexSet x = q.indexSet x :=
    indexSet_same ((congrArg State.sets P.rest :).trans (congrArg State.sets hplace :)) x
  have hstream : (t.stream k).reserved = (q.stream k).reserved :=
    (P.reserved k).trans (congrArg (fun x => (Table.getD Stream.reset x k).reserved) (congrArg State.streams hplace :))
  have hlink (i : Nat) : t.link i = p.link i := link_same (congrArg State.links P.rest :) i
  refine ⟨?_, ?_, fun b hb => ?_, ⟨newGrant s link tag a k key n, ?_, rfl, rfl, rfl, rfl, rfl, rfl, rfl, rfl, rfl⟩,
    fun i hi => ?_, fun x => ?_, ?_, ?_, fun i hi => ?_, ?_⟩
  · exact (congrArg State.free P.rest :).trans ((congrArg State.free hplace :).trans G.free)
  · rw [haccount, G.account, if_pos rfl]
  · rw [haccount, G.account, if_neg (Ne.symm hb)]
  · rw [hgrant, G.grant, if_pos rfl]
  · rw [hgrant, G.grant, if_neg (Ne.symm hi)]
  · rw [hset, G.set]
    exact ⟨rfl, rfl⟩
  · rw [hstream, G.stream]
    rfl
  · rw [hlink, hplaced]
  · rw [hlink, hothers i hi, hlinks]
  · have e1 := congrArg (fun x : State => { x with
      accounts := s.accounts, free := s.free, grants := s.grants, sets := s.sets, streams := s.streams,
      units := s.units, stagedCounter := s.stagedCounter, events := s.events, alert := s.alert,
      links := s.links }) P.rest
    have e2 := congrArg (fun x : State => { x with
      accounts := s.accounts, free := s.free, grants := s.grants, sets := s.sets, streams := s.streams,
      units := s.units, stagedCounter := s.stagedCounter, events := s.events, alert := s.alert,
      links := s.links }) hplace
    have e3 := congrArg (fun x : State => { x with
      units := s.units, stagedCounter := s.stagedCounter, events := s.events, alert := s.alert,
      links := s.links }) hframe
    exact e1.trans (e2.trans e3)

/-! ### Holds and stalls (R33, R40) -/

/-- Set `x` has no room for its keys of the run, in the words of R30. -/
theorem overfull_iff (s : State) (key : Key) (n x : Nat) :
    overfull s key n x = true ↔ 16 < (s.indexSet x).ways.length + (s.indexSet x).reserved +
      (runKeys key n).countP (fun q => indexHash q == x) := by
  unfold overfull runWays
  rw [decide_eq_true_eq]

theorem isFrozen_iff (s : State) (a : Nat) : isFrozen s a = true ↔ a ≠ 256 ∧ (s.account a).frozen = true := by
  unfold isFrozen
  rw [Bool.and_eq_true, decide_eq_true_eq]
  rfl

theorem holdReasons_order (s : State) (a k : Nat) (key : Key) (n : Nat) :
    (holdReasons s a k key n).order = decide (0 < (s.account a).heldCount) ∧
      (holdReasons s a k key n).frozen = isFrozen s a := by
  by_cases h : 0 < (s.account a).heldCount ∨ isFrozen s a = true
  · rw [(holdReasons_first k key n h).1]
    exact ⟨rfl, rfl⟩
  · rw [holdReasons_else k key n h]
    rw [not_or] at h
    exact ⟨(decide_eq_false h.1).symm, (Bool.eq_false_iff.mpr h.2).symm⟩

/-- State `t` with the fields of `s` that the taking and the hold of an intent may write. -/
def withHoldFields (s t : State) : State :=
  { t with
    tenants := s.tenants, rules := s.rules, events := s.events, alert := s.alert, units := s.units,
    streams := s.streams, stagedCounter := s.stagedCounter, waiting := s.waiting, accounts := s.accounts,
    links := s.links }

/-- What the hold of entry `e` does, in a state `q` in which its intent has been taken from `s` (R33, R39). -/
structure Held (s q t : State) (e : Entry) : Prop where
  waiting : t.waiting = s.waiting ++ [e]
  account : ∀ b, t.account b =
    if e.account = b then { s.account e.account with heldCount := (s.account e.account).heldCount + 1 }
    else s.account b
  link : t.link e.link = (place e.link (.holdNotice e.tag e.reasons) s).link e.link
  links : ∀ i, i ≠ e.link → t.link i = s.link i
  tenants : t.tenants = q.tenants
  rest : withHoldFields s t = s

/-- State `t` with the fields of `s` that telling a choice may write. -/
def withChoiceFields (s t : State) : State :=
  { t with tenants := s.tenants, rules := s.rules, events := s.events, alert := s.alert }

theorem holdIntent_effect {s q : State} {e : Entry} (hq : withChoiceFields s q = s) (hroom : s.waiting.length < 64) :
    ∃ t, holdIntent e q = some t ∧ Held s q t e := by
  have hwaiting : q.waiting = s.waiting := (congrArg State.waiting hq :)
  have haccounts : q.accounts = s.accounts := (congrArg State.accounts hq :)
  have hlinks : q.links = s.links := (congrArg State.links hq :)
  have hhold : holdIntent e q =
      some (afterHold e.reasons e.relief (place e.link (.holdNotice e.tag e.reasons)
        (raiseHeld e.account (q.setWaiting (q.waiting ++ [e]))))) := by
    unfold holdIntent
    rw [hwaiting]
    exact if_pos hroom
  refine ⟨_, hhold, ?_⟩
  rw [hwaiting]
  have hjoined : { raiseHeld e.account (q.setWaiting (s.waiting ++ [e])) with
      accounts := s.accounts, waiting := s.waiting, tenants := s.tenants, rules := s.rules, events := s.events,
      alert := s.alert } = s :=
    (congrArg (fun x : State => { x with waiting := s.waiting, accounts := s.accounts }) hq :)
  have hlist : (raiseHeld e.account (q.setWaiting (s.waiting ++ [e]))).waiting = s.waiting ++ [e] := rfl
  have htenants : (raiseHeld e.account (q.setWaiting (s.waiting ++ [e]))).tenants = q.tenants := rfl
  have haccount (b : Nat) : (raiseHeld e.account (q.setWaiting (s.waiting ++ [e]))).account b =
      if e.account = b then { s.account e.account with heldCount := (s.account e.account).heldCount + 1 }
      else s.account b := by
    have hkept (i : Nat) : (q.setWaiting (s.waiting ++ [e])).account i = s.account i := account_same haccounts i
    unfold raiseHeld
    dsimp only
    rw [State.account_setAccount, hkept, hkept]
  have hlink (i : Nat) : (raiseHeld e.account (q.setWaiting (s.waiting ++ [e]))).link i = s.link i :=
    link_same hlinks i
  generalize raiseHeld e.account (q.setWaiting (s.waiting ++ [e])) = j at hjoined hlist htenants haccount hlink ⊢
  have hplace := links_place e.link (.holdNotice e.tag e.reasons) j
  have hplaced := link_place_congr (.holdNotice e.tag e.reasons) (hlink e.link)
  have hothers := (place_frame e.link (.holdNotice e.tag e.reasons) j).links
  generalize place e.link (.holdNotice e.tag e.reasons) j = p at hplace hplaced hothers ⊢
  have A := stages_afterHold e.reasons e.relief p
  generalize afterHold e.reasons e.relief p = t at A ⊢
  have hlink' (i : Nat) : t.link i = p.link i := link_same (congrArg State.links A.rest :) i
  refine ⟨?_, fun b => ?_, ?_, fun i hi => ?_, ?_, ?_⟩
  · exact (congrArg State.waiting A.rest :).trans ((congrArg State.waiting hplace :).trans hlist)
  · rw [← haccount]
    exact account_same ((congrArg State.accounts A.rest :).trans (congrArg State.accounts hplace :)) b
  · rw [hlink', hplaced]
  · rw [hlink', hothers i hi, hlink]
  · exact (congrArg State.tenants A.rest :).trans ((congrArg State.tenants hplace :).trans htenants)
  · exact (congrArg (withHoldFields s) A.rest :).trans ((congrArg (withHoldFields s) hplace :).trans
      (congrArg (withHoldFields s) hjoined :))

/-- An intent that some stage holds becomes its entry, or stalls where the list is full (R33, R40). -/
theorem holdIntent_full {q : State} (e : Entry) (h : 64 ≤ q.waiting.length) : holdIntent e q = none :=
  if_neg (Nat.not_lt.mpr h)

/-- What a taking that some stage holds comes to, given the state `q` in which stage 0 leaves the part. -/
theorem exec_held {s q : State} {l a k : Nat} {m : Message} {cls : WriteClass} {c : Instr} {key : Key} {n : Nat}
    (htakes : TakesIntent s l m c) (hl : l ≤ 4) (hkind : m.kind = kindWriteIntent)
    (htaken : takeIntent l m.tag (readIntent m.body) (takeHead l (intentChannel l) s) =
      admission l m.tag a cls k key n q)
    (hsame : SameStages s q) (hq : withChoiceFields (takeHead l (intentChannel l) s) q = takeHead l (intentChannel l) s)
    (hheld : holdReasons s a k key n ≠ Reasons.none) :
    (s.waiting.length < 64 → ∃ t, exec c s = .next t ∧
      Held (takeHead l (intentChannel l) s) q t (heldEntry s l m.tag a cls k key n)) ∧
    (64 ≤ s.waiting.length → exec c s = .next (stallHead l (intentChannel l) s)) := by
  rw [← hsame.holdReasons] at hheld
  rw [admission_held hheld, hsame.heldEntry] at htaken
  refine ⟨fun hroom => ?_, fun hfull => exec_stalled htakes hl hkind ?_⟩
  · obtain ⟨t, ht, hheld⟩ := holdIntent_effect (e := heldEntry s l m.tag a cls k key n) hq hroom
    exact ⟨t, exec_taken htakes hl hkind (htaken.trans ht), hheld⟩
  · refine htaken.trans (holdIntent_full _ ?_)
    have hwaiting : q.waiting = s.waiting := (congrArg State.waiting hq :)
    rw [hwaiting]
    exact hfull

theorem classified_choice (s : State) (w : Intent) : withChoiceFields s (classified s w) = s := classified_frame s w

theorem told_choice (b : Bool) (e : Event) (s : State) : withChoiceFields s (setEventIf b e s) = s :=
  (congrArg (fun x : State => { x with tenants := s.tenants, rules := s.rules }) (setEventIf_frame b e s) :)

/-- Settles O22: the reasons clause by clause, and then the hold by `exec_held`. -/
theorem intentHeldOrStalled : Obligations.IntentHeldOrStalled := by
  unfold Obligations.IntentHeldOrStalled
  refine ⟨fun s a k n key r full hr hfull => ?_, fun s l m w k a cls c e htakes hkind hread hpasses hheld he => ?_⟩
  · have hfull' (x : Nat) : overfull s key n x = true ↔ full x := (overfull_iff s key n x).trans (hfull x).symm
    obtain ⟨horder, hfrozen⟩ := holdReasons_order s a k key n
    rw [← hr] at horder hfrozen
    refine ⟨by rw [horder, decide_eq_true_eq], by rw [hfrozen, isFrozen_iff], fun hfirst => ?_, fun hno hnf => ?_,
      fun x hx => ?_, vacantGrant_iff s⟩
    · rw [horder, hfrozen, decide_eq_true_eq] at hfirst
      rw [horder, hfrozen, hr, (holdReasons_first k key n hfirst).1]
    · have hfree : ¬(0 < (s.account a).heldCount ∨ isFrozen s a = true) := by
        rw [not_or]
        rw [horder, decide_eq_false_iff_not] at hno
        rw [hfrozen] at hnf
        exact ⟨hno, by simp [hnf]⟩
      rw [hr, holdReasons_else k key n hfree]
      refine ⟨decide_eq_true_iff, ?_, ?_, decide_eq_true_iff, vacantGrant_none s⟩
      · simp only [resourceReasons, poolOk, sharedFree, Bool.not_eq_true']
        exact decide_eq_false_iff_not.trans Nat.not_le
      · refine (failingSet_isSome s key n).trans (exists_congr fun i => and_congr_right fun _ => hfull' _)
    · obtain ⟨i, hi, hxi, hover, hbefore⟩ := failingSet_first hx
      refine ⟨i, hi, hxi, (hfull' x).mp hover, fun j hj hfullj => ?_⟩
      rw [← hfull', hbefore j hj] at hfullj
      cases hfullj
  · subst hread he
    rcases hpasses with ⟨rfl, hpasses, rfl, rfl⟩ | ⟨hpasses, rfl, rfl⟩
    · obtain ⟨hroom, hfull⟩ := exec_held htakes (by omega) hkind (takeIntent_host hpasses)
        (SameStages.classified 0 .intent s _) (classified_choice _ _) hheld
      refine ⟨fun hlt => ?_, hfull⟩
      obtain ⟨t, hexec, H⟩ := hroom hlt
      have hrest := H.rest
      refine ⟨t, hexec, H.waiting, (H.account _).trans (if_pos rfl), fun b hb => (H.account b).trans (if_neg (Ne.symm hb)),
        H.link, fun i hi => (H.links i hi).trans ((takeHead_frame 0 _ s).links i hi), fun _ => ?_,
        (congrArg State.free hrest :), (congrArg State.grants hrest :), (congrArg State.sets hrest :),
        (congrArg State.frames hrest :), (congrArg State.nextSeq hrest :), (congrArg State.lanes hrest :),
        (congrArg State.flushes hrest :), (congrArg State.captures hrest :), (congrArg State.refusals hrest :),
        (congrArg State.part hrest :)⟩
      refine (congrArg (Table.getD Tenant.reset · _) H.tenants).trans ?_
      exact (tenant_classified (takeHead 0 .intent s) _ _).trans (if_pos rfl)
    · have hne : l ≠ 0 := Nat.ne_of_gt hpasses.drain.1
      have htaken := takeIntent_reclaim hpasses
      rw [← channel_of_reclaim hpasses] at htaken
      obtain ⟨hroom, hfull⟩ := exec_held htakes hpasses.drain.2 hkind htaken
        (SameStages.told l _ s _ _) (told_choice _ _ _) hheld
      refine ⟨fun hlt => ?_, hfull⟩
      obtain ⟨t, hexec, H⟩ := hroom hlt
      have hrest := H.rest
      exact ⟨t, hexec, H.waiting, (H.account _).trans (if_pos rfl), fun b hb => (H.account b).trans (if_neg (Ne.symm hb)),
        H.link, fun i hi => (H.links i hi).trans ((takeHead_frame l _ s).links i hi), fun h => absurd h hne,
        (congrArg State.free hrest :), (congrArg State.grants hrest :), (congrArg State.sets hrest :),
        (congrArg State.frames hrest :), (congrArg State.nextSeq hrest :), (congrArg State.lanes hrest :),
        (congrArg State.flushes hrest :), (congrArg State.captures hrest :), (congrArg State.refusals hrest :),
        (congrArg State.part hrest :)⟩

/-! ### Withdrawals and lapses (R37, R38) -/

theorem exec_withdraw {s : State} {l : Nat} {m : Message} (hl : l ≤ 4) (hwaits : Waits s l (intentChannel l) m)
    (hkind : m.kind = kindWithdraw) :
    exec (.withdraw l) s = .next (withdrawTag l m.tag (takeHead l (intentChannel l) s)) := by
  simp only [exec, execWithdraw, isWriteLink, hl, decide_true, if_true, taking_waits _ hwaits hkind]

theorem withdrawTag_entry {s : State} {l tag : Nat} {e : Entry} (h : findEntry s l tag = some e) :
    withdrawTag l tag s = retestWalk (place l (.withdrawAnswer tag true) (removeEntry e s)) := by
  rw [withdrawTag, h]

theorem withdrawTag_grant {s : State} {l tag g : Nat} {v : Grant} (h : findEntry s l tag = none)
    (hgrant : findGrant s l tag = some (g, v)) :
    withdrawTag l tag s = retestWalk (place l (.withdrawAnswer tag true) (returnGrant g v s)) := by
  rw [withdrawTag, h]
  dsimp only
  rw [hgrant]

theorem withdrawTag_unknown {s : State} {l tag : Nat} (h : findEntry s l tag = none)
    (hgrant : findGrant s l tag = none) : withdrawTag l tag s = place l (.withdrawAnswer tag false) s := by
  rw [withdrawTag, h]
  dsimp only
  rw [hgrant]

theorem links_callIntentRetakes (s : State) : { callIntentRetakes s with links := s.links } = s := by
  have one {t : State} (l : Nat) (c : Channel) (k : Nat) (h : { t with links := s.links } = s) :
      { callRetake l c k t with links := s.links } = s :=
    (congrArg (fun x : State => { x with links := s.links }) (links_callRetake l c k t) :).trans h
  simp only [callIntentRetakes, List.foldl]
  exact one _ _ _ (one _ _ _ (one _ _ _ (one _ _ _ (one _ _ _ rfl))))

theorem account_lowerHeld (a b : Nat) (s : State) :
    (lowerHeld a s).account b =
      if a = b then { s.account a with heldCount := (s.account a).heldCount - 1 } else s.account b :=
  State.account_setAccount ..

/-- The removal of an entry takes it from the list, lowers its account's held-count and calls the stalled intents
again (R38, R40). -/
theorem removeEntry_writes (e : Entry) (s : State) :
    (removeEntry e s).waiting = s.waiting.erase e ∧
      (∀ b, (removeEntry e s).account b = (lowerHeld e.account s).account b) ∧
      { removeEntry e s with waiting := s.waiting, accounts := s.accounts, links := s.links } = s := by
  have h := links_callIntentRetakes (lowerHeld e.account (s.setWaiting (s.waiting.erase e)))
  unfold removeEntry
  generalize callIntentRetakes (lowerHeld e.account (s.setWaiting (s.waiting.erase e))) = r at h ⊢
  refine ⟨(congrArg State.waiting h :), fun b => account_same (congrArg State.accounts h :) b, ?_⟩
  exact (congrArg (fun x : State => { x with waiting := s.waiting, accounts := s.accounts, links := s.links }) h :)

/-- Settles O23. -/
theorem withdrawEffects : Obligations.WithdrawEffects := by
  unfold Obligations.WithdrawEffects
  intro s l m hl hwaits hkind
  have hexec := exec_withdraw hl hwaits hkind
  refine ⟨fun e he => ?_, fun hnone g v hgrant => ?_, fun hnone hnogrant => ?_⟩
  · obtain ⟨hwaiting, haccount, hrest⟩ := removeEntry_writes e (takeHead l (intentChannel l) s)
    refine ⟨removeEntry e (takeHead l (intentChannel l) s), ?_, hwaiting, ?_, ?_⟩
    · rw [hexec, withdrawTag_entry (s := takeHead l (intentChannel l) s) he]
    · exact (haccount _).trans ((account_lowerHeld _ _ _).trans (if_pos rfl))
    · generalize removeEntry e (takeHead l (intentChannel l) s) = r at hrest
      exact (congrArg (fun x : State => { x with links := s.links }) hrest :)
  · rw [hexec, withdrawTag_grant (s := takeHead l (intentChannel l) s) hnone hgrant]
  · rw [hexec, withdrawTag_unknown (s := takeHead l (intentChannel l) s) hnone hnogrant]

/-- The streams after the return of a grant: only the grant's own has changed (R37, R81, R86). -/
theorem streams_returnGrant {g k : Nat} {v : Grant} (s : State) (hk : k ≠ v.stream) :
    (returnGrant g v s).stream k = s.stream k := by
  have hsets : ((releaseSets v.sets (returnFrames v.account v.n s)).clearGrant g).streams = s.streams :=
    (congrArg State.streams (releaseSets_frame v.sets (returnFrames v.account v.n s)) :)
  unfold returnGrant releaseRecords
  dsimp only
  generalize (releaseSets v.sets (returnFrames v.account v.n s)).clearGrant g = q at hsets ⊢
  rw [stream_checkUnbound, if_neg fun hand => hk hand.1.symm, State.stream_setStream, if_neg (Ne.symm hk), State.stream,
    hsets]
  rfl

/-- Settles O24: the lapse returns the grant as `lapseGrant_effect` says. -/
theorem grantLapseReturns : Obligations.GrantLapseReturns := by
  unfold Obligations.GrantLapseReturns
  intro s g v hgrant
  refine ⟨fun hdue => ?_, fun hearly => ?_⟩
  · have hexec : exec (.grantLapse g) s = .next (retestWalk (lapseGrant g v s)) := by
      simp only [exec, execGrantLapse, hgrant, if_pos hdue]
    have L := lapseGrant_effect g v s
    have hgrants (i : Nat) : (lapseGrant g v s).grant? i = if g = i then none else s.grant? i :=
      (congrArg (Table.find? · i) (grants_lapseGrant g v s)).trans (State.grant?_clearGrant ..)
    have hevents : (returnGrant g v s).events = s.events := (congrArg State.events (returnGrant_frame g v s) :)
    have hevent : (returnGrant g v s).event Event.grantLapse.code = s.event Event.grantLapse.code :=
      congrArg (Table.getD EventRecord.reset · Event.grantLapse.code) hevents
    have hstreams (k : Nat) (hk : k ≠ v.stream) : (lapseGrant g v s).stream k = s.stream k :=
      streams_returnGrant s hk
    have hset := event_setEvent_same .grantLapse (returnGrant g v s)
    refine ⟨_, hexec, (hgrants g).trans (if_pos rfl), fun i hi => (hgrants i).trans (if_neg (Ne.symm hi)), ?_, ?_,
      fun b hb => ?_, fun x => ?_, ?_, hstreams, L.set_flag (by simp), ?_, L.rest⟩
    · rw [L.free]
      simp
    · rw [L.account]
      simp [framesOn]
    · rw [L.account]
      simp [framesOn, Ne.symm hb]
    · rw [L.set]
      simp [waysIn]
    · rw [L.stream]
      simp [recordsOf]
    · rw [lapseGrant, hset, hevent]
  · simp only [exec, execGrantLapse, hgrant, if_neg (Nat.not_le.mpr hearly)]

end Sys2Proof.Machine
end

section
/-! SUPPORT. The re-test walk (O25). -/

namespace Sys2Proof.Machine

/-! ### One step of the walk (R42, R43) -/

/-- An entry behind an older one of its account stays with reasons {ORDER} (R42). -/
theorem walkFrom_behind {e : Entry} {kept : List Entry} (rest : List Entry) (s : State)
    (h : (kept.any fun o => o.account == e.account) = true) :
    walkFrom kept (e :: rest) s =
      walkFrom (kept ++ [{ e with reasons := { Reasons.none with order := true }, relief := none }]) rest s := by
  rw [walkFrom, if_pos h]

/-- Any other is re-tested (R42). -/
theorem walkFrom_tested {e : Entry} {kept : List Entry} (rest : List Entry) (s : State)
    (h : (kept.any fun o => o.account == e.account) = false) :
    walkFrom kept (e :: rest) s =
      match retest e s with
      | .keep e' s' => walkFrom (kept ++ [e']) rest s'
      | .leave s' => walkFrom kept rest s' := by
  rw [walkFrom, if_neg (by simp [h])] <;> rfl

theorem fallbackStream_eq {s : State} {e : Entry} {d : Nat}
    (hhost : e.cls = .host → d = (s.tenant e.account).defaultStream)
    (hreclaim : e.cls = .reclaim → d = s.reclaimMap.getD 0 0) : fallbackStream s e = d := by
  unfold fallbackStream
  split
  · next h => exact (hhost h).symm
  · next h => exact (hreclaim h).symm

/-- The state and the stream with which a re-test goes on once the stream has been re-checked (R18, R42). -/
structure Rechecked (s t : State) (e : Entry) (k : Nat) : Prop where
  retest : retest e s =
    if (t.account e.account).cap < e.n then .leave (refuseEntry { e with stream := k } .exceedsCap t)
    else if isFrozen t e.account then
      .keep { e with stream := k, reasons := { Reasons.none with frozen := true }, relief := none } t
    else retestResources { e with stream := k } t
  same : SameStages s t

theorem rechecked {s t : State} {e : Entry} {d k : Nat} (hd : fallbackStream s e = d)
    (h : (s.stream e.stream).fit e.cls = true ∧ k = e.stream ∧ t = s ∨
      (s.stream e.stream).fit e.cls = false ∧ (s.stream d).fit e.cls = true ∧ k = d ∧ t = setEvent .fallback s) :
    Rechecked s t e k := by
  rcases h with ⟨hfit, rfl, rfl⟩ | ⟨hunfit, hfit, rfl, rfl⟩
  · refine ⟨?_, ⟨rfl, rfl, rfl, rfl, rfl, rfl, rfl⟩⟩
    rw [retest, judge_fit _ hfit]
    rfl
  · refine ⟨?_, ⟨rfl, rfl, rfl, rfl, rfl, rfl, rfl⟩⟩
    rw [retest, hd, judge_fallback hunfit hfit]
    rfl

/-- An entry without a fit stream is refused (R18, R43). -/
theorem retest_noStream {s : State} {e : Entry} {d : Nat} (hd : fallbackStream s e = d)
    (hunfit : (s.stream e.stream).fit e.cls = false) (hunfit' : (s.stream d).fit e.cls = false) :
    retest e s = .leave (refuseEntry e .noStream s) := by
  rw [retest, hd, judge_none hunfit hunfit']
  rfl

theorem retestResources_granted {t : State} {e : Entry} {g : Nat}
    (hreasons : resourceReasons t e.account e.stream e.key e.n = Reasons.none) (hg : vacantGrant t = some g) :
    retestResources e t = .leave (callIntentRetakes
      (makeGrant g e.link e.tag e.account e.stream e.key e.n (lowerHeld e.account t))) := by
  unfold retestResources
  dsimp only
  rw [hg]
  exact if_pos hreasons

theorem retestResources_kept {t : State} {e : Entry}
    (hreasons : resourceReasons t e.account e.stream e.key e.n ≠ Reasons.none) :
    retestResources e t =
      .keep
        { e with
          reasons := resourceReasons t e.account e.stream e.key e.n, relief := failingSet t e.key e.n }
        (afterHold (resourceReasons t e.account e.stream e.key e.n) (failingSet t e.key e.n) t) := by
  unfold retestResources
  dsimp only
  split
  · exact if_neg hreasons
  · rfl

/-! ### The entries that stay (R42) -/

/-- Every entry that has an older one of its account before it has reasons {ORDER} and no relief set. -/
def BehindOrdered (es : List Entry) : Prop :=
  ∀ older e younger, es = older ++ e :: younger → (older.any fun o => o.account == e.account) = true →
    e.reasons = { Reasons.none with order := true } ∧ e.relief = none

theorem BehindOrdered.snoc {es : List Entry} {e : Entry} (h : BehindOrdered es)
    (he : (es.any fun o => o.account == e.account) = true →
      e.reasons = { Reasons.none with order := true } ∧ e.relief = none) : BehindOrdered (es ++ [e]) := by
  intro older x younger hsplit hany
  rcases List.eq_nil_or_concat younger with rfl | ⟨front, last, rfl⟩
  · obtain ⟨rfl, hx⟩ := List.append_inj' hsplit rfl
    cases hx
    exact he hany
  · have hfront : es = older ++ x :: front := by
      have hsame : es ++ [e] = (older ++ x :: front) ++ [last] := by simpa using hsplit
      exact (List.append_inj' hsame rfl).1
    exact h older x front hfront hany

theorem walkFrom_behindOrdered (es : List Entry) : ∀ (kept : List Entry) (s : State), BehindOrdered kept →
    BehindOrdered (walkFrom kept es s).waiting := by
  induction es with
  | nil => intro kept s h; exact h
  | cons e es ih =>
    intro kept s h
    cases hany : kept.any fun o => o.account == e.account with
    | true =>
      rw [walkFrom_behind es s hany]
      exact ih _ _ (h.snoc fun _ => ⟨rfl, rfl⟩)
    | false =>
      rw [walkFrom_tested es s hany]
      split
      · next e' s' hr =>
        refine ih _ _ (h.snoc fun hany' => ?_)
        rw [account_of_identity (retest_identity hr), hany] at hany'
        cases hany'
      · exact ih _ _ h

/-- Settles O25: each clause is one branch of the walk or of the re-test. -/
theorem retestWalkEffects : Obligations.RetestWalkEffects := by
  unfold Obligations.RetestWalkEffects
  refine ⟨fun _ => rfl, fun _ _ => rfl, fun s e kept rest h => walkFrom_behind rest s h,
    fun s t e kept rest d k hany hhost hreclaim => ?_, fun e reason x hx => ?_, fun s a => ?_, fun s r x => ?_,
    fun s => ⟨fun hempty => ?_, retestWalk_sublist s, ?_, retestWalk_frame s⟩⟩
  · have hd := fallbackStream_eq hhost hreclaim
    rw [walkFrom_tested rest s hany]
    refine ⟨fun hunfit hunfit' => by rw [retest_noStream hd hunfit hunfit']; rfl, fun hstream => ?_⟩
    obtain ⟨hretest, hsame⟩ := rechecked hd hstream
    have haccount := hsame.account e.account
    refine ⟨fun hover => ?_, fun hunder htenant hfrozen => ?_, fun hunder hthawed => ?_⟩
    · rw [hretest, haccount, if_pos hover]
      rfl
    · have hisFrozen : isFrozen t e.account = true := by
        rw [isFrozen_iff, haccount]
        exact ⟨htenant, hfrozen⟩
      rw [hretest, haccount, if_neg (Nat.not_lt.mpr hunder), if_pos hisFrozen]
    · have hnotFrozen : ¬isFrozen t e.account = true := by
        rw [isFrozen_iff, haccount]
        rintro ⟨htenant, hfrozen⟩
        rcases hthawed with h | h
        · exact htenant h
        · rw [hfrozen] at h
          cases h
      have hreasons := hsame.resourceReasons e.account k e.key e.n
      rw [hretest, haccount, if_neg (Nat.not_lt.mpr hunder), if_neg hnotFrozen]
      refine ⟨fun g hnone hg => ?_, fun hsome => ?_⟩
      · rw [retestResources_granted (hreasons.trans hnone) (hsame.vacantGrant.trans hg)]
      · rw [retestResources_kept fun hnone => hsome (hreasons.symm.trans hnone)]
        dsimp only
        rw [hreasons, hsame.failingSet]
  · subst hx
    exact ⟨rfl, rfl, rfl, rfl, rfl, rfl, fun hl => if_pos hl, fun hl => if_neg hl⟩
  · exact ⟨(account_lowerHeld a a s).trans (if_pos rfl),
      fun b hb => (account_lowerHeld a b s).trans (if_neg (Ne.symm hb)), rfl⟩
  · refine ⟨fun hf hw => ?_, fun hf hw => ?_, fun hf hw => ?_, fun hf hw => ?_, fun hf => ?_, fun hf => ?_⟩
    · simp [afterHold_eq, hf, hw]
    · simp [afterHold_eq, hf, hw]
    · simp [afterHold_eq, hf, hw]
    · simp [afterHold_eq, hf, hw]
    · cases hw : r.ways <;> simp [afterHold_eq, hf, hw]
    · cases hw : r.ways <;> simp [afterHold_eq, hf, hw]
  · rw [retestWalk, hempty]
    exact congrArg s.setWaiting hempty.symm
  · refine walkFrom_behindOrdered s.waiting [] s fun older e younger hsplit _ => ?_
    simp at hsplit

end Sys2Proof.Machine
end

section
/-! SUPPORT. The taking of Write Data and the filling of a new frame (O26 to O28). -/

namespace Sys2Proof.Machine

/-! ### The check of a Write Data (R35) -/

theorem exec_writeData {s : State} {l : Nat} {m : Message} (hl : l ≤ 4) (hwaits : Waits s l .data m)
    (hkind : m.kind = kindWriteData) : exec (.writeData l) s = takeData l m (takeHead l .data s) := by
  simp [exec, execWriteData, hwaits.takeable, isWriteLink, hl, hkind]

theorem takeData_refused {s : State} {l : Nat} {m : Message} {code : DataCode}
    (h : checkData s l (byteAt m.body 0) m.tag (byteAt m.body 1) = .refused code) :
    takeData l m s = .next (place l (.dataRefused m.tag (byteAt m.body 0) code) s) := by
  rw [takeData, h]

theorem takeData_proceeds {s : State} {l : Nat} {m : Message} {v : Grant}
    (h : checkData s l (byteAt m.body 0) m.tag (byteAt m.body 1) = .proceeds v) :
    takeData l m s =
      match placeSlices (sliceWrites l v m) s with
      | .error e => .fault e
      | .ok (outcomes, s') => .next (endPlacement l (byteAt m.body 0) v outcomes s') := by
  rw [takeData, h] <;> rfl

theorem checkData_late {s : State} {l g tag n : Nat}
    (h : s.grant? g = none ∨ ∃ v, s.grant? g = some v ∧ (v.link ≠ l ∨ v.tag ≠ tag)) :
    checkData s l g tag n = .refused .late := by
  unfold checkData
  rcases h with hnone | ⟨v, hv, hother⟩
  · rw [hnone]
  · rw [hv]
    refine if_neg fun hand => ?_
    rcases hother with h | h
    · exact h hand.1
    · exact h hand.2

theorem checkData_found {s : State} {l g tag n : Nat} {v : Grant} (hv : s.grant? g = some v) (hl : v.link = l)
    (htag : v.tag = tag) :
    checkData s l g tag n = if v.n = n then .proceeds v else .refused .mismatch := by
  unfold checkData
  rw [hv]
  exact if_pos ⟨hl, htag⟩

/-- Settles O26. -/
theorem dataRefused : Obligations.DataRefused := by
  unfold Obligations.DataRefused
  intro s l m hl hwaits hkind
  rw [exec_writeData hl hwaits hkind]
  refine ⟨fun hlate => takeData_refused (checkData_late hlate), fun v hv hlink htag hn => takeData_refused ?_⟩
  exact (checkData_found (s := takeHead l .data s) hv hlink htag).trans (if_neg hn)

/-! ### A frame appended to an OPEN unit (R62, R89, R94) -/

/-- Unit `u` after frame `f` has been appended to it now, before a full unit is staged (R62, R89). -/
def UnitRecord.appended (u : UnitRecord) (f now : Nat) (d : Option Deadline) : UnitRecord :=
  { u with frames := u.frames ++ [f], lastArrival := now, deadline := d }

/-- What the append of frame `f` does to its unit `u` at reading `now`, with `size` frames to a unit (R62, R89, R94). -/
structure Appended (u u' : UnitRecord) (f now size : Nat) : Prop where
  frames : u'.frames = u.frames ++ [f]
  lastArrival : u'.lastArrival = now
  open_ : u.fill + 1 < size → u'.state = u.state
  full : size ≤ u.fill + 1 → u.state = .opened → u'.state = .staged ∧ u'.cause = some .full

theorem unit_appendFrame {s : State} {v : Nat} {u : UnitRecord} (k f : Nat) (hu : s.unit? v = some u) :
    ∃ u', (appendFrame k v f s).unit? v = some u' ∧ Appended u u' f s.now s.cfg.unitSize := by
  unfold appendFrame
  dsimp only
  have hframe := streams_modifyUnit s v fun u => { u with frames := u.frames ++ [f] }
  have hunit := unit?_modifyUnit s v v fun u => { u with frames := u.frames ++ [f] }
  generalize s.modifyUnit v (fun u => { u with frames := u.frames ++ [f] }) = q at hframe hunit ⊢
  rw [if_pos rfl, hu] at hunit
  obtain ⟨p, hp⟩ : ∃ p, p = q.setStream k { q.stream k with slicesPlaced := (q.stream k).slicesPlaced + 1 } := ⟨_, rfl⟩
  rw [← hp]
  have hnow : p.now = s.now := by
    rw [hp]
    exact (congrArg State.now hframe :)
  have hcfg : (arrive k v p).cfg = s.cfg := by
    refine (congrArg State.cfg (arrive_frame k v p) :).trans ?_
    rw [hp]
    exact (congrArg State.cfg hframe :)
  have harrived := unit?_arrive k v v p
  have hpunit : p.unit? v = q.unit? v := by rw [hp]; rfl
  rw [if_pos rfl, hpunit, hunit, hnow] at harrived
  simp only [Option.map_some] at harrived
  generalize arrive k v p = t at hcfg harrived ⊢
  obtain ⟨d, hd⟩ : ∃ d, t.unit? v = some (u.appended f s.now d) := ⟨_, harrived⟩
  have hfill : ((some (u.appended f s.now d)).map UnitRecord.fill).getD 0 = u.fill + 1 := by
    simp [UnitRecord.appended, UnitRecord.fill]
  rw [hd, hcfg, hfill]
  split
  · next hsize =>
    have hstaged := unit?_stageUnit .full v v t
    rw [if_pos rfl, hd, Option.map_some] at hstaged
    by_cases hopen : u.state = .opened
    · rw [if_pos (show (u.appended f s.now d).state = .opened from hopen)] at hstaged
      exact ⟨_, hstaged, rfl, rfl, fun h => absurd h (by omega), fun _ _ => ⟨rfl, rfl⟩⟩
    · rw [if_neg (show ¬(u.appended f s.now d).state = .opened from hopen)] at hstaged
      exact ⟨_, hstaged, rfl, rfl, fun _ => rfl, fun _ h => absurd h hopen⟩
  · next hsize => exact ⟨_, hd, rfl, rfl, fun _ => rfl, fun h => absurd h hsize⟩

/-! ### The opening of a unit (R88) -/

theorem withOpenUnit_open {k v : Nat} {s : State} (h : (s.stream k).openUnit = some v) :
    withOpenUnit k s = some (v, s) := by
  rw [withOpenUnit, h]

theorem withOpenUnit_next {k : Nat} {s : State} (h : (s.stream k).openUnit = none) :
    withOpenUnit k s = (nextRecord s k).map fun r => (unitId k r, openRecord k r s) := by
  rw [withOpenUnit, h]

/-- The choice of a unit, and its opening, have nothing to do with the frames. -/
theorem withOpenUnit_setFrame (k f : Nat) (o : Frame) (s : State) :
    withOpenUnit k (s.setFrame f o) = (withOpenUnit k s).map fun p => (p.1, p.2.setFrame f o) := by
  have hstream : (s.setFrame f o).stream k = s.stream k := rfl
  have hnext : nextRecord (s.setFrame f o) k = nextRecord s k := rfl
  cases hopen : (s.stream k).openUnit with
  | some v => rw [withOpenUnit_open hopen, withOpenUnit_open (hstream ▸ hopen)]; rfl
  | none =>
    rw [withOpenUnit_next hopen, withOpenUnit_next (hstream ▸ hopen), hnext, Option.map_map]
    rfl

/-- A write over a HELD frame leaves the lowest FREE frame what it was (R53). -/
theorem freeFrame_setFrame {s : State} {f : Nat} {o : Frame} (v : Frame) (h : s.frame? f = some o) :
    freeFrame (s.setFrame f v) = freeFrame s := by
  unfold freeFrame
  congr 1
  funext j
  rw [State.frame?_setFrame]
  split
  · next hj => rw [← hj, h]; rfl
  · rfl

/-! ### A slice put into a new frame (R53, R62) -/

/-- The frame a slice is put into (R53, R62). -/
def newFrame (w : SliceWrite) (seq v position : Nat) : Frame :=
  { record := newRecord w seq v position, data := w.data, latent := false }

/-- What the filling of FREE frame `f` for a slice and the write of way `i` do, where `b1` is `b` with the stream's
unit open (R53, R61, R62). -/
structure Filled (b b1 t : State) (w : SliceWrite) (f i v : Nat) : Prop where
  frame : ∀ j, t.frame? j =
    if f = j then some (newFrame w b.nextSeq v (((b1.unit? v).map UnitRecord.fill).getD 0)) else b.frame? j
  nextSeq : t.nextSeq = b.nextSeq + 1
  set : ∀ x, t.indexSet x =
    if indexHash w.key = x then
      { ways := Table.insert (b.indexSet (indexHash w.key)).ways i { key := w.key, frame := f },
        reserved := (b.indexSet (indexHash w.key)).reserved - 1 }
    else b.indexSet x
  rest : StoreFrame b t
  free : t.free = b.free
  accounts : t.accounts = b.accounts
  unit : ∀ u, b1.unit? v = some u → ∃ u', t.unit? v = some u' ∧ Appended u u' f b.now b.cfg.unitSize

theorem fillFrame_filled {b b1 : State} {w : SliceWrite} {v : Nat} (f i : Nat)
    (hopen : withOpenUnit w.stream b = some (v, b1)) :
    Filled b b1 (writeWay (indexHash w.key) i { key := w.key, frame := f } (fillFrame w f v b1)) w f i v := by
  have hopened := openUnit_frame hopen
  have hrest : StoreFrame b (writeWay (indexHash w.key) i { key := w.key, frame := f } (fillFrame w f v b1)) :=
    ((StoreFrame.of_append hopened).trans (.fillFrame w f v b1)).writeWay _ _ _
  obtain ⟨p, hp⟩ : ∃ p, p = ((b1.clearFreed f).setFrame f
      (newFrame w b1.nextSeq v (((b1.unit? v).map UnitRecord.fill).getD 0))).setNextSeq (b1.nextSeq + 1) := ⟨_, rfl⟩
  have hfill : fillFrame w f v b1 = appendFrame w.stream v f p := by rw [hp]; rfl
  rw [hfill] at hrest ⊢
  have happend := appendFrame_frame w.stream v f p
  have hunit : ∀ u, b1.unit? v = some u → _ := fun u hu =>
    unit_appendFrame (s := p) w.stream f (show p.unit? v = some u by rw [hp]; exact hu)
  have hnow : p.now = b.now := by rw [hp]; exact (congrArg State.now hopened :)
  have hcfg : p.cfg = b.cfg := by rw [hp]; exact (congrArg State.cfg hopened :)
  rw [hnow, hcfg] at hunit
  generalize appendFrame w.stream v f p = q at happend hrest hunit ⊢
  have hseq : b1.nextSeq = b.nextSeq := (congrArg State.nextSeq hopened :)
  have hset (x : Nat) : q.indexSet x = b.indexSet x := by
    refine indexSet_same ((congrArg State.sets happend :).trans ?_) x
    rw [hp]
    exact (congrArg State.sets hopened :)
  refine ⟨fun j => ?_, ?_, fun x => ?_, hrest, ?_, ?_, hunit⟩
  · refine (congrArg (Table.find? · j) (congrArg State.frames happend :)).trans ?_
    rw [hp]
    refine (State.frame?_setFrame ..).trans ?_
    rw [hseq]
    have hkept : (b1.clearFreed f).frame? j = b.frame? j := congrArg (Table.find? · j) (congrArg State.frames hopened :)
    rw [hkept]
  · refine (congrArg State.nextSeq happend :).trans ?_
    rw [hp]
    exact congrArg (· + 1) hseq
  · unfold writeWay
    dsimp only
    rw [State.indexSet_setIndexSet, hset, hset]
  · refine (congrArg State.free happend :).trans ?_
    rw [hp]
    exact (congrArg State.free hopened :)
  · refine (congrArg State.accounts happend :).trans ?_
    rw [hp]
    exact (congrArg State.accounts hopened :)

theorem placeNew_ok {s s1 : State} {w : SliceWrite} {f v : Nat} (hfree : freeFrame s = some f)
    (hopen : withOpenUnit w.stream s = some (v, s1)) : placeNew w s = .ok (f, fillFrame w f v s1) := by
  rw [placeNew, hfree, hopen]

/-- A miss (Table 3-3). -/
theorem placeSlice_miss {s s1 : State} {w : SliceWrite} {f i v : Nat}
    (hmiss : ∀ j way, lookup s w.key = some (j, way) → s.frame? way.frame = none)
    (hway : vacantWay (s.indexSet (indexHash w.key)) = some i) (hfree : freeFrame s = some f)
    (hopen : withOpenUnit w.stream s = some (v, s1)) :
    placeSlice w s = .ok (.placed s.nextSeq,
      writeWay (indexHash w.key) i { key := w.key, frame := f } (fillFrame w f v s1)) := by
  have hplaced : placeMiss w s = .ok (.placed s.nextSeq,
      writeWay (indexHash w.key) i { key := w.key, frame := f } (fillFrame w f v s1)) := by
    unfold placeMiss
    dsimp only
    rw [hway]
    dsimp only
    rw [placeNew_ok hfree hopen]
  unfold placeSlice
  split
  · exact hplaced
  · next way hfound =>
    rw [hmiss _ _ hfound]
    exact hplaced

/-- A hit that supersedes (Table 3-3). -/
theorem placeSlice_supersede {s s1 : State} {w : SliceWrite} {f i v : Nat} {way : Way} {o : Frame}
    (hfound : lookup s w.key = some (i, way)) (hheld : s.frame? way.frame = some o)
    (hnotInPlace : ¬(o.record.cls = w.cls ∧ (s.stream w.stream).openUnit = some o.record.unit))
    (hnotDropped : ¬(w.cls = .reclaim ∧ o.record.cls = .host)) (hfree : freeFrame s = some f)
    (hopen : withOpenUnit w.stream s = some (v, s1)) :
    placeSlice w s = .ok (.placed s.nextSeq, writeWay (indexHash w.key) i { key := w.key, frame := f }
      (fillFrame w f v (s1.setFrame way.frame { o with record := { o.record with void := true } }))) := by
  unfold placeSlice
  rw [hfound]
  dsimp only
  rw [hheld]
  dsimp only
  rw [if_neg hnotInPlace, if_neg hnotDropped, placeSupersede]
  dsimp only
  rw [placeNew_ok (f := f) (v := v) ((freeFrame_setFrame _ hheld).trans hfree) (by rw [withOpenUnit_setFrame, hopen]; rfl)]

theorem freeFrame_some {s : State} {f : Nat} (h : freeFrame s = some f) : s.frame? f = none := by
  have hnone := (firstFrom_some h).2.2.1
  simpa using hnone

/-- Settles O28: both outcomes fill a new frame (`Filled`); the rest is the opening of a record (R88). -/
theorem newFramePlacement : Obligations.NewFramePlacement := by
  unfold Obligations.NewFramePlacement
  refine ⟨fun s s1 w f i v old hcase hfree hopen => ?_, fun s s1 k v hopen => ⟨fun w hw => ?_, fun hnone => ?_⟩,
    fun s k hnone hvacant => ?_⟩
  · rcases hcase with ⟨hmiss, rfl, hway⟩ | ⟨way, o, hfound, hheld, rfl, hnotInPlace, hnotDropped⟩
    · have F := fillFrame_filled f i hopen
      refine ⟨_, placeSlice_miss (fun j way h => by rw [hmiss] at h; cases h) hway hfree hopen, (F.frame f).trans (if_pos rfl),
        fun j o h => (by cases h), fun j hj _ => (F.frame j).trans (if_neg (Ne.symm hj)), F.nextSeq,
        (F.set _).trans (if_pos rfl), fun x hx => (F.set x).trans (if_neg (Ne.symm hx)), F.free, F.accounts,
        (congrArg State.grants F.rest :), (congrArg State.waiting F.rest :), (congrArg State.lanes F.rest :),
        (congrArg State.links F.rest :), fun u hu => ?_⟩
      obtain ⟨u', hu', A⟩ := F.unit u hu
      exact ⟨u', hu', A.frames, A.lastArrival, A.open_, A.full⟩
    · have hopen' : withOpenUnit w.stream (s.setFrame way.frame { o with record := { o.record with void := true } }) =
          some (v, s1.setFrame way.frame { o with record := { o.record with void := true } }) := by
        rw [withOpenUnit_setFrame, hopen]
        rfl
      have F := fillFrame_filled f i hopen'
      have hne : f ≠ way.frame := fun h => by
        rw [← h, freeFrame_some hfree] at hheld
        cases hheld
      have hrest := F.rest
      refine ⟨_, placeSlice_supersede hfound hheld hnotInPlace hnotDropped hfree hopen, (F.frame f).trans (if_pos rfl),
        fun j o' h => ?_, fun j hj hold => ?_, F.nextSeq,
        (F.set _).trans (if_pos rfl), fun x hx => (F.set x).trans (if_neg (Ne.symm hx)), F.free, F.accounts,
        (congrArg State.grants hrest :), (congrArg State.waiting hrest :), (congrArg State.lanes hrest :),
        (congrArg State.links hrest :), fun u hu => ?_⟩
      · cases h
        rw [F.frame, if_neg hne, State.frame?_setFrame, if_pos rfl]
      · have hj' : way.frame ≠ j := fun h => hold o (by rw [h])
        rw [F.frame, if_neg (Ne.symm hj), State.frame?_setFrame, if_neg hj']
      · obtain ⟨u', hu', A⟩ := F.unit u hu
        exact ⟨u', hu', A.frames, A.lastArrival, A.open_, A.full⟩
  · rw [withOpenUnit_open hw] at hopen
    cases hopen
    exact ⟨rfl, rfl⟩
  · rw [withOpenUnit_next hnone, Option.map_eq_some_iff] at hopen
    obtain ⟨r, hr, hopened⟩ := hopen
    cases hopened
    obtain ⟨i, hi, hri, hvacant, hbefore⟩ := nextRecord_some hr
    have hid : unitId k r = 64 * k + r := rfl
    have O := openRecord_effect k r s
    refine ⟨i, hi, by rw [hid, hri], hid ▸ hvacant, hbefore, O.unit, O.others, ?_, O.streams, O.drainCount, O.rest⟩
    rw [O.stream, hri]
  · obtain ⟨r, hr, hnone'⟩ := hvacant
    rw [withOpenUnit_next hnone, Option.isSome_map]
    exact nextRecord_isSome hr hnone'

/-! ### The whole placement (R60, R66) -/

theorem length_placeSlices (ws : List SliceWrite) : ∀ {s t : State} {os : List Placed},
    placeSlices ws s = .ok (os, t) → os.length = ws.length := by
  induction ws with
  | nil =>
    intro s t os h
    cases h
    rfl
  | cons w ws ih =>
    intro s t os h
    unfold placeSlices at h
    split at h
    · cases h
    · split at h
      · cases h
      · next hrest =>
        cases h
        exact congrArg (· + 1) (ih hrest)

/-- A slice is placed wherever a FREE frame, a VACANT way and a unit are at hand (Table 3-3). -/
theorem placeSlice_total {s : State} {w : SliceWrite} (hfree : (freeFrame s).isSome = true)
    (hway : (vacantWay (s.indexSet (indexHash w.key))).isSome = true) (hopen : (withOpenUnit w.stream s).isSome = true) :
    ∃ p, placeSlice w s = .ok p := by
  obtain ⟨f, hf⟩ := Option.isSome_iff_exists.mp hfree
  obtain ⟨i, hi⟩ := Option.isSome_iff_exists.mp hway
  obtain ⟨⟨v, s1⟩, hv⟩ := Option.isSome_iff_exists.mp hopen
  cases hfound : lookup s w.key with
  | none => exact ⟨_, placeSlice_miss (fun j way h => by rw [hfound] at h; cases h) hi hf hv⟩
  | some p =>
    obtain ⟨j, way⟩ := p
    cases hheld : s.frame? way.frame with
    | none =>
      exact ⟨_, placeSlice_miss (fun j' way' h => by rw [hfound] at h; cases h; exact hheld) hi hf hv⟩
    | some o =>
      by_cases hinPlace : o.record.cls = w.cls ∧ (s.stream w.stream).openUnit = some o.record.unit
      · exact ⟨_, placeSlice_inPlace hfound hheld hinPlace.1 hinPlace.2⟩
      · by_cases hdropped : w.cls = .reclaim ∧ o.record.cls = .host
        · exact ⟨_, placeSlice_dropped hfound hheld hdropped.1 hdropped.2⟩
        · exact ⟨_, placeSlice_supersede hfound hheld hinPlace hdropped hf hv⟩

theorem sliceWrites_one (l : Nat) (v : Grant) (m : Message) (h : v.n = 1) :
    ∃ w, sliceWrites l v m = [w] ∧ w.stream = v.stream ∧ w.key = v.key := by
  unfold sliceWrites
  rw [h]
  exact ⟨_, rfl, rfl, rfl⟩

/-- The acts before the re-test walk and the evaluation of SAFE write what admission writes (R36, R66). -/
theorem endPlacement_frame (l g : Nat) (v : Grant) (os : List Placed) (r : State) :
    AdmissionFrame r (retestWalk (endOfPlacement v.stream
      (place l (.writeDone v.tag g v.stream v.n os) (settleGrant g v r)))) :=
  have K := AdmissionFrame.survives r
  K.retestWalk (K.toSurvivesGrants.endOfPlacement _ (K.place _ _ _ (K.toSurvivesGrants.settleGrant _ _ (.refl r))))

/-- Settles O27. -/
theorem dataPlacedWhole : Obligations.DataPlacedWhole := by
  unfold Obligations.DataPlacedWhole
  intro s l m v hl hwaits hkind hv hlink htag hn
  have hcheck : checkData (takeHead l .data s) l (byteAt m.body 0) m.tag (byteAt m.body 1) = .proceeds v :=
    (checkData_found (s := takeHead l .data s) hv hlink htag).trans (if_pos hn)
  rw [exec_writeData hl hwaits hkind, takeData_proceeds hcheck]
  refine ⟨fun outcomes r hplaced => ⟨?_, ?_, ?_, _, by rw [hplaced], ?_⟩, fun hone hfree hway hopen => ?_⟩
  · rw [length_placeSlices _ hplaced]
    simp [sliceWrites]
  · refine (congrArg (Table.find? · _) (same_releaseRecords v.stream v.k _).grants).trans ?_
    exact (State.grant?_clearGrant ..).trans (if_pos rfl)
  · unfold settleGrant releaseRecords
    rw [reserved_checkUnbound, State.stream_setStream_same]
    rfl
  · have hframe := endPlacement_frame l (byteAt m.body 0) v outcomes r
    unfold endPlacement
    dsimp only
    rw [htag] at hframe ⊢
    generalize retestWalk _ = q at hframe ⊢
    have hsafe := evalSafe_frame q
    exact ⟨rfl, (congrArg State.frames hsafe :).trans (congrArg State.frames hframe :),
      (congrArg State.nextSeq hsafe :).trans (congrArg State.nextSeq hframe :),
      (congrArg State.drainCount hsafe :).trans (congrArg State.drainCount hframe :),
      (congrArg State.tenants hsafe :).trans (congrArg State.tenants hframe :),
      (congrArg State.lanes hsafe :).trans (congrArg State.lanes hframe :),
      (congrArg State.flushes hsafe :).trans (congrArg State.flushes hframe :), evalSafe_level q⟩
  · obtain ⟨w, hw, hstream, hkey⟩ := sliceWrites_one l v m hone
    obtain ⟨⟨o, r⟩, hplaced⟩ := placeSlice_total (s := takeHead l .data s) (w := w) hfree (hkey ▸ hway) (by
      rw [hstream]
      cases hunit : (s.stream v.stream).openUnit with
      | some u => rw [withOpenUnit_open (s := takeHead l .data s) hunit]; rfl
      | none =>
        rw [withOpenUnit_next hunit, Option.isSome_map] at hopen
        rw [withOpenUnit_next (s := takeHead l .data s) hunit, Option.isSome_map]
        exact hopen)
    have hall : placeSlices [w] (takeHead l .data s) = .ok ([o], r) := by
      rw [placeSlices, hplaced]
      rfl
    rw [hw, hall]
    exact ⟨_, rfl⟩

end Sys2Proof.Machine
end


section
/-! SUPPORT. What a Read Probe and an Inquire answer (R69 to R73), and the answers a Flush has at its taking
(R148, R149). -/

namespace Sys2Proof.Machine

/-! ### The answers to the keys of a Read Probe (R70, R73) -/

/-- A copy without an error found before reads clean where the command carries no result (R73). -/
theorem readFrame_clean {f : Nat} {v : Frame} {s : State} (hlatent : v.latent = false) :
    readFrame f v (nextRead []) s = (v, s) := by
  simp only [readFrame, readOutcome, nextRead, List.headD_nil, hlatent]

/-- The frame a key is found at, with its index, is the one `frameOf` names. -/
theorem frameOf_eq (s : State) (k : Key) :
    frameOf s k =
      ((lookup s k).bind fun p => (s.frame? p.2.frame).map fun v => (p.2.frame, v)).map Prod.snd := by
  unfold frameOf
  cases lookup s k with
  | none => rfl
  | some p => cases h : s.frame? p.2.frame <;> simp [h]

/-- The pair found for a key is a HELD frame. -/
theorem frame_of_found {s : State} {k : Key} {f : Nat} {v : Frame}
    (h : ((lookup s k).bind fun p => (s.frame? p.2.frame).map fun v => (p.2.frame, v)) = some (f, v)) :
    s.frame? f = some v := by
  obtain ⟨p, -, hp⟩ := Option.bind_eq_some_iff.1 h
  obtain ⟨w, hw, heq⟩ := Option.map_eq_some_iff.1 hp
  obtain ⟨rfl, rfl⟩ := Prod.mk.inj heq
  exact hw

/-- With no error found before and no result in the command, each key has its clean answer and no record
changes (R70, R73). -/
theorem probeKeys_clean {s : State} (hclean : NoLatent s) (ks : List Key) :
    probeKeys ks [] s = (ks.map (cleanStatus s), ks.filterMap (cleanData s), s) := by
  induction ks with
  | nil => rfl
  | cons k ks ih =>
    have hframe := frameOf_eq s k
    unfold probeKeys
    cases hfound : (lookup s k).bind fun p => (s.frame? p.2.frame).map fun v => (p.2.frame, v) with
    | none =>
      rw [hfound] at hframe
      simp [ih, cleanStatus, cleanData, hframe]
    | some p =>
      obtain ⟨f, v⟩ := p
      have hread := readFrame_clean (f := f) (s := s) (hclean f v (frame_of_found hfound))
      rw [hfound] at hframe
      by_cases hdamaged : v.record.damaged = true
      · simp [ih, cleanStatus, cleanData, hframe, hdamaged]
      · simp [ih, cleanStatus, cleanData, hframe, hdamaged, hread]

/-- A Read Probe answers every key, and beside the frames it reads only the counts and the flag of the store's
errors may differ (R70, R73). -/
theorem probeKeys_reads (ks : List Key) : ∀ (reads : List ReadResult) (s : State),
    (probeKeys ks reads s).1.length = ks.length ∧
      { (probeKeys ks reads s).2.2 with
        frames := s.frames, corrected := s.corrected, uncorrectable := s.uncorrectable,
        events := s.events, alert := s.alert } = s := by
  induction ks with
  | nil => exact fun _ _ => ⟨rfl, rfl⟩
  | cons k ks ih =>
    intro reads s
    unfold probeKeys
    cases hfound : (lookup s k).bind fun p => (s.frame? p.2.frame).map fun v => (p.2.frame, v) with
    | none => exact ⟨congrArg (· + 1) (ih reads s).1, (ih reads s).2⟩
    | some p =>
      obtain ⟨f, v⟩ := p
      dsimp only
      split
      · exact ⟨congrArg (· + 1) (ih reads s).1, (ih reads s).2⟩
      · obtain ⟨hread, -⟩ := readFrame_read (nextRead reads) (frame_of_found hfound) (List.mem_singleton_self f)
        generalize readFrame f v (nextRead reads) s = q at hread ⊢
        obtain ⟨hlength, hrest⟩ := ih reads.tail q.2
        have hframe := (congrArg (fun r : State => { r with
          frames := s.frames, corrected := s.corrected, uncorrectable := s.uncorrectable,
          events := s.events, alert := s.alert }) hrest :).trans hread.rest
        split <;> exact ⟨congrArg (· + 1) hlength, hframe⟩

/-! ### The taking of a Read Probe and of an Inquire (R69 to R72) -/

theorem exec_readProbe {s : State} {m : Message} (reads : List ReadResult) (hwaits : Waits s 0 .read m)
    (hkind : m.kind = kindReadProbe) :
    exec (.readProbe reads) s = .next (takeProbe m.tag (readRun m.body) reads (takeHead 0 .read s)) :=
  congrArg Host.Outcome.next (taking_waits _ hwaits hkind)

theorem exec_inquire {s : State} {l : Nat} {m : Message} (hwaits : ControlWaits s l kindInquire m) :
    exec (.inquire l) s = .next (takeInquire l m.tag (readRun m.body) (takeHead l .control s)) :=
  congrArg Host.Outcome.next (controlTaking_waits _ hwaits)

theorem takeProbe_refused {tag : Nat} {q : KeyRun} {reads : List ReadResult} {s : State}
    (hrun : runOk q.key.handle q.key.lba q.n = false) :
    takeProbe tag q reads s = place 0 (.probeRefused tag) s := by
  simp only [takeProbe, hrun, Bool.false_eq_true, if_false]

theorem takeProbe_starting {tag : Nat} {q : KeyRun} {reads : List ReadResult} {s : State}
    (hrun : runOk q.key.handle q.key.lba q.n = true) (hpart : s.part = .starting) :
    takeProbe tag q reads s = place 0 (.probeAnswer tag q.n (List.replicate q.n .miss) []) s := by
  simp only [takeProbe, hrun, hpart, if_true]

theorem takeProbe_answered {tag : Nat} {q : KeyRun} {reads : List ReadResult} {s : State}
    (hrun : runOk q.key.handle q.key.lba q.n = true) (hpart : s.part ≠ .starting) :
    takeProbe tag q reads s =
      place 0 (.probeAnswer tag q.n (probeKeys (runKeys q.key q.n) reads s).1
        (probeKeys (runKeys q.key q.n) reads s).2.1) (probeKeys (runKeys q.key q.n) reads s).2.2 := by
  simp only [takeProbe, hrun, if_true, if_neg hpart]

theorem takeInquire_refused {l tag : Nat} {q : KeyRun} {s : State}
    (hrun : runOk q.key.handle q.key.lba q.n = false) :
    takeInquire l tag q s = place l (.inquireRefused tag) s := by
  simp only [takeInquire, hrun, Bool.false_eq_true, if_false]

theorem takeInquire_starting {l tag : Nat} {q : KeyRun} {s : State}
    (hrun : runOk q.key.handle q.key.lba q.n = true) (hpart : s.part = .starting) :
    takeInquire l tag q s = place l (.inquireAnswer tag q.n (List.replicate q.n false)) s := by
  simp only [takeInquire, hrun, hpart, if_true]

theorem takeInquire_answered {l tag : Nat} {q : KeyRun} {s : State}
    (hrun : runOk q.key.handle q.key.lba q.n = true) (hpart : s.part ≠ .starting) :
    takeInquire l tag q s =
      place l (.inquireAnswer tag q.n ((runKeys q.key q.n).map fun k => (lookup s k).isSome)) s := by
  simp only [takeInquire, hrun, if_true, if_neg hpart]

/-- Settles O31: the answers to the keys by induction on the run, with and without errors in the store. -/
theorem probesAndInquiries : Obligations.ProbesAndInquiries := by
  unfold Obligations.ProbesAndInquiries
  rintro s l m q rfl
  refine ⟨fun hwaits hkind => ⟨fun hrun reads => ?_, fun hrun hpart reads => ?_, fun hrun hpart hclean => ?_,
    fun hrun hpart reads => ?_⟩, fun hwaits => ⟨fun hrun => ?_, fun hrun hpart => ?_, fun hrun hpart => ?_⟩⟩
  · rw [exec_readProbe reads hwaits hkind, takeProbe_refused hrun]
  · rw [exec_readProbe reads hwaits hkind, takeProbe_starting (s := takeHead 0 .read s) hrun hpart]
  · rw [exec_readProbe [] hwaits hkind, takeProbe_answered (s := takeHead 0 .read s) hrun hpart,
      probeKeys_clean (s := takeHead 0 .read s) hclean]
    rfl
  · obtain ⟨hlength, hrest⟩ := probeKeys_reads (runKeys (readRun m.body).key (readRun m.body).n) reads
      (takeHead 0 .read s)
    refine ⟨_, _, _, hlength.trans ?_, (exec_readProbe reads hwaits hkind).trans
      (congrArg Host.Outcome.next (takeProbe_answered hrun hpart)),
      (congrArg (fun r : State => { r with links := s.links }) hrest :)⟩
    simp [runKeys]
  · rw [exec_inquire hwaits, takeInquire_refused hrun]
  · rw [exec_inquire hwaits, takeInquire_starting (s := takeHead l .control s) hrun hpart]
  · rw [exec_inquire hwaits, takeInquire_answered (s := takeHead l .control s) hrun hpart]
    rfl

/-! ### The taking of a Flush (R148 to R150) -/

/-- Both commands take the Flush at the head of the INTENT channel (R148, R150). -/
theorem exec_takesFlush {s : State} {m : Message} {c : Instr} (h : TakesFlush s m c)
    (hkind : m.kind = kindFlush) : exec c s = .next (flushTaking m s) := by
  cases h with
  | first hwaits => simp [exec, execFlush, hwaits.takeable, hkind]
  | again hwaits => simp [exec, execStalledFlushRetake, hwaits.retakeable, hkind]

theorem exec_flushTaken {s t : State} {m : Message} {c : Instr} (h : TakesFlush s m c)
    (hkind : m.kind = kindFlush)
    (htaken : takeFlush m.tag (readScope m.body) (takeHead 0 .intent s) = some t) : exec c s = .next t := by
  rw [exec_takesFlush h hkind, flushTaking, htaken]

theorem exec_flushStalled {s : State} {m : Message} {c : Instr} (h : TakesFlush s m c)
    (hkind : m.kind = kindFlush)
    (hstalls : takeFlush m.tag (readScope m.body) (takeHead 0 .intent s) = none) :
    exec c s = .next (stallHead 0 .intent s) := by
  rw [exec_takesFlush h hkind, flushTaking, hstalls]

/-- A Flush whose scope names every host account or a tenant is taken for that scope (R148). -/
theorem takeFlush_scope {tag : Nat} {scope : Scope} {s : State} (h : ∀ t, scope = .tenant t → t < 256) :
    takeFlush tag (some scope) s = takeScope tag scope s := by
  cases scope with
  | tenant t => exact if_pos (h t rfl)
  | all => rfl

theorem takeFlush_noTenant {tag t : Nat} {s : State} (h : 256 ≤ t) :
    takeFlush tag (some (.tenant t)) s = some (place 0 (.flushRefused tag) s) :=
  if_neg (Nat.not_lt.2 h)

theorem takeScope_atOnce {tag : Nat} {c : Scope} {s : State} (h : flushCounts s c (s.nextSeq - 1) = 0) :
    takeScope tag c s = some (place 0 (.flushDone tag true) s) :=
  if_pos h

theorem takeScope_waits {tag : Nat} {c : Scope} {s : State} (h : flushCounts s c (s.nextSeq - 1) ≠ 0) :
    takeScope tag c s =
      match vacantFlush s with
      | some e => some (activateFlush e tag c s)
      | none =>
        match newestFlush s with
        | none => none
        | some e =>
          match s.flush? e with
          | none => none
          | some v => if v.tags.length < Config.flushTagLimit then some (mergeFlush e v tag c s) else none :=
  if_neg h

/-- Settles O34. -/
theorem flushAnsweredAtOnce : Obligations.FlushAnsweredAtOnce := by
  unfold Obligations.FlushAnsweredAtOnce
  intro s m c htakes hkind
  refine ⟨fun hscope => ?_, fun t hscope ht => ?_, fun scope hscope htenant hcount => ?_⟩
  · exact exec_flushTaken htakes hkind (by rw [hscope]; rfl)
  · exact exec_flushTaken htakes hkind (by rw [hscope, takeFlush_noTenant ht])
  · refine exec_flushTaken htakes hkind ?_
    rw [hscope, takeFlush_scope htenant, takeScope_atOnce]
    exact hcount

end Sys2Proof.Machine
end


section
/-! SUPPORT. What a Flush that must wait does to the flush entries, and what a Unit Done, a unit's fault and a
Unit Restage do to them (R149 to R153). -/

namespace Sys2Proof.Machine

/-! ### A Flush that takes an entry or merges (R149, R150) -/

/-- Between `s` and `t` flush entry `e` has become `q`, and the OPEN units of `vs` are STAGED with cause FLUSH. -/
structure FlushTracked (s t : State) (e : Nat) (q : FlushEntry) (vs : List Nat) : Prop where
  entry : t.flush? e = some q
  others : ∀ i, i ≠ e → t.flush? i = s.flush? i
  staged : ∀ v u, s.unit? v = some u → v ∈ vs → u.state = .opened → ∃ n, t.unit? v = some
    { u with state := .staged, cause := some .flush, deadline := none, stagedSeq := some n }
  kept : ∀ v, v ∉ vs → t.unit? v = s.unit? v
  links : t.links = s.links
  rest : { t with
    flushes := s.flushes, units := s.units, streams := s.streams, stagedCounter := s.stagedCounter } =
      { s with flushOrder := t.flushOrder }

/-- Staging a group after flush entry `e` has been written. -/
theorem flushTracked (e : Nat) (q : FlushEntry) (order vs : List Nat) (s : State) :
    FlushTracked s (stageAll .flush vs { s.setFlush e q with flushOrder := order }) e q vs ∧
      (stageAll .flush vs { s.setFlush e q with flushOrder := order }).flushOrder = order := by
  obtain ⟨r, hr⟩ : ∃ r : State, r = { s.setFlush e q with flushOrder := order } := ⟨_, rfl⟩
  have hunit : ∀ v, r.unit? v = s.unit? v := by rw [hr]; exact fun _ => rfl
  have hflush : ∀ i, r.flush? i = (s.setFlush e q).flush? i := by rw [hr]; exact fun _ => rfl
  have hlinks : r.links = s.links := by rw [hr]; rfl
  have horder : r.flushOrder = order := by rw [hr]
  have hrest : { r with flushes := s.flushes } = { s with flushOrder := order } := by rw [hr]; rfl
  have hwrites : r.units = s.units ∧ r.streams = s.streams ∧ r.stagedCounter = s.stagedCounter := by
    rw [hr]; exact ⟨rfl, rfl, rfl⟩
  rw [← hr]
  obtain ⟨hstaged, hkept, -⟩ := stageAll_units .flush vs r
  have hframe := stageAll_frame .flush vs r
  generalize stageAll .flush vs r = t at hstaged hkept hframe
  have hsame : ∀ i, t.flush? i = (s.setFlush e q).flush? i := fun i =>
    (congrArg (fun x : State => x.flush? i) hframe :).trans (hflush i)
  refine ⟨⟨(hsame e).trans (State.flush?_setFlush_same s e q), fun i hi => ?_, fun v u hu hv ho => ?_,
    fun v hv => (hkept v hv).trans (hunit v), (congrArg State.links hframe :).trans hlinks, ?_⟩,
    (congrArg State.flushOrder hframe :).trans horder⟩
  · rw [hsame, State.flush?_setFlush, if_neg (Ne.symm hi)]
  · exact hstaged v u ((hunit v).trans hu) hv ho
  · have hkept : t.flushOrder = order := (congrArg State.flushOrder hframe :).trans horder
    obtain ⟨hunits, hstreams, hcounter⟩ := hwrites
    rw [hunits, hstreams, hcounter] at hframe
    exact (congrArg (fun x : State => { x with flushes := s.flushes }) hframe :).trans
      (hrest.trans (by rw [hkept]))

/-- The state after a Flush of scope `c` is given VACANT entry `e` (R149). -/
theorem activateFlush_tracked (e tag : Nat) (c : Scope) (s : State) :
    FlushTracked s (activateFlush e tag c s) e
      { scope := c, horizon := s.nextSeq - 1, count := flushCounts s c (s.nextSeq - 1), tags := [tag] }
      (flushUnits s c (s.nextSeq - 1)) ∧
    (activateFlush e tag c s).flushOrder = s.flushOrder ++ [e] :=
  flushTracked e _ (s.flushOrder ++ [e]) (flushUnits s c (s.nextSeq - 1)) s

/-- The scope of a merge, read from the Flush that merges (R150). -/
theorem mergeScope_eq (a b : Scope) : mergeScope a b = if a = b then b else .all := by
  unfold mergeScope
  split <;> simp_all

/-- The state after a Flush has merged into entry `e` with the resulting scope `c` (R150). -/
theorem mergeFlush_tracked (e tag : Nat) (v : FlushEntry) (scope : Scope) (s : State) :
    FlushTracked s (mergeFlush e v tag scope s) e
      { scope := mergeScope v.scope scope, horizon := s.nextSeq - 1,
        count := flushCounts s (mergeScope v.scope scope) (s.nextSeq - 1), tags := v.tags ++ [tag] }
      (flushUnits s (mergeScope v.scope scope) (s.nextSeq - 1)) ∧
    (mergeFlush e v tag scope s).flushOrder = s.flushOrder :=
  flushTracked e _ s.flushOrder (flushUnits s (mergeScope v.scope scope) (s.nextSeq - 1)) s

section
variable {s : State} {tag : Nat} {c : Scope}

theorem takeScope_vacant {e : Nat} (h : flushCounts s c (s.nextSeq - 1) ≠ 0) (hvacant : vacantFlush s = some e) :
    takeScope tag c s = some (activateFlush e tag c s) := by
  rw [takeScope_waits h, hvacant]

theorem takeScope_merges {e : Nat} {v : FlushEntry} (h : flushCounts s c (s.nextSeq - 1) ≠ 0)
    (hvacant : vacantFlush s = none) (hnewest : newestFlush s = some e) (hentry : s.flush? e = some v)
    (hroom : v.tags.length < 4) : takeScope tag c s = some (mergeFlush e v tag c s) := by
  rw [takeScope_waits h, hvacant]
  simp only [hnewest, hentry]
  exact if_pos hroom

theorem takeScope_full {e : Nat} {v : FlushEntry} (h : flushCounts s c (s.nextSeq - 1) ≠ 0)
    (hvacant : vacantFlush s = none) (hnewest : newestFlush s = some e) (hentry : s.flush? e = some v)
    (hfull : 4 ≤ v.tags.length) : takeScope tag c s = none := by
  rw [takeScope_waits h, hvacant]
  simp only [hnewest, hentry]
  exact if_neg (Nat.not_lt.2 hfull)

end

/-! ### An ACTIVE entry at a Unit Done, a fault and a restage (R151 to R153) -/

section
variable {s : State} {v e : Nat} {q : FlushEntry}

theorem lowerFlush_left (hentry : s.flush? e = some q)
    (hleft : 0 < q.count - flushCountsIn s q.scope q.horizon v) :
    lowerFlush v e s = s.setFlush e { q with count := q.count - flushCountsIn s q.scope q.horizon v } := by
  simp only [lowerFlush, hentry]
  exact if_neg hleft.ne'

theorem lowerFlush_ends (hentry : s.flush? e = some q)
    (hnone : q.count - flushCountsIn s q.scope q.horizon v = 0) :
    lowerFlush v e s = endFlush true e q s := by
  simp only [lowerFlush, hentry]
  exact if_pos hnone

theorem raiseFlush_active (hentry : s.flush? e = some q) :
    raiseFlush v e s =
      s.setFlush e { q with count := q.count + flushCountsIn s q.scope q.horizon v } := by
  simp only [raiseFlush, hentry]

theorem faultFlush_outside (hentry : s.flush? e = some q)
    (hnone : flushCountsIn s q.scope q.horizon v = 0) : faultFlush v e s = s := by
  simp only [faultFlush, hentry, hnone, lt_irrefl, if_false]

theorem faultFlush_ends (hentry : s.flush? e = some q)
    (hsome : 0 < flushCountsIn s q.scope q.horizon v) :
    faultFlush v e s = setEvent .flushFault (endFlush false e q s) := by
  simp only [faultFlush, hentry, hsome, if_true]

end

/-- A flag set afterwards changes nothing of the end of an entry. -/
theorem FlushEnds.setEvent {s t : State} {e : Nat} {q : FlushEntry} {ok : Bool} (h : FlushEnds s t e q ok)
    (x : Event) : FlushEnds s (setEvent x t) e q ok where
  vacant := h.vacant
  others := h.others
  order := h.order
  answers := h.answers
  again := h.again
  links := h.links
  rest := h.rest

/-! ### A Unit Done (R124, R125) -/

theorem unitLaneOk_iff (v i : Nat) : unitLaneOk v i = true ↔ v < 4096 ∧ i < 8 := by
  unfold unitLaneOk
  rw [Bool.and_eq_true, decide_eq_true_eq, decide_eq_true_eq]
  rfl

/-- The unit the message names is IN_FLIGHT on the lane it names. -/
theorem inFlightAt_of {s : State} {g v : Nat} {u : UnitRecord} (hu : s.unit? v = some u)
    (hstate : u.state = .inFlight) (hlane : u.lane = some g) : inFlightAt s g v = some u := by
  simp [inFlightAt, hu, hstate, hlane]

section
variable {s : State} {l v i : Nat} {m : Message} {u : UnitRecord}

theorem exec_unitDone (hwaits : ControlWaits s l kindUnitDone m) :
    exec (.unitDone l) s = .next (takeUnitDone l (numAt m.body 0 2) (byteAt m.body 2) (opaqueAt m.body 3)
      (takeHead l .control s)) :=
  congrArg Host.Outcome.next (controlTaking_waits _ hwaits)

theorem exec_unitFail (hwaits : ControlWaits s l kindUnitFail m) :
    exec (.unitFail l) s = .next (takeUnitFail l (numAt m.body 0 2) (byteAt m.body 2) (readReason m.body)
      (takeHead l .control s)) :=
  congrArg Host.Outcome.next (controlTaking_waits _ hwaits)

theorem takeUnitDone_completes (handle : Opaque40) (hfields : v < 4096 ∧ i < 8)
    (hflies : inFlightAt s (globalLane l i) v = some u) :
    takeUnitDone l v i handle s = completeUnit (globalLane l i) v u handle s := by
  simp only [takeUnitDone, (unitLaneOk_iff v i).2 hfields, Bool.not_true, Bool.false_eq_true, if_false, hflies]

theorem takeUnitFail_fails (reason : FailReason) (hfields : v < 4096 ∧ i < 8)
    (hflies : inFlightAt s (globalLane l i) v = some u) :
    takeUnitFail l v i (some reason) s = failUnit (globalLane l i) v u reason s := by
  simp only [takeUnitFail, (unitLaneOk_iff v i).2 hfields, Bool.not_true, Bool.false_eq_true, if_false, hflies]

/-- A Unit Done that passes its checks (R124, R125). -/
theorem exec_unitDone_flying (hwaits : ControlWaits s l kindUnitDone m) (hv : numAt m.body 0 2 = v)
    (hi : byteAt m.body 2 = i) (hfields : v < 4096 ∧ i < 8)
    (hflies : inFlightAt s (globalLane l i) v = some u) :
    exec (.unitDone l) s =
      .next (completeUnit (globalLane l i) v u (opaqueAt m.body 3) (takeHead l .control s)) := by
  rw [exec_unitDone hwaits, hv, hi, takeUnitDone_completes _ hfields (s := takeHead l .control s) hflies]

/-- A Unit Fail that passes its checks (R124, R127). -/
theorem exec_unitFail_flying {reason : FailReason} (hwaits : ControlWaits s l kindUnitFail m)
    (hv : numAt m.body 0 2 = v) (hi : byteAt m.body 2 = i) (hreason : readReason m.body = some reason)
    (hfields : v < 4096 ∧ i < 8) (hflies : inFlightAt s (globalLane l i) v = some u) :
    exec (.unitFail l) s =
      .next (failUnit (globalLane l i) v u reason (takeHead l .control s)) := by
  rw [exec_unitFail hwaits, hv, hi, hreason,
    takeUnitFail_fails reason hfields (s := takeHead l .control s) hflies]

end

/-! ### A Unit Fail and the flush entries (R127 to R129, R153) -/

/-- What the reason of a Unit Fail does to the lane (R128). -/
def reasonActs (reason : FailReason) (g : Nat) (s : State) : State :=
  match reason with
  | .laneFault => setEvent .laneDown (leaveUp g .down s)
  | .retry => s

/-- The unit is STAGED again and its lane holds one unit less (R127). -/
def failStart (g v : Nat) (u : UnitRecord) (s : State) : State :=
  (lowerInFlight g s).setUnit v { u with state := .staged, lane := none, attempts := u.attempts + 1 }

theorem failUnit_again {g v : Nat} {u : UnitRecord} {reason : FailReason} {s : State}
    (h : u.attempts + 1 < 4) :
    failUnit g v u reason s = evalSafe (reasonActs reason g (failStart g v u s)) := by
  unfold failUnit
  dsimp only
  rw [if_pos (show u.attempts + 1 < Config.attemptLimit from h)]
  rfl

theorem failUnit_faults {g v : Nat} {u : UnitRecord} {reason : FailReason} {s : State}
    (h : 4 ≤ u.attempts + 1) :
    failUnit g v u reason s = evalSafe (reasonActs reason g (faultUnit v (failStart g v u s))) := by
  unfold failUnit
  dsimp only
  rw [if_neg (show ¬ u.attempts + 1 < Config.attemptLimit from Nat.not_lt.2 h)]
  rfl

/-- The flush entries, their order and the links of `t` are those of `s`. -/
structure SameFlushes (s t : State) : Prop where
  flushes : t.flushes = s.flushes
  order : t.flushOrder = s.flushOrder
  links : t.links = s.links

theorem SameFlushes.trans {s t r : State} (h : SameFlushes s t) (k : SameFlushes t r) : SameFlushes s r :=
  ⟨k.flushes.trans h.flushes, k.order.trans h.order, k.links.trans h.links⟩

theorem sameFlushes_evalSafe (s : State) : SameFlushes s (evalSafe s) :=
  ⟨(congrArg State.flushes (evalSafe_frame s) :), (congrArg State.flushOrder (evalSafe_frame s) :),
    (congrArg State.links (evalSafe_frame s) :)⟩

theorem sameFlushes_reasonActs (reason : FailReason) (g : Nat) (s : State) :
    SameFlushes s (reasonActs reason g s) := by
  cases reason with
  | retry => exact ⟨rfl, rfl, rfl⟩
  | laneFault =>
    have hframe := leaveUp_frame g .down s
    unfold reasonActs
    dsimp only
    generalize leaveUp g .down s = t at hframe
    exact ⟨(congrArg State.flushes hframe :), (congrArg State.flushOrder hframe :),
      (congrArg State.links hframe :)⟩

theorem sameFlushes_failStart (g v : Nat) (u : UnitRecord) (s : State) :
    SameFlushes s (failStart g v u s) := ⟨rfl, rfl, rfl⟩

/-! ### A Unit Restage and the flush entries (R131, R151) -/

/-- A request for a FAULTED unit acts on it (R131, R132). -/
theorem faultedRequest_faulted {s : State} {v : Nat} {u : UnitRecord} (f : UnitRecord → State → State)
    (hvlt : v < 4096) (hu : s.unit? v = some u) (hstate : u.state = .faulted) :
    faultedRequest v f s = accepted (f u s) := by
  have hfound : (s.unit? v).filter (fun u => u.state == .faulted) = some u := by simp [hu, hstate]
  simp only [faultedRequest, hfound]
  exact if_pos hvlt

/-- A Unit Restage of a FAULTED unit (R131, R177). -/
theorem exec_unitRestage {s : State} {m : Message} {v : Nat} {u : UnitRecord} (hwaits : RequestWaits s 19 m)
    (hpart : s.part ≠ .starting) (hv : numAt m.body 1 2 = v) (hvlt : v < 4096) (hu : s.unit? v = some u)
    (hstate : u.state = .faulted) :
    exec .unitRestage s =
      .next (answeredWith m .accepted none (restageFaulted v u (takeHead 5 .mgmt s))) := by
  refine (request_waits (fun b => faultedRequest (numAt b 1 2) (restageFaulted (numAt b 1 2))) hwaits hpart).trans ?_
  rw [hv, faultedRequest_faulted (restageFaulted v) hvlt (s := takeHead 5 .mgmt s) hu hstate, replyMgmt_accepted]

/-- Raising the entries keeps their order. -/
theorem flushOrder_flushesAtRestage (v : Nat) (s : State) :
    (flushesAtRestage v s).flushOrder = s.flushOrder :=
  fold_keeps (I := fun t => t.flushOrder = s.flushOrder) (fun t e => raiseFlush v e t)
    (fun t e h => by unfold raiseFlush; split <;> exact h) _ rfl

theorem sameFlushes_answeredWith (m : Message) (code : MgmtCode) (r : Option InspectResult) (s : State) :
    (answeredWith m code r s).flushes = s.flushes ∧ (answeredWith m code r s).flushOrder = s.flushOrder :=
  have hframe := (place_frame 5 (.mgmtAnswer m.tag code r) s).rest
  ⟨(congrArg State.flushes hframe :), (congrArg State.flushOrder hframe :)⟩

/-! ### The acts of the entries within a command -/

/-- `r` has the frames, the entries, their order and the links of `s`. -/
structure SameTracking (s r : State) : Prop extends SameFlushes s r where
  frames : r.frames = s.frames

/-- A Unit Done lowers the ACTIVE entries in their order, and its other acts leave them (R125, R151). -/
theorem completeUnit_entries (g v : Nat) (u : UnitRecord) (p : Opaque40) (s : State) : ∃ r, SameTracking s r ∧
    SameFlushes (s.flushOrder.foldl (fun q e => lowerFlush v e q) r) (completeUnit g v u p s) := by
  obtain ⟨r, hdone, hframes, hflushes, horder, hlinks⟩ := completeUnit_flush g v u p s
  refine ⟨r, ⟨⟨hflushes, horder, hlinks⟩, hframes⟩, ?_⟩
  rw [hdone, ← horder, show r.flushOrder.foldl (fun q e => lowerFlush v e q) r = flushesAtDone v r from rfl]
  generalize flushesAtDone v r = q
  obtain ⟨h1, h2, h3⟩ := sameFlushes_evalSafe (q.setDrainCount (q.drainCount - 1))
  exact ⟨h1, h2, h3⟩

/-- A Unit Fail before the fourth failed attempt leaves the entries (R127). -/
theorem failUnit_keepsEntries {g v : Nat} {u : UnitRecord} (reason : FailReason) {s : State}
    (h : u.attempts + 1 < 4) : SameFlushes s (failUnit g v u reason s) := by
  rw [failUnit_again h]
  have hstart := sameFlushes_failStart g v u s
  generalize failStart g v u s = a at hstart ⊢
  have hreason := sameFlushes_reasonActs reason g a
  generalize reasonActs reason g a = b at hreason ⊢
  exact (hstart.trans hreason).trans (sameFlushes_evalSafe b)

/-- The fourth failed attempt ends the entries that count a frame of the unit, in their order (R129, R153). -/
theorem failUnit_entries {g v : Nat} {u : UnitRecord} (reason : FailReason) {s : State}
    (h : 4 ≤ u.attempts + 1) : ∃ r, SameTracking s r ∧
    SameFlushes (s.flushOrder.foldl (fun q e => faultFlush v e q) r) (failUnit g v u reason s) := by
  rw [failUnit_faults h]
  have hstart := sameFlushes_failStart g v u s
  have hkept : (failStart g v u s).frames = s.frames := rfl
  generalize failStart g v u s = a at hstart hkept ⊢
  obtain ⟨r, hfault, hframes, hflushes, horder, hlinks⟩ := faultUnit_flush v a
  refine ⟨r, ⟨hstart.trans ⟨hflushes, horder, hlinks⟩, hframes.trans hkept⟩, ?_⟩
  rw [hfault, ← hstart.order, ← horder,
    show r.flushOrder.foldl (fun q e => faultFlush v e q) r = flushesAtFault v r from rfl]
  generalize flushesAtFault v r = q
  have hfaulted : SameFlushes q (q.setDrainCount (q.drainCount - 1)) := ⟨rfl, rfl, rfl⟩
  generalize q.setDrainCount (q.drainCount - 1) = b at hfaulted ⊢
  have hreason := sameFlushes_reasonActs reason g b
  generalize reasonActs reason g b = d at hreason ⊢
  exact (hfaulted.trans hreason).trans (sameFlushes_evalSafe d)

/-- A Unit Restage raises the ACTIVE entries and keeps their order (R131, R151). -/
theorem restageFaulted_entries (v : Nat) (u : UnitRecord) (s : State) : ∃ r, r.frames = s.frames ∧
    r.flushes = s.flushes ∧
    (restageFaulted v u s).flushes = (s.flushOrder.foldl (fun q e => raiseFlush v e q) r).flushes ∧
    (restageFaulted v u s).flushOrder = s.flushOrder := by
  obtain ⟨r, hraised, hframes, hflushes, horder⟩ := restageFaulted_flush v u s
  refine ⟨r, hframes, hflushes, ?_⟩
  have hkeeps := flushOrder_flushesAtRestage v r
  rw [hraised, ← horder, show r.flushOrder.foldl (fun q e => raiseFlush v e q) r = flushesAtRestage v r from rfl]
  generalize flushesAtRestage v r = q at hkeeps ⊢
  obtain ⟨h1, h2, -⟩ := sameFlushes_evalSafe (q.setDrainCount (q.drainCount + 1))
  exact ⟨h1, h2.trans hkeeps⟩

/-- Settles O35: a Flush writes one entry and stages what it counts; the acts of an entry are read off their
definitions and put into the commands that run them. -/
theorem flushWaits : Obligations.FlushWaits := by
  unfold Obligations.FlushWaits
  refine ⟨fun s c h v => ⟨flushCounts_eq s c h, flushCountsIn_eq s c h v, fun hs => mem_flushUnits_iff hs c h v⟩,
    fun s m c scope htakes hkind hscope htenant hcount => ⟨fun e hvacant => ?_, fun e v hvacant hnewest hentry =>
      ⟨fun hroom => ?_, fun hfull => ?_⟩⟩,
    fun s v e q hentry => ⟨lowerFlush_left hentry, fun hnone => ?_, raiseFlush_active hentry,
      faultFlush_outside hentry, fun hsome => ?_⟩,
    fun s l v i m u hu => ⟨fun hv hi hvlt hilt hstate hlane => ⟨fun hwaits => ?_,
      fun reason hwaits hreason => ⟨fun hagain => ?_, fun hfaults => ?_⟩⟩,
      fun hv hvlt hstate hpart hwaits => ?_⟩⟩
  · have htaken := takeScope_vacant (s := takeHead 0 .intent s) (tag := m.tag) hcount hvacant
    rw [← takeFlush_scope htenant, ← hscope] at htaken
    obtain ⟨T, horder⟩ := activateFlush_tracked e m.tag scope (takeHead 0 .intent s)
    exact ⟨_, exec_flushTaken htakes hkind htaken, T.entry, T.others, horder, T.staged, T.kept,
      link_same T.links 0,
      (congrArg (fun x : State => { x with flushOrder := s.flushOrder, links := s.links }) T.rest :)⟩
  · have htaken := takeScope_merges (s := takeHead 0 .intent s) (tag := m.tag) hcount hvacant hnewest hentry hroom
    rw [← takeFlush_scope htenant, ← hscope] at htaken
    obtain ⟨T, horder⟩ := mergeFlush_tracked e m.tag v scope (takeHead 0 .intent s)
    rw [mergeScope_eq] at T
    refine ⟨_, exec_flushTaken htakes hkind htaken, T.entry, T.others, horder, T.staged, T.kept,
      link_same T.links 0, (congrArg (fun x : State => { x with links := s.links }) T.rest :).trans ?_⟩
    dsimp only
    rw [horder]
    rfl
  · refine exec_flushStalled htakes hkind ?_
    rw [hscope, takeFlush_scope htenant]
    exact takeScope_full (s := takeHead 0 .intent s) hcount hvacant hnewest hentry hfull
  · rw [lowerFlush_ends hentry hnone]
    exact endFlush_effect true
  · rw [faultFlush_ends hentry hsome, event_setEvent_same]
    exact ⟨(endFlush_effect false).1.setEvent _, rfl⟩
  · obtain ⟨r, hr, hacts⟩ :=
      completeUnit_entries (globalLane l i) v u (opaqueAt m.body 3) (takeHead l .control s)
    exact ⟨r, _, exec_unitDone_flying hwaits hv hi ⟨hvlt, hilt⟩ (inFlightAt_of hu hstate hlane), hr.frames,
      hr.flushes, hr.order, hr.links, hacts.flushes, hacts.order, hacts.links⟩
  · have hkept := failUnit_keepsEntries (g := globalLane l i) (v := v) reason (s := takeHead l .control s) hagain
    exact ⟨_, exec_unitFail_flying hwaits hv hi hreason ⟨hvlt, hilt⟩ (inFlightAt_of hu hstate hlane),
      hkept.flushes, hkept.order⟩
  · obtain ⟨r, hr, hacts⟩ :=
      failUnit_entries (g := globalLane l i) (v := v) reason (s := takeHead l .control s) hfaults
    exact ⟨r, _, exec_unitFail_flying hwaits hv hi hreason ⟨hvlt, hilt⟩ (inFlightAt_of hu hstate hlane),
      hr.frames, hr.flushes, hr.order, hr.links, hacts.flushes, hacts.order, hacts.links⟩
  · obtain ⟨r, hframes, hflushes, hraised, horder⟩ := restageFaulted_entries v u (takeHead 5 .mgmt s)
    have hexec := exec_unitRestage hwaits hpart hv hvlt hu hstate
    generalize restageFaulted v u (takeHead 5 .mgmt s) = t at hexec hraised horder
    obtain ⟨hanswered, hordered⟩ := sameFlushes_answeredWith m .accepted none t
    exact ⟨r, _, hexec, hframes, hflushes, hanswered.trans hraised, hordered.trans horder⟩

end Sys2Proof.Machine
end


section
/-! SUPPORT. Which unit is staged at its deadline, at a grant, at a hold and at the end of a placement (R47,
R48, R92, R95, R97, R98). -/

namespace Sys2Proof.Machine

/-! ### The deadline (R92) -/

section
variable {s : State} {v : Nat} {u : UnitRecord} {d : Deadline}

theorem exec_deadlineExpiry_reached (hu : s.unit? v = some u) (hopen : u.state = .opened)
    (hd : u.deadline = some d) (hreached : d.time ≤ s.now) :
    exec (.deadlineExpiry v) s = .next (stageUnit d.kind.cause v s) := by
  have hexpired : expiredDeadline s v = some d := by
    simp [expiredDeadline, hu, hopen, hd, Option.filter, hreached]
  simp only [exec, execDeadlineExpiry, hexpired]

theorem exec_deadlineExpiry_early (hu : s.unit? v = some u) (hopen : u.state = .opened)
    (hd : u.deadline = some d) (hearly : s.now < d.time) : exec (.deadlineExpiry v) s = .next s := by
  have hexpired : expiredDeadline s v = none := by
    simp [expiredDeadline, hu, hopen, hd, Option.filter, Nat.not_le.2 hearly]
  simp only [exec, execDeadlineExpiry, hexpired]

end

/-! ### A grant and a hold (R32, R33) -/

/-- The records of a grant leave the units, the settings and the part state as they were, and the pressure
comparison follows its message (R32, R47). -/
theorem makeGrant_acts (g link tag a k n : Nat) (key : Key) (s : State) : ∃ r,
    makeGrant g link tag a k key n s =
      pressureCompare (place link (.grant tag g k s.cfg.grantLifetime) r) ∧
    r.units = s.units ∧ r.cfg = s.cfg ∧ r.part = s.part := by
  have hframe := grantRecords_frame g link tag a k key n s
  have hmake : makeGrant g link tag a k key n s = pressureCompare
      (place link (.grant tag g k (grantRecords g link tag a k key n s).cfg.grantLifetime)
        (grantRecords g link tag a k key n s)) := rfl
  rw [hmake]
  generalize grantRecords g link tag a k key n s = r at hframe
  have hcfg : r.cfg = s.cfg := (congrArg State.cfg hframe :)
  exact ⟨r, by rw [hcfg], (congrArg State.units hframe :), hcfg, (congrArg State.part hframe :)⟩

/-- A held intent joins the list and its notice is placed before the comparisons (R33, R47, R48). -/
theorem holdIntent_acts (e : Entry) {s : State} (hroom : s.waiting.length < 64) : ∃ r,
    holdIntent e s = some (afterHold e.reasons e.relief r) ∧ r.units = s.units ∧ r.sets = s.sets := by
  have hframe := links_place e.link (.holdNotice e.tag e.reasons)
    (raiseHeld e.account (s.setWaiting (s.waiting ++ [e])))
  exact ⟨_, if_pos hroom, (congrArg State.units hframe :), (congrArg State.sets hframe :)⟩

/-! ### The comparisons after a hold (R47, R48) -/

theorem afterHold_neither {r : Reasons} (x : Option Nat) (s : State) (hframes : r.frames = false)
    (hways : r.ways = false) : afterHold r x s = s := by
  simp [afterHold, hframes, hways]

theorem afterHold_frames {r : Reasons} (x : Option Nat) (s : State) (hframes : r.frames = true)
    (hways : r.ways = false) : afterHold r x s = pressureCompare s := by
  simp [afterHold, hframes, hways]

theorem afterHold_ways {r : Reasons} {x : Nat} (s : State) (hframes : r.frames = false)
    (hways : r.ways = true) : afterHold r (some x) s = reliefStage x s := by
  simp [afterHold, hframes, hways]

theorem afterHold_both {r : Reasons} {x : Nat} (s : State) (hframes : r.frames = true)
    (hways : r.ways = true) : afterHold r (some x) s = reliefStage x (pressureCompare s) := by
  simp [afterHold, hframes, hways]

/-! ### The end of a placement (R97, R98) -/

/-- Where the stream is not RETIRING, one failed condition of adaptive closing leaves its unit OPEN (R98). -/
theorem endOfPlacement_kept {s : State} {k : Nat} (hretiring : (s.stream k).state ≠ .retiring)
    (h : (s.stream k).policy = .full ∨ (s.stream k).state ≠ .active ∨
      (∃ i u, i < 64 ∧ s.unit? (64 * k + i) = some u ∧
        (u.state = .staged ∨ u.state = .offered ∨ u.state = .inFlight)) ∨
      (∀ g, g < 32 → (s.stream k).lanes.getLsbD g = true → (s.lane g).state = .up →
        (s.lane g).offer = none → (s.drain (laneLink g)).depth ≤ (s.lane g).inFlight)) :
    endOfPlacement k s = s := by
  refine endOfPlacement_else hretiring ?_
  rintro ⟨hpolicy, hactive, -, hmoving, hidle⟩
  rcases h with h | h | h | h
  · exact absurd (hpolicy.symm.trans h) (by decide)
  · exact h hactive
  · exact absurd ((unitMoving_iff s k).2 h) (by rw [hmoving]; decide)
  · obtain ⟨g, hg, hlanes, hup, hoffer, hroom⟩ := (idleLane_iff s (s.stream k)).1 hidle
    exact absurd (h g hg hlanes hup hoffer) (Nat.not_le.2 hroom)

/-- Settles O37. -/
theorem deadlineStages : Obligations.DeadlineStages := by
  unfold Obligations.DeadlineStages
  refine ⟨fun s v u d hu hopen hd => ⟨fun hreached => ?_, exec_deadlineExpiry_early hu hopen hd⟩,
    fun s c v u => stageUnit_open,
    fun s => ⟨pressureCompare_idle, pressureCompare_none, fun v u => pressureCompare_some⟩,
    fun s x => ⟨fun hpart => if_pos hpart, reliefStage_none, fun p hp q v => reliefStage_some hp⟩,
    reliefCandidate_iff, makeGrant_acts, fun e s => holdIntent_acts e,
    fun q relief s => ⟨afterHold_neither relief s, afterHold_frames relief s, ?_⟩,
    fun s k => ⟨endOfPlacement_none, fun v => endOfPlacement_retire,
      fun v hopen hpolicy hactive hstill hidle => ?_, endOfPlacement_kept⟩⟩
  · have S := stageUnit_open (c := d.kind.cause) hu hopen
    exact ⟨_, exec_deadlineExpiry_reached hu hopen hd hreached, S.unit, S.others, S.stream, S.streams, S.counter,
      S.rest⟩
  · rintro x rfl hways
    exact ⟨fun hframes => afterHold_ways s hframes hways, fun hframes => afterHold_both s hframes hways⟩
  · refine endOfPlacement_adaptive hopen hpolicy hactive (fun hmoving => ?_) ((idleLane_iff s _).2 hidle)
    obtain ⟨i, u, hi, hu, hstate⟩ := (unitMoving_iff s k).1 hmoving
    obtain ⟨hstaged, hoffered, hflying⟩ := hstill i u hi hu
    exact hstate.elim hstaged fun h => h.elim hoffered hflying

end Sys2Proof.Machine
end


section
/-! SUPPORT. What a slot visit, the offer step, the lapse of an offer and the answers to an offer do (R104 to
R112). -/

namespace Sys2Proof.Machine

/-! ### A slot visit (R104 to R106) -/

theorem visitDue_reached {s : State} {due : Nat} (hdue : s.nextVisit = some due) (hreached : due ≤ s.now) :
    visitDue s = some due := by
  simp only [visitDue, hdue, hreached, if_true]

theorem exec_slotVisit {s : State} {due : Nat} (hdue : s.nextVisit = some due) (hreached : due ≤ s.now) :
    exec .slotVisit s = .next (turnWheel due s) := by
  simp only [exec, execSlotVisit, visitDue_reached hdue hreached]

/-- Where the visit is the lapse point of the lane's offer, the two commands do the same (R105). -/
theorem exec_offerLapse {s : State} {g due : Nat} (hdue : s.nextVisit = some due) (hreached : due ≤ s.now)
    (hlapses : lapsesAt s (nextSlot s) g = true) : exec (.offerLapse g) s = .next (turnWheel due s) := by
  simp only [exec, execOfferLapse, visitDue_reached hdue hreached, hlapses, if_true]

/-- The lane the slot names. -/
def slotLane (s : State) (pos : Nat) : Nat := globalLane (s.slot pos).link (s.slot pos).lane

/-- After its lapses the visit of an enabled slot offers to the lane the slot names, unless that lane's offer
lapsed (R105, R106). -/
theorem visitSlot_offers {s : State} {pos : Nat}
    (h : (s.slot pos).enabled = true ∧ slotLane s pos ∉ lapsingLanes s pos) :
    visitSlot pos s = offerStep (slotLane s pos) pos ((lapsingLanes s pos).foldl (fun s g => lapseOffer g s) s) := by
  refine if_pos ?_
  obtain ⟨henabled, hnot⟩ := h
  simpa [henabled, slotLane] using hnot

theorem visitSlot_lapses {s : State} {pos : Nat}
    (h : ¬((s.slot pos).enabled = true ∧ slotLane s pos ∉ lapsingLanes s pos)) :
    visitSlot pos s = (lapsingLanes s pos).foldl (fun s g => lapseOffer g s) s := by
  refine if_neg ?_
  rw [Bool.and_eq_true, Bool.not_eq_true']
  rintro ⟨henabled, hnot⟩
  exact h ⟨henabled, by simpa [slotLane] using hnot⟩

/-- Settles O38. -/
theorem slotVisitTurnsTheWheel : Obligations.SlotVisitTurnsTheWheel := by
  unfold Obligations.SlotVisitTurnsTheWheel
  intro s due hdue hreached
  refine ⟨_, exec_slotVisit hdue hreached, ?_⟩
  unfold turnWheel
  dsimp only
  obtain ⟨w, hw⟩ : ∃ w : State,
      w = { s with wheelPos := nextSlot s, nextVisit := some (due + s.cfg.slotPeriod) } := ⟨_, rfl⟩
  have hslot : w.slot (nextSlot s) = s.slot (nextSlot s) := by rw [hw]; rfl
  have hlapsing : lapsingLanes w (nextSlot s) = lapsingLanes s (nextSlot s) := by rw [hw]; rfl
  rw [← hw]
  refine ⟨?_, ?_, ?_, ?_, ?_, ?_, ?_, ?_, ?_, ?_, fun hnone hdisabled => ?_, fun hnone henabled => ?_⟩
  case refine_11 =>
    rw [visitSlot_lapses (fun h => by rw [hslot, hdisabled] at h; exact Bool.false_ne_true h.1), hlapsing, hnone]
    rfl
  case refine_12 =>
    rw [visitSlot_offers ⟨by rw [hslot]; exact henabled, by rw [hlapsing, hnone]; exact List.not_mem_nil⟩, hlapsing,
      hnone, slotLane, hslot]
    rfl
  all_goals
    have hframe := visitSlot_frame (nextSlot s) w
    generalize visitSlot (nextSlot s) w = t at hframe
    subst hw
  · exact (congrArg State.wheelPos hframe :)
  · exact (congrArg State.nextVisit hframe :)
  · exact (congrArg State.frames hframe :)
  · exact (congrArg State.accounts hframe :)
  · exact (congrArg State.grants hframe :)
  · exact (congrArg State.waiting hframe :)
  · exact (congrArg State.flushes hframe :)
  · exact (congrArg State.drainCount hframe :)
  · exact (congrArg State.streams hframe :)
  · exact (congrArg State.slots hframe :)

/-! ### The offer step (R106 to R108) -/

section
variable {s : State} {g pos v : Nat}

theorem offerStep_notReady (h : (s.lane g).state ≠ .up ∨ (s.lane g).offer ≠ none ∨
    (s.drain (laneLink g)).depth ≤ (s.lane g).inFlight) : offerStep g pos s = s := by
  refine if_neg fun hready => ?_
  obtain ⟨hup, hnone, hroom⟩ := (laneReadyForOffer_iff s g).1 hready
  exact h.elim (· hup) fun h => h.elim (· hnone) fun h => absurd hroom (Nat.not_lt.2 h)

theorem offerStep_noUnit (h : ∀ v ∈ stagedQueue s, eligible s g v = false) : offerStep g pos s = s := by
  have hfind : (stagedQueue s).find? (eligible s g) = none :=
    List.find?_eq_none.2 fun v hv => by rw [h v hv]; decide
  unfold offerStep
  rw [hfind]
  split <;> rfl

/-- The first eligible unit of the staged queue is offered (R106). -/
theorem offerStep_first {earlier later : List Nat} {u : UnitRecord} (hup : (s.lane g).state = .up)
    (hnone : (s.lane g).offer = none) (hroom : (s.lane g).inFlight < (s.drain (laneLink g)).depth)
    (hqueue : stagedQueue s = earlier ++ v :: later) (hearlier : ∀ i ∈ earlier, eligible s g i = false)
    (heligible : eligible s g v = true) (hu : s.unit? v = some u) :
    offerStep g pos s = makeOffer g v pos u s := by
  have hpassed : earlier.find? (eligible s g) = none :=
    List.find?_eq_none.2 fun i hi => by rw [hearlier i hi]; decide
  have hfind : (stagedQueue s).find? (eligible s g) = some v := by
    simp [hqueue, List.find?_append, hpassed, heligible]
  unfold offerStep
  rw [if_pos ((laneReadyForOffer_iff s g).2 ⟨hup, hnone, hroom⟩), hfind]
  dsimp only
  rw [hu]

end

/-- An offer of unit `v`, whose record is `u`, to lane `g` has been made between `s` and `t` (R108). -/
structure OfferMade (s t : State) (g v pos : Nat) (u : UnitRecord) : Prop where
  unit : t.unit? v = some { u with state := .offered, lane := some g }
  units : ∀ i, i ≠ v → t.unit? i = s.unit? i
  lane : t.lane g =
    { s.lane g with
      offer := some { unit := v, slot := pos }, totalOffers := satSucc (s.lane g).totalOffers }
  lanes : ∀ i, i ≠ g → t.lane i = s.lane i
  link : t.link (laneLink g) = (place (laneLink g) (offerMessage s g v u) s).link (laneLink g)
  rest : { t with units := s.units, lanes := s.lanes, links := s.links } = s

theorem makeOffer_made (g v pos : Nat) (u : UnitRecord) (s : State) :
    OfferMade s (makeOffer g v pos u s) g v pos u := by
  have hunit := fun i => State.unit?_setUnit s v i { u with state := .offered, lane := some g }
  have hlane : ∀ i, (recordOffer g v pos u s).lane i = if g = i then
      { s.lane g with
        offer := some { unit := v, slot := pos }, totalOffers := satSucc (s.lane g).totalOffers }
      else s.lane i := fun i => State.lane_setLane ..
  have hrecord : { recordOffer g v pos u s with units := s.units, lanes := s.lanes } = s := rfl
  have hunits : ∀ i, (recordOffer g v pos u s).unit? i =
      if v = i then some { u with state := .offered, lane := some g } else s.unit? i := hunit
  have hlink : (recordOffer g v pos u s).link (laneLink g) = s.link (laneLink g) := rfl
  unfold makeOffer
  generalize recordOffer g v pos u s = r at hlane hrecord hunits hlink
  have hplaced := link_place_congr (offerMessage s g v u) hlink
  have hframe := links_place (laneLink g) (offerMessage s g v u) r
  generalize place (laneLink g) (offerMessage s g v u) r = t at hplaced hframe
  have hu : ∀ i, t.unit? i = r.unit? i := fun i => congrArg (Table.find? · i) (congrArg State.units hframe :)
  have hl : ∀ i, t.lane i = r.lane i := fun i =>
    congrArg (Table.getD Lane.reset · i) (congrArg State.lanes hframe :)
  refine ⟨?_, fun i hi => ?_, ?_, fun i hi => ?_, hplaced, ?_⟩
  · rw [hu, hunits, if_pos rfl]
  · rw [hu, hunits, if_neg (Ne.symm hi)]
  · rw [hl, hlane, if_pos rfl]
  · rw [hl, hlane, if_neg (Ne.symm hi)]
  · exact (congrArg (fun x : State => { x with units := s.units, lanes := s.lanes, links := s.links }) hframe :).trans
      (congrArg (fun x : State => { x with links := s.links }) hrecord :)

/-- The offer step does nothing or makes an offer to its lane. -/
theorem offerStep_cases (g pos : Nat) (s : State) :
    offerStep g pos s = s ∨ ∃ v u, OfferMade s (offerStep g pos s) g v pos u := by
  unfold offerStep
  split
  · split
    · exact .inl rfl
    · split
      · exact .inr ⟨_, _, makeOffer_made ..⟩
      · exact .inl rfl
  · exact .inl rfl

theorem lane_offerStep {g j : Nat} (pos : Nat) (s : State) (hj : j ≠ g) :
    (offerStep g pos s).lane j = s.lane j := by
  obtain h | ⟨v, u, h⟩ := offerStep_cases g pos s
  · rw [h]
  · exact h.lanes j hj

theorem events_offerStep (g pos : Nat) (s : State) : (offerStep g pos s).events = s.events := by
  obtain h | ⟨v, u, h⟩ := offerStep_cases g pos s
  · rw [h]
  · exact (congrArg State.events h.rest :)

/-- Settles O39. -/
theorem offerStepEffects : Obligations.OfferStepEffects := by
  unfold Obligations.OfferStepEffects
  refine ⟨fun s g pos => ⟨offerStep_notReady, offerStep_noUnit, ?_⟩, fun s hs => ⟨mem_stagedQueue_iff hs,
    stagedQueue_nodup hs, ?_⟩, eligible_iff⟩
  · intro earlier v later u hup hnone hroom hqueue hearlier heligible hu
    have O := makeOffer_made g v pos u s
    exact ⟨_, offerStep_first hup hnone hroom hqueue hearlier heligible hu, O.unit, O.units, O.lane, O.lanes, O.link,
      O.rest⟩
  · rintro earlier v later w hqueue hw u x hu hx p q rfl rfl
    exact stagedQueue_ordered hs hqueue hw hu hx

/-! ### The lapse of an offer (R105, R111, R112) -/

theorem lapsesAt_iff (s : State) (pos g : Nat) :
    lapsesAt s pos g = true ↔ ∃ o, (s.lane g).offer = some o ∧
      ((s.slot pos).enabled = true ∧ globalLane (s.slot pos).link (s.slot pos).lane = g ∨ o.slot = pos) := by
  unfold lapsesAt Slot.names
  cases (s.lane g).offer <;> simp

theorem lapsingLanes_nodup (s : State) (pos : Nat) : (lapsingLanes s pos).Nodup :=
  List.nodup_range.filter _

theorem lapsingLanes_offers {s : State} {pos j : Nat} (h : j ∈ lapsingLanes s pos) : (s.lane j).offer ≠ none := by
  obtain ⟨-, o, ho, -⟩ := (mem_lapsingLanes s pos j).1 h
  exact Option.ne_none_iff_exists'.2 ⟨o, ho⟩

/-- What the lapses of a visit do to a unit, in a state where the offered units are those the lanes hold
(R111, R112, R116). -/
theorem OffersLapse.unitRecords {s t : State} {gs : List Nat} (h : OffersLapse s t gs) (hlaw : UnitLaw s) {v : Nat}
    {u : UnitRecord} (hu : s.unit? v = some u) :
    (∀ j p, j ∈ gs → (s.lane j).offer = some p → p.unit = v →
      u.state = .offered ∧ t.unit? v = some { u with state := .staged, lane := none }) ∧
    (∀ j, j ∈ gs → 8 ≤ (s.lane j).lapses + 1 → u.state = .inFlight → u.lane = some j →
      t.unit? v = some { u with state := .staged, lane := none, restarted := true }) ∧
    ((∀ j p, j ∈ gs → (s.lane j).offer = some p → p.unit ≠ v) →
      (∀ j, j ∈ gs → 8 ≤ (s.lane j).lapses + 1 → ¬(u.state = .inFlight ∧ u.lane = some j)) →
      t.unit? v = some u) := by
  have hrecord : t.unit? v = some (lapsedUnits s gs v u) := by rw [h.units hlaw.sorted, hu]; rfl
  have hoffered : ∀ j p, (s.lane j).offer = some p → p.unit = v → u.state = .offered := by
    intro j p hp hv
    obtain ⟨x, hx, hstate, -⟩ := hlaw.offers j p hp
    rw [hv, hu] at hx
    cases hx
    exact hstate
  refine ⟨fun j p hj hp hv => ⟨hoffered j p hp hv, ?_⟩, fun j hj hlapses hstate hlane => ?_, fun hnone hstay => ?_⟩
  · rw [hrecord, lapsedUnits_offered s gs v u hj ⟨p, hp, hv⟩ (hoffered j p hp hv)]
  · rw [hrecord, lapsedUnits_inFlight s gs v u hj hlapses hstate hlane]
    rintro i - ⟨p, hp, hv⟩
    exact absurd (hstate.symm.trans (hoffered i p hp hv)) (by decide)
  · rw [hrecord, lapsedUnits_same]
    intro j hj
    exact ⟨fun ⟨p, hp, hv⟩ => hnone j p hj hp hv, fun ⟨hlapses, hflies⟩ => hstay j hj hlapses hflies⟩

/-- Settles O40: the lapses end first (`OffersLapse`), and the offer step that may follow is for another lane. -/
theorem offerLapseEffects : Obligations.OfferLapseEffects := by
  unfold Obligations.OfferLapseEffects
  intro s g due o hg hdue hreached ho hpoint
  have hlapses : lapsesAt s (nextSlot s) g = true := (lapsesAt_iff s _ g).2 ⟨o, ho, hpoint⟩
  refine ⟨(exec_offerLapse hdue hreached hlapses).trans (exec_slotVisit hdue hreached).symm,
    mem_lapsingLanes s (nextSlot s), ?_⟩
  have hmem : g ∈ lapsingLanes s (nextSlot s) := (mem_lapsingLanes s _ g).2 ⟨hg, o, ho, hpoint⟩
  rw [exec_offerLapse hdue hreached hlapses]
  unfold turnWheel
  dsimp only
  obtain ⟨w, hw⟩ : ∃ w : State,
      w = { s with wheelPos := nextSlot s, nextVisit := some (due + s.cfg.slotPeriod) } := ⟨_, rfl⟩
  have hslot : w.slot (nextSlot s) = s.slot (nextSlot s) := by rw [hw]; rfl
  have hlapsing : lapsingLanes w (nextSlot s) = lapsingLanes s (nextSlot s) := by rw [hw]; rfl
  have hlane : ∀ j, w.lane j = s.lane j := by rw [hw]; exact fun _ => rfl
  have hunit : ∀ v, w.unit? v = s.unit? v := by rw [hw]; exact fun _ => rfl
  have hlaw : UnitLaw s → UnitLaw w := by
    rw [hw]; exact fun h => ⟨h.sorted, h.drainCount, h.inFlight, h.offers, h.reportsOnce, h.reports, h.faultsOnce, h.faults⟩
  have hpos : w.wheelPos = nextSlot s := by rw [hw]
  rw [← hw]
  clear hw
  have L := lapseOffers_effect (lapsingLanes w (nextSlot s)) w (lapsingLanes_nodup w _)
    fun j hj => lapsingLanes_offers hj
  have hoffers := @visitSlot_offers w (nextSlot s)
  have hlapsesOnly := @visitSlot_lapses w (nextSlot s)
  have hframe := visitSlot_frame (nextSlot s) w
  rw [hlapsing] at L hoffers hlapsesOnly
  rw [slotLane, hslot] at hoffers hlapsesOnly
  generalize (lapsingLanes s (nextSlot s)).foldl (fun s g => lapseOffer g s) w = r at L hoffers hlapsesOnly
  generalize visitSlot (nextSlot s) w = t at hoffers hlapsesOnly hframe
  have hkept : t.lane g = r.lane g ∧ t.events = r.events := by
    by_cases h : (s.slot (nextSlot s)).enabled = true ∧
        globalLane (s.slot (nextSlot s)).link (s.slot (nextSlot s)).lane ∉ lapsingLanes s (nextSlot s)
    · rw [hoffers h]
      exact ⟨lane_offerStep _ _ fun he => h.2 (he ▸ hmem), events_offerStep _ _ _⟩
    · rw [hlapsesOnly h]
      exact ⟨rfl, rfl⟩
  obtain ⟨hkeptLane, hkeptEvents⟩ := hkept
  have hflag : ∀ i, (t.event i).flag = (r.event i).flag := fun i =>
    congrArg EventRecord.flag (congrArg (Table.getD EventRecord.reset · i) hkeptEvents)
  have hself : t.lane g = lapsedLane (s.lane g) := by rw [hkeptLane, L.lapsed g hmem, hlane]
  obtain ⟨hlapseFlag, hdownFlag⟩ := L.flags g hmem
  rw [hlane] at hdownFlag
  refine ⟨t, r, rfl, ⟨hoffers, hlapsesOnly⟩, (congrArg State.wheelPos hframe :).trans hpos, (hflag _).trans hlapseFlag,
    by rw [hself]; rfl, by rw [hself]; rfl, by rw [hself]; rfl, by rw [hself]; rfl, fun hfew => ?_, fun hmany => ?_,
    fun h v u hu => ?_⟩
  · rw [hself]
    exact ⟨if_neg (Nat.not_le.2 hfew), if_neg (Nat.not_le.2 hfew)⟩
  · rw [hself]
    exact ⟨if_pos hmany, if_pos hmany, (hflag _).trans (hdownFlag hmany)⟩
  · have hunits := L.unitRecords (hlaw h) ((hunit v).trans hu)
    simp only [hlane] at hunits
    exact hunits

/-! ### The answers to an offer (R109, R110) -/

section
variable {s : State} {l v i : Nat} {m : Message}

theorem exec_accept (hwaits : ControlWaits s l kindAccept m) :
    exec (.accept l) s = .next (takeAccept l (numAt m.body 0 2) (byteAt m.body 2) (takeHead l .control s)) :=
  congrArg Host.Outcome.next (controlTaking_waits _ hwaits)

theorem exec_decline (hwaits : ControlWaits s l kindDecline m) :
    exec (.decline l) s = .next (takeDecline l (numAt m.body 0 2) (byteAt m.body 2) (takeHead l .control s)) :=
  congrArg Host.Outcome.next (controlTaking_waits _ hwaits)

theorem holdsOffer_of {g slot : Nat} (hup : (s.lane g).state = .up)
    (ho : (s.lane g).offer = some { unit := v, slot := slot }) : holdsOffer s g v = true := by
  simp [holdsOffer, hup, ho]

theorem takeAccept_accepts (hfields : v < 4096 ∧ i < 8) (hholds : holdsOffer s (globalLane l i) v = true) :
    takeAccept l v i s = acceptOffer (globalLane l i) v s := by
  simp only [takeAccept, (unitLaneOk_iff v i).2 hfields, hholds, Bool.not_true, Bool.false_eq_true, if_false, if_true]

theorem takeDecline_declines (hfields : v < 4096 ∧ i < 8) (hholds : holdsOffer s (globalLane l i) v = true) :
    takeDecline l v i s = declineOffer (globalLane l i) v s := by
  simp only [takeDecline, (unitLaneOk_iff v i).2 hfields, hholds, Bool.not_true, Bool.false_eq_true, if_false, if_true]

end

/-- Between `s` and `t` unit `v` has become `x` and lane `g` has become `k`; the rest is as before. -/
structure OfferAnswered (s t : State) (g v : Nat) (x : UnitRecord) (k : Lane) : Prop where
  unit : t.unit? v = some x
  lane : t.lane g = k
  units : ∀ j, j ≠ v → t.unit? j = s.unit? j
  lanes : ∀ j, j ≠ g → t.lane j = s.lane j
  links : t.links = s.links
  rest : { t with units := s.units, lanes := s.lanes } = s

theorem offerAnswered (s : State) (g v : Nat) (x : UnitRecord) (k : Lane) :
    OfferAnswered s ((s.setUnit v x).setLane g k) g v x k where
  unit := State.unit?_setUnit_same _ _ _
  lane := State.lane_setLane_same _ _ _
  units _ hj := (State.unit?_setUnit _ _ _ _).trans (if_neg (Ne.symm hj))
  lanes _ hj := (State.lane_setLane _ _ _ _).trans (if_neg (Ne.symm hj))
  links := rfl
  rest := rfl

theorem acceptOffer_answered {s : State} {v : Nat} {u : UnitRecord} (g : Nat) (hu : s.unit? v = some u) :
    OfferAnswered s (acceptOffer g v s) g v { u with state := .inFlight, lane := some g }
      { s.lane g with offer := none, inFlight := (s.lane g).inFlight + 1, lapses := 0 } := by
  unfold acceptOffer State.modifyUnit
  rw [hu]
  exact offerAnswered ..

theorem declineOffer_answered {s : State} {v : Nat} {u : UnitRecord} (g : Nat) (hu : s.unit? v = some u) :
    OfferAnswered s (declineOffer g v s) g v { u with state := .staged, lane := none }
      { s.lane g with
        offer := none, totalDeclines := satSucc (s.lane g).totalDeclines, lapses := 0 } := by
  unfold declineOffer restage State.modifyUnit
  rw [hu]
  exact offerAnswered ..

/-- Settles O41. -/
theorem offerAnswers : Obligations.OfferAnswers := by
  unfold Obligations.OfferAnswers
  rintro s l v i g m u hi hv hbody hbyte rfl hup ⟨slot, ho⟩ hu
  have hholds := holdsOffer_of (s := takeHead l .control s) hup ho
  refine ⟨fun hwaits => ?_, fun hwaits => ?_⟩
  · have A := acceptOffer_answered (globalLane l i) (s := takeHead l .control s) hu
    rw [exec_accept hwaits, hbody, hbyte, takeAccept_accepts ⟨hv, hi⟩ hholds]
    exact ⟨_, rfl, A.unit, A.lane, A.units, A.lanes, A.links,
      (congrArg (fun x : State => { x with links := s.links }) A.rest :)⟩
  · have A := declineOffer_answered (globalLane l i) (s := takeHead l .control s) hu
    rw [exec_decline hwaits, hbody, hbyte, takeDecline_declines ⟨hv, hi⟩ hholds]
    exact ⟨_, rfl, A.unit, A.lane, A.units, A.lanes, A.links,
      (congrArg (fun x : State => { x with links := s.links }) A.rest :)⟩

end Sys2Proof.Machine
end


section
/-! SUPPORT. What a Fetch that passes its checks reads, what a Unit Done and a Unit Fail that pass theirs do to
the records, and how a drain's message that does not is answered (R118, R120 to R129). -/

namespace Sys2Proof.Machine

/-! ### A Fetch from copies that read clean (R122) -/

/-- With no error found before and no result in the command, a Fetch changes nothing and marks what it reads by
the damaged flag (R73, R122). -/
theorem fetchEntries_clean (u : UnitRecord) {s : State} (hclean : NoLatent s) (ps : List Nat) :
    (fetchEntries u ps [] s).2 = s ∧
      ∀ e ∈ (fetchEntries u ps [] s).1, ∀ f v, u.frames[e.position]? = some f → s.frame? f = some v →
        (v.record.damaged = false → e.mark = .data ∧ e.bytes = v.data) ∧
        (v.record.damaged = true → e.mark = .damaged ∧ e.bytes = zeroSlice) := by
  induction ps with
  | nil => exact ⟨rfl, nofun⟩
  | cons p ps ih =>
    obtain ⟨hsame, hentries⟩ := ih
    unfold fetchEntries
    cases hfound : (u.frames[p]?).bind fun f => (s.frame? f).map fun v => (f, v) with
    | none =>
      refine ⟨hsame, fun e he f v hf hv => ?_⟩
      rcases List.mem_cons.1 he with rfl | he
      · simp only [show u.frames[p]? = some f from hf, Option.bind_some, hv, Option.map_some] at hfound
        cases hfound
      · exact hentries e he f v hf hv
    | some x =>
      obtain ⟨f, v⟩ := x
      obtain ⟨f', hf', hpair⟩ := Option.bind_eq_some_iff.1 hfound
      obtain ⟨v', hv', heq⟩ := Option.map_eq_some_iff.1 hpair
      obtain ⟨rfl, rfl⟩ := Prod.mk.inj heq
      dsimp only
      rw [readFrame_clean (hclean f' v' hv')]
      dsimp only
      split
      · rename_i hdamaged
        refine ⟨hsame, fun e he f v hf hv => ?_⟩
        rcases List.mem_cons.1 he with rfl | he
        · rw [show u.frames[p]? = some f from hf] at hf'
          cases hf'
          rw [hv] at hv'
          cases hv'
          exact ⟨fun h => (by rw [hdamaged] at h; cases h), fun _ => ⟨rfl, rfl⟩⟩
        · exact hentries e he f v hf hv
      · rename_i hsound
        refine ⟨hsame, fun e he f v hf hv => ?_⟩
        rcases List.mem_cons.1 he with rfl | he
        · rw [show u.frames[p]? = some f from hf] at hf'
          cases hf'
          rw [hv] at hv'
          cases hv'
          exact ⟨fun _ => ⟨rfl, rfl⟩, fun h => absurd h hsound⟩
        · exact hentries e he f v hf hv

/-- Settles O44: the answer of the Fetch is `takeFetch_served`, and its entries and reads are
`fetchEntries_read`. -/
theorem fetchServed : Obligations.FetchServed := by
  unfold Obligations.FetchServed
  rintro s l _ _ _ m u reads hwaits rfl rfl rfl hv hk hn hsize hunit hstate hlane
  have hon : inFlightOn (takeHead l .control s) l (numAt m.body 0 2) = some u :=
    inFlightOn_eq_some hunit hstate hlane
  obtain ⟨hpositions, hread, hpads, hmarks⟩ := fetchEntries_read u
    (fetchedPositions (takeHead l .control s) l (byteAt m.body 2) (byteAt m.body 3)) reads (takeHead l .control s)
  refine ⟨_, _, (exec_fetch hwaits).trans (congrArg Host.Outcome.next (takeFetch_served hv hk hn hsize hon)),
    hpositions, hpads, hmarks, hread.kept, hread.free, hread.others, ?_, hread.rest⟩
  rintro rfl hclean
  exact fetchEntries_clean u (s := takeHead l .control s) hclean _

/-! ### A Unit Done (R125) -/

/-- Between `s` and `t` unit `v`, whose record is `u`, has been completed on lane `g` with handle `p`. -/
structure Completed (s t : State) (g v : Nat) (u : UnitRecord) (p : Opaque40) : Prop where
  unit : t.unit? v = some { u with state := .releasing, handle := some p }
  units : ∀ j, j ≠ v → t.unit? j = s.unit? j
  lane : t.lane g = { s.lane g with inFlight := (s.lane g).inFlight - 1 }
  lanes : ∀ j, j ≠ g → t.lane j = s.lane j
  reports : t.reportQueue = s.reportQueue ++ [{ unit := v, issued := false }]
  stream : t.stream (v / 64) =
    { s.stream (v / 64) with unitsCompleted := (s.stream (v / 64)).unitsCompleted + 1 }

theorem doneStart_completed (g v : Nat) (u : UnitRecord) (p : Opaque40) (s : State) :
    Completed s (doneStart g v u p s) g v u p where
  unit := State.unit?_setUnit_same s v _
  units _ hj := (State.unit?_setUnit s v _ _).trans (if_neg (Ne.symm hj))
  lane := State.lane_setLane_same s g _
  lanes _ hj := (State.lane_setLane s g _ _).trans (if_neg (Ne.symm hj))
  reports := rfl
  stream := State.stream_setStream_same s (v / 64) _

/-- The fields a Unit Done may write: `t` with those of `s` (R125, R151, R158). -/
def withDoneFields (s t : State) : State :=
  { t with
    units := s.units, lanes := s.lanes, reportQueue := s.reportQueue, streams := s.streams,
    drainCount := s.drainCount, safe := s.safe, flushes := s.flushes, flushOrder := s.flushOrder,
    events := s.events, alert := s.alert, links := s.links }

theorem withDoneFields_setUnit (s x : State) (v : Nat) (u : UnitRecord) :
    withDoneFields s (x.setUnit v u) = withDoneFields s x := rfl

theorem withDoneFields_setLane (s x : State) (g : Nat) (k : Lane) :
    withDoneFields s (x.setLane g k) = withDoneFields s x := rfl

theorem withDoneFields_setReportQueue (s x : State) (q : List ReportItem) :
    withDoneFields s (x.setReportQueue q) = withDoneFields s x := rfl

theorem withDoneFields_setStream (s x : State) (k : Nat) (v : Stream) :
    withDoneFields s (x.setStream k v) = withDoneFields s x := rfl

theorem doneStart_frame (g v : Nat) (u : UnitRecord) (p : Opaque40) (s : State) :
    withDoneFields s (doneStart g v u p s) = s := by
  unfold doneStart lowerInFlight
  dsimp only
  rw [withDoneFields_setStream, withDoneFields_setReportQueue, withDoneFields_setLane, withDoneFields_setUnit]
  rfl

theorem doneStart_keeps (g v : Nat) (u : UnitRecord) (p : Opaque40) (s : State) :
    (doneStart g v u p s).drainCount = s.drainCount ∧ (doneStart g v u p s).flushes = s.flushes ∧
      (doneStart g v u p s).flushOrder = s.flushOrder ∧ (doneStart g v u p s).links = s.links := by
  unfold doneStart lowerInFlight
  simp

theorem Completed.congr {s t r : State} {g v : Nat} {u : UnitRecord} {p : Opaque40} (h : Completed s t g v u p)
    (hunits : r.units = t.units) (hlanes : r.lanes = t.lanes) (hreports : r.reportQueue = t.reportQueue)
    (hstreams : r.streams = t.streams) : Completed s r g v u p := by
  have hu : ∀ j, r.unit? j = t.unit? j := fun j => congrArg (Table.find? · j) hunits
  have hl : ∀ j, r.lane j = t.lane j := fun j => congrArg (Table.getD Lane.reset · j) hlanes
  have hk : ∀ j, r.stream j = t.stream j := fun j => congrArg (Table.getD Stream.reset · j) hstreams
  exact ⟨(hu v).trans h.unit, fun j hj => (hu j).trans (h.units j hj), (hl g).trans h.lane,
    fun j hj => (hl j).trans (h.lanes j hj), hreports.trans h.reports, (hk _).trans h.stream⟩

theorem flushesAtDone_none {s : State} (v : Nat) (h : s.flushOrder = []) : flushesAtDone v s = s := by
  rw [flushesAtDone, h]
  rfl

/-- What a Unit Done writes, the flush entries apart (R125, R158). -/
theorem completeUnit_effect (g v : Nat) (u : UnitRecord) (p : Opaque40) (s : State) :
    Completed s (completeUnit g v u p s) g v u p ∧
    (completeUnit g v u p s).drainCount = s.drainCount - 1 ∧
    (completeUnit g v u p s).safe = safeLevel (completeUnit g v u p s) ∧
    (s.flushOrder = [] →
      (completeUnit g v u p s).flushes = s.flushes ∧ (completeUnit g v u p s).links = s.links) ∧
    withDoneFields s (completeUnit g v u p s) = s := by
  have hcomplete : completeUnit g v u p s =
      evalSafe ((flushesAtDone v (doneStart g v u p s)).setDrainCount
        ((flushesAtDone v (doneStart g v u p s)).drainCount - 1)) := by
    unfold completeUnit; dsimp only; unfold doneStart; dsimp only
  rw [hcomplete]
  have C := doneStart_completed g v u p s
  have hstart := doneStart_frame g v u p s
  obtain ⟨hsameCount, hsameFlushes, hsameOrder, hsameLinks⟩ := doneStart_keeps g v u p s
  generalize doneStart g v u p s = a at C hstart hsameCount hsameFlushes hsameOrder hsameLinks
  have hflushes := flushesAtDone_frame v a
  have hquiet := flushesAtDone_none (s := a) v
  generalize flushesAtDone v a = b at hflushes hquiet
  obtain ⟨d, hd⟩ : ∃ d, d = b.setDrainCount (b.drainCount - 1) := ⟨_, rfl⟩
  have hlowered : { d with drainCount := b.drainCount } = b := by rw [hd]; rfl
  have hcount : d.drainCount = s.drainCount - 1 := by
    rw [hd]
    exact congrArg (· - 1) ((congrArg State.drainCount hflushes :).trans hsameCount)
  rw [← hd]
  clear hd
  have hsafe := evalSafe_frame d
  refine ⟨C.congr ?_ ?_ ?_ ?_, (congrArg State.drainCount hsafe :).trans hcount, evalSafe_level d, fun hnone => ?_, ?_⟩
  · exact (congrArg State.units hsafe :).trans ((congrArg State.units hlowered :).trans (congrArg State.units hflushes :))
  · exact (congrArg State.lanes hsafe :).trans ((congrArg State.lanes hlowered :).trans (congrArg State.lanes hflushes :))
  · exact (congrArg State.reportQueue hsafe :).trans
      ((congrArg State.reportQueue hlowered :).trans (congrArg State.reportQueue hflushes :))
  · exact (congrArg State.streams hsafe :).trans
      ((congrArg State.streams hlowered :).trans (congrArg State.streams hflushes :))
  · have hsame : b = a := hquiet (hsameOrder.trans hnone)
    rw [hsame] at hlowered
    exact ⟨(congrArg State.flushes hsafe :).trans
        ((congrArg State.flushes hlowered :).trans hsameFlushes),
      (congrArg State.links hsafe :).trans ((congrArg State.links hlowered :).trans hsameLinks)⟩
  · exact (congrArg (withDoneFields s) hsafe :).trans ((congrArg (withDoneFields s) hlowered :).trans
      ((congrArg (withDoneFields s) hflushes :).trans hstart))

/-- Settles O45. -/
theorem unitDoneEffects : Obligations.UnitDoneEffects := by
  unfold Obligations.UnitDoneEffects
  rintro s l v i _ m u hwaits hbody hbyte hv hi rfl hu hstate hlane
  obtain ⟨C, hcount, hsafe, hquiet, hrest⟩ :=
    completeUnit_effect (globalLane l i) v u (opaqueAt m.body 3) (takeHead l .control s)
  refine ⟨_, exec_unitDone_flying hwaits hbody hbyte ⟨hv, hi⟩ (inFlightAt_of hu hstate hlane), C.unit, C.units,
    C.lane, C.lanes, C.reports, C.stream, hcount, hsafe, hquiet, ?_⟩
  generalize completeUnit (globalLane l i) v u (opaqueAt m.body 3) (takeHead l .control s) = t at hrest
  exact ⟨(congrArg State.frames hrest :), (congrArg State.accounts hrest :), (congrArg State.free hrest :),
    (congrArg State.sets hrest :), (congrArg State.grants hrest :), (congrArg State.waiting hrest :),
    (congrArg State.nextSeq hrest :), (congrArg State.part hrest :), (congrArg State.faultList hrest :),
    (congrArg State.tenants hrest :), (congrArg State.wheelPos hrest :)⟩

/-! ### A Unit Fail (R127 to R129) -/

/-- The failure of the unit, what its reason does to the lane, and the evaluation of SAFE. -/
theorem failUnit_acts (g v : Nat) (u : UnitRecord) (s : State) : ∃ q, Failed s q g v u ∧
    ∀ reason, failUnit g v u reason s = evalSafe (reasonActs reason g q) := by
  obtain ⟨q, F, hretry, hfault⟩ := failUnit_spec g v u s
  refine ⟨q, F, fun reason => ?_⟩
  cases reason with
  | retry => exact hretry
  | laneFault => exact hfault

theorem flag_evalSafe (i : Nat) (s : State) (h : (s.event i).flag = true) :
    ((evalSafe s).event i).flag = true := by
  unfold evalSafe
  exact flag_setEventIf _ _ i _ h

theorem reasonActs_frame (reason : FailReason) (g : Nat) (s : State) :
    { reasonActs reason g s with
      units := s.units, lanes := s.lanes, events := s.events, alert := s.alert } = s := by
  cases reason with
  | retry => rfl
  | laneFault =>
    exact (congrArg (fun x : State => { x with events := s.events, alert := s.alert }) (leaveUp_frame g .down s) :)

theorem flag_reasonActs (reason : FailReason) (g i : Nat) (s : State) (h : (s.event i).flag = true) :
    ((reasonActs reason g s).event i).flag = true := by
  cases reason with
  | retry => exact h
  | laneFault =>
    refine flag_setEvent _ _ _ ?_
    rw [show (leaveUp g .down s).event i = s.event i from
      congrArg (Table.getD EventRecord.reset · i) (congrArg State.events (leaveUp_frame g .down s) :)]
    exact h

theorem lane_reasonActs {g j : Nat} (reason : FailReason) (s : State) (hj : j ≠ g) :
    (reasonActs reason g s).lane j = s.lane j := by
  cases reason with
  | retry => rfl
  | laneFault => exact (lane_leaveUp g .down s j).trans (if_neg (Ne.symm hj))

/-- The failed unit is on no lane, so what happens to the lane passes it by (R128). -/
theorem unit_reasonActs {g v : Nat} {x : UnitRecord} (reason : FailReason) {s : State}
    (hs : Table.sorted s.units = true) (hx : s.unit? v = some x) (hlane : x.lane = none)
    (hstate : x.state ≠ .offered) : (reasonActs reason g s).unit? v = some x := by
  cases reason with
  | retry => exact hx
  | laneFault =>
    obtain ⟨-, hkept, -⟩ := leaveUp_units g .down s hs
    exact hkept v x hx (.inr (by rw [hlane]; exact nofun)) (.inl hstate)

/-- The fields a Unit Fail may write: `t` with those of `s` (R127 to R129, R153, R158). -/
def withFailFields (s t : State) : State :=
  { t with
    units := s.units, lanes := s.lanes, events := s.events, alert := s.alert, safe := s.safe,
    faultList := s.faultList, drainCount := s.drainCount, flushes := s.flushes, flushOrder := s.flushOrder,
    links := s.links }

theorem Failed.frame_fail {s q : State} {g v : Nat} {u : UnitRecord} (h : Failed s q g v u) :
    withFailFields s q = s :=
  (congrArg (fun x : State => { x with lanes := s.lanes, safe := s.safe }) h.frame :)

/-- What a Unit Fail writes in every case: the unit itself, the fault list, the counts, and nothing beyond
`withFailFields`. -/
structure UnitFailed (s t : State) (g v : Nat) (u : UnitRecord) : Prop where
  self : t.unit? v = some
    { u with
      state := if u.attempts + 1 < 4 then .staged else .faulted, lane := none,
      attempts := u.attempts + 1 }
  lanes : ∀ j, j ≠ g → t.lane j = s.lane j
  faultList : t.faultList = if u.attempts + 1 < 4 then s.faultList else s.faultList ++ [v]
  drainCount : t.drainCount = if u.attempts + 1 < 4 then s.drainCount else s.drainCount - 1
  flag : 4 ≤ u.attempts + 1 → (t.event Event.unitFault.code).flag = true
  quiet : s.flushOrder = [] ∨ u.attempts + 1 < 4 → t.flushes = s.flushes ∧ t.links = s.links
  rest : withFailFields s t = s

theorem Failed.unitFailed {s q : State} {g v : Nat} {u : UnitRecord} (h : Failed s q g v u)
    (hs : Table.sorted s.units = true) (reason : FailReason) :
    UnitFailed s (evalSafe (reasonActs reason g q)) g v u := by
  have hself := unit_reasonActs (g := g) reason (h.sorted hs) h.self rfl (by dsimp only; split <;> exact nofun)
  have hlanes := fun j hj => (lane_reasonActs (g := g) (j := j) reason q hj)
  have hflags := flag_reasonActs reason g Event.unitFault.code q
  have hrest := reasonActs_frame reason g q
  generalize reasonActs reason g q = a at hself hlanes hflags hrest
  have hsafe := evalSafe_frame a
  have hflag := flag_evalSafe Event.unitFault.code a
  generalize evalSafe a = t at hsafe hflag
  refine ⟨?_, fun j hj => ?_, ?_, ?_, fun hfaults => hflag (hflags (h.flag hfaults)), fun hquiet => ?_, ?_⟩
  · exact (congrArg (Table.find? · v) (congrArg State.units hsafe :) :).trans hself
  · refine (congrArg (Table.getD Lane.reset · j) (congrArg State.lanes hsafe :) :).trans ((hlanes j hj).trans ?_)
    exact (h.lane j).trans (if_neg (Ne.symm hj))
  · exact (congrArg State.faultList hsafe :).trans ((congrArg State.faultList hrest :).trans h.faultList)
  · exact (congrArg State.drainCount hsafe :).trans ((congrArg State.drainCount hrest :).trans h.drainCount)
  · obtain ⟨hflushes, hlinks⟩ := h.quiet hquiet
    exact ⟨(congrArg State.flushes hsafe :).trans ((congrArg State.flushes hrest :).trans hflushes),
      (congrArg State.links hsafe :).trans ((congrArg State.links hrest :).trans hlinks)⟩
  · exact (congrArg (withFailFields s) hsafe :).trans ((congrArg (withFailFields s) hrest :).trans h.frame_fail)

/-- A Unit Fail with LANE_FAULT also takes its lane DOWN (R116, R128). -/
structure LaneFailed (s t : State) (g v : Nat) : Prop where
  lane : t.lane g = { s.lane g with state := .down, offer := none, inFlight := 0 }
  flag : (t.event Event.laneDown.code).flag = true
  restarted : ∀ j x, j ≠ v → s.unit? j = some x → x.state = .inFlight → x.lane = some g →
    t.unit? j = some { x with state := .staged, lane := none, restarted := true }
  kept : ∀ j x, j ≠ v → s.unit? j = some x → (x.state ≠ .inFlight ∨ x.lane ≠ some g) →
    (x.state ≠ .offered ∨ ∀ o, (s.lane g).offer = some o → o.unit ≠ j) → t.unit? j = some x
  withdrawn : ∀ o x, (s.lane g).offer = some o → s.unit? o.unit = some x → x.state = .offered →
    t.unit? o.unit = some { x with state := .staged, lane := none }

theorem Failed.laneFailed {s q : State} {g v : Nat} {u : UnitRecord} (h : Failed s q g v u)
    (hs : Table.sorted s.units = true) (hu : s.unit? v = some u) (hstate : u.state = .inFlight) :
    LaneFailed s (evalSafe (reasonActs .laneFault g q)) g v := by
  obtain ⟨hrestarted, hkept, hwithdrawn⟩ := leaveUp_units g .down q (h.sorted hs)
  have hlane := lane_leaveUp g .down q g
  have hself : q.lane g = { s.lane g with inFlight := (s.lane g).inFlight - 1 } := (h.lane g).trans (if_pos rfl)
  have hacts : reasonActs .laneFault g q = setEvent .laneDown (leaveUp g .down q) := rfl
  rw [hacts]
  generalize leaveUp g .down q = a at hrestarted hkept hwithdrawn hlane
  have hsafe := evalSafe_frame (setEvent .laneDown a)
  have hflag := flag_evalSafe Event.laneDown.code (setEvent .laneDown a) (by rw [event_setEvent_same])
  generalize evalSafe (setEvent .laneDown a) = t at hsafe hflag
  have hunit : ∀ j, t.unit? j = a.unit? j := fun j => congrArg (Table.find? · j) (congrArg State.units hsafe :)
  have hlanes : t.lane g = a.lane g := congrArg (Table.getD Lane.reset · g) (congrArg State.lanes hsafe :)
  have hoffer : (q.lane g).offer = (s.lane g).offer := by rw [hself]
  refine ⟨?_, hflag, fun j x hj hx hflies hx' => ?_, fun j x hj hx hflies ho => ?_, fun o x ho hx hoffered => ?_⟩
  · rw [hlanes, hlane, if_pos rfl, hself]
  · rw [hunit]
    exact hrestarted j x ((h.others j hj).trans hx) hflies hx'
  · rw [hunit]
    exact hkept j x ((h.others j hj).trans hx) hflies (by rw [hoffer]; exact ho)
  · have hne : o.unit ≠ v := by
      rintro rfl
      rw [hu] at hx
      cases hx
      exact absurd (hstate.symm.trans hoffered) (by decide)
    rw [hunit]
    exact hwithdrawn o x (hoffer.trans ho) ((h.others _ hne).trans hx) hoffered

/-- Settles O46: the failure of the unit is `Failed`; LANE_FAULT adds what R116 does to the lane. -/
theorem unitFailEffects : Obligations.UnitFailEffects := by
  unfold Obligations.UnitFailEffects
  rintro s l v i _ m u reason hwaits hbody hbyte hv hi rfl hreason hu hstate hlane hs
  obtain ⟨q, F, hacts⟩ := failUnit_acts (globalLane l i) v u (takeHead l .control s)
  have U := F.unitFailed (s := takeHead l .control s) hs reason
  refine ⟨_, exec_unitFail_flying hwaits hbody hbyte hreason ⟨hv, hi⟩ (inFlightAt_of hu hstate hlane), ?_⟩
  rw [hacts reason]
  refine ⟨fun hagain => ?_, fun hfaults => ?_, ?_, ?_, U.lanes, evalSafe_level _, U.quiet, ?_⟩
  · obtain ⟨hself, hfaulted, hcount⟩ := And.intro U.self (And.intro U.faultList U.drainCount)
    rw [if_pos hagain] at hself hfaulted hcount
    exact ⟨hself, hfaulted, hcount⟩
  · obtain ⟨hself, hfaulted, hcount⟩ := And.intro U.self (And.intro U.faultList U.drainCount)
    rw [if_neg (Nat.not_lt.2 hfaults)] at hself hfaulted hcount
    exact ⟨hself, hfaulted, hcount, U.flag hfaults⟩
  · rintro rfl
    have hsafe := evalSafe_frame (reasonActs .retry (globalLane l i) q)
    exact ⟨(congrArg (Table.getD Lane.reset · (globalLane l i)) (congrArg State.lanes hsafe :) :).trans
        ((F.lane (globalLane l i)).trans (if_pos rfl)),
      fun j hj => (congrArg (Table.find? · j) (congrArg State.units hsafe :) :).trans (F.others j hj)⟩
  · rintro rfl
    have L := F.laneFailed (s := takeHead l .control s) hs hu hstate
    exact ⟨L.lane, L.flag, L.restarted, L.kept, L.withdrawn⟩
  · have hrest := U.rest
    generalize evalSafe (reasonActs reason (globalLane l i) q) = t at hrest
    exact ⟨(congrArg State.frames hrest :), (congrArg State.accounts hrest :), (congrArg State.free hrest :),
      (congrArg State.sets hrest :), (congrArg State.reportQueue hrest :), (congrArg State.streams hrest :),
      (congrArg State.part hrest :), (congrArg State.waiting hrest :), (congrArg State.grants hrest :)⟩

/-! ### A drain's message that is not taken (R118, R120, R124) -/

section
variable {s : State} {l v i : Nat}

theorem unitLaneOk_out (h : 4096 ≤ v ∨ 8 ≤ i) : unitLaneOk v i = false := by
  rw [← Bool.not_eq_true, unitLaneOk_iff]
  omega

theorem inFlightAt_none {g : Nat} (h : ∀ u, s.unit? v = some u → ¬(u.state = .inFlight ∧ u.lane = some g)) :
    inFlightAt s g v = none := by
  rw [← Option.not_isSome_iff_eq_none, Option.isSome_iff_exists]
  rintro ⟨u, hu⟩
  obtain ⟨hunit, hstate, hlane⟩ := inFlightAt_some hu
  exact h u hunit ⟨hstate, hlane⟩

theorem takeAccept_malformed (h : 4096 ≤ v ∨ 8 ≤ i) :
    takeAccept l v i s = place l (.controlRefused kindAccept (some v) i .malformed) s := by
  simp [takeAccept, unitLaneOk_out h, refuseControl]

theorem takeAccept_stale (hfields : v < 4096 ∧ i < 8) (h : holdsOffer s (globalLane l i) v = false) :
    takeAccept l v i s = place l (.controlRefused kindAccept (some v) i .stale) s := by
  simp [takeAccept, (unitLaneOk_iff v i).2 hfields, h, refuseControl]

theorem takeDecline_malformed (h : 4096 ≤ v ∨ 8 ≤ i) :
    takeDecline l v i s = place l (.controlRefused kindDecline (some v) i .malformed) s := by
  simp [takeDecline, unitLaneOk_out h, refuseControl]

theorem takeDecline_stale (hfields : v < 4096 ∧ i < 8) (h : holdsOffer s (globalLane l i) v = false) :
    takeDecline l v i s = place l (.controlRefused kindDecline (some v) i .stale) s := by
  simp [takeDecline, (unitLaneOk_iff v i).2 hfields, h, refuseControl]

theorem takeUnitDone_malformed (p : Opaque40) (h : 4096 ≤ v ∨ 8 ≤ i) :
    takeUnitDone l v i p s = place l (.controlRefused kindUnitDone (some v) i .malformed) s := by
  simp [takeUnitDone, unitLaneOk_out h, refuseControl]

theorem takeUnitDone_stale (p : Opaque40) (hfields : v < 4096 ∧ i < 8)
    (h : inFlightAt s (globalLane l i) v = none) :
    takeUnitDone l v i p s = place l (.controlRefused kindUnitDone (some v) i .stale) s := by
  simp [takeUnitDone, (unitLaneOk_iff v i).2 hfields, h, refuseControl]

theorem takeUnitFail_malformed {reason : Option FailReason} (h : 4096 ≤ v ∨ 8 ≤ i ∨ reason = none) :
    takeUnitFail l v i reason s = place l (.controlRefused kindUnitFail (some v) i .malformed) s := by
  cases reason with
  | none => rfl
  | some reason => simp [takeUnitFail, unitLaneOk_out (v := v) (i := i) (by simpa using h), refuseControl]

theorem takeUnitFail_stale (reason : FailReason) (hfields : v < 4096 ∧ i < 8)
    (h : inFlightAt s (globalLane l i) v = none) :
    takeUnitFail l v i (some reason) s = place l (.controlRefused kindUnitFail (some v) i .stale) s := by
  simp [takeUnitFail, (unitLaneOk_iff v i).2 hfields, h, refuseControl]

theorem takeFetch_malformed {tag k n : Nat} (reads : List ReadResult)
    (h : 4096 ≤ v ∨ s.cfg.unitSize ≤ k ∨ n = 0 ∨ s.cfg.unitSize < n) :
    takeFetch l tag v k n reads s = place l (.fetchRefused tag v .malformed) s :=
  if_pos h

theorem takeFetch_stale {tag k n : Nat} (reads : List ReadResult) (hv : v < 4096) (hk : k < s.cfg.unitSize)
    (hn : 1 ≤ n) (hsize : n ≤ s.cfg.unitSize) (h : inFlightOn s l v = none) :
    takeFetch l tag v k n reads s = place l (.fetchRefused tag v .stale) s := by
  have hwell : ¬ (Config.unitCount ≤ v ∨ s.cfg.unitSize ≤ k ∨ n = 0 ∨ s.cfg.unitSize < n) := by
    have hcount : Config.unitCount = 4096 := rfl
    omega
  simp only [takeFetch, if_neg hwell, h]

theorem inFlightOn_none (h : ∀ u g, s.unit? v = some u → u.state = .inFlight → u.lane = some g → laneLink g ≠ l) :
    inFlightOn s l v = none := by
  rw [inFlightOn, Option.filter_eq_none_iff]
  intro u hu
  simp only [Bool.and_eq_true, beq_iff_eq, Option.any_eq_true, not_and, not_exists]
  exact fun hstate g hg => h u g hu hstate hg

end

/-- Settles O47: each message by the equation of its taking on the state without it. -/
theorem controlMessagesRefused : Obligations.ControlMessagesRefused := by
  unfold Obligations.ControlMessagesRefused
  rintro s l _ _ m rfl rfl
  refine ⟨fun kind c hmem hwaits => ?_, fun hwaits reads => ⟨fun hbad => ?_, fun hv hk hn hsize hstale => ?_⟩⟩
  · simp only [List.mem_cons, Prod.mk.injEq, List.not_mem_nil, or_false] at hmem
    obtain ⟨rfl, rfl⟩ | ⟨rfl, rfl⟩ | ⟨rfl, rfl⟩ | ⟨rfl, rfl⟩ := hmem
    · refine ⟨fun hbad => ?_, fun hv hi _ hoffer _ => ?_⟩
      · rw [exec_accept hwaits, takeAccept_malformed]
        exact hbad.imp_right (Or.resolve_right · fun h => absurd h.1 (by decide))
      · rw [exec_accept hwaits, takeAccept_stale (s := takeHead l .control s) ⟨hv, hi⟩ (hoffer (.inl rfl))]
    · refine ⟨fun hbad => ?_, fun hv hi _ hoffer _ => ?_⟩
      · rw [exec_decline hwaits, takeDecline_malformed]
        exact hbad.imp_right (Or.resolve_right · fun h => absurd h.1 (by decide))
      · rw [exec_decline hwaits, takeDecline_stale (s := takeHead l .control s) ⟨hv, hi⟩ (hoffer (.inr rfl))]
    · refine ⟨fun hbad => ?_, fun hv hi _ _ hflies => ?_⟩
      · rw [exec_unitDone hwaits, takeUnitDone_malformed]
        exact hbad.imp_right (Or.resolve_right · fun h => absurd h.1 (by decide))
      · rw [exec_unitDone hwaits,
          takeUnitDone_stale (s := takeHead l .control s) _ ⟨hv, hi⟩ (inFlightAt_none (hflies (.inl rfl)))]
    · refine ⟨fun hbad => ?_, fun hv hi hreason _ hflies => ?_⟩
      · rw [exec_unitFail hwaits, takeUnitFail_malformed]
        exact hbad.imp_right (Or.imp_right And.right)
      · obtain ⟨reason, hsome⟩ := Option.isSome_iff_exists.1 (hreason rfl)
        rw [exec_unitFail hwaits, hsome,
          takeUnitFail_stale (s := takeHead l .control s) reason ⟨hv, hi⟩ (inFlightAt_none (hflies (.inr rfl)))]
  · rw [exec_fetch hwaits, takeFetch_malformed (s := takeHead l .control s) reads hbad]
  · rw [exec_fetch hwaits, takeFetch_stale (s := takeHead l .control s) reads hv hk hn hsize (inFlightOn_none hstale)]

end Sys2Proof.Machine
end


section
/-! SUPPORT. How a management request is refused and accepted, and the requests of the classifier and of the
accounts (R4, R15, R16, R44 to R46, R177). -/

namespace Sys2Proof.Machine

/-! ### The answer of a request (R177) -/

section
variable {s : State} {m : Message} {kind : Nat} {f : List Byte → State → Answer}

theorem request_denied {code : MgmtCode} (hwaits : RequestWaits s kind m) (hpart : s.part ≠ .starting)
    (h : f m.body (takeHead 5 .mgmt s) = denied code (takeHead 5 .mgmt s)) :
    request kind f s = .next (answeredWith m code none (takeHead 5 .mgmt s)) := by
  rw [request_waits f hwaits hpart, h, replyMgmt_denied]

theorem request_accepted {t : State} (hwaits : RequestWaits s kind m) (hpart : s.part ≠ .starting)
    (h : f m.body (takeHead 5 .mgmt s) = accepted t) :
    request kind f s = .next (answeredWith m .accepted none t) := by
  rw [request_waits f hwaits hpart, h, replyMgmt_accepted]

end

theorem checked_holds {b : Bool} (a : Answer) (s : State) (h : b = true) : checked b a s = a := by
  rw [checked, if_pos h]

theorem checked_fails {b : Bool} (a : Answer) (s : State) (h : b = false) :
    checked b a s = denied .badField s := by
  rw [checked, if_neg (by rw [h]; decide)]

/-- The 23 requests that STARTING refuses, with the kinds of Table 10-2 (R177). -/
def ownedRequests : List (Nat × Instr) :=
  [(1, .start), (2, .stop), (3, .configure), (4, .ruleSet), (5, .reclaimMapSet), (6, .tenantSet),
    (7, .reclaimAccountSet), (8, .tenantFreeze), (9, .tenantThaw), (10, .streamBind), (11, .streamSet),
    (12, .streamPause), (13, .streamResume), (14, .streamRetire), (15, .unitClose), (16, .slotSet),
    (17, .laneBlock), (18, .laneUnblock), (19, .unitRestage), (20, .unitDiscard), (22, .eventFetch),
    (23, .eventClear), (24, .eventMask)]

/-- Each of them is a request of its kind with an effect of its own. -/
theorem exec_ownedRequest {kind : Nat} {c : Instr} (h : (kind, c) ∈ ownedRequests) :
    ∃ f, ∀ s, exec c s = request kind f s := by
  simp only [ownedRequests, List.mem_cons, Prod.mk.injEq, List.not_mem_nil, or_false] at h
  rcases h with ⟨rfl, rfl⟩ | ⟨rfl, rfl⟩ | ⟨rfl, rfl⟩ | ⟨rfl, rfl⟩ | ⟨rfl, rfl⟩ | ⟨rfl, rfl⟩ | ⟨rfl, rfl⟩ |
    ⟨rfl, rfl⟩ | ⟨rfl, rfl⟩ | ⟨rfl, rfl⟩ | ⟨rfl, rfl⟩ | ⟨rfl, rfl⟩ | ⟨rfl, rfl⟩ | ⟨rfl, rfl⟩ | ⟨rfl, rfl⟩ |
    ⟨rfl, rfl⟩ | ⟨rfl, rfl⟩ | ⟨rfl, rfl⟩ | ⟨rfl, rfl⟩ | ⟨rfl, rfl⟩ | ⟨rfl, rfl⟩ | ⟨rfl, rfl⟩ | ⟨rfl, rfl⟩
  · exact ⟨fun _ => startPart, fun _ => rfl⟩
  · exact ⟨fun _ => stopPart, fun _ => rfl⟩
  · exact ⟨fun b => configurePart (readSettings b), fun _ => rfl⟩
  · exact ⟨fun b => setClassRule (byteAt b 1) (readRule b), fun _ => rfl⟩
  · exact ⟨fun b => setReclaimMap [byteAt b 1, byteAt b 2, byteAt b 3, byteAt b 4], fun _ => rfl⟩
  · exact ⟨fun b => setTenantRequest (byteAt b 1) (numAt b 2 4) (numAt b 6 4) (readTenantFields b), fun _ => rfl⟩
  · exact ⟨fun b => setReclaimAccount (numAt b 1 4) (numAt b 5 4), fun _ => rfl⟩
  · exact ⟨fun b => freezeTenant (byteAt b 1), fun _ => rfl⟩
  · exact ⟨fun b => thawTenant (byteAt b 1), fun _ => rfl⟩
  · exact ⟨fun b => bindStream (byteAt b 1) (readClass (byteAt b 2)) (readStreamFields b 3), fun _ => rfl⟩
  · exact ⟨fun b => setStreamPolicy (byteAt b 1) (readStreamFields b 2), fun _ => rfl⟩
  · exact ⟨fun b => pauseStream (byteAt b 1), fun _ => rfl⟩
  · exact ⟨fun b => resumeStream (byteAt b 1), fun _ => rfl⟩
  · exact ⟨fun b => retireStream (byteAt b 1), fun _ => rfl⟩
  · exact ⟨fun b => closeUnit (numAt b 1 2), fun _ => rfl⟩
  · exact ⟨fun b => setSlotRecord (byteAt b 1) (flagAt b 2) (byteAt b 3) (byteAt b 4), fun _ => rfl⟩
  · exact ⟨fun b => blockLane (byteAt b 1), fun _ => rfl⟩
  · exact ⟨fun b => unblockLane (byteAt b 1), fun _ => rfl⟩
  · exact ⟨fun b => faultedRequest (numAt b 1 2) (restageFaulted (numAt b 1 2)), fun _ => rfl⟩
  · exact ⟨fun b => faultedRequest (numAt b 1 2) (discardFaulted (numAt b 1 2)), fun _ => rfl⟩
  · exact ⟨fun _ s => answered (.events (eventRecords s)) s, fun _ => rfl⟩
  · exact ⟨fun b s => checked (eventSetOk (numAt b 1 2)) (accepted (clearEvents (numAt b 1 2) s)) s, fun _ => rfl⟩
  · exact ⟨fun b s => checked (eventSetOk (numAt b 1 2)) (accepted (maskEvents (numAt b 1 2) s)) s, fun _ => rfl⟩

/-- Settles O48. -/
theorem requestsNotReady : Obligations.RequestsNotReady := by
  unfold Obligations.RequestsNotReady
  refine fun s m => ⟨fun hpart kind c hmem hwaits => ?_, fun kind hwaits hkind => ?_⟩
  · obtain ⟨f, hf⟩ := exec_ownedRequest hmem
    rw [hf, request_starting f hwaits hpart]
  · have htaken : takeRequest (fun k => k == 0 || decide (requestKinds < k)) s = some m :=
      hwaits.takeRequest
      (Bool.or_eq_true_iff.2 (hkind.imp (fun h => beq_iff_eq.2 h) fun h => decide_eq_true_iff.2 h))
    simp only [exec, execUnknownRequestKind, htaken, replyMgmt_denied]

/-! ### The checks of a rule and of a tenant's fields (R4, R15) -/

theorem ruleOk_iff (n : Nat) (r : Rule) : ruleOk n r = true ↔
    n ≤ 31 ∧ r.tenantHigh ≤ 255 ∧ r.tenantLow ≤ r.tenantHigh ∧ (∀ h, r.handle = some h → h ≤ 1023) ∧
    r.lbaHigh ≤ 2 ^ 40 - 1 ∧ r.lbaLow ≤ r.lbaHigh ∧ (∀ h, r.hint = some h → h ≤ 7) ∧
    (∀ k, r.action = .stream k → k ≤ 63) := by
  have hnumber : n < Config.ruleCount ↔ n ≤ 31 := Nat.lt_succ_iff
  have hlba : r.lbaHigh < Config.lbaLimit ↔ r.lbaHigh ≤ 2 ^ 40 - 1 := Nat.lt_succ_iff
  have hstream : ∀ k, k < Config.streamCount ↔ k ≤ 63 := fun _ => Nat.lt_succ_iff
  have hhandle : Config.maxHandle = 1023 := rfl
  unfold ruleOk
  cases r.action with
  | stream k =>
    simp only [Bool.and_eq_true, decide_eq_true_eq, Option.all_eq_true, hnumber, hlba, hstream, hhandle, and_assoc,
      RuleAction.stream.injEq, forall_eq']
  | protect =>
    simp only [Bool.and_eq_true, decide_eq_true_eq, Option.all_eq_true, hnumber, hlba, hhandle, and_assoc, reduceCtorEq,
      false_implies, implies_true, and_true]
  | pass =>
    simp only [Bool.and_eq_true, decide_eq_true_eq, Option.all_eq_true, hnumber, hlba, hhandle, and_assoc, reduceCtorEq,
      false_implies, implies_true, and_true]

theorem streamOk_iff (o : Option Nat) : streamOk o = true ↔ ∀ k, o = some k → k ≤ 63 := by
  unfold streamOk
  cases o with
  | none => exact ⟨fun _ _ => nofun, fun _ => rfl⟩
  | some k => exact decide_eq_true_iff.trans (Nat.lt_succ_iff.trans ⟨fun h _ e => by cases e; exact h, fun h => h k rfl⟩)

theorem tenantFieldsOk_iff (t : Nat) (f : TenantFields) : tenantFieldsOk t f = true ↔
    t ≤ 255 ∧ f.defaultStream ≤ 63 ∧ (∀ k, f.seqStream = some k → k ≤ 63) ∧
    ∀ h ∈ f.hintMap, ∀ k, h = some k → k ≤ 63 := by
  have htenant : t < Config.tenantCount ↔ t ≤ 255 := Nat.lt_succ_iff
  have hstream : f.defaultStream < Config.streamCount ↔ f.defaultStream ≤ 63 := Nat.lt_succ_iff
  simp only [tenantFieldsOk, Bool.and_eq_true, decide_eq_true_eq, List.all_eq_true, streamOk_iff, htenant, hstream,
    and_assoc]

/-- A rule as read counts no hits (R4). -/
theorem hits_readRule {b : List Byte} {r : Rule} (h : readRule b = some r) : r.hits = 0 := by
  unfold readRule at h
  split at h
  · cases h
    rfl
  · cases h

/-! ### The checks of a reserve and a cap (R45, R46) -/

section
variable {s : State} {a r c : Nat}

theorem limitCheck_badField (h : 65536 < r ∨ 65536 < c) : limitCheck a r c s = some .badField :=
  if_pos h

theorem limitCheck_limit (hr : r ≤ 65536) (hc : c ≤ 65536)
    (h : 65536 < sumAccounts (·.reserve) (s.setAccount a { s.account a with reserve := r }) ∨
      s.free < sumAccounts unusedReserve (s.setAccount a { s.account a with reserve := r })) :
    limitCheck a r c s = some .limit := by
  refine (if_neg (fun h => h.elim (Nat.not_lt.2 hr) (Nat.not_lt.2 hc))).trans ?_
  by_cases hsum : 65536 < sumAccounts (·.reserve) (s.setAccount a { s.account a with reserve := r })
  · exact if_pos hsum
  · exact (if_neg hsum).trans (if_pos (h.resolve_left hsum))

theorem limitCheck_none (hr : r ≤ 65536) (hc : c ≤ 65536)
    (hsum : sumAccounts (·.reserve) (s.setAccount a { s.account a with reserve := r }) ≤ 65536)
    (hfree : sumAccounts unusedReserve (s.setAccount a { s.account a with reserve := r }) ≤ s.free) :
    limitCheck a r c s = none :=
  (if_neg (fun h => h.elim (Nat.not_lt.2 hr) (Nat.not_lt.2 hc))).trans
    ((if_neg (Nat.not_lt.2 hsum)).trans (if_neg (Nat.not_lt.2 hfree)))

end

/-! ### What each request does (R4, R16, R44 to R46) -/

section
variable {s : State}

theorem setClassRule_ok {n : Nat} {r : Rule} (h : ruleOk n r = true) :
    setClassRule n (some r) s = accepted (s.setRule n r) :=
  checked_holds _ _ h

theorem setClassRule_bad {n : Nat} {read : Option Rule} (h : read = none ∨ ∃ r, read = some r ∧ ruleOk n r = false) :
    setClassRule n read s = denied .badField s := by
  obtain rfl | ⟨r, rfl, hr⟩ := h
  · rfl
  · exact checked_fails _ _ hr

theorem setReclaimMap_ok {l : List Nat} (h : ∀ k ∈ l, k < 64) :
    setReclaimMap l s = accepted (retestWalk { s with reclaimMap := l }) :=
  checked_holds _ _ (List.all_eq_true.2 fun k hk => decide_eq_true (h k hk))

theorem setReclaimMap_bad {l : List Nat} {k : Nat} (hk : k ∈ l) (h : 64 ≤ k) :
    setReclaimMap l s = denied .badField s :=
  checked_fails _ _ (List.all_eq_false.2 ⟨k, hk, by rw [decide_eq_true_iff]; exact Nat.not_lt.2 h⟩)

variable {t r c : Nat} {f : TenantFields}

theorem setTenantRequest_badField (h : tenantFieldsOk t f = false) :
    setTenantRequest t r c f s = denied .badField s := by
  rw [setTenantRequest, if_neg (by rw [h]; decide)]

theorem setTenantRequest_limit {code : MgmtCode} (h : tenantFieldsOk t f = true)
    (hlimit : limitCheck t r c s = some code) : setTenantRequest t r c f s = denied code s := by
  rw [setTenantRequest, if_pos h, hlimit]

theorem setTenantRequest_ok (h : tenantFieldsOk t f = true) (hlimit : limitCheck t r c s = none) :
    setTenantRequest t r c f s =
      accepted (retestWalk (setTenantFields t f (setLimits t r c s))) := by
  rw [setTenantRequest, if_pos h, hlimit]

theorem setReclaimAccount_limit {code : MgmtCode} (hlimit : limitCheck 256 r c s = some code) :
    setReclaimAccount r c s = denied code s := by
  rw [setReclaimAccount, show limitCheck Config.reclaimAccount r c s = some code from hlimit]

theorem setReclaimAccount_ok (hlimit : limitCheck 256 r c s = none) :
    setReclaimAccount r c s = accepted (retestWalk (setLimits 256 r c s)) := by
  rw [setReclaimAccount, show limitCheck Config.reclaimAccount r c s = none from hlimit]
  rfl

theorem freezeTenant_ok (h : t < 256) : freezeTenant t s = accepted (setFrozen t true s) :=
  checked_holds _ _ (decide_eq_true h)

theorem thawTenant_ok (h : t < 256) : thawTenant t s = accepted (retestWalk (setFrozen t false s)) :=
  checked_holds _ _ (decide_eq_true h)

end

/-- The four entries of a Reclaim Map Set, by their places in the request (R16). -/
theorem mem_mapBytes {b : List Byte} {k : Nat} :
    k ∈ [byteAt b 1, byteAt b 2, byteAt b 3, byteAt b 4] ↔ ∃ i, 1 ≤ i ∧ i ≤ 4 ∧ byteAt b i = k := by
  simp only [List.mem_cons, List.not_mem_nil, or_false]
  constructor
  · rintro (rfl | rfl | rfl | rfl)
    · exact ⟨1, by omega, by omega, rfl⟩
    · exact ⟨2, by omega, by omega, rfl⟩
    · exact ⟨3, by omega, by omega, rfl⟩
    · exact ⟨4, by omega, by omega, rfl⟩
  · rintro ⟨i, hlow, hhigh, rfl⟩
    obtain rfl | rfl | rfl | rfl : i = 1 ∨ i = 2 ∨ i = 3 ∨ i = 4 := by omega
    · exact .inl rfl
    · exact .inr (.inl rfl)
    · exact .inr (.inr (.inl rfl))
    · exact .inr (.inr (.inr rfl))

/-- Settles O50: each clause is the equation of its owner on the state without the request. -/
theorem classifierAndAccountRequests : Obligations.ClassifierAndAccountRequests := by
  unfold Obligations.ClassifierAndAccountRequests
  refine ⟨ruleOk_iff, tenantFieldsOk_iff, fun s m hpart => ⟨fun hwaits => ⟨fun r hread hok => ⟨hits_readRule hread, ?_⟩,
    fun hbad => ?_⟩, fun hwaits => ⟨fun hrange => ?_, fun i hlow hhigh hout => ?_⟩, ?_, ?_,
    fun a r c => ⟨limitCheck_badField, fun hr hc => ⟨limitCheck_limit hr hc, limitCheck_none hr hc⟩⟩,
    fun t ht hlt => ⟨fun hwaits => ?_, fun hwaits => ?_⟩⟩⟩
  · exact request_accepted (f := fun b => setClassRule (byteAt b 1) (readRule b)) hwaits hpart
      (by rw [hread, setClassRule_ok hok])
  · exact request_denied (f := fun b => setClassRule (byteAt b 1) (readRule b)) hwaits hpart (setClassRule_bad hbad)
  · refine request_accepted
      (f := fun b => setReclaimMap [byteAt b 1, byteAt b 2, byteAt b 3, byteAt b 4]) hwaits hpart
      (setReclaimMap_ok fun k hk => ?_)
    obtain ⟨i, hlow, hhigh, rfl⟩ := mem_mapBytes.1 hk
    exact hrange i hlow hhigh
  · exact request_denied
      (f := fun b => setReclaimMap [byteAt b 1, byteAt b 2, byteAt b 3, byteAt b 4]) hwaits hpart
      (setReclaimMap_bad (mem_mapBytes.2 ⟨i, hlow, hhigh, rfl⟩) hout)
  · rintro _ _ _ _ rfl rfl rfl rfl hwaits
    have hrequest : ∀ t, exec .tenantSet t = request 6 (fun b =>
      setTenantRequest (byteAt b 1) (numAt b 2 4) (numAt b 6 4) (readTenantFields b)) t := fun _ => rfl
    rw [hrequest]
    exact ⟨fun hbad => request_denied hwaits hpart (setTenantRequest_badField hbad),
      fun hok code hlimit => request_denied hwaits hpart (setTenantRequest_limit hok hlimit),
      fun hok hlimit => request_accepted hwaits hpart (setTenantRequest_ok hok hlimit)⟩
  · rintro _ _ rfl rfl hwaits
    have hrequest : ∀ t, exec .reclaimAccountSet t =
      request 7 (fun b => setReclaimAccount (numAt b 1 4) (numAt b 5 4)) t := fun _ => rfl
    rw [hrequest]
    exact ⟨fun code hlimit => request_denied hwaits hpart (setReclaimAccount_limit hlimit),
      fun hlimit => request_accepted hwaits hpart (setReclaimAccount_ok hlimit)⟩
  · exact request_accepted (f := fun b => freezeTenant (byteAt b 1)) hwaits hpart
      (by rw [ht]; exact freezeTenant_ok hlt)
  · exact request_accepted (f := fun b => thawTenant (byteAt b 1)) hwaits hpart
      (by rw [ht]; exact thawTenant_ok hlt)

end Sys2Proof.Machine
end


section
/-! SUPPORT. The requests of the streams, of the wheel, of the lanes and of the faulted units (R82 to R86, R94,
R103, R115, R131, R132). -/

namespace Sys2Proof.Machine

/-! ### The streams (R82 to R86) -/

section
variable {s : State} {k : Nat} {f : StreamFields} {c : WriteClass}

theorem streamFieldsOk_of (hk : k < 64) (hlow : 1 ≤ f.hold) (hhigh : f.hold ≤ 1000) (hlanes : f.lanes ≠ 0#32) :
    streamFieldsOk k f = true := by
  simp [streamFieldsOk, hlow, hhigh, hlanes, show k < Config.streamCount from hk]

theorem streamFieldsOk_out (h : 64 ≤ k ∨ f.hold = 0 ∨ 1000 < f.hold ∨ f.lanes = 0#32) :
    streamFieldsOk k f = false := by
  have hcount : Config.streamCount = 64 := rfl
  rw [← Bool.not_eq_true]
  simp only [streamFieldsOk, Bool.and_eq_true, decide_eq_true_eq, bne_iff_ne, hcount]
  rintro ⟨⟨⟨hk, hlow⟩, hhigh⟩, hlanes⟩
  rcases h with h | h | h | h
  · omega
  · omega
  · omega
  · exact hlanes h

theorem bindStream_badField (h : streamFieldsOk k f = false) :
    bindStream k (some c) (some f) s = denied .badField s := by
  simp only [bindStream, h, Bool.false_eq_true, if_false]

theorem bindStream_busy (h : streamFieldsOk k f = true) (hstate : (s.stream k).state ≠ .unbound) :
    bindStream k (some c) (some f) s = denied .busy s := by
  simp only [bindStream, h, if_true, if_neg hstate]

theorem bindStream_binds (h : streamFieldsOk k f = true) (hstate : (s.stream k).state = .unbound) :
    bindStream k (some c) (some f) s =
      accepted (retestWalk (s.setStream k
        { s.stream k with
          state := .active, cls := c, policy := f.policy, mode := f.mode, window := f.window, hold := f.hold,
          lanes := f.lanes, cursor := 0, slicesPlaced := 0, padSlices := 0, unitsCompleted := 0,
          inPlaceHits := 0 })) := by
  simp only [bindStream, h, hstate, if_true]

theorem bindStream_unread {rc : Option WriteClass} {rf : Option StreamFields} (h : rc = none ∨ rf = none) :
    bindStream k rc rf s = denied .badField s := by
  cases rc with
  | none => rfl
  | some c => rw [h.resolve_left nofun]; rfl

theorem setStreamPolicy_badField (h : streamFieldsOk k f = false) :
    setStreamPolicy k (some f) s = denied .badField s := by
  simp only [setStreamPolicy, h, Bool.false_eq_true, if_false]

theorem setStreamPolicy_badState (h : streamFieldsOk k f = true)
    (hstate : (s.stream k).state = .unbound ∨ (s.stream k).state = .retiring) :
    setStreamPolicy k (some f) s = denied .badState s := by
  rcases hstate with hstate | hstate
  · simp only [setStreamPolicy, h, hstate, if_true]
  · simp only [setStreamPolicy, h, hstate, if_true]

theorem setStreamPolicy_sets (h : streamFieldsOk k f = true)
    (hstate : (s.stream k).state = .active ∨ (s.stream k).state = .paused) :
    setStreamPolicy k (some f) s =
      accepted (s.setStream k
        { s.stream k with
          policy := f.policy, mode := f.mode, window := f.window, hold := f.hold, lanes := f.lanes }) := by
  rcases hstate with hstate | hstate
  · simp only [setStreamPolicy, h, hstate, if_true]
  · simp only [setStreamPolicy, h, hstate, if_true]

theorem pauseStream_out (hk : 64 ≤ k) : pauseStream k s = denied .badField s := if_neg (Nat.not_lt.2 hk)

theorem resumeStream_out (hk : 64 ≤ k) : resumeStream k s = denied .badField s := if_neg (Nat.not_lt.2 hk)

theorem retireStream_out (hk : 64 ≤ k) : retireStream k s = denied .badField s := if_neg (Nat.not_lt.2 hk)

theorem pauseStream_active (hk : k < 64) (hstate : (s.stream k).state = .active) :
    pauseStream k s = accepted (retestWalk (pauseActive k s)) := by
  simp only [pauseStream, if_pos (show k < Config.streamCount from hk), hstate]

theorem pauseStream_paused (hk : k < 64) (hstate : (s.stream k).state = .paused) :
    pauseStream k s = accepted s := by
  simp only [pauseStream, if_pos (show k < Config.streamCount from hk), hstate]

theorem pauseStream_badState (hk : k < 64)
    (hstate : (s.stream k).state = .unbound ∨ (s.stream k).state = .retiring) :
    pauseStream k s = denied .badState s := by
  rcases hstate with hstate | hstate
  · simp only [pauseStream, if_pos (show k < Config.streamCount from hk), hstate]
  · simp only [pauseStream, if_pos (show k < Config.streamCount from hk), hstate]

theorem resumeStream_paused (hk : k < 64) (hstate : (s.stream k).state = .paused) :
    resumeStream k s = accepted (retestWalk (resumePaused k s)) := by
  simp only [resumeStream, if_pos (show k < Config.streamCount from hk), hstate]

theorem resumeStream_active (hk : k < 64) (hstate : (s.stream k).state = .active) :
    resumeStream k s = accepted s := by
  simp only [resumeStream, if_pos (show k < Config.streamCount from hk), hstate]

theorem resumeStream_badState (hk : k < 64)
    (hstate : (s.stream k).state = .unbound ∨ (s.stream k).state = .retiring) :
    resumeStream k s = denied .badState s := by
  rcases hstate with hstate | hstate
  · simp only [resumeStream, if_pos (show k < Config.streamCount from hk), hstate]
  · simp only [resumeStream, if_pos (show k < Config.streamCount from hk), hstate]

theorem retireStream_bound (hk : k < 64) (hstate : (s.stream k).state = .active ∨ (s.stream k).state = .paused) :
    retireStream k s = accepted (retestWalk (retireBound k s)) := by
  rcases hstate with hstate | hstate
  · simp only [retireStream, if_pos (show k < Config.streamCount from hk), hstate]
  · simp only [retireStream, if_pos (show k < Config.streamCount from hk), hstate]

theorem retireStream_retiring (hk : k < 64) (hstate : (s.stream k).state = .retiring) :
    retireStream k s = accepted s := by
  simp only [retireStream, if_pos (show k < Config.streamCount from hk), hstate]

theorem retireStream_unbound (hk : k < 64) (hstate : (s.stream k).state = .unbound) :
    retireStream k s = denied .badState s := by
  simp only [retireStream, if_pos (show k < Config.streamCount from hk), hstate]

end

/-- Unit Close of an id above 4,095, of a unit that is not OPEN, and of one that is (R94). -/
theorem closeUnit_out {s : State} {v : Nat} (hv : 4096 ≤ v) : closeUnit v s = denied .badField s :=
  if_neg (Nat.not_lt.2 hv)

theorem closeUnit_notOpen {s : State} {v : Nat} (hv : v < 4096)
    (h : ∀ u, s.unit? v = some u → u.state ≠ .opened) : closeUnit v s = denied .badState s := by
  have hstate : unitIs s v .opened = false := by
    rw [← Bool.not_eq_true, unitIs, Option.any_eq_true]
    rintro ⟨u, hu, hopen⟩
    exact h u hu (beq_iff_eq.1 hopen)
  rw [closeUnit, if_pos (show v < Config.unitCount from hv), if_neg (by rw [hstate]; decide)]

theorem closeUnit_open {s : State} {v : Nat} {u : UnitRecord} (hv : v < 4096) (hu : s.unit? v = some u)
    (hopen : u.state = .opened) : closeUnit v s = accepted (stageUnit .manual v s) := by
  have hstate : unitIs s v .opened = true := by simp [unitIs, hu, hopen]
  rw [closeUnit, if_pos (show v < Config.unitCount from hv), if_pos hstate]

/-- Settles O51: each clause is the equation of its owner; what a pause, a resume and a retire write is
`pauseActive_spec`, `resumePaused_spec`, `retireBound_idle` and `retireBound_open`. -/
theorem streamRequests : Obligations.StreamRequests := by
  unfold Obligations.StreamRequests
  rintro s m _ hpart rfl
  have hbind : ∀ t, exec .streamBind t = request 10 (fun b =>
    bindStream (byteAt b 1) (readClass (byteAt b 2)) (readStreamFields b 3)) t := fun _ => rfl
  have hset : ∀ t, exec .streamSet t =
    request 11 (fun b => setStreamPolicy (byteAt b 1) (readStreamFields b 2)) t := fun _ => rfl
  have hpause : ∀ t, exec .streamPause t = request 12 (fun b => pauseStream (byteAt b 1)) t := fun _ => rfl
  have hresume : ∀ t, exec .streamResume t = request 13 (fun b => resumeStream (byteAt b 1)) t := fun _ => rfl
  have hretire : ∀ t, exec .streamRetire t = request 14 (fun b => retireStream (byteAt b 1)) t := fun _ => rfl
  have hclose : ∀ t, exec .unitClose t = request 15 (fun b => closeUnit (numAt b 1 2)) t := fun _ => rfl
  refine ⟨fun c f hwaits hclass hfields => ⟨fun hbad => ?_, fun hk hlow hhigh hlanes => ⟨fun hbusy => ?_, fun hfree => ?_⟩⟩,
    fun hwaits hunread => ?_, fun hwaits hunread => ?_, fun hk kind c hmem hwaits => ?_,
    fun f hwaits hfields => ⟨fun hbad => ?_, fun hk hlow hhigh hlanes => ⟨fun hstate => ?_, fun hstate => ?_⟩⟩,
    fun hk => ⟨fun hwaits => ⟨fun hstate => ?_, fun hstate => ?_, fun hstate => ?_⟩,
      fun hwaits => ⟨fun hstate => ?_, fun hstate => ?_, fun hstate => ?_⟩,
      fun hwaits => ⟨fun hstate => ?_, fun hstate => ?_, fun hstate => ?_⟩⟩,
    ?_⟩
  · rw [hbind]
    exact request_denied hwaits hpart (by rw [hclass, hfields]; exact bindStream_badField (streamFieldsOk_out hbad))
  · rw [hbind]
    exact request_denied hwaits hpart
      (by rw [hclass, hfields]; exact bindStream_busy (streamFieldsOk_of hk hlow hhigh hlanes) hbusy)
  · rw [hbind]
    exact request_accepted hwaits hpart
      (by rw [hclass, hfields]; exact bindStream_binds (streamFieldsOk_of hk hlow hhigh hlanes) hfree)
  · rw [hbind]
    exact request_denied hwaits hpart (bindStream_unread hunread)
  · rw [hset]
    exact request_denied hwaits hpart (by rw [hunread]; rfl)
  · simp only [List.mem_cons, Prod.mk.injEq, List.not_mem_nil, or_false] at hmem
    obtain ⟨rfl, rfl⟩ | ⟨rfl, rfl⟩ | ⟨rfl, rfl⟩ := hmem
    · rw [hpause]
      exact request_denied hwaits hpart (pauseStream_out hk)
    · rw [hresume]
      exact request_denied hwaits hpart (resumeStream_out hk)
    · rw [hretire]
      exact request_denied hwaits hpart (retireStream_out hk)
  · rw [hset]
    exact request_denied hwaits hpart (by rw [hfields]; exact setStreamPolicy_badField (streamFieldsOk_out hbad))
  · rw [hset]
    exact request_denied hwaits hpart
      (by rw [hfields]; exact setStreamPolicy_badState (streamFieldsOk_of hk hlow hhigh hlanes) hstate)
  · rw [hset]
    exact request_accepted hwaits hpart
      (by rw [hfields]; exact setStreamPolicy_sets (streamFieldsOk_of hk hlow hhigh hlanes) hstate)
  · obtain ⟨hstream, hunit, hrest⟩ := pauseActive_spec (byteAt m.body 1) (takeHead 5 .mgmt s)
    rw [hpause]
    refine ⟨_, request_accepted hwaits hpart (pauseStream_active (s := takeHead 5 .mgmt s) hk hstate),
      (hstream _).trans (if_pos rfl), fun v u ho hu => ?_, fun v ho => (hunit v).trans (if_neg ho),
      fun j hj => (hstream j).trans (if_neg (Ne.symm hj)), hrest⟩
    exact ((hunit v).trans (if_pos ho)).trans (congrArg (Option.map _) hu)
  · rw [hpause]
    exact request_accepted hwaits hpart (pauseStream_paused (s := takeHead 5 .mgmt s) hk hstate)
  · rw [hpause]
    exact request_denied hwaits hpart (pauseStream_badState (s := takeHead 5 .mgmt s) hk hstate)
  · obtain ⟨hstream, hunit, hrest⟩ := resumePaused_spec (byteAt m.body 1) (takeHead 5 .mgmt s)
    rw [hresume]
    refine ⟨_, request_accepted hwaits hpart (resumeStream_paused (s := takeHead 5 .mgmt s) hk hstate),
      (hstream _).trans (if_pos rfl), fun v u ho hu => ?_, fun v ho => (hunit v).trans (if_neg ho),
      fun j hj => (hstream j).trans (if_neg (Ne.symm hj)), hrest⟩
    exact ((hunit v).trans (if_pos ho)).trans (congrArg (Option.map _) hu)
  · rw [hresume]
    exact request_accepted hwaits hpart (resumeStream_active (s := takeHead 5 .mgmt s) hk hstate)
  · rw [hresume]
    exact request_denied hwaits hpart (resumeStream_badState (s := takeHead 5 .mgmt s) hk hstate)
  · rw [hretire]
    refine ⟨_, request_accepted hwaits hpart (retireStream_bound (s := takeHead 5 .mgmt s) hk hstate),
      fun ho => ?_, fun v u ho hv hu hopen => retireBound_open (s := takeHead 5 .mgmt s) ho hv hu hopen⟩
    obtain ⟨hstream, hrest⟩ := retireBound_idle (s := takeHead 5 .mgmt s) ho
    exact ⟨(hstream _).trans (if_pos rfl), fun j hj => (hstream j).trans (if_neg (Ne.symm hj)), hrest⟩
  · rw [hretire]
    exact request_accepted hwaits hpart (retireStream_retiring (s := takeHead 5 .mgmt s) hk hstate)
  · rw [hretire]
    exact request_denied hwaits hpart (retireStream_unbound (s := takeHead 5 .mgmt s) hk hstate)
  · rintro v hv hwaits
    rw [hclose]
    refine ⟨fun hout => ?_, fun hlt hclosed => ?_, fun u hlt hu hopen => ?_⟩
    · exact request_denied hwaits hpart (by rw [hv]; exact closeUnit_out hout)
    · exact request_denied hwaits hpart (by rw [hv]; exact closeUnit_notOpen hlt hclosed)
    · exact ⟨_, request_accepted hwaits hpart
        (by rw [hv]; exact closeUnit_open (s := takeHead 5 .mgmt s) hlt hu hopen),
        stageUnit_open (s := takeHead 5 .mgmt s) hu hopen⟩

/-! ### Slot Set, Lane Block and Lane Unblock (R103, R115) -/

section
variable {s : State} {g : Nat}

theorem setSlotRecord_ok {i d l : Nat} {b : Bool} (hi : i < 32) (hlow : 1 ≤ d) (hhigh : d ≤ 4) (hl : l < 8) :
    setSlotRecord i (some b) d l s = accepted (s.setSlot i { enabled := b, link := d, lane := l }) :=
  checked_holds _ _ (by simp [isDrain, hlow, hhigh, hl, show i < Config.slotCount from hi])

theorem setSlotRecord_bad {i d l : Nat} {enabled : Option Bool}
    (h : enabled = none ∨ 32 ≤ i ∨ d = 0 ∨ 4 < d ∨ 8 ≤ l) :
    setSlotRecord i enabled d l s = denied .badField s := by
  cases enabled with
  | none => rfl
  | some b =>
    have hcount : Config.slotCount = 32 := rfl
    refine checked_fails _ _ ?_
    have hout := h.resolve_left nofun
    rw [← Bool.not_eq_true]
    simp only [isDrain, Bool.and_eq_true, decide_eq_true_eq, hcount]
    omega

theorem blockLane_out (hg : 32 ≤ g) : blockLane g s = denied .badField s :=
  checked_fails _ _ (decide_eq_false (Nat.not_lt.2 hg))

/-- The state after a Lane Block of a lane within range (R115). -/
def blockedState (g : Nat) (s : State) : State :=
  if (s.lane g).state = .blocked then s else laneTo g .blocked s

theorem blockLane_in (hg : g < 32) : blockLane g s = accepted (blockedState g s) :=
  checked_holds _ _ (decide_eq_true hg)

theorem blockedState_up (hup : (s.lane g).state = .up) : blockedState g s = leaveUp g .blocked s := by
  rw [blockedState, if_neg (by rw [hup]; decide), laneTo, if_pos hup]

theorem blockedState_notUp (hup : (s.lane g).state ≠ .up) :
    (∀ j, (blockedState g s).lane j = if g = j then { s.lane g with state := .blocked } else s.lane j) ∧
      { blockedState g s with lanes := s.lanes } = s := by
  by_cases hblocked : (s.lane g).state = .blocked
  · rw [blockedState, if_pos hblocked]
    refine ⟨fun j => ?_, rfl⟩
    split
    · next h => rw [← hblocked, h]
    · rfl
  · rw [blockedState, if_neg hblocked, laneTo, if_neg hup]
    exact ⟨fun j => State.lane_setLane .., rfl⟩

/-- What a Lane Block does to the lanes, and what it leaves (R115, R116). -/
theorem blockedState_effect (g : Nat) (s : State) :
    (∀ j, j ≠ g → (blockedState g s).lane j = s.lane j) ∧
    ((s.lane g).state = .up →
      (blockedState g s).lane g = { s.lane g with state := .blocked, offer := none, inFlight := 0 }) ∧
    ((s.lane g).state ≠ .up →
      (blockedState g s).lane g = { s.lane g with state := .blocked } ∧ (blockedState g s).units = s.units) ∧
    { blockedState g s with units := s.units, lanes := s.lanes } = s := by
  by_cases hup : (s.lane g).state = .up
  · rw [blockedState_up hup]
    exact ⟨fun j hj => (lane_leaveUp g .blocked s j).trans (if_neg (Ne.symm hj)),
      fun _ => (lane_leaveUp g .blocked s g).trans (if_pos rfl), fun h => absurd hup h, leaveUp_frame g .blocked s⟩
  · obtain ⟨hlane, hrest⟩ := blockedState_notUp hup
    generalize blockedState g s = t at hlane hrest
    exact ⟨fun j hj => (hlane j).trans (if_neg (Ne.symm hj)), fun h => absurd h hup,
      fun _ => ⟨(hlane g).trans (if_pos rfl), (congrArg State.units hrest :)⟩,
      (congrArg (fun x : State => { x with units := s.units }) hrest :)⟩

theorem unblockLane_out (hg : 32 ≤ g) : unblockLane g s = denied .badField s := if_neg (Nat.not_lt.2 hg)

theorem unblockLane_blocked (hg : g < 32) (h : (s.lane g).state = .blocked) :
    unblockLane g s = accepted (s.setLane g { s.lane g with state := .down }) := by
  rw [unblockLane, if_pos (show g < Config.laneCount from hg), if_pos h]

theorem unblockLane_badState (hg : g < 32) (h : (s.lane g).state ≠ .blocked) :
    unblockLane g s = denied .badState s := by
  rw [unblockLane, if_pos (show g < Config.laneCount from hg), if_neg h]

end

/-! ### The faulted units (R131, R132) -/

section
variable {s : State} {v : Nat}

theorem faultedRequest_out (f : UnitRecord → State → State) (hv : 4096 ≤ v) :
    faultedRequest v f s = denied .badField s :=
  if_neg (Nat.not_lt.2 hv)

theorem faultedRequest_badState (f : UnitRecord → State → State) (hv : v < 4096)
    (h : ∀ u, s.unit? v = some u → u.state ≠ .faulted) : faultedRequest v f s = denied .badState s := by
  have hnone : (s.unit? v).filter (fun u => u.state == .faulted) = none :=
    Option.filter_eq_none_iff.2 fun u hu => by rw [beq_iff_eq]; exact h u hu
  simp only [faultedRequest, hnone]
  exact if_pos hv

/-- Between `s` and `t` FAULTED unit `v` has become `x` and has left the fault list. -/
structure FaultLeft (s t : State) (v : Nat) (x : UnitRecord) : Prop where
  unit : t.unit? v = some x
  units : ∀ j, j ≠ v → t.unit? j = s.unit? j
  faultList : t.faultList = s.faultList.filter (fun j => j ≠ v)

theorem restageFaulted_left (v : Nat) (u : UnitRecord) (s : State) :
    FaultLeft s (restageFaulted v u s) v { u with state := .staged, attempts := 0 } ∧
      (restageFaulted v u s).drainCount = s.drainCount + 1 ∧
      (restageFaulted v u s).safe = safeLevel (restageFaulted v u s) ∧
      (restageFaulted v u s).reportQueue = s.reportQueue := by
  obtain ⟨a, ha⟩ : ∃ a, a = (s.setFaultList (s.faultList.filter (· ≠ v))).setUnit v
      { u with state := .staged, attempts := 0 } := ⟨_, rfl⟩
  have hunit : ∀ j, a.unit? j =
      if v = j then some { u with state := .staged, attempts := 0 } else s.unit? j := by
    rw [ha]; exact fun j => State.unit?_setUnit _ _ _ _
  have hlist : a.faultList = s.faultList.filter (fun j => j ≠ v) := by rw [ha]; rfl
  have hcount : a.drainCount = s.drainCount := by rw [ha]; rfl
  have hreports : a.reportQueue = s.reportQueue := by rw [ha]; rfl
  have hrestage : restageFaulted v u s =
      evalSafe ((flushesAtRestage v a).setDrainCount ((flushesAtRestage v a).drainCount + 1)) := by rw [ha]; rfl
  rw [hrestage]
  clear hrestage ha
  have hflushes := flushesAtRestage_frame v a
  generalize flushesAtRestage v a = b at hflushes ⊢
  have hraised : { b.setDrainCount (b.drainCount + 1) with drainCount := b.drainCount } = b := rfl
  have hnext : (b.setDrainCount (b.drainCount + 1)).drainCount = s.drainCount + 1 :=
    congrArg (· + 1) ((congrArg State.drainCount hflushes :).trans hcount)
  generalize b.setDrainCount (b.drainCount + 1) = d at hraised hnext ⊢
  have hsafe := evalSafe_frame d
  have hunits : ∀ j, (evalSafe d).unit? j = a.unit? j := fun j => congrArg (Table.find? · j)
    ((congrArg State.units hsafe :).trans ((congrArg State.units hraised :).trans (congrArg State.units hflushes :)))
  refine ⟨⟨(hunits v).trans ((hunit v).trans (if_pos rfl)),
      fun j hj => (hunits j).trans ((hunit j).trans (if_neg (Ne.symm hj))), ?_⟩,
    (congrArg State.drainCount hsafe :).trans hnext, evalSafe_level d, ?_⟩
  · exact (congrArg State.faultList hsafe :).trans ((congrArg State.faultList hraised :).trans
      ((congrArg State.faultList hflushes :).trans hlist))
  · exact (congrArg State.reportQueue hsafe :).trans ((congrArg State.reportQueue hraised :).trans
      ((congrArg State.reportQueue hflushes :).trans hreports))

theorem discardFaulted_left (v : Nat) (u : UnitRecord) (s : State) :
    FaultLeft s (discardFaulted v u s) v { u with state := .releasing, discard := true } where
  unit := State.unit?_setUnit_same _ _ _
  units _ hj := (State.unit?_setUnit _ _ _ _).trans (if_neg (Ne.symm hj))
  faultList := rfl

theorem discardFaulted_keeps (v : Nat) (u : UnitRecord) (s : State) :
    (discardFaulted v u s).reportQueue = s.reportQueue ++ [{ unit := v, issued := false }] ∧
      (discardFaulted v u s).drainCount = s.drainCount ∧ (discardFaulted v u s).safe = s.safe ∧
      (discardFaulted v u s).events = s.events ∧ (discardFaulted v u s).alert = s.alert ∧
      (discardFaulted v u s).flushes = s.flushes := by
  unfold discardFaulted
  exact ⟨rfl, rfl, rfl, rfl, rfl, rfl⟩

end

/-- Settles O52. -/
theorem wheelAndFaultRequests : Obligations.WheelAndFaultRequests := by
  unfold Obligations.WheelAndFaultRequests
  intro s m hpart
  have hslot : ∀ t, exec .slotSet t = request 16 (fun b =>
    setSlotRecord (byteAt b 1) (flagAt b 2) (byteAt b 3) (byteAt b 4)) t := fun _ => rfl
  have hblock : ∀ t, exec .laneBlock t = request 17 (fun b => blockLane (byteAt b 1)) t := fun _ => rfl
  have hunblock : ∀ t, exec .laneUnblock t = request 18 (fun b => unblockLane (byteAt b 1)) t := fun _ => rfl
  have hrestage : ∀ t, exec .unitRestage t =
    request 19 (fun b => faultedRequest (numAt b 1 2) (restageFaulted (numAt b 1 2))) t := fun _ => rfl
  have hdiscard : ∀ t, exec .unitDiscard t =
    request 20 (fun b => faultedRequest (numAt b 1 2) (discardFaulted (numAt b 1 2))) t := fun _ => rfl
  refine ⟨fun hwaits => ⟨fun b hb hi hlow hhigh hl => ?_, fun hbad => ?_⟩, ?_, ?_, ?_⟩
  · rw [hslot]
    exact request_accepted hwaits hpart (by rw [hb]; exact setSlotRecord_ok hi hlow hhigh hl)
  · rw [hslot]
    exact request_denied hwaits hpart (setSlotRecord_bad hbad)
  · rintro _ rfl hwaits
    rw [hblock]
    refine ⟨fun hout => request_denied hwaits hpart (blockLane_out hout), fun hg => ?_⟩
    obtain ⟨hothers, hwasUp, hwasNot, hrest⟩ := blockedState_effect (byteAt m.body 1) (takeHead 5 .mgmt s)
    refine ⟨_, request_accepted hwaits hpart (blockLane_in hg), ?_, hothers, hwasUp, hwasNot, fun hup hs => ?_, hrest⟩
    · by_cases hup : (s.lane (byteAt m.body 1)).state = .up
      · rw [hwasUp hup]
      · rw [(hwasNot hup).1]
    · rw [blockedState_up (s := takeHead 5 .mgmt s) hup]
      exact leaveUp_units (byteAt m.body 1) .blocked (takeHead 5 .mgmt s) hs
  · rintro _ rfl hwaits
    rw [hunblock]
    exact ⟨fun hout => request_denied hwaits hpart (unblockLane_out hout),
      fun hg hblocked => request_accepted hwaits hpart (unblockLane_blocked (s := takeHead 5 .mgmt s) hg hblocked),
      fun hg hblocked => request_denied hwaits hpart (unblockLane_badState (s := takeHead 5 .mgmt s) hg hblocked)⟩
  · rintro _ kind c rfl (⟨rfl, rfl⟩ | ⟨rfl, rfl⟩) hwaits
    · rw [hrestage]
      refine ⟨fun hout => request_denied hwaits hpart (faultedRequest_out _ hout),
        fun hv hnone => request_denied hwaits hpart (faultedRequest_badState (s := takeHead 5 .mgmt s) _ hv hnone),
        fun u hv hu hstate => ?_⟩
      obtain ⟨F, hcount, hsafe, hreports⟩ := restageFaulted_left (numAt m.body 1 2) u (takeHead 5 .mgmt s)
      exact ⟨_, request_accepted hwaits hpart (faultedRequest_faulted (s := takeHead 5 .mgmt s) _ hv hu hstate),
        F.faultList, F.units, restageFaulted_frame _ u (takeHead 5 .mgmt s),
        fun _ => ⟨F.unit, hcount, hsafe, hreports⟩, nofun⟩
    · rw [hdiscard]
      refine ⟨fun hout => request_denied hwaits hpart (faultedRequest_out _ hout),
        fun hv hnone => request_denied hwaits hpart (faultedRequest_badState (s := takeHead 5 .mgmt s) _ hv hnone),
        fun u hv hu hstate => ?_⟩
      have F := discardFaulted_left (numAt m.body 1 2) u (takeHead 5 .mgmt s)
      exact ⟨_, request_accepted hwaits hpart (faultedRequest_faulted (s := takeHead 5 .mgmt s) _ hv hu hstate),
        F.faultList, F.units, discardFaulted_frame _ u (takeHead 5 .mgmt s), nofun,
        fun _ => ⟨F.unit, discardFaulted_keeps _ u (takeHead 5 .mgmt s)⟩⟩

end Sys2Proof.Machine
end


section
/-! SUPPORT. What Inspect returns for each target, and the event requests (R21, R178, R179). -/

namespace Sys2Proof.Machine

/-! ### The targets of Inspect (R178) -/

theorem inRange_lt {n bound : Nat} {r : InspectResult} (h : n < bound) : inRange n bound r = some r := if_pos h

theorem inRange_ge {n bound : Nat} {r : InspectResult} (h : bound ≤ n) : inRange n bound r = none :=
  if_neg (Nat.not_lt.2 h)

/-- Account 256 has no frozen flag, and its field reads clear (R23). -/
theorem inspectAccount_tenant {s : State} {n : Nat} (h : n < 256) :
    inspectAccount s n = .account (s.account n) := by
  have hfrozen : isFrozen s n = (s.account n).frozen := by
    rw [isFrozen, decide_eq_true (show n ≠ Config.reclaimAccount from Nat.ne_of_lt h), Bool.true_and]
  rw [inspectAccount, hfrozen]

theorem inspectGrant_live {s : State} {n : Nat} {v : Grant} (h : s.grant? n = some v) :
    inspectGrant s n = .grant (some v) (v.lapse - s.now) := by
  simp only [inspectGrant, h]

theorem inspectGrant_vacant {s : State} {n : Nat} (h : s.grant? n = none) : inspectGrant s n = .grant none 0 := by
  simp only [inspectGrant, h]

theorem inspectKey_found {s : State} {k : Key} {i : Nat} {way : Way} {v : Frame} (h : lookup s k = some (i, way))
    (hv : s.frame? way.frame = some v) : inspectKey s k = .key (indexHash k) (some (i, way.frame, v.record)) := by
  simp only [inspectKey, h, Option.bind_some, hv, Option.map_some]

theorem inspectKey_missing {s : State} {k : Key} (h : lookup s k = none) :
    inspectKey s k = .key (indexHash k) none := by
  simp only [inspectKey, h, Option.bind_none]

/-- The inbound channels of a link, with their queues (Table 9-1). -/
theorem linkChannels_intake (l : Link) :
    (linkChannels 0).map (fun c => (l.queue c).messages.length) =
      [l.intent, l.data, l.read].map (·.messages.length) := rfl

theorem linkChannels_drain {n : Nat} (hlow : 1 ≤ n) (hhigh : n ≤ 4) (l : Link) :
    (linkChannels n).map (fun c => (l.queue c).messages.length) =
      [l.control, l.reclaim, l.data].map (·.messages.length) := by
  rw [linkChannels, if_neg (by omega), if_pos (by simp [isDrain, hlow, hhigh])]
  rfl

theorem linkChannels_mgmt (l : Link) :
    (linkChannels 5).map (fun c => (l.queue c).messages.length) = [l.mgmt].map (·.messages.length) := rfl

theorem inspectLink_sizes {s : State} {n : Nat} {sizes : List ChannelQueue}
    (h : (linkChannels n).map (fun c => ((s.link n).queue c).messages.length) = sizes.map (·.messages.length)) :
    inspectLink s n = .link (s.link n).up (s.link n).taken (s.link n).sent (s.link n).refused (s.link n).resets
      (sizes.map (·.messages.length)) (s.link n).outbound.length (s.link n).overflow.length := by
  rw [← h]
  rfl

/-- The units listed as IN_FLIGHT on a lane (R135). -/
theorem mem_unitsInFlight_iff {s : State} {i : Nat} {v : UnitRecord} (g : Nat) (hs : Table.sorted s.units = true)
    (hv : s.unit? i = some v) : i ∈ unitsInFlight s g ↔ v.state = .inFlight ∧ v.lane = some g := by
  unfold unitsInFlight
  simp only [List.mem_map, List.mem_filter, Bool.and_eq_true, decide_eq_true_eq, beq_iff_eq]
  constructor
  · rintro ⟨⟨j, u⟩, ⟨hmem, hflies⟩, rfl⟩
    have hu : s.unit? j = some u := Table.find?_of_mem hs hmem
    rw [hu] at hv
    cases hv
    exact hflies
  · exact fun hflies => ⟨(i, v), ⟨Table.mem_of_find? hv, hflies⟩, rfl⟩

section
variable {b : List Byte} {s : State}

theorem inspectTarget_part (h : byteAt b 1 = 0) :
    inspectTarget b s = some (inspectPart s) := by
  simp only [inspectTarget, h]

theorem inspectTarget_account (h : byteAt b 1 = 1) :
    inspectTarget b s = inRange (numAt b 2 4) Config.accountCount (inspectAccount s (numAt b 2 4)) := by
  simp only [inspectTarget, h]

theorem inspectTarget_totals (h : byteAt b 1 = 2) :
    inspectTarget b s = some (inspectTotals s) := by
  simp only [inspectTarget, h]

theorem inspectTarget_tenant (h : byteAt b 1 = 3) :
    inspectTarget b s = inRange (numAt b 2 4) Config.tenantCount (.tenant (s.tenant (numAt b 2 4))) := by
  simp only [inspectTarget, h]

theorem inspectTarget_rule (h : byteAt b 1 = 4) :
    inspectTarget b s = inRange (numAt b 2 4) Config.ruleCount (.rule (s.rule (numAt b 2 4))) := by
  simp only [inspectTarget, h]

theorem inspectTarget_reclaimMap (h : byteAt b 1 = 5) :
    inspectTarget b s = some (.reclaimMap s.reclaimMap) := by
  simp only [inspectTarget, h]

theorem inspectTarget_capture (h : byteAt b 1 = 6) :
    inspectTarget b s = (flagAt b 2).map fun _ => .capture s.captures s.refusals := by
  simp only [inspectTarget, h]

theorem inspectTarget_grant (h : byteAt b 1 = 7) :
    inspectTarget b s = inRange (numAt b 2 4) Config.grantCount (inspectGrant s (numAt b 2 4)) := by
  simp only [inspectTarget, h]

theorem inspectTarget_pendingList (h : byteAt b 1 = 8) :
    inspectTarget b s = some (.pendingList s.waiting.length) := by
  simp only [inspectTarget, h]

theorem inspectTarget_pendingEntry (h : byteAt b 1 = 9) :
    inspectTarget b s = (s.waiting[numAt b 2 4]?).map .pendingEntry := by
  simp only [inspectTarget, h]

theorem inspectTarget_frame (h : byteAt b 1 = 10) :
    inspectTarget b s = inRange (numAt b 2 4) Config.frameCount (.frame ((s.frame? (numAt b 2 4)).map (·.record))) := by
  simp only [inspectTarget, h]

theorem inspectTarget_set (h : byteAt b 1 = 11) :
    inspectTarget b s = inRange (numAt b 2 4) Config.setCount (inspectSet s (numAt b 2 4)) := by
  simp only [inspectTarget, h]

theorem inspectTarget_key (h : byteAt b 1 = 12) :
    inspectTarget b s = inRange (numAt b 2 2) (Config.maxHandle + 1)
      (inspectKey s { handle := numAt b 2 2, lba := numAt b 4 5 }) := by
  simp only [inspectTarget, h]

theorem inspectTarget_store (h : byteAt b 1 = 13) :
    inspectTarget b s = some (inspectStore s) := by
  simp only [inspectTarget, h]

theorem inspectTarget_stream (h : byteAt b 1 = 14) :
    inspectTarget b s = inRange (numAt b 2 4) Config.streamCount (inspectStream s (numAt b 2 4)) := by
  simp only [inspectTarget, h]

theorem inspectTarget_unit (h : byteAt b 1 = 15) :
    inspectTarget b s = inRange (numAt b 2 4) Config.unitCount (.unit (s.unit? (numAt b 2 4)) s.cfg.unitSize) := by
  simp only [inspectTarget, h]

theorem inspectTarget_stagedQueue (h : byteAt b 1 = 16) :
    inspectTarget b s = some (.stagedQueue (stagedQueue s)) := by
  simp only [inspectTarget, h]

theorem inspectTarget_slot (h : byteAt b 1 = 17) :
    inspectTarget b s = inRange (numAt b 2 4) Config.slotCount (.slot (s.slot (numAt b 2 4))) := by
  simp only [inspectTarget, h]

theorem inspectTarget_wheel (h : byteAt b 1 = 18) :
    inspectTarget b s = some (.wheel s.wheelPos s.cfg.slotPeriod) := by
  simp only [inspectTarget, h]

theorem inspectTarget_lane (h : byteAt b 1 = 19) :
    inspectTarget b s = inRange (numAt b 2 4) Config.laneCount (inspectLane s (numAt b 2 4)) := by
  simp only [inspectTarget, h]

theorem inspectTarget_drain (h : byteAt b 1 = 20) :
    inspectTarget b s = if isDrain (numAt b 2 4) then some (inspectDrain s (numAt b 2 4)) else none := by
  simp only [inspectTarget, h]

theorem inspectTarget_faultList (h : byteAt b 1 = 21) :
    inspectTarget b s = some (.faultList s.faultList) := by
  simp only [inspectTarget, h]

theorem inspectTarget_reportQueue (h : byteAt b 1 = 22) :
    inspectTarget b s = some (.reportQueue s.reportQueue s.delivered) := by
  simp only [inspectTarget, h]

theorem inspectTarget_flushes (h : byteAt b 1 = 23) :
    inspectTarget b s = some (inspectFlushes s) := by
  simp only [inspectTarget, h]

theorem inspectTarget_powerFail (h : byteAt b 1 = 24) :
    inspectTarget b s = some (.powerFail s.drainCount s.safe s.entryState s.entryTime) := by
  simp only [inspectTarget, h]

theorem inspectTarget_link (h : byteAt b 1 = 25) :
    inspectTarget b s = inRange (numAt b 2 4) 6 (inspectLink s (numAt b 2 4)) := by
  simp only [inspectTarget, h]

theorem inspectTarget_events (h : byteAt b 1 = 26) :
    inspectTarget b s = some (.events (eventRecords s)) := by
  simp only [inspectTarget, h]

end

/-- A target code above 26 names no target (R178). -/
theorem inspectTarget_out {b : List Byte} {s : State} (h : 26 < byteAt b 1) : inspectTarget b s = none := by
  unfold inspectTarget
  dsimp only
  split
  iterate 27 · omega
  rfl

/-! ### The taking of an Inspect (R21, R178) -/

theorem takesCapture_iff (b : List Byte) : takesCapture b = true ↔ byteAt b 1 = 6 ∧ flagAt b 2 = some true := by
  rw [takesCapture, Bool.and_eq_true, beq_iff_eq, beq_iff_eq]

theorem inspectTarget_taken {b : List Byte} (s : State) (h : takesCapture b = true) :
    inspectTarget b s = some (.capture s.captures s.refusals) := by
  obtain ⟨hcode, htake⟩ := (takesCapture_iff b).1 h
  simp only [inspectTarget, hcode, htake, Option.map_some]

/-- A waiting Inspect is answered in every part state (R177, R178). -/
theorem exec_inspect {s : State} {m : Message} (hwaits : RequestWaits s 21 m) :
    exec .inspect s = .next (replyMgmt m.tag (inspectRequest m.body (takeHead 5 .mgmt s))) := by
  have htaken : takeRequest (· == 21) s = some m := hwaits.takeRequest (beq_self_eq_true 21)
  simp only [exec, execInspect, htaken]

theorem inspectRequest_some {b : List Byte} {s : State} {r : InspectResult} (h : inspectTarget b s = some r) :
    inspectRequest b s = answered r (if takesCapture b then { s with captures := [] } else s) := by
  simp only [inspectRequest, h]

theorem inspectRequest_none {b : List Byte} {s : State} (h : inspectTarget b s = none) :
    inspectRequest b s = denied .badField s := by
  simp only [inspectRequest, h]

theorem replyMgmt_answered (m : Message) (r : InspectResult) (t : State) :
    replyMgmt m.tag (answered r t) = answeredWith m .accepted (some r) t := rfl

/-! ### The event records (R179) -/

/-- A fold that writes the record of each number of a range writes each of them once. -/
theorem getD_foldl_range {α : Type} (d : α) (step : Table α → Nat → Table α) (f : Nat → α → α)
    (hstep : ∀ t i j, Table.getD d (step t i) j = if i = j then f i (Table.getD d t j) else Table.getD d t j)
    (n : Nat) (t : Table α) (j : Nat) :
    Table.getD d ((List.range n).foldl step t) j = if j < n then f j (Table.getD d t j) else Table.getD d t j := by
  induction n with
  | zero => exact (if_neg (Nat.not_lt_zero j)).symm
  | succ n ih =>
    rw [List.range_succ, List.foldl_append, List.foldl_cons, List.foldl_nil, hstep, ih]
    by_cases hlast : n = j
    · rw [if_pos hlast, if_neg (by omega), if_pos (by omega), hlast]
    · rw [if_neg hlast]
      by_cases hj : j < n
      · rw [if_pos hj, if_pos (by omega)]
      · rw [if_neg hj, if_neg (by omega)]

/-- Event Clear clears the flag of one named event (R179). -/
def clearFlag (named : Nat) (t : Table EventRecord) (i : Nat) : Table EventRecord :=
  if named.testBit i then Table.put EventRecord.reset t i { Table.getD EventRecord.reset t i with flag := false }
  else t

/-- Event Mask writes the mask of one event (R179). -/
def writeMask (named : Nat) (t : Table EventRecord) (i : Nat) : Table EventRecord :=
  Table.put EventRecord.reset t i { Table.getD EventRecord.reset t i with masked := named.testBit i }

theorem clearEvents_eq (named : Nat) (s : State) :
    clearEvents named s = s.setEvents ((List.range eventCount).foldl (clearFlag named) s.events) := rfl

theorem maskEvents_eq (named : Nat) (s : State) :
    maskEvents named s = s.setEvents ((List.range eventCount).foldl (writeMask named) s.events) := rfl

theorem event_setEvents (s : State) (q : Table EventRecord) (i : Nat) :
    (s.setEvents q).event i = Table.getD EventRecord.reset q i := rfl

theorem getD_clearFlag (named : Nat) (t : Table EventRecord) (i j : Nat) :
    Table.getD EventRecord.reset (clearFlag named t i) j =
      if i = j then
        { Table.getD EventRecord.reset t j with flag := (Table.getD EventRecord.reset t j).flag && !named.testBit i }
      else Table.getD EventRecord.reset t j := by
  unfold clearFlag
  by_cases hbit : named.testBit i = true
  · rw [if_pos hbit, Table.getD_put, hbit]
    by_cases hij : i = j
    · rw [if_pos hij, if_pos hij, hij, Bool.not_true, Bool.and_false]
    · rw [if_neg hij, if_neg hij]
  · rw [if_neg hbit, (Bool.not_eq_true _).mp hbit, Bool.not_false, Bool.and_true]
    exact (ite_self _).symm

theorem getD_writeMask (named : Nat) (t : Table EventRecord) (i j : Nat) :
    Table.getD EventRecord.reset (writeMask named t i) j =
      if i = j then { Table.getD EventRecord.reset t j with masked := named.testBit i }
      else Table.getD EventRecord.reset t j := by
  unfold writeMask
  rw [Table.getD_put]
  by_cases hij : i = j
  · rw [if_pos hij, if_pos hij, hij]
  · rw [if_neg hij, if_neg hij]

theorem event_clearEvents (named j : Nat) (s : State) :
    (clearEvents named s).event j =
      if j < 12 then { s.event j with flag := (s.event j).flag && !named.testBit j } else s.event j := by
  rw [clearEvents_eq, event_setEvents]
  exact getD_foldl_range EventRecord.reset (clearFlag named) (fun i x => { x with flag := x.flag && !named.testBit i })
    (getD_clearFlag named) eventCount s.events j

theorem event_maskEvents (named j : Nat) (s : State) :
    (maskEvents named s).event j =
      if j < 12 then { s.event j with masked := named.testBit j } else s.event j := by
  rw [maskEvents_eq, event_setEvents]
  exact getD_foldl_range EventRecord.reset (writeMask named) (fun i x => { x with masked := named.testBit i })
    (getD_writeMask named) eventCount s.events j

/-- The event requests write the event records and the line that follows them (R180). -/
theorem setEvents_frame (s : State) (q : Table EventRecord) :
    (s.setEvents q).alert = anyOpenFlag (s.setEvents q).events ∧
      { s.setEvents q with events := s.events, alert := s.alert } = s := ⟨rfl, rfl⟩

theorem eventSetOk_iff (named : Nat) : eventSetOk named = true ↔ named < 4096 := decide_eq_true_iff

theorem eventSetOk_out {named : Nat} (h : 4096 ≤ named) : eventSetOk named = false :=
  decide_eq_false (Nat.not_lt.2 h)

/-! ### The obligation -/

/-- Settles O53: the content of each target by its own equation, and the requests by the answers above. -/
theorem inspectAndEventRequests : Obligations.InspectAndEventRequests := by
  unfold Obligations.InspectAndEventRequests
  refine ⟨?_, fun s m => ⟨fun hwaits => ⟨fun r hr => ⟨fun hkeeps => ?_, fun htakes => ?_⟩, fun hnone => ?_⟩,
    fun hpart => ⟨fun hwaits => ?_, ?_⟩⟩⟩
  · rintro s b _ rfl
    refine ⟨fun h => ?_, fun h => ⟨fun hn => ?_, fun hn => ?_, fun hn => ?_⟩, fun h => ?_, fun h => ⟨fun hn => ?_, fun hn => ?_⟩,
      fun h => ⟨fun hn => ?_, fun hn => ?_⟩, fun h => ?_, fun h => ⟨fun take htake => ?_, fun htake => ?_⟩,
      fun h => ⟨fun v hn hv => ?_, fun hn hv => ?_, fun hn => ?_⟩, fun h => ?_,
      fun h => ⟨fun e he => ?_, fun hn => ?_⟩, fun h => ⟨fun v hn hv => ?_, fun hn hv => ?_, fun hn => ?_⟩,
      fun h => ⟨fun hn => ?_, fun hn => ?_⟩, ?_, fun h => ?_, fun h => ⟨fun hn => ?_, fun hn => ?_⟩,
      fun h => ⟨fun hn => ?_, fun hn => ?_⟩, fun h => ?_, fun h => ⟨fun hn => ?_, fun hn => ?_⟩, fun h => ?_,
      fun h => ⟨fun hn => ?_, fun hn => ?_⟩, fun h => ⟨fun hlow hhigh => ?_, fun hn => ?_⟩, fun h => ?_, fun h => ?_,
      fun h => ?_, fun h => ?_, fun h => ⟨fun sizes hn hintake hdrain hmgmt => ?_, fun hn => ?_⟩, fun h => ?_,
      inspectTarget_out, fun v i g => mem_unitsInFlight_iff g⟩
    · exact inspectTarget_part h
    · exact (inspectTarget_account h).trans
        ((inRange_lt (Nat.lt_succ_of_lt hn)).trans (congrArg some (inspectAccount_tenant hn)))
    · rw [inspectTarget_account h, hn]
      exact inRange_lt (Nat.lt_succ_self 256)
    · exact (inspectTarget_account h).trans (inRange_ge hn)
    · exact inspectTarget_totals h
    · exact (inspectTarget_tenant h).trans (inRange_lt hn)
    · exact (inspectTarget_tenant h).trans (inRange_ge hn)
    · exact (inspectTarget_rule h).trans (inRange_lt hn)
    · exact (inspectTarget_rule h).trans (inRange_ge hn)
    · exact inspectTarget_reclaimMap h
    · rw [inspectTarget_capture h, htake, Option.map_some]
    · rw [inspectTarget_capture h, htake, Option.map_none]
    · exact (inspectTarget_grant h).trans ((inRange_lt hn).trans (congrArg some (inspectGrant_live hv)))
    · exact (inspectTarget_grant h).trans ((inRange_lt hn).trans (congrArg some (inspectGrant_vacant hv)))
    · exact (inspectTarget_grant h).trans (inRange_ge hn)
    · exact inspectTarget_pendingList h
    · rw [inspectTarget_pendingEntry h, he, Option.map_some]
    · rw [inspectTarget_pendingEntry h, List.getElem?_eq_none hn, Option.map_none]
    · rw [inspectTarget_frame h, hv]
      exact inRange_lt hn
    · rw [inspectTarget_frame h, hv]
      exact inRange_lt hn
    · exact (inspectTarget_frame h).trans (inRange_ge hn)
    · exact (inspectTarget_set h).trans (inRange_lt hn)
    · exact (inspectTarget_set h).trans (inRange_ge hn)
    · rintro h k rfl
      rw [inspectTarget_key h]
      exact ⟨fun i way v hhandle hfound hv =>
          (inRange_lt (Nat.lt_succ_of_le hhandle)).trans (congrArg some (inspectKey_found hfound hv)),
        fun hhandle hmissing =>
          (inRange_lt (Nat.lt_succ_of_le hhandle)).trans (congrArg some (inspectKey_missing hmissing)),
        fun hhandle => inRange_ge hhandle⟩
    · exact inspectTarget_store h
    · exact (inspectTarget_stream h).trans (inRange_lt hn)
    · exact (inspectTarget_stream h).trans (inRange_ge hn)
    · exact (inspectTarget_unit h).trans (inRange_lt hn)
    · exact (inspectTarget_unit h).trans (inRange_ge hn)
    · exact inspectTarget_stagedQueue h
    · exact (inspectTarget_slot h).trans (inRange_lt hn)
    · exact (inspectTarget_slot h).trans (inRange_ge hn)
    · exact inspectTarget_wheel h
    · exact (inspectTarget_lane h).trans (inRange_lt hn)
    · exact (inspectTarget_lane h).trans (inRange_ge hn)
    · exact (inspectTarget_drain h).trans (if_pos (by simp [isDrain, hlow, hhigh]))
    · refine (inspectTarget_drain h).trans (if_neg ?_)
      rw [isDrain, Bool.and_eq_true, decide_eq_true_eq, decide_eq_true_eq]
      omega
    · exact inspectTarget_faultList h
    · exact inspectTarget_reportQueue h
    · exact inspectTarget_flushes h
    · exact inspectTarget_powerFail h
    · rw [inspectTarget_link h, inRange_lt (Nat.lt_succ_of_le hn)]
      refine congrArg some (inspectLink_sizes ?_)
      obtain hzero | hfive | ⟨hlow, hhigh⟩ : numAt b 2 4 = 0 ∨ numAt b 2 4 = 5 ∨ 1 ≤ numAt b 2 4 ∧ numAt b 2 4 ≤ 4 := by
        omega
      · rw [hintake hzero, hzero, linkChannels_intake]
      · rw [hmgmt hfive, hfive, linkChannels_mgmt]
      · rw [hdrain hlow hhigh, linkChannels_drain hlow hhigh]
    · exact (inspectTarget_link h).trans (inRange_ge hn)
    · exact inspectTarget_events h
  · rw [exec_inspect hwaits, inspectRequest_some hr, hkeeps, if_neg Bool.false_ne_true, replyMgmt_answered]
  · refine ⟨?_, ?_⟩
    · rw [inspectTarget_taken _ htakes] at hr
      exact (Option.some.inj hr).symm
    · rw [exec_inspect hwaits, inspectRequest_some hr, if_pos htakes, replyMgmt_answered]
  · rw [exec_inspect hwaits, inspectRequest_none hnone, replyMgmt_denied]
  · refine (request_waits (fun _ s => answered (.events (eventRecords s)) s) hwaits hpart).trans ?_
    rw [replyMgmt_answered]
    rfl
  · rintro named hnamed
    have hclear : ∀ t, exec .eventClear t = request 23 (fun b s =>
      checked (eventSetOk (numAt b 1 2)) (accepted (clearEvents (numAt b 1 2) s)) s) t := fun _ => rfl
    have hmask : ∀ t, exec .eventMask t = request 24 (fun b s =>
      checked (eventSetOk (numAt b 1 2)) (accepted (maskEvents (numAt b 1 2) s)) s) t := fun _ => rfl
    rw [hclear, hmask]
    refine ⟨fun hwaits hin => ?_, fun hwaits hin => ?_, fun hout => ⟨fun hwaits => ?_, fun hwaits => ?_⟩⟩
    · obtain ⟨halert, hrest⟩ := setEvents_frame (takeHead 5 .mgmt s)
        ((List.range eventCount).foldl (clearFlag named) (takeHead 5 .mgmt s).events)
      refine ⟨clearEvents named (takeHead 5 .mgmt s), request_accepted hwaits hpart ?_,
        fun i hi => (event_clearEvents ..).trans (if_pos hi),
        fun i hi => (event_clearEvents ..).trans (if_neg (Nat.not_lt.2 hi)), halert, hrest⟩
      rw [hnamed]
      exact checked_holds _ _ ((eventSetOk_iff named).2 hin)
    · obtain ⟨halert, hrest⟩ := setEvents_frame (takeHead 5 .mgmt s)
        ((List.range eventCount).foldl (writeMask named) (takeHead 5 .mgmt s).events)
      refine ⟨maskEvents named (takeHead 5 .mgmt s), request_accepted hwaits hpart ?_,
        fun i hi => (event_maskEvents ..).trans (if_pos hi),
        fun i hi => (event_maskEvents ..).trans (if_neg (Nat.not_lt.2 hi)), halert, hrest⟩
      rw [hnamed]
      exact checked_holds _ _ ((eventSetOk_iff named).2 hin)
    · exact request_denied hwaits hpart (by rw [hnamed]; exact checked_fails _ _ (eventSetOk_out hout))
    · exact request_denied hwaits hpart (by rw [hnamed]; exact checked_fails _ _ (eventSetOk_out hout))

end Sys2Proof.Machine
end
